-- ==== Sys2Proof/Word.lean ====
section
/-! DEFINITION. The widths the spec treats as bits, and the shape of a sparse table.

* A pixel and a control register are 32 bits, a command and a response word 64 (30_encoding.md R80, R81).
* `Sparse` is a table given by its entries that differ from what an unlisted index holds; the operations
  on it stand in `Machine/Ops.lean`. -/

namespace Sys2Proof

/-- Eight bits: a residual, one channel of a pixel, a map entry. -/
abbrev Byte := BitVec 8

/-- Thirty-two bits: a control register, a pixel, a pixel offset (10_state.md R24, 20_memory.md R61). -/
abbrev Word := BitVec 32

/-- A command word or a response word (30_encoding.md R80, R81). -/
abbrev CmdWord := BitVec 64

/-- A table indexed by natural numbers, as (index, value) pairs with indices strictly rising and no value
equal to the table's default. -/
abbrev Sparse (α : Type) := List (Nat × α)

end Sys2Proof
end

