-- ==== Sys2Proof/Syntax.lean ====
section
/-! DEFINITION. The commands, one constructor per row of spec/opcode_table.json, with the operands as the
row's fields give them (30_encoding.md R80 to R93). Fields whose every bit pattern has a meaning of its own
are inductive types; a field the spec range-checks at run time (a class, a context, a bit count) stays a
bit vector, because an out-of-range value is a `POLICY` fault and not an encoding error (R92). -/

namespace Sys2Proof

/-- The four chaos lanes (10_state.md R38). -/
inductive Lane where
  | y | u | v | a
deriving DecidableEq, Repr

/-- The two tile maps (30_encoding.md R90). -/
inductive Plane where
  | sf | cf
deriving DecidableEq, Repr

/-- The four row filters, codes 0 to 3 in this order (30_encoding.md R107). -/
inductive RowFilter where
  | noop | left | up | upLeft
deriving DecidableEq, Repr

/-- The 35 commands (30_encoding.md R93). -/
inductive Instr where
  | nop
  | sreset
  | csrw (a16 : BitVec 16) (value : Word)
  | csrr (a16 : BitVec 16)
  | putb (n : Byte) (value : Word)
  | getb (n : Byte)
  | eclr (all : Bool) (cls ctx : Byte)
  | add (auto : Bool) (cls ctx : Byte) (x sym : BitVec 16)
  | final (cls ctx : Byte)
  | wrtbl (cls ctx : Byte)
  | write (auto : Bool) (cls ctx : Byte) (x sym : BitVec 16)
  | rdtbl (cls ctx : Byte)
  | read (auto : Bool) (cls ctx : Byte) (x : BitVec 16)
  | chinit
  | chget (lane : Lane) (x : BitVec 16)
  | chput (lane : Lane) (r : Byte) (x : BitVec 16)
  | chzero (lanes : BitVec 4) (x : BitVec 16)
  | lzinit
  | lzins (off : Word)
  | lzfind (off : Word)
  | lzflush
  | lzrew
  | lzemit (cnt : Bool) (ctx : Byte) (off : Word)
  | lzread (k : Byte) (off : Word)
  | lzstep (off : Word)
  | tinit
  | tset (sf cf : Byte) (ty tx : BitVec 16)
  | tsel (msk : Bool) (y x : BitVec 16)
  | resid (expl : Bool) (sf cf : Byte) (y x : BitVec 16)
  | recon (expl : Bool) (sf cf : Byte) (y x : BitVec 16)
  | tsclr
  | tsacc (f : Byte)
  | tsbest (n : Byte)
  | tmres (rf : RowFilter) (plane : Plane) (ty tx : BitVec 16)
  | tmrec (rf : RowFilter) (plane : Plane) (r : Byte) (ty tx : BitVec 16)
deriving DecidableEq, Repr

end Sys2Proof
end

