-- ==== Sys2Proof/WellFormed.lean ====
section
/-! DEFINITION. The conditional zero fields of 30_encoding.md R92: a command whose flag makes a field
meaningless must hold zero in it. These are the only checks: every other operand field takes every value
(an out-of-range value is a `POLICY` fault of the command, not an encoding error). -/

namespace Sys2Proof

/-- Format S (R87): with `AUTO` the context field is zero, without it the column is zero. -/
def symFormOk (auto : Bool) (ctx : Byte) (x : BitVec 16) : Bool :=
  if auto then ctx == 0 else x == 0

/-- `ECLR` (R86): with `ALL` the class and the context are zero. -/
def allFormOk (all : Bool) (cls ctx : Byte) : Bool :=
  !all || (cls == 0 && ctx == 0)

/-- `RESID` and `RECON` (R90): without `EXPL` the two catalog indices are zero. -/
def explFormOk (expl : Bool) (sf cf : Byte) : Bool :=
  expl || (sf == 0 && cf == 0)

/-- A command the decoder can produce (R92). -/
def Instr.wf : Instr → Bool
  | .nop => true
  | .sreset => true
  | .csrw _ _ => true
  | .csrr _ => true
  | .putb _ _ => true
  | .getb _ => true
  | .eclr all cls ctx => allFormOk all cls ctx
  | .add auto _ ctx x _ => symFormOk auto ctx x
  | .final _ _ => true
  | .wrtbl _ _ => true
  | .write auto _ ctx x _ => symFormOk auto ctx x
  | .rdtbl _ _ => true
  | .read auto _ ctx x => symFormOk auto ctx x
  | .chinit => true
  | .chget _ _ => true
  | .chput _ _ _ => true
  | .chzero _ _ => true
  | .lzinit => true
  | .lzins _ => true
  | .lzfind _ => true
  | .lzflush => true
  | .lzrew => true
  | .lzemit _ _ _ => true
  | .lzread _ _ => true
  | .lzstep _ => true
  | .tinit => true
  | .tset _ _ _ _ => true
  | .tsel _ _ _ => true
  | .resid expl sf cf _ _ => explFormOk expl sf cf
  | .recon expl sf cf _ _ => explFormOk expl sf cf
  | .tsclr => true
  | .tsacc _ => true
  | .tsbest _ => true
  | .tmres _ _ _ _ => true
  | .tmrec _ _ _ _ _ => true

end Sys2Proof
end

