-- ==== Sys2Proof/Decode.lean ====
section
/-! DEFINITION. The decoder and the encoder of the 64-bit command word (30_encoding.md R80 to R93).

The decoder is total and rejects by name: an opcode R93 does not list, or a field that must be zero and is
not (R92). The encoder is written from the same tables. -/

namespace Sys2Proof

/-- Why a word is no command (R92, R94). -/
inductive DecodeError where
  /-- `OP` is not one of the 35 opcodes of R93. -/
  | undefinedOpcode (op : Byte)
  /-- A reserved field, or a conditional one, is not zero. -/
  | reservedField (op : Byte)
deriving DecidableEq, Repr

/-- `OP = C[63:56]` (R80). -/
def opOf (w : CmdWord) : Byte := w.extractLsb' 56 8
/-- `F = C[55:48]` (R80). -/
def flagsOf (w : CmdWord) : Byte := w.extractLsb' 48 8
/-- `CL = C[47:40]` (R80). -/
def clOf (w : CmdWord) : Byte := w.extractLsb' 40 8
/-- `CX = C[39:32]` (R80). -/
def cxOf (w : CmdWord) : Byte := w.extractLsb' 32 8
/-- `D = C[31:0]` (R80). -/
def dOf (w : CmdWord) : Word := w.extractLsb' 0 32
/-- `D[31:16]` (R87, R90). -/
def dHiOf (w : CmdWord) : BitVec 16 := w.extractLsb' 16 16
/-- `D[15:0]` (R87, R88, R90). -/
def dLoOf (w : CmdWord) : BitVec 16 := w.extractLsb' 0 16

/-- The word with the five fields (R80). -/
def packWord (op f cl cx : Byte) (d : Word) : CmdWord := op ++ f ++ cl ++ cx ++ d

/-- The flag byte with bit `k` equal to `b` and every other bit zero (R82). -/
def flagByte (k : Nat) (b : Bool) : Byte := if b then 1#8 <<< k else 0#8

/-- Flag bit of `AUTO` (R82). -/
def autoBit : Nat := 0
/-- Flag bit of `CNT` (R82). -/
def cntBit : Nat := 1
/-- Flag bit of `EXPL` (R82). -/
def explBit : Nat := 2
/-- Flag bit of `MSK` (R82). -/
def mskBit : Nat := 3
/-- Flag bit of `ALL` (R82). -/
def allBit : Nat := 4

/-- Lane numbers: 0 Y, 1 U, 2 V, 3 A (10_state.md R38). -/
def Lane.code : Lane → BitVec 2
  | .y => 0
  | .u => 1
  | .v => 2
  | .a => 3

/-- The lane with a number. -/
def Lane.ofCode (b : BitVec 2) : Lane :=
  match b.toNat with
  | 0 => .y
  | 1 => .u
  | 2 => .v
  | _ => .a

/-- Plane numbers: 0 SF map, 1 CF map (R90). -/
def Plane.code : Plane → BitVec 1
  | .sf => 0
  | .cf => 1

/-- The plane with a number. -/
def Plane.ofCode (b : BitVec 1) : Plane :=
  match b.toNat with
  | 0 => .sf
  | _ => .cf

/-- Row-filter codes (R107). -/
def RowFilter.code : RowFilter → BitVec 2
  | .noop => 0
  | .left => 1
  | .up => 2
  | .upLeft => 3

/-- The row filter with a code. -/
def RowFilter.ofCode (b : BitVec 2) : RowFilter :=
  match b.toNat with
  | 0 => .noop
  | 1 => .left
  | 2 => .up
  | _ => .upLeft

/-- The instruction if every field that must be zero is (the unconditional ones in `zero`, the conditional
ones in `Instr.wf`), else a rejection by name (R92). -/
def accept (zero : Bool) (w : CmdWord) (i : Instr) : Except DecodeError Instr :=
  if zero && i.wf then .ok i else .error (.reservedField (opOf w))

/-- Format Z (R83): every field zero. -/
def formZ (w : CmdWord) (i : Instr) : Except DecodeError Instr :=
  accept (flagsOf w == 0 && clOf w == 0 && cxOf w == 0 && dOf w == 0) w i

/-- Format S (R87): class, context, column and symbol, with the flag `AUTO`. -/
def formS (w : CmdWord) (i : Bool → Byte → Byte → BitVec 16 → BitVec 16 → Instr) :
    Except DecodeError Instr :=
  let auto := (flagsOf w).getLsbD autoBit
  accept (flagsOf w == flagByte autoBit auto) w (i auto (clOf w) (cxOf w) (dHiOf w) (dLoOf w))

/-- Format K without `ALL` (R86): class and context. -/
def formK (w : CmdWord) (i : Byte → Byte → Instr) : Except DecodeError Instr :=
  accept (flagsOf w == 0 && dOf w == 0) w (i (clOf w) (cxOf w))

/-- Format O with `F = CX = 0` (R89): a pixel offset. -/
def formO (w : CmdWord) (i : Word → Instr) : Except DecodeError Instr :=
  accept (flagsOf w == 0 && clOf w == 0 && cxOf w == 0) w (i (dOf w))

/-- Format A (R91): one operand in `CL`. -/
def formA (w : CmdWord) (i : Byte → Instr) : Except DecodeError Instr :=
  accept (flagsOf w == 0 && cxOf w == 0 && dOf w == 0) w (i (clOf w))

/-- Format T with `EXPL` (R90): catalog indices and a pixel position. -/
def formX (w : CmdWord) (i : Bool → Byte → Byte → BitVec 16 → BitVec 16 → Instr) :
    Except DecodeError Instr :=
  let expl := (flagsOf w).getLsbD explBit
  accept (flagsOf w == flagByte explBit expl) w (i expl (clOf w) (cxOf w) (dHiOf w) (dLoOf w))

/-- The command a word stands for, or why it stands for none (R92, R93). -/
def decode (w : CmdWord) : Except DecodeError Instr :=
  match (opOf w).toNat with
  | 0x00 => formZ w .nop
  | 0x01 => formZ w .sreset
  | 0x02 => accept (flagsOf w == 0) w (.csrw (w.extractLsb' 32 16) (dOf w))
  | 0x03 => accept (flagsOf w == 0 && dOf w == 0) w (.csrr (w.extractLsb' 32 16))
  | 0x04 => accept (flagsOf w == 0 && clOf w == 0) w (.putb (cxOf w) (dOf w))
  | 0x05 => accept (flagsOf w == 0 && clOf w == 0 && dOf w == 0) w (.getb (cxOf w))
  | 0x10 =>
    let all := (flagsOf w).getLsbD allBit
    accept (flagsOf w == flagByte allBit all && dOf w == 0) w (.eclr all (clOf w) (cxOf w))
  | 0x11 => formS w .add
  | 0x12 => formK w .final
  | 0x13 => formK w .wrtbl
  | 0x14 => formS w .write
  | 0x18 => formK w .rdtbl
  | 0x19 =>
    let auto := (flagsOf w).getLsbD autoBit
    accept (flagsOf w == flagByte autoBit auto && dLoOf w == 0) w
      (.read auto (clOf w) (cxOf w) (dHiOf w))
  | 0x20 => formZ w .chinit
  | 0x21 =>
    accept (flagsOf w == 0 && w.extractLsb' 42 6 == 0 && cxOf w == 0 && dHiOf w == 0) w
      (.chget (Lane.ofCode (w.extractLsb' 40 2)) (dLoOf w))
  | 0x22 =>
    accept (flagsOf w == 0 && w.extractLsb' 42 6 == 0 && cxOf w == 0 && w.extractLsb' 24 8 == 0) w
      (.chput (Lane.ofCode (w.extractLsb' 40 2)) (w.extractLsb' 16 8) (dLoOf w))
  | 0x23 =>
    accept (flagsOf w == 0 && w.extractLsb' 44 4 == 0 && cxOf w == 0 && dHiOf w == 0) w
      (.chzero (w.extractLsb' 40 4) (dLoOf w))
  | 0x30 => formZ w .lzinit
  | 0x31 => formO w .lzins
  | 0x32 => formO w .lzfind
  | 0x33 => formZ w .lzflush
  | 0x34 => formZ w .lzrew
  | 0x35 =>
    let cnt := (flagsOf w).getLsbD cntBit
    accept (flagsOf w == flagByte cntBit cnt && clOf w == 0) w (.lzemit cnt (cxOf w) (dOf w))
  | 0x36 => accept (flagsOf w == 0 && clOf w == 0) w (.lzread (cxOf w) (dOf w))
  | 0x37 => formO w .lzstep
  | 0x40 => formZ w .tinit
  | 0x41 => accept (flagsOf w == 0) w (.tset (clOf w) (cxOf w) (dHiOf w) (dLoOf w))
  | 0x42 =>
    let msk := (flagsOf w).getLsbD mskBit
    accept (flagsOf w == flagByte mskBit msk && clOf w == 0 && cxOf w == 0) w
      (.tsel msk (dHiOf w) (dLoOf w))
  | 0x44 => formX w .resid
  | 0x45 => formX w .recon
  | 0x46 => formZ w .tsclr
  | 0x47 => formA w .tsacc
  | 0x48 => formA w .tsbest
  | 0x49 =>
    accept (flagsOf w == 0 && w.extractLsb' 43 5 == 0 && cxOf w == 0) w
      (.tmres (RowFilter.ofCode (w.extractLsb' 41 2)) (Plane.ofCode (w.extractLsb' 40 1))
        (dHiOf w) (dLoOf w))
  | 0x4A =>
    accept (flagsOf w == 0 && w.extractLsb' 43 5 == 0) w
      (.tmrec (RowFilter.ofCode (w.extractLsb' 41 2)) (Plane.ofCode (w.extractLsb' 40 1)) (cxOf w)
        (dHiOf w) (dLoOf w))
  | _ => .error (.undefinedOpcode (opOf w))

/-- The word of format Z with an opcode (R83). -/
def wordZ (op : Byte) : CmdWord := packWord op 0 0 0 0

/-- The word of a command, from the same tables (R80 to R93). -/
def encode : Instr → CmdWord
  | .nop => wordZ 0x00
  | .sreset => wordZ 0x01
  | .csrw a16 value => packWord 0x02 0 (a16.extractLsb' 8 8) (a16.extractLsb' 0 8) value
  | .csrr a16 => packWord 0x03 0 (a16.extractLsb' 8 8) (a16.extractLsb' 0 8) 0
  | .putb n value => packWord 0x04 0 0 n value
  | .getb n => packWord 0x05 0 0 n 0
  | .eclr all cls ctx => packWord 0x10 (flagByte allBit all) cls ctx 0
  | .add auto cls ctx x sym => packWord 0x11 (flagByte autoBit auto) cls ctx (x ++ sym)
  | .final cls ctx => packWord 0x12 0 cls ctx 0
  | .wrtbl cls ctx => packWord 0x13 0 cls ctx 0
  | .write auto cls ctx x sym => packWord 0x14 (flagByte autoBit auto) cls ctx (x ++ sym)
  | .rdtbl cls ctx => packWord 0x18 0 cls ctx 0
  | .read auto cls ctx x => packWord 0x19 (flagByte autoBit auto) cls ctx (x ++ 0#16)
  | .chinit => wordZ 0x20
  | .chget lane x => packWord 0x21 0 (0#6 ++ lane.code) 0 (0#16 ++ x)
  | .chput lane r x => packWord 0x22 0 (0#6 ++ lane.code) 0 (0#8 ++ r ++ x)
  | .chzero lanes x => packWord 0x23 0 (0#4 ++ lanes) 0 (0#16 ++ x)
  | .lzinit => wordZ 0x30
  | .lzins off => packWord 0x31 0 0 0 off
  | .lzfind off => packWord 0x32 0 0 0 off
  | .lzflush => wordZ 0x33
  | .lzrew => wordZ 0x34
  | .lzemit cnt ctx off => packWord 0x35 (flagByte cntBit cnt) 0 ctx off
  | .lzread k off => packWord 0x36 0 0 k off
  | .lzstep off => packWord 0x37 0 0 0 off
  | .tinit => wordZ 0x40
  | .tset sf cf ty tx => packWord 0x41 0 sf cf (ty ++ tx)
  | .tsel msk y x => packWord 0x42 (flagByte mskBit msk) 0 0 (y ++ x)
  | .resid expl sf cf y x => packWord 0x44 (flagByte explBit expl) sf cf (y ++ x)
  | .recon expl sf cf y x => packWord 0x45 (flagByte explBit expl) sf cf (y ++ x)
  | .tsclr => wordZ 0x46
  | .tsacc f => packWord 0x47 0 f 0 0
  | .tsbest n => packWord 0x48 0 n 0 0
  | .tmres rf plane ty tx => packWord 0x49 0 (0#5 ++ rf.code ++ plane.code) 0 (ty ++ tx)
  | .tmrec rf plane r ty tx => packWord 0x4A 0 (0#5 ++ rf.code ++ plane.code) r (ty ++ tx)

/-- The instruction the decoder reads from the `nbits` low bits of `w` (bit 0 least significant). A command
word is a number on a port and has no byte order (20_memory.md R68). -/
def decodeTableWord (nbits w : Nat) : Option Instr :=
  match decode (BitVec.ofNat 64 (w % 2 ^ nbits)) with
  | .ok i => some i
  | .error _ => none

end Sys2Proof
end

