-- ==== Sys2Proof/Config.lean ====
section
/-! DEFINITION. What the spec fixes as constants, what it takes as parameters, and the free values.

* The constants of 00_scope.md R8 and R9.
* `Params`: the parameters P1 to P7 of 93_implementation_defined.md. Operations take a `Params`; the
  instance with this spec's defaults is `Machine/Params.lean` (log 10).
* The free values: `opaque` constants with no body, for what 60_exceptions.md R264 leaves unspecified. -/

namespace Sys2Proof.Config

/-- "a dedicated sub-alphabet of ZRLE_SYMS (128) symbols" (R8). -/
def zrleSyms : Nat := 128
/-- Runs of 1 to 96 zeros have a run symbol each (R9, D8). -/
def zrleDirect : Nat := 96
/-- Twelve escape symbols in the Y alphabet (R9, D10). -/
def escapeSyms : Nat := 12
/-- The longest code word (R9, D6). -/
def maxCodeLen : Nat := 16
/-- The LZ window in pixels (R8). -/
def winSize : Nat := 1048576
/-- The longest match in pixels (R8). -/
def maxMatch : Nat := 4096
/-- The shortest match in pixels (R8). -/
def minMatch : Nat := 2
/-- `MASK_TILE` (R9, D17). -/
def maskTile : Byte := 255
/-- `TODO_TILE` (R9, D17). -/
def todoTile : Byte := 254
/-- `NONE`, the mark of an empty hash bucket or chain link (10_state.md R40). -/
def noneMark : Word := 0xFFFFFFFF
/-- The identification word, ASCII "GCIF" (R1). -/
def idWord : Word := 0x47434946

/-- The R, G, B part of a pixel, or a Y, U, V triple: three bytes (45_tile_filter.md R228, R231). -/
structure Rgb where
  r : Byte
  g : Byte
  b : Byte
deriving DecidableEq, Repr, Inhabited

/-- The four neighbours a spatial filter reads: left `a`, up `b`, up-left `c`, up-right `d` (R228). -/
structure Nbrs where
  a : Rgb
  b : Rgb
  c : Rgb
  d : Rgb
deriving DecidableEq, Repr, Inhabited

/-- The two ways a table codec may fail (42_entropy_decoder.md R162). -/
inductive TblError where
  | truncated
  | badCodelen
deriving DecidableEq, Repr

/-- The parameters of the model (00_scope.md R9, R10; 93_implementation_defined.md P1 to P7). -/
structure Params where
  /-- P1, `SCORE[0..255]` (43_chaos.md R176). -/
  score : Byte → Byte
  /-- P2, `CHAOS_MAP[row][sum]` with row `L - 1` (43_chaos.md R177). -/
  chaosMap : Nat → Nat → Nat
  /-- P3, `SF_COUNT` (45_tile_filter.md R229). -/
  sfCount : Nat
  /-- P3, `SF_FN`. -/
  sfFn : Nat → Nbrs → Rgb
  /-- P4, `CF_COUNT` (45_tile_filter.md R231). -/
  cfCount : Nat
  /-- P4, `CF_FWD`. -/
  cfFwd : Nat → Rgb → Rgb
  /-- P4, `CF_INV`. -/
  cfInv : Nat → Rgb → Rgb
  /-- P5, `TblEnc`: the bits a vector of lengths is written as (41_entropy_encoder.md R144). -/
  tblEnc : List (BitVec 5) → List Bool
  /-- P5, `TblDec`: the vector of `ALPHA` lengths at the front of a stream, and the rest of the stream
  (42_entropy_decoder.md R161). What R144 and R162 ask of the pair is `CodecConforms` in Safety.lean. -/
  tblDec : Nat → List Bool → Except TblError (List (BitVec 5) × List Bool)
  /-- P6, the hash multiplier `K` (44_lz.md R193). -/
  hashK : CmdWord
  /-- P7, `RUNLIST_CAP` (20_memory.md R77). -/
  runListCap : Nat
  /-- P7, `MLIST_CAP`. -/
  mListCap : Nat
  /-- P7, `MAXTILES`. -/
  maxTiles : Nat

/-- FREE VALUE (60_exceptions.md R264, log 5): the bits a faulting command that writes `BW` may have
appended, for the `n`-th fault. -/
opaque bwAfterFault : Nat → List Bool

/-- FREE VALUE (R264, log 5): how many bits a faulting command that reads `BR` may have taken. -/
opaque brAfterFault : Nat → Nat

/-- FREE VALUE (R264, log 6): whether a faulting command that writes `PIX` wrote its pixel, and what. -/
opaque pixAfterFault : Nat → Option Word

end Sys2Proof.Config
end

