-- ==== Sys2Proof/Machine/State.lean ====
section
/-! DEFINITION. The whole state, plain data (10_state.md), and the machine right after reset.

`State` has four parts: what stands outside the block and is reached through ports (20_memory.md R60), the
fault record and command counter, the registers `CSRW` can write, and `Work`, which is all that
60_exceptions.md R264 leaves unspecified after a fault. -/

namespace Sys2Proof.Machine

/-- The causes of 60_exceptions.md R261. A raised cause is taken as the block's fault entry (R263): it is a
next state of the model, not an outcome `fault`. -/
inductive Cause where
  /-- Fewer input bits left than asked for (code 1). -/
  | truncated
  /-- A table that is no set of code lengths (code 2). -/
  | badCodelen
  /-- Bits that match no code word, or a zero run above 2^32 - 1 (code 3). -/
  | badSymbol
  /-- An LZ sequence that breaks a match invariant (code 4). -/
  | badLz
  /-- A map value, catalog index or tile-map residual out of range (code 5). -/
  | filterRange
  /-- A capacity exceeded (code 6). -/
  | resource
  /-- A defined operand or register value out of its legal range (code 7). -/
  | policy
  /-- An undefined opcode or register, or a non-zero reserved field (code 8). -/
  | illegalCmd
  /-- A command in a state that does not allow it (code 9). -/
  | sequence
deriving DecidableEq, Repr

/-- The one way the model itself stops. Raised by the commands that read `PIX`. -/
inductive Fault where
  /-- A command read a pixel that neither the host nor an earlier command has written. The spec asks for
  this stop: "a model must treat a read of it as a fault of the model (refusal), not as zero"
  (20_memory.md R63, U11). Safe: the hardware goes on with some value (log 7). -/
  | pixelNeverWritten (off : Nat)
deriving DecidableEq, Repr

/-- Instructions without a meaning; none is left. -/
inductive Refusal where
  /-- Raised by an arm of `exec` whose instruction has no meaning yet. Safe. -/
  | notModelled (mnemonic : String)
deriving DecidableEq, Repr

/-- The pixel memory `PIX` as bytes: pixel `off` has its R, G, B, A at byte addresses `4*off` to `4*off+3`
(20_memory.md R61). Canonical form: addresses strictly rising. An unlisted address has no value (log 7). -/
abbrev Memory := List Host.Cell

/-- The phase of a coder slot (10_state.md R31). -/
inductive Phase where
  | idle | count | ready | decode
deriving DecidableEq, Repr, Inhabited

/-- One coder slot (10_state.md R31). `runList` holds the `RL_WR` valid entries of `RUNLIST`, so `RL_WR` is
its length (log 14). The defaults of the tables are 0. -/
structure Slot where
  phase : Phase
  ns : BitVec 9
  hist : Sparse Word
  len : Sparse (BitVec 5)
  code : Sparse (BitVec 16)
  zrun : Word
  runList : List Word
  rlRd : Word
  nadd : Word
  nwr : Word
deriving DecidableEq, Repr, Inhabited

/-- An IDLE slot as reset leaves it; its other fields are unspecified and never read (R34, log 8). -/
def Slot.idle : Slot :=
  { phase := .idle, ns := 0, hist := [], len := [], code := [], zrun := 0, runList := [], rlRd := 0,
    nadd := 0, nwr := 0 }

/-- The chaos unit: `CH_RDY`, `CH_W` and `ROW`, default 0, lane `l` column `i` at index
`65536 * l + i` (10_state.md R38). -/
structure Chaos where
  rdy : Bool
  w : BitVec 16
  row : Sparse Byte
deriving DecidableEq, Repr, Inhabited

/-- One entry of `MLIST` (10_state.md R41). -/
structure Match where
  off : Word
  dist : Word
  len : Word
deriving DecidableEq, Repr, Inhabited

/-- The LZ unit (10_state.md R40 to R45). `HEAD` and `CHAIN` have default `NONE`; `LZ_NMATCH` is the length of
`mlist` (log 14). -/
structure Lz where
  rdy : Bool
  n : Word
  head : Sparse Word
  chain : Sparse Word
  mlist : List Match
  rdIdx : Word
  coverEnd : Word
  pend : Bool
  pOff : Word
  pDist : Word
  pLen : Word
  pSave : Word
  runDist : Word
  runLeft : Word
  runNext : Word
deriving DecidableEq, Repr, Inhabited

/-- The tile unit (10_state.md R46 to R51). The maps have default `TODO_TILE`, `SEEN` default false, `ACC`
default 0. -/
structure Tile where
  rdy : Bool
  w : BitVec 16
  h : BitVec 16
  b : BitVec 4
  tx : BitVec 16
  ty : BitVec 16
  sfMap : Sparse Byte
  cfMap : Sparse Byte
  seen : Sparse Bool
  acc : Sparse Word
  res : Word
deriving DecidableEq, Repr, Inhabited

/-- All the state that 60_exceptions.md R264 leaves unspecified after a fault. `slots` holds the slot of
class `c` and context `k` at index `32 * c + k`, default `Slot.idle` (10_state.md R30). -/
structure Work where
  bwCount : Word
  brCount : Word
  hsat : Bool
  slots : Sparse Slot
  ch : Chaos
  lz : Lz
  tile : Tile
deriving DecidableEq, Repr, Inhabited

/-- The registers `CSRW` can write (10_state.md R24): the configuration, `SLOT_SEL`, `REC_IN` and the two
subset tables, default 0. -/
structure Cfg where
  imgW : BitVec 16
  imgH : BitVec 16
  tileBits : BitVec 4
  lYuv : BitVec 6
  lA : BitVec 6
  lSf : BitVec 6
  lCf : BitVec 6
  nsf : BitVec 8
  ncf : BitVec 6
  chainLimit : BitVec 16
  lenPrefixCost : BitVec 8
  distPrefixCost : BitVec 8
  savedPixelBits : BitVec 8
  slotSel : BitVec 11
  recIn : Word
  sfSel : Sparse (BitVec 7)
  cfSel : Sparse (BitVec 5)
deriving DecidableEq, Repr

/-- What the host may do between commands (00_scope.md R14; log 1, log 16). -/
inductive HostEvent where
  /-- Present a command word on the command port (30_encoding.md R80). -/
  | command (w : CmdWord)
  /-- Write a pixel of `PIX` (20_memory.md R63). -/
  | writePixel (off p : Word)
  /-- Hand over an input bit stream in place of the one before (20_memory.md R64, 70_reset_and_hazards.md R281). -/
  | newInput (bits : List Bool)
  /-- Take the output bit stream away; the next starts empty (R64, R281). -/
  | newOutput
  /-- Assert the hardware reset input (70_reset_and_hazards.md R280). -/
  | hardReset
deriving DecidableEq, Repr

/-- The state. Outside the block: the host's queue, the number of commands it has presented
(10_state.md R22), the last response (30_encoding.md R81), `PIX`, the bits appended to `BW` so far, the bits
left in `BR`. `faultNo` is the MODEL's own counter that numbers the free values of a fault (log 4). -/
structure State where
  inbox : List HostEvent
  hostPos : Nat
  rsp : Option CmdWord
  pix : Memory
  bw : List Bool
  br : List Bool
  faultNo : Nat
  err : Bool
  errCause : BitVec 4
  errCmdHi : Word
  errCmdLo : Word
  cmdcnt : Word
  cfg : Cfg
  work : Work
deriving DecidableEq, Repr

/-- Reset values of the registers `CSRW` can write (10_state.md R24). -/
def Cfg.reset : Cfg :=
  { imgW := 1, imgH := 1, tileBits := 8, lYuv := 1, lA := 1, lSf := 1, lCf := 1, nsf := 1, ncf := 1,
    chainLimit := 32, lenPrefixCost := 8, distPrefixCost := 5, savedPixelBits := 0, slotSel := 0,
    recIn := 0, sfSel := [], cfSel := [] }

/-- Reset values of the rest (10_state.md R24, R52); the gated memories hold the values of log 8. -/
def Work.reset : Work :=
  { bwCount := 0, brCount := 0, hsat := false, slots := [],
    ch := { rdy := false, w := 0, row := [] },
    lz := { rdy := false, n := 0, head := [], chain := [], mlist := [], rdIdx := 0, coverEnd := 0,
            pend := false, pOff := 0, pDist := 0, pLen := 0, pSave := 0, runDist := 0, runLeft := 0,
            runNext := 0 },
    tile := { rdy := false, w := 0, h := 0, b := 0, tx := 0, ty := 0, sfMap := [], cfMap := [],
              seen := [], acc := [], res := 0 } }

/-- The machine right after reset (10_state.md R52): nothing pending, nothing answered, nothing written to
`PIX`, both streams empty (log 1, log 3, log 9). -/
def State.reset : State :=
  { inbox := [], hostPos := 0, rsp := none, pix := [], bw := [], br := [], faultNo := 0,
    err := false, errCause := 0, errCmdHi := 0, errCmdLo := 0, cmdcnt := 0,
    cfg := Cfg.reset, work := Work.reset }

end Sys2Proof.Machine

/-- FREE VALUE (60_exceptions.md R264, log 4): everything of the block that is unspecified after the `n`-th
fault. It has no body, so no proof can rest on any of it. -/
opaque Sys2Proof.Config.workAfterFault : Nat → Sys2Proof.Machine.Work
end

