-- ==== Sys2Proof/Machine/Ops.lean ====
section
/-! DEFINITION. The operations every command is written with: sparse tables, the pixel memory, the two bit
streams, the order of checks, and how a command ends (normally, with a fault, refused) or the block is reset. -/

namespace Sys2Proof.Machine

/-! ### Numbers (00_scope.md R11) -/

/-- `floor_log2(n)` for `n ≥ 1` (R11). -/
def floorLog2 (n : Nat) : Nat := n.log2

/-- `bitlen(n)`: 0 for 0, else `floor_log2(n) + 1` (R11). -/
def bitlen (n : Nat) : Nat := if n = 0 then 0 else floorLog2 n + 1

/-- The largest 32-bit number. -/
def maxWord : Nat := 4294967295

/-- `sat32` (R11), as a register value. -/
def sat32 (n : Nat) : Word := BitVec.ofNat 32 (min n maxWord)

/-! ### Sparse tables -/

/-- The entry at an index; the default `d` where none is listed. -/
def Sparse.get {α : Type} (d : α) : Sparse α → Nat → α
  | [], _ => d
  | e :: m, a => if e.1 = a then e.2 else Sparse.get d m a

/-- The table with an index unlisted. -/
def Sparse.erase {α : Type} (m : Sparse α) (a : Nat) : Sparse α := m.filter (fun e => e.1 != a)

/-- The table with a new entry put in its place in the order. -/
def Sparse.insert {α : Type} : Sparse α → Nat → α → Sparse α
  | [], a, v => [(a, v)]
  | e :: m, a, v => if a < e.1 then (a, v) :: e :: m else e :: Sparse.insert m a v

/-- The table with index `a` holding `v`; writing the default unlists the index. -/
def Sparse.set {α : Type} [DecidableEq α] (d : α) (m : Sparse α) (a : Nat) (v : α) : Sparse α :=
  if v = d then Sparse.erase m a else Sparse.insert (Sparse.erase m a) a v

/-- Every listed index is above `lo`, indices rise strictly, and no listed value is the default. -/
def Sparse.wfFrom {α : Type} [DecidableEq α] (d : α) : Nat → Sparse α → Bool
  | _, [] => true
  | lo, e :: m => decide (lo ≤ e.1) && decide (e.2 ≠ d) && Sparse.wfFrom d (e.1 + 1) m

/-- The canonical form of a sparse table. -/
def Sparse.wf {α : Type} [DecidableEq α] (d : α) (m : Sparse α) : Bool := Sparse.wfFrom d 0 m

/-- The table whose indices from `start` on hold the listed values. -/
def Sparse.ofList {α : Type} [DecidableEq α] (d : α) : Nat → List α → Sparse α
  | _, [] => []
  | start, v :: vs =>
    if v = d then Sparse.ofList d (start + 1) vs else (start, v) :: Sparse.ofList d (start + 1) vs

/-- The first `n` entries as a list. -/
def Sparse.toList {α : Type} (d : α) (m : Sparse α) (n : Nat) : List α :=
  (List.range n).map (Sparse.get d m)

/-! ### The pixel memory (20_memory.md R61 to R63) -/

/-- The byte at an address, `none` where nothing has been written. -/
def Memory.readByte : Memory → Nat → Option Byte
  | [], _ => none
  | c :: m, a => if c.1 = a then some c.2 else Memory.readByte m a

/-- The memory with one byte stored. -/
def Memory.writeByte : Memory → Nat → Byte → Memory
  | [], a, v => [(a, v)]
  | c :: m, a, v =>
    if a < c.1 then (a, v) :: c :: m else if a = c.1 then (a, v) :: m else c :: Memory.writeByte m a v

/-- Every listed address is at or above `lo` and addresses rise strictly. -/
def Memory.wfFrom : Nat → Memory → Bool
  | _, [] => true
  | lo, c :: m => decide (lo ≤ c.1) && Memory.wfFrom (c.1 + 1) m

/-- The canonical form: addresses strictly rising. An unlisted address has no value, so no listed byte can
equal what an unlisted address reads as. -/
def Memory.wf (m : Memory) : Bool := Memory.wfFrom 0 m

/-- The 32-bit pixel at a pixel offset: R in bits 7:0, G in 15:8, B in 23:16, A in 31:24 (R61). -/
def Memory.readPixel (m : Memory) (off : Nat) : Option Word :=
  match m.readByte (4 * off), m.readByte (4 * off + 1), m.readByte (4 * off + 2),
      m.readByte (4 * off + 3) with
  | some r, some g, some b, some a => some (a ++ b ++ g ++ r)
  | _, _, _, _ => none

/-- Store the four bytes of a pixel at a pixel offset (R62). -/
def Memory.writePixel (m : Memory) (off : Nat) (p : Word) : Memory :=
  (((m.writeByte (4 * off) (p.extractLsb' 0 8)).writeByte (4 * off + 1) (p.extractLsb' 8 8)).writeByte
    (4 * off + 2) (p.extractLsb' 16 8)).writeByte (4 * off + 3) (p.extractLsb' 24 8)

/-! ### How a command's pseudocode runs (00_scope.md R13) -/

/-- Why a command's pseudocode ended early: a raised cause, or the model's own fault. -/
inductive Stop where
  | raise (c : Cause)
  | model (f : Fault)
deriving DecidableEq, Repr

/-- A command's pseudocode, run top to bottom: the first stop reached ends it (R13). -/
abbrev Exec (α : Type) := Except Stop α

/-- `raise Fault(c)` (00_scope.md R12). -/
def raise {α : Type} (c : Cause) : Exec α := .error (.raise c)

/-- `if bad: raise Fault(c)`. -/
def check (bad : Prop) [Decidable bad] (c : Cause) : Exec Unit := if bad then raise c else .ok ()

/-! ### Bit streams (20_memory.md R65, R66) -/

/-- The `n` low bits of `v`, bit `n - 1` first (R65). -/
def msbBits : Nat → Nat → List Bool
  | 0, _ => []
  | n + 1, v => v.testBit n :: msbBits n v

/-- Take `n` bits off the front of a stream, first bit most significant, on top of the bits `acc` taken
before; `none` when the stream is too short (R66). -/
def takeBits : Nat → Nat → List Bool → Option (Nat × List Bool)
  | 0, acc, bs => some (acc, bs)
  | _ + 1, _, [] => none
  | n + 1, acc, b :: bs => takeBits n (2 * acc + b.toNat) bs

/-- Append bits to `BW` and count them modulo 2^32 (R65). -/
def State.appendBits (s : State) (bits : List Bool) : State :=
  { s with bw := s.bw ++ bits, work.bwCount := s.work.bwCount + BitVec.ofNat 32 bits.length }

/-- `WriteBits(v, n)` (00_scope.md R12, R65). -/
def State.writeBits (s : State) (v n : Nat) : State := s.appendBits (msbBits n v)

/-- The state with `rest` left in `BR` after `n` bits have been taken (R66). -/
def State.consumed (s : State) (n : Nat) (rest : List Bool) : State :=
  { s with br := rest, work.brCount := s.work.brCount + BitVec.ofNat 32 n }

/-- `ReadBits(n)` (00_scope.md R12, R66). -/
def State.readBits (s : State) (n : Nat) : Exec (Nat × State) :=
  match takeBits n 0 s.br with
  | some (v, rest) => .ok (v, s.consumed n rest)
  | none => raise .truncated

/-- `MemRead(PIX, off)`; a pixel nothing has written stops the model (R63). -/
def State.readPix (s : State) (off : Nat) : Exec Word :=
  match s.pix.readPixel off with
  | some p => .ok p
  | none => .error (.model (.pixelNeverWritten off))

/-- `MemWrite(PIX, off, p)` (R62). -/
def State.writePix (s : State) (off : Nat) (p : Word) : State :=
  { s with pix := s.pix.writePixel off p }

/-! ### Coder slots (10_state.md R30) -/

/-- Where slot `(c, k)` stands. -/
def slotIndex (c k : Nat) : Nat := 32 * c + k

/-- `slot(c, k)`. -/
def State.slot (s : State) (c k : Nat) : Slot := Sparse.get Slot.idle s.work.slots (slotIndex c k)

/-- The state with one slot replaced. -/
def State.setSlot (s : State) (c k : Nat) (v : Slot) : State :=
  { s with work.slots := Sparse.set Slot.idle s.work.slots (slotIndex c k) v }

/-! ### Responses (30_encoding.md R81) -/

/-- The code of a cause (60_exceptions.md R261). -/
def Cause.code : Cause → BitVec 4
  | .truncated => 1
  | .badCodelen => 2
  | .badSymbol => 3
  | .badLz => 4
  | .filterRange => 5
  | .resource => 6
  | .policy => 7
  | .illegalCmd => 8
  | .sequence => 9

/-- `ST = OK, VAL = v` (R81). -/
def respOk (v : Word) : CmdWord := 0#32 ++ v

/-- `ST = FAULT, CAUSE = c, VAL = 0` (R81). -/
def respFault (c : Cause) : CmdWord := 1#2 ++ c.code ++ 0#58

/-- `ST = REFUSED, CAUSE = csr[ERR_CAUSE], VAL = 0` (R81, 60_exceptions.md R266). -/
def respRefused (cause : BitVec 4) : CmdWord := 2#2 ++ cause ++ 0#58

/-! ### How a command ends -/

/-- Answer a value and count nothing. -/
def State.answer (s : State) (v : Word) : State := { s with rsp := some (respOk v) }

/-- `resp(v)`: the command ends normally and is counted (10_state.md R22, 30_encoding.md R81). -/
def State.complete (s : State) (v : Word) : State :=
  { s with cmdcnt := s.cmdcnt + 1, rsp := some (respOk v) }

/-- Refusal in the fault state: no state changes, the response says so (60_exceptions.md R266). -/
def State.refuse (s : State) : State := { s with rsp := some (respRefused s.errCause) }

/-- Which port of the outside a command can write or consume (20_memory.md R60, R62), which is all a fault of
it can have touched there (60_exceptions.md R264). -/
inductive Reach where
  /-- None of the three. -/
  | inside
  /-- `PUTB`, `WRTBL`, `WRITE`, `LZEMIT`: may append to `BW`. -/
  | output
  /-- `GETB`, `RDTBL`, `READ`, `LZREAD`: may take from `BR`. -/
  | input
  /-- `LZSTEP`, `RECON`: may write this pixel of `PIX`. -/
  | pixel (off : Nat)
deriving DecidableEq, Repr

/-- `BW` after the `n`-th fault: what stood there, and any bits the command may have appended (R264, log 5). -/
def faultOutput (n : Nat) (r : Reach) (bw : List Bool) : List Bool :=
  match r with
  | .output => bw ++ Config.bwAfterFault n
  | _ => bw

/-- `BR` after the `n`-th fault: what is left when the command may have taken some bits (R264, log 5). -/
def faultInput (n : Nat) (r : Reach) (br : List Bool) : List Bool :=
  match r with
  | .input => br.drop (Config.brAfterFault n)
  | _ => br

/-- `PIX` after the `n`-th fault: the command may or may not have written its pixel (R264, log 6). -/
def faultPix (n : Nat) (r : Reach) (pix : Memory) : Memory :=
  match r with
  | .pixel off =>
    match Config.pixAfterFault n with
    | some p => pix.writePixel off p
    | none => pix
  | _ => pix

/-- FAULT ENTRY (60_exceptions.md R263, R264). `ERR`, the cause and the faulting command word are recorded,
the response is FAULT, `CMDCNT`, `ID` and the registers `CSRW` writes are kept, and everything else is a free
value. -/
def takeFault (w : CmdWord) (c : Cause) (r : Reach) (s : State) : State :=
  { s with
    rsp := some (respFault c)
    pix := faultPix s.faultNo r s.pix
    bw := faultOutput s.faultNo r s.bw
    br := faultInput s.faultNo r s.br
    faultNo := s.faultNo + 1
    err := true
    errCause := c.code
    errCmdHi := w.extractLsb' 32 32
    errCmdLo := w.extractLsb' 0 32
    work := Config.workAfterFault s.faultNo }

/-- RESET, the only way out of the fault state (60_exceptions.md R267): every piece of the block's state takes
its reset value (10_state.md R52); `PIX`, `BW`, `BR` and the host's side are not touched
(70_reset_and_hazards.md R280, R281). -/
def State.applyReset (s : State) : State :=
  { s with err := false, errCause := 0, errCmdHi := 0, errCmdLo := 0, cmdcnt := 0, cfg := Cfg.reset,
           work := Work.reset }

/-- The three outcomes of a step on this machine. -/
abbrev Result := Host.Outcome State Fault Refusal

/-- How the pseudocode of command `i` ends the command: with its response, with the fault entry (the faulting
command word is the instruction's own, log 11), or with the model's own fault. -/
def conclude (i : Instr) (s : State) (r : Reach) (body : Exec (State × Word)) : Result :=
  match body with
  | .ok (t, v) => .next (t.complete v)
  | .error (.raise c) => .next (takeFault (encode i) c r s)
  | .error (.model f) => .fault f

/-- A command other than `SRESET` and `CSRR`: refused in the fault state, else its pseudocode runs
(00_scope.md R13, 60_exceptions.md R265, R266). -/
def runCmd (i : Instr) (s : State) (r : Reach) (body : Exec (State × Word)) : Result :=
  if s.err then .next s.refuse else conclude i s r body

end Sys2Proof.Machine
end

