-- ==== Sys2Proof/Machine/Flags.lean ====
section
/-! DEFINITION. The status flags (10_state.md R25). No command takes a flag as an operand; the flags are
computed from the state when `STATUS` is read. -/

namespace Sys2Proof.Machine

/-- `BR_EOS`: the input stream has no bits left (20_memory.md R67). DESIGN CHOICE in the fault state, unsafe: it
is computed there too, where 60_exceptions.md R264 leaves the bit unspecified (log 21). -/
def State.brEos (s : State) : Bool := s.br.isEmpty

/-- `LZ_RUN`: `LZ_RUN_LEFT > 0` (R25). -/
def State.lzRun (s : State) : Bool := s.work.lz.runLeft != 0

/-- The `STATUS` register: bit 0 `ERR`, 1 `BR_EOS`, 2 `LZ_PEND`, 3 `LZ_RUN`, 4 `HSAT`, 5 `CH_RDY`,
6 `LZ_RDY`, 7 `T_RDY`; bits 31:8 zero (R25). In the fault state all but `ERR` and `BR_EOS` come from the free
value of log 4, and `BR_EOS` from the stream (log 21). -/
def State.status (s : State) : Word :=
  0#24 ++ BitVec.ofBool s.work.tile.rdy ++ BitVec.ofBool s.work.lz.rdy ++ BitVec.ofBool s.work.ch.rdy
    ++ BitVec.ofBool s.work.hsat ++ BitVec.ofBool s.lzRun ++ BitVec.ofBool s.work.lz.pend
    ++ BitVec.ofBool s.brEos ++ BitVec.ofBool s.err

/-- The level output `FAULT` (60_exceptions.md R263, R268). -/
def State.faultOut (s : State) : Bool := s.err

end Sys2Proof.Machine
end

