-- ==== Sys2Proof/Machine/Csr.lean ====
section
/-! DEFINITION. The control registers: the address map, legal values, reading and writing
(10_state.md R24 to R26, 40_system.md R122, R123). -/

namespace Sys2Proof.Machine

/-- The registers of the table of R24. -/
inductive Csr where
  | id | status | errCause | errCmdHi | errCmdLo | cmdcnt | bwCount | brCount
  | imgW | imgH | tileBits | lYuv | lA | lSf | lCf | nsf | ncf
  | chainLimit | lenPrefixCost | distPrefixCost | savedPixelBits
  | lzNmatch | lzRdidx | lzNextOff | lzNextDist | lzNextLen | lzRunDist | lzRunLeft | lzCoverEnd
  | lzPOff | lzPDist | lzPLen | lzPSave | lzN | lzRunNext
  | slotSel | slotPhase | slotNadd | slotNwr | slotZrun | slotNruns | slotRlrd
  | recIn | res | chW | tW | tH | tB | tTx | tTy
  | sfSel (i : Nat)
  | cfSel (j : Nat)
deriving DecidableEq, Repr

/-- The register at an address; `none` at an undefined address (R24). -/
def Csr.ofAddr (a : BitVec 16) : Option Csr :=
  match a.toNat with
  | 0x0000 => some .id
  | 0x0001 => some .status
  | 0x0002 => some .errCause
  | 0x0003 => some .errCmdHi
  | 0x0004 => some .errCmdLo
  | 0x0005 => some .cmdcnt
  | 0x0006 => some .bwCount
  | 0x0007 => some .brCount
  | 0x0010 => some .imgW
  | 0x0011 => some .imgH
  | 0x0012 => some .tileBits
  | 0x0013 => some .lYuv
  | 0x0014 => some .lA
  | 0x0015 => some .lSf
  | 0x0016 => some .lCf
  | 0x0017 => some .nsf
  | 0x0018 => some .ncf
  | 0x0020 => some .chainLimit
  | 0x0021 => some .lenPrefixCost
  | 0x0022 => some .distPrefixCost
  | 0x0023 => some .savedPixelBits
  | 0x0028 => some .lzNmatch
  | 0x0029 => some .lzRdidx
  | 0x002A => some .lzNextOff
  | 0x002B => some .lzNextDist
  | 0x002C => some .lzNextLen
  | 0x002D => some .lzRunDist
  | 0x002E => some .lzRunLeft
  | 0x002F => some .lzCoverEnd
  | 0x0030 => some .lzPOff
  | 0x0031 => some .lzPDist
  | 0x0032 => some .lzPLen
  | 0x0033 => some .lzPSave
  | 0x0034 => some .lzN
  | 0x0035 => some .lzRunNext
  | 0x0038 => some .slotSel
  | 0x0039 => some .slotPhase
  | 0x003A => some .slotNadd
  | 0x003B => some .slotNwr
  | 0x003C => some .slotZrun
  | 0x003D => some .slotNruns
  | 0x003E => some .slotRlrd
  | 0x0040 => some .recIn
  | 0x0041 => some .res
  | 0x0042 => some .chW
  | 0x0043 => some .tW
  | 0x0044 => some .tH
  | 0x0045 => some .tB
  | 0x0046 => some .tTx
  | 0x0047 => some .tTy
  | n =>
    if 0x0100 ≤ n ∧ n < 0x0180 then some (.sfSel (n - 0x0100))
    else if 0x0180 ≤ n ∧ n < 0x01A0 then some (.cfSel (n - 0x0180))
    else none

/-- The least and the greatest legal value of a register with access RW; `none` for access RO (R24). The
bits `SLOT_SEL` allows are a further condition (R26). -/
def Csr.range : Csr → Option (Nat × Nat)
  | .imgW => some (1, 65535)
  | .imgH => some (1, 65535)
  | .tileBits => some (1, 8)
  | .lYuv => some (1, 32)
  | .lA => some (1, 32)
  | .lSf => some (1, 32)
  | .lCf => some (1, 32)
  | .nsf => some (1, 128)
  | .ncf => some (1, 32)
  | .chainLimit => some (1, 65535)
  | .lenPrefixCost => some (0, 255)
  | .distPrefixCost => some (0, 255)
  | .savedPixelBits => some (0, 255)
  | .slotSel => some (0, 0x051F)
  | .recIn => some (0, 4294967295)
  | .sfSel _ => some (0, 127)
  | .cfSel _ => some (0, 31)
  | _ => none

/-- Whether `CSRW` may write the register at all (R24). -/
def Csr.writable (r : Csr) : Bool := r.range.isSome

/-- Whether a value of `SLOT_SEL` has no bit outside 10:8 and 4:0 and a class of at most 5 (R26). -/
def slotSelOk (v : Word) : Bool :=
  decide (v.toNat < 2048) && v.extractLsb' 5 3 == 0 && decide ((v.extractLsb' 8 3).toNat ≤ 5)

/-- Whether a value is legal for a register (R24, R26). -/
def Csr.legal (r : Csr) (v : Word) : Bool :=
  match r with
  | .slotSel => slotSelOk v
  | r =>
    match r.range with
    | some (lo, hi) => decide (lo ≤ v.toNat) && decide (v.toNat ≤ hi)
    | none => false

/-- `csr[r] <- v` for a register with access RW; the others are not written (40_system.md R122). -/
def Csr.write (r : Csr) (v : Word) (c : Cfg) : Cfg :=
  match r with
  | .imgW => { c with imgW := v.setWidth 16 }
  | .imgH => { c with imgH := v.setWidth 16 }
  | .tileBits => { c with tileBits := v.setWidth 4 }
  | .lYuv => { c with lYuv := v.setWidth 6 }
  | .lA => { c with lA := v.setWidth 6 }
  | .lSf => { c with lSf := v.setWidth 6 }
  | .lCf => { c with lCf := v.setWidth 6 }
  | .nsf => { c with nsf := v.setWidth 8 }
  | .ncf => { c with ncf := v.setWidth 6 }
  | .chainLimit => { c with chainLimit := v.setWidth 16 }
  | .lenPrefixCost => { c with lenPrefixCost := v.setWidth 8 }
  | .distPrefixCost => { c with distPrefixCost := v.setWidth 8 }
  | .savedPixelBits => { c with savedPixelBits := v.setWidth 8 }
  | .slotSel => { c with slotSel := v.setWidth 11 }
  | .recIn => { c with recIn := v }
  | .sfSel i => { c with sfSel := Sparse.set 0 c.sfSel i (v.setWidth 7) }
  | .cfSel j => { c with cfSel := Sparse.set 0 c.cfSel j (v.setWidth 5) }
  | _ => c

/-- `SFSEL[i]` (10_state.md R48). -/
def Cfg.sfSelAt (c : Cfg) (i : Nat) : BitVec 7 := Sparse.get 0 c.sfSel i

/-- `CFSEL[j]` (R48). -/
def Cfg.cfSelAt (c : Cfg) (j : Nat) : BitVec 5 := Sparse.get 0 c.cfSel j

/-- The slot `SLOT_SEL` names (R26). -/
def State.selectedSlot (s : State) : Slot :=
  s.slot (s.cfg.slotSel.extractLsb' 8 3).toNat (s.cfg.slotSel.extractLsb' 0 5).toNat

/-- A `SLOT_*` view: 0 for a slot in phase IDLE (R26). -/
def State.slotView (s : State) (f : Slot → Word) : Word :=
  if s.selectedSlot.phase = .idle then 0 else f s.selectedSlot

/-- The code of a phase (10_state.md R31). -/
def Phase.code : Phase → Word
  | .idle => 0
  | .count => 1
  | .ready => 2
  | .decode => 3

/-- `MLIST[LZ_RDIDX]`, `none` when the list has no further match (R24). -/
def State.nextMatch (s : State) : Option Match := s.work.lz.mlist[s.work.lz.rdIdx.toNat]?

/-- `csr[r]`, zero-extended to 32 bits (40_system.md R123). -/
def Csr.read (r : Csr) (s : State) : Word :=
  match r with
  | .id => Config.idWord
  | .status => s.status
  | .errCause => s.errCause.setWidth 32
  | .errCmdHi => s.errCmdHi
  | .errCmdLo => s.errCmdLo
  | .cmdcnt => s.cmdcnt
  | .bwCount => s.work.bwCount
  | .brCount => s.work.brCount
  | .imgW => s.cfg.imgW.setWidth 32
  | .imgH => s.cfg.imgH.setWidth 32
  | .tileBits => s.cfg.tileBits.setWidth 32
  | .lYuv => s.cfg.lYuv.setWidth 32
  | .lA => s.cfg.lA.setWidth 32
  | .lSf => s.cfg.lSf.setWidth 32
  | .lCf => s.cfg.lCf.setWidth 32
  | .nsf => s.cfg.nsf.setWidth 32
  | .ncf => s.cfg.ncf.setWidth 32
  | .chainLimit => s.cfg.chainLimit.setWidth 32
  | .lenPrefixCost => s.cfg.lenPrefixCost.setWidth 32
  | .distPrefixCost => s.cfg.distPrefixCost.setWidth 32
  | .savedPixelBits => s.cfg.savedPixelBits.setWidth 32
  | .lzNmatch => BitVec.ofNat 32 s.work.lz.mlist.length
  | .lzRdidx => s.work.lz.rdIdx
  | .lzNextOff => (s.nextMatch.map Match.off).getD Config.noneMark
  | .lzNextDist => (s.nextMatch.map Match.dist).getD 0
  | .lzNextLen => (s.nextMatch.map Match.len).getD 0
  | .lzRunDist => s.work.lz.runDist
  | .lzRunLeft => s.work.lz.runLeft
  | .lzCoverEnd => s.work.lz.coverEnd
  | .lzPOff => s.work.lz.pOff
  | .lzPDist => s.work.lz.pDist
  | .lzPLen => s.work.lz.pLen
  | .lzPSave => s.work.lz.pSave
  | .lzN => s.work.lz.n
  | .lzRunNext => s.work.lz.runNext
  | .slotSel => s.cfg.slotSel.setWidth 32
  | .slotPhase => s.slotView (fun v => v.phase.code)
  | .slotNadd => s.slotView Slot.nadd
  | .slotNwr => s.slotView Slot.nwr
  | .slotZrun => s.slotView Slot.zrun
  | .slotNruns => s.slotView (fun v => BitVec.ofNat 32 v.runList.length)
  | .slotRlrd => s.slotView Slot.rlRd
  | .recIn => s.cfg.recIn
  | .res => s.work.tile.res
  | .chW => s.work.ch.w.setWidth 32
  | .tW => s.work.tile.w.setWidth 32
  | .tH => s.work.tile.h.setWidth 32
  | .tB => s.work.tile.b.setWidth 32
  | .tTx => s.work.tile.tx.setWidth 32
  | .tTy => s.work.tile.ty.setWidth 32
  | .sfSel i => (s.cfg.sfSelAt i).setWidth 32
  | .cfSel j => (s.cfg.cfSelAt j).setWidth 32

end Sys2Proof.Machine
end

