-- ==== Sys2Proof/Machine/Params.lean ====
section
/-! DEFINITION. This spec's defaults for the parameters of the model (93_implementation_defined.md P1 to P7;
log 10), and what a parameter instance must satisfy. -/

namespace Sys2Proof.Machine

open Sys2Proof.Config

/-- `SCORE[r] = min(r, 256 - r)` (43_chaos.md R176). -/
def defaultScore (r : Byte) : Byte := BitVec.ofNat 8 (min r.toNat (256 - r.toNat))

/-- `CHAOS_MAP[L - 1][s] = min(L - 1, bitlen(s))` (43_chaos.md R177). -/
def defaultChaosMap (row s : Nat) : Nat := min row (bitlen s)

/-- The five spatial filters zero, left, up, up-left, up-right (45_tile_filter.md R230). -/
def defaultSfFn (i : Nat) (n : Nbrs) : Rgb :=
  match i with
  | 1 => n.a
  | 2 => n.b
  | 3 => n.c
  | 4 => n.d
  | _ => ⟨0, 0, 0⟩

/-- Color filters: 0 identity, 1 subtract-green, RGB to YUV (45_tile_filter.md R232). -/
def defaultCfFwd (j : Nat) (p : Rgb) : Rgb :=
  match j with
  | 1 => ⟨p.g, p.r - p.g, p.b - p.g⟩
  | _ => p

/-- Color filters, YUV to RGB (R232). -/
def defaultCfInv (j : Nat) (p : Rgb) : Rgb :=
  match j with
  | 1 => ⟨p.g + p.r, p.r, p.b + p.r⟩
  | _ => p

/-- `RAW5`: five bits a length, in symbol order (30_encoding.md R105). -/
def raw5Enc (lens : List (BitVec 5)) : List Bool := lens.flatMap (fun l => msbBits 5 l.toNat)

/-- `RAW5` read back, each field checked as it is read (42_entropy_decoder.md R161). -/
def raw5Dec : Nat → List Bool → Except TblError (List (BitVec 5) × List Bool)
  | 0, bs => .ok ([], bs)
  | n + 1, bs =>
    match takeBits 5 0 bs with
    | none => .error .truncated
    | some (l, rest) =>
      if maxCodeLen < l then .error .badCodelen
      else
        match raw5Dec n rest with
        | .ok (ls, out) => .ok (BitVec.ofNat 5 l :: ls, out)
        | .error e => .error e

/-- This spec's default instance (00_scope.md R9, R10). -/
def params : Params :=
  { score := defaultScore
    chaosMap := defaultChaosMap
    sfCount := 5
    sfFn := defaultSfFn
    cfCount := 2
    cfFwd := defaultCfFwd
    cfInv := defaultCfInv
    tblEnc := raw5Enc
    tblDec := raw5Dec
    hashK := 0x9E3779B97F4A7C15
    runListCap := 1048576
    mListCap := 65536
    maxTiles := 1048576 }

end Sys2Proof.Machine
end

