-- ==== Sys2Proof/Machine/Operands.lean ====
section
/-! DEFINITION. How the operand fields of a command are resolved: the chaos bin, the coder slot, the pixel's
neighbours, the filter pair, the neighbouring tile. -/

namespace Sys2Proof.Machine

open Sys2Proof.Config

/-! ### The chaos row buffer (10_state.md R38) -/

/-- Where `ROW[lane][i]` stands. -/
def rowIndex (lane : Lane) (i : Nat) : Nat := 65536 * lane.code.toNat + i

/-- `ROW[lane][i]`. -/
def State.row (s : State) (lane : Lane) (i : Nat) : Byte :=
  Sparse.get 0 s.work.ch.row (rowIndex lane i)

/-- `ROW[lane][i] <- v`. -/
def State.setRow (s : State) (lane : Lane) (i : Nat) (v : Byte) : State :=
  { s with work.ch.row := Sparse.set 0 s.work.ch.row (rowIndex lane i) v }

/-- The level count of a lane: `L_YUV` for Y, U, V and `L_A` for A (43_chaos.md R175). -/
def Cfg.laneLevels (c : Cfg) : Lane → BitVec 6
  | .a => c.lA
  | _ => c.lYuv

/-- `ROW[lane][x] + ROW[lane][x + 1]`: left score plus up score (43_chaos.md R180). -/
def State.scoreSum (s : State) (lane : Lane) (x : Nat) : Nat :=
  (s.row lane x).toNat + (s.row lane (x + 1)).toNat

/-- The two checks of every use of the row buffer at column `x` (R180 to R182). -/
def chaosReady (s : State) (x : BitVec 16) : Exec Unit := do
  check (s.work.ch.rdy = false) .sequence
  check (s.work.ch.w.toNat ≤ x.toNat) .policy

/-- `ChaosBin(lane, x)` (43_chaos.md R180). -/
def chaosBin (P : Params) (s : State) (lane : Lane) (x : BitVec 16) : Exec Nat := do
  chaosReady s x
  return P.chaosMap ((s.cfg.laneLevels lane).toNat - 1) (s.scoreSum lane x.toNat)

/-! ### The coder slot (10_state.md R30, 41_entropy_encoder.md R131) -/

/-- `NCTX(c)`: how many contexts of a class are usable (R30). -/
def Cfg.nctx (c : Cfg) (cls : Nat) : Nat :=
  match cls with
  | 3 => c.lA.toNat
  | 4 => c.lSf.toNat
  | 5 => c.lCf.toNat
  | _ => c.lYuv.toNat

/-- The number of literal symbols a class has when its slot is cleared or its table read (R31). -/
def Cfg.literals (c : Cfg) (cls : Nat) : BitVec 9 :=
  match cls with
  | 0 => 268
  | 4 => c.nsf.setWidth 9
  | 5 => c.ncf.setWidth 9
  | _ => 256

/-- `ALPHA = NS + 128` (R31). -/
def Slot.alpha (v : Slot) : Nat := v.ns.toNat + zrleSyms

/-- The context of a command: with `AUTO` the chaos bin of the lane with the class's number, else the
command's own (R131). -/
def slotCtx (P : Params) (s : State) (auto : Bool) (cls ctx : Byte) (x : BitVec 16) : Exec Nat :=
  if auto then do
    check (3 < cls.toNat) .policy
    chaosBin P s (Lane.ofCode (cls.setWidth 2)) x
  else .ok ctx.toNat

/-- `SlotSel(F, CL, CX, x)`: the class and the context a command names (R131). -/
def slotSel (P : Params) (s : State) (auto : Bool) (cls ctx : Byte) (x : BitVec 16) :
    Exec (Nat × Nat) := do
  check (5 < cls.toNat) .policy
  let k ← slotCtx P s auto cls ctx x
  check (s.cfg.nctx cls.toNat ≤ k) .policy
  return (cls.toNat, k)

/-! ### Pixel positions (30_encoding.md R95, 45_tile_filter.md R221, R228) -/

/-- The pixel offset `y * T_W + x` (R95). -/
def Tile.offset (t : Tile) (x y : Nat) : Nat := y * t.w.toNat + x

/-- The index of tile `(tx, ty)`, `ty * T_TX + tx` (R221). -/
def Tile.index (t : Tile) (tx ty : Nat) : Nat := ty * t.tx.toNat + tx

/-- The index of the tile of pixel `(x, y)` (R221). -/
def Tile.indexAt (t : Tile) (x y : Nat) : Nat := t.index (x >>> t.b.toNat) (y >>> t.b.toNat)

/-- `SFMAP[t]` (10_state.md R46). -/
def Tile.sfAt (t : Tile) (i : Nat) : Byte := Sparse.get todoTile t.sfMap i

/-- `CFMAP[t]` (R46). -/
def Tile.cfAt (t : Tile) (i : Nat) : Byte := Sparse.get todoTile t.cfMap i

/-- `SEEN[t]` (R47). -/
def Tile.seenAt (t : Tile) (i : Nat) : Bool := Sparse.get false t.seen i

/-- `ACC[f]` (R51). -/
def Tile.accAt (t : Tile) (f : Nat) : Word := Sparse.get 0 t.acc f

/-- The map of a plane: `SFMAP` or `CFMAP` (R242). -/
def Tile.mapAt (t : Tile) (p : Plane) (i : Nat) : Byte :=
  match p with
  | .sf => t.sfAt i
  | .cf => t.cfAt i

/-- The alphabet of a plane: `NSF` or `NCF` (R240). -/
def Cfg.planeSyms (c : Cfg) : Plane → Nat
  | .sf => c.nsf.toNat
  | .cf => c.ncf.toNat

/-- The R, G, B bytes of a pixel (20_memory.md R61). -/
def rgbOf (p : Word) : Rgb := ⟨p.extractLsb' 0 8, p.extractLsb' 8 8, p.extractLsb' 16 8⟩

/-- The A byte of a pixel (R61). -/
def alphaOf (p : Word) : Byte := p.extractLsb' 24 8

/-- A pixel from its four bytes, A most significant (R61). -/
def pixelOf (c : Rgb) (a : Byte) : Word := a ++ c.b ++ c.g ++ c.r

/-- The R, G, B of the pixel at an offset if it is in the image, else a given triple. -/
def State.rgbAt (s : State) (inside : Prop) [Decidable inside] (off : Nat) (other : Rgb) : Exec Rgb :=
  if inside then do
    let p ← s.readPix off
    return rgbOf p
  else return other

/-- The neighbours of pixel `(x, y)`, with the rules for the image's edges (R228). All four are read,
whichever of them the filter uses (log 12). -/
def neighbours (s : State) (x y : Nat) : Exec Nbrs := do
  let w := s.work.tile.w.toNat
  let off := s.work.tile.offset x y
  let a ← s.rgbAt (0 < x) (off - 1) ⟨0, 0, 0⟩
  let b ← s.rgbAt (0 < y) (off - w) ⟨0, 0, 0⟩
  let edge := if 0 < y then b else a
  let c ← s.rgbAt (0 < x ∧ 0 < y) (off - w - 1) edge
  let d ← s.rgbAt (0 < y ∧ x + 1 < w) (off - w + 1) edge
  return ⟨a, b, c, d⟩

/-! ### The filter pair of a pixel (45_tile_filter.md R233) -/

/-- The catalog indices the tile maps give for tile `t` (R233). -/
def mapFilters (s : State) (t : Nat) : Exec (Nat × Nat) := do
  let i := (s.work.tile.sfAt t).toNat
  let j := (s.work.tile.cfAt t).toNat
  check (s.cfg.nsf.toNat ≤ i ∨ s.cfg.ncf.toNat ≤ j) .filterRange
  return ((s.cfg.sfSelAt i).toNat, (s.cfg.cfSelAt j).toNat)

/-- The catalog indices a command gives, or those of tile `t` (R233). -/
def filterPair (s : State) (expl : Bool) (sf cf : Byte) (t : Nat) : Exec (Nat × Nat) :=
  if expl then .ok (sf.toNat, cf.toNat) else mapFilters s t

/-- `Filters(F, CL, CX, x, y)` (R233). -/
def filters (P : Params) (s : State) (expl : Bool) (sf cf : Byte) (x y : Nat) : Exec (Nat × Nat) := do
  let f ← filterPair s expl sf cf (s.work.tile.indexAt x y)
  check (P.sfCount ≤ f.1 ∨ P.cfCount ≤ f.2) .filterRange
  return f

/-! ### The neighbouring tile (45_tile_filter.md R241) -/

/-- How far left a row filter looks. -/
def filterDx : RowFilter → Nat
  | .left => 1
  | .upLeft => 1
  | _ => 0

/-- How far up a row filter looks. -/
def filterDy : RowFilter → Nat
  | .up => 1
  | .upLeft => 1
  | _ => 0

/-- `Nbr(map, ns, tx, ty, rf)`: the prediction of a tile (R241). -/
def tileNbr (t : Tile) (p : Plane) (ns tx ty : Nat) (rf : RowFilter) : Nat :=
  let t2 := t.index (tx - filterDx rf) (ty - filterDy rf)
  if rf = .noop ∨ tx < filterDx rf ∨ ty < filterDy rf then 0
  else if t.seenAt t2 = false ∨ ns ≤ (t.mapAt p t2).toNat then 0
  else (t.mapAt p t2).toNat

end Sys2Proof.Machine
end

