-- ==== Sys2Proof/Machine/ChaosUnit.lean ====
section
/-! DEFINITION. The chaos unit: CHINIT, CHGET, CHPUT, CHZERO (43_chaos.md). -/

namespace Sys2Proof.Machine

open Sys2Proof.Config

/-- The pseudocode of `CHINIT` (R178): the width latched, every row entry 0, the unit ready. -/
def chinitBody (s : State) : Exec (State × Word) :=
  .ok ({ s with work.ch := { rdy := true, w := s.cfg.imgW, row := [] } }, 0)

/-- `CHINIT` (R178). -/
def execChinit (s : State) : Result := runCmd .chinit s .inside (chinitBody s)

/-- The pseudocode of `CHGET` (R179). -/
def chgetBody (P : Params) (lane : Lane) (x : BitVec 16) (s : State) : Exec (State × Word) := do
  let k ← chaosBin P s lane x
  return (s, BitVec.ofNat 32 k)

/-- `CHGET lane, x` (R179). -/
def execChget (lane : Lane) (x : BitVec 16) (s : State) : Result :=
  runCmd (.chget lane x) s .inside (chgetBody params lane x s)

/-- The pseudocode of `CHPUT` (R181). -/
def chputBody (P : Params) (lane : Lane) (r : Byte) (x : BitVec 16) (s : State) :
    Exec (State × Word) := do
  chaosReady s x
  return (s.setRow lane (x.toNat + 1) (P.score r), (P.score r).setWidth 32)

/-- `CHPUT lane, x, r` (R181). -/
def execChput (lane : Lane) (r : Byte) (x : BitVec 16) (s : State) : Result :=
  runCmd (.chput lane r x) s .inside (chputBody params lane r x s)

/-- `ROW[lane][i] <- 0` if the mask selects the lane (R182). -/
def zeroLane (lanes : BitVec 4) (i : Nat) (s : State) (lane : Lane) : State :=
  if lanes.getLsbD lane.code.toNat then s.setRow lane i 0 else s

/-- The pseudocode of `CHZERO` (R182). -/
def chzeroBody (lanes : BitVec 4) (x : BitVec 16) (s : State) : Exec (State × Word) := do
  chaosReady s x
  return ([Lane.y, .u, .v, .a].foldl (zeroLane lanes (x.toNat + 1)) s, 0)

/-- `CHZERO lanes, x` (R182). -/
def execChzero (lanes : BitVec 4) (x : BitVec 16) (s : State) : Result :=
  runCmd (.chzero lanes x) s .inside (chzeroBody lanes x s)

end Sys2Proof.Machine
end

