-- ==== Sys2Proof/Machine/Huffman.lean ====
section
/-! DEFINITION. Zero-run symbols, code lengths from counts, code words from lengths, and the check of a
received table (41_entropy_encoder.md R135, R137 to R141; 42_entropy_decoder.md R163). -/

namespace Sys2Proof.Machine

open Sys2Proof.Config

/-! ### Zero runs -/

/-- The run symbol index of a run of `n` zeros (R135). -/
def zsym (n : Nat) : Nat := if n ≤ zrleDirect then n - 1 else zrleDirect + floorLog2 (n - zrleDirect)

/-- How many extra bits follow run symbol index `z` (30_encoding.md R102). -/
def zextraLen (z : Nat) : Nat := z - zrleDirect

/-- The value of the extra bits of a run of `n` zeros, `n - 96 - 2^e` (R102); 0 for a direct run. -/
def zextraVal (n : Nat) : Nat := n - zrleDirect - 2 ^ zextraLen (zsym n)

/-- The run length of run symbol index `z` with extra bits `v` (R102). -/
def zrunOf (z v : Nat) : Nat := if z < zrleDirect then z + 1 else zrleDirect + 2 ^ zextraLen z + v

/-! ### Code lengths from counts (R137 to R140) -/

/-- A Huffman tree. -/
inductive Tree where
  | leaf (sym : Nat)
  | node (a b : Tree)
deriving DecidableEq, Repr

/-- The symbols of a tree hanging at depth `d`, each with the number of edges from its leaf to the root. -/
def Tree.depths : Tree → Nat → List (Nat × Nat)
  | .leaf s, d => [(s, d)]
  | .node a b, d => a.depths (d + 1) ++ b.depths (d + 1)

/-- A node of the pool: its key is the pair (weight, identifier) (R137). -/
structure PoolNode where
  weight : Nat
  ident : Nat
  tree : Tree
deriving DecidableEq, Repr

/-- The key order: first by weight, then by identifier (R137, R138). -/
def PoolNode.before (a b : PoolNode) : Bool :=
  decide (a.weight < b.weight) || (decide (a.weight = b.weight) && decide (a.ident < b.ident))

/-- Put a node into a pool kept in key order, smallest key first. -/
def poolInsert (n : PoolNode) : List PoolNode → List PoolNode
  | [] => [n]
  | p :: ps => if n.before p then n :: p :: ps else p :: poolInsert n ps

/-- The pool of leaves, one per used symbol, weight its count and identifier the symbol (R137). -/
def leafPool (ws : List (Nat × Nat)) : List PoolNode :=
  ws.foldr (fun e ps => poolInsert ⟨e.2, e.1, .leaf e.1⟩ ps) []

/-- Merge the two nodes of smallest key until one is left; the `j`-th internal node has identifier
`alpha + j` (R137). The first argument bounds the merges; the pool's size is enough. -/
def mergePool (alpha : Nat) : Nat → Nat → List PoolNode → Option Tree
  | _, _, [] => none
  | _, _, [n] => some n.tree
  | 0, _, _ :: _ :: _ => none
  | fuel + 1, j, a :: b :: ps =>
    mergePool alpha fuel (j + 1) (poolInsert ⟨a.weight + b.weight, alpha + j, .node a.tree b.tree⟩ ps)

/-- The lengths of one construction, without the limit (R137). -/
def treeLengths (alpha : Nat) (ws : List (Nat × Nat)) : List (Nat × Nat) :=
  match mergePool alpha ws.length 0 (leafPool ws) with
  | some t => t.depths 0
  | none => []

/-- Halve a working weight, rounding up (R140). -/
def halveWeight (w : Nat) : Nat := (w + 1) >>> 1

/-- Repeat the construction with halved weights until no length is above 16 (R140). The first argument bounds
the repetitions: 32 halvings bring every 32-bit weight to 1, and then no length is above 9. -/
def limitLengths (alpha : Nat) : Nat → List (Nat × Nat) → List (Nat × Nat)
  | 0, ws => treeLengths alpha ws
  | fuel + 1, ws =>
    let ls := treeLengths alpha ws
    if ls.all (fun e => decide (e.2 ≤ maxCodeLen)) then ls
    else limitLengths alpha fuel (ws.map (fun e => (e.1, halveWeight e.2)))

/-- The used symbols with their counts (R137). -/
def usedWeights (hist : Sparse Word) (alpha : Nat) : List (Nat × Nat) :=
  (hist.filter (fun e => decide (e.1 < alpha) && e.2 != 0)).map (fun e => (e.1, e.2.toNat))

/-- A table of code lengths from (symbol, length) pairs. -/
def lengthsTable (ls : List (Nat × Nat)) : Sparse (BitVec 5) :=
  ls.foldr (fun e m => Sparse.set 0 m e.1 (BitVec.ofNat 5 e.2)) []

/-- `BuildLengths(HIST, ALPHA)` (R137, R139, R140). -/
def buildLengths (hist : Sparse Word) (alpha : Nat) : Sparse (BitVec 5) :=
  match usedWeights hist alpha with
  | [] => []
  | [e] => lengthsTable [(e.1, 1)]
  | ws => lengthsTable (limitLengths alpha 32 ws)

/-! ### Code words from lengths (R141) -/

/-- `cnt[l]`: how many symbols have length `l`, for `l ≥ 1`; `cnt[0] = 0` (R141). -/
def lenCount (len : Sparse (BitVec 5)) (l : Nat) : Nat :=
  if l = 0 then 0 else len.countP (fun e => decide (e.2.toNat = l))

/-- `next[l]` before any symbol is assigned: the first code word of length `l` (R141). -/
def firstCode (len : Sparse (BitVec 5)) : Nat → Nat
  | 0 => 0
  | l + 1 => (firstCode len l + lenCount len l) <<< 1

/-- The code word of symbol `s` of length `l`: within one length, symbols take consecutive code words in
increasing symbol order (R141). -/
def codeOf (len : Sparse (BitVec 5)) (s : Nat) (l : BitVec 5) : Nat :=
  firstCode len l.toNat + len.countP (fun e => decide (e.2 = l) && decide (e.1 < s))

/-- `Canonical(LEN)` (R141). -/
def canonical (len : Sparse (BitVec 5)) : Sparse (BitVec 16) :=
  len.foldr (fun e m => Sparse.set 0 m e.1 (BitVec.ofNat 16 (codeOf len e.1 e.2))) []

/-! ### The check of a received table (42_entropy_decoder.md R163) -/

/-- The lengths in use. -/
def usedLengths (lens : List (BitVec 5)) : List Nat := (lens.filter (· != 0)).map BitVec.toNat

/-- `sum of 2^(16 - l)` over lengths (R163). -/
def kraftSum (ls : List Nat) : Nat := (ls.map (fun l => 2 ^ (maxCodeLen - l))).sum

/-- `ValidLengths(L)` (R163). -/
def validLengths (lens : List (BitVec 5)) : Bool :=
  lens.all (fun l => decide (l.toNat ≤ maxCodeLen)) &&
    match usedLengths lens with
    | [] => true
    | [l] => decide (l = 1)
    | ls => decide (kraftSum ls = 2 ^ maxCodeLen)

end Sys2Proof.Machine
end

