-- ==== Sys2Proof/Machine/Henc.lean ====
section
/-! DEFINITION. The entropy encoder: ECLR, ADD, FINAL, WRTBL, WRITE (41_entropy_encoder.md). -/

namespace Sys2Proof.Machine

open Sys2Proof.Config

/-! ### Clearing (R132) -/

/-- A slot as `ECLR` leaves it: all fields zeroed, `NS` latched, phase COUNT (R132). -/
def Slot.cleared (ns : BitVec 9) : Slot :=
  { phase := .count, ns := ns, hist := [], len := [], code := [], zrun := 0, runList := [], rlRd := 0,
    nadd := 0, nwr := 0 }

/-- Clear slot `(c, k)` (R132). -/
def clearSlot (s : State) (c k : Nat) : State := s.setSlot c k (Slot.cleared (s.cfg.literals c))

/-- Every `(class, context)` pair (R132). -/
def allSlots : List (Nat × Nat) :=
  (List.range 6).flatMap (fun c => (List.range 32).map (fun k => (c, k)))

/-- The pseudocode of `ECLR` (R132). -/
def eclrBody (all : Bool) (cls ctx : Byte) (s : State) : Exec (State × Word) :=
  if all then .ok (allSlots.foldl (fun t e => clearSlot t e.1 e.2) s, 0)
  else do
    check (5 < cls.toNat ∨ 31 < ctx.toNat) .policy
    return (clearSlot s cls.toNat ctx.toNat, 0)

/-- `ECLR class, ctx` and `ECLR.ALL` (R132). -/
def execEclr (all : Bool) (cls ctx : Byte) (s : State) : Result :=
  runCmd (.eclr all cls ctx) s .inside (eclrBody all cls ctx s)

/-! ### Counting (R133 to R135) -/

/-- `HIST[i]`. -/
def Slot.histAt (v : Slot) (i : Nat) : Word := Sparse.get 0 v.hist i

/-- `LEN[i]`. -/
def Slot.lenAt (v : Slot) (i : Nat) : BitVec 5 := Sparse.get 0 v.len i

/-- `CODE[i]`. -/
def Slot.codeAt (v : Slot) (i : Nat) : BitVec 16 := Sparse.get 0 v.code i

/-- `HistInc(S, i)`: the slot, and whether the counter was already at its maximum (R134). -/
def histInc (v : Slot) (i : Nat) : Slot × Bool :=
  if (v.histAt i).toNat = maxWord then (v, true)
  else ({ v with hist := Sparse.set 0 v.hist i (v.histAt i + 1) }, false)

/-- `FlushRun(S)`: the run of zeros is recorded and counted as one run symbol (R134). -/
def flushRun (P : Params) (v : Slot) : Exec (Slot × Bool) := do
  check (P.runListCap ≤ v.runList.length) .resource
  let r := histInc { v with runList := v.runList ++ [v.zrun] } (v.ns.toNat + zsym v.zrun.toNat)
  return ({ r.1 with zrun := 0 }, r.2)

/-- `FlushRun(S)` if `cond`, else nothing. -/
def flushIf (P : Params) (cond : Prop) [Decidable cond] (v : Slot) : Exec (Slot × Bool) :=
  if cond then flushRun P v else .ok (v, false)

/-- What `CoderAdd` does to a slot, and whether a counter saturated (R134). -/
def slotAdd (P : Params) (v : Slot) (sym : Nat) : Exec (Slot × Bool) := do
  check (v.phase ≠ .count) .sequence
  check (v.ns.toNat ≤ sym) .policy
  if sym = 0 then
    let f ← flushIf P (v.zrun.toNat = maxWord) v
    return ({ f.1 with zrun := f.1.zrun + 1, nadd := sat32 (v.nadd.toNat + 1) }, f.2)
  else
    let f ← flushIf P (0 < v.zrun.toNat) v
    let r := histInc f.1 sym
    return ({ r.1 with nadd := sat32 (v.nadd.toNat + 1) }, f.2 || r.2)

/-- Replace a slot and make `HSAT` sticky (10_state.md R25). -/
def State.putCounted (s : State) (c k : Nat) (r : Slot × Bool) : State :=
  let t := s.setSlot c k r.1
  { t with work.hsat := t.work.hsat || r.2 }

/-- `CoderAdd(c, k, sym)` (R134). -/
def coderAdd (P : Params) (s : State) (c k sym : Nat) : Exec State := do
  let r ← slotAdd P (s.slot c k) sym
  return s.putCounted c k r

/-- The pseudocode of `ADD` (R133). -/
def addBody (P : Params) (auto : Bool) (cls ctx : Byte) (x sym : BitVec 16) (s : State) :
    Exec (State × Word) := do
  let (c, k) ← slotSel P s auto cls ctx x
  let t ← coderAdd P s c k sym.toNat
  return (t, BitVec.ofNat 32 k)

/-- `ADD class, ctx, sym` and `ADD.A class, x, sym` (R133). -/
def execAdd (auto : Bool) (cls ctx : Byte) (x sym : BitVec 16) (s : State) : Result :=
  runCmd (.add auto cls ctx x sym) s .inside (addBody params auto cls ctx x sym s)

/-! ### Building the code (R136) -/

/-- The slot with its code built: the last run ended, lengths and code words from the counts (R136). -/
def slotFinal (P : Params) (v : Slot) : Exec (Slot × Bool) := do
  check (v.phase ≠ .count) .sequence
  let f ← flushIf P (0 < v.zrun.toNat) v
  let len := buildLengths f.1.hist f.1.alpha
  return ({ f.1 with len := len, code := canonical len, rlRd := 0, zrun := 0, nwr := 0, phase := .ready },
    f.2)

/-- The greatest length of a table; 0 when none is listed (R136). -/
def maxLength (len : Sparse (BitVec 5)) : Nat := len.foldr (fun e m => max e.2.toNat m) 0

/-- The pseudocode of `FINAL` (R136). -/
def finalBody (P : Params) (cls ctx : Byte) (s : State) : Exec (State × Word) := do
  let (c, k) ← slotSel P s false cls ctx 0
  let r ← slotFinal P (s.slot c k)
  return (s.putCounted c k r, BitVec.ofNat 32 (maxLength r.1.len))

/-- `FINAL class, ctx` (R136). -/
def execFinal (cls ctx : Byte) (s : State) : Result :=
  runCmd (.final cls ctx) s .inside (finalBody params cls ctx s)

/-! ### Writing (R143 to R146) -/

/-- `LEN[0..ALPHA)` as the vector the table codec takes (R144). -/
def Slot.lengths (v : Slot) : List (BitVec 5) := Sparse.toList 0 v.len v.alpha

/-- The pseudocode of `WRTBL` (R143). -/
def wrtblBody (P : Params) (cls ctx : Byte) (s : State) : Exec (State × Word) := do
  let (c, k) ← slotSel P s false cls ctx 0
  check ((s.slot c k).phase ≠ .ready) .sequence
  let bits := P.tblEnc (s.slot c k).lengths
  return (s.appendBits bits, BitVec.ofNat 32 bits.length)

/-- `WRTBL class, ctx` (R143). -/
def execWrtbl (cls ctx : Byte) (s : State) : Result :=
  runCmd (.wrtbl cls ctx) s .output (wrtblBody params cls ctx s)

/-- The code word of symbol `i`, most significant bit first (30_encoding.md R101). -/
def Slot.codeBits (v : Slot) (i : Nat) : List Bool := msbBits (v.lenAt i).toNat (v.codeAt i).toNat

/-- What `CoderWrite` does for a zero that no run symbol written before covers: the next recorded run's
symbol and extra bits (R146). -/
def slotWriteRun (v : Slot) : Exec (Slot × List Bool) :=
  match v.runList[v.rlRd.toNat]? with
  | none => raise .sequence
  | some r => do
    let z := zsym r.toNat
    let i := v.ns.toNat + z
    check (v.lenAt i = 0) .sequence
    return ({ v with rlRd := v.rlRd + 1, zrun := r - 1 },
      v.codeBits i ++ msbBits (zextraLen z) (zextraVal r.toNat))

/-- What `CoderWrite` does for a zero: nothing while the last run symbol written covers it, else the next
run (R146). -/
def slotWriteZero (v : Slot) : Exec (Slot × List Bool) :=
  if 0 < v.zrun.toNat then .ok ({ v with zrun := v.zrun - 1 }, []) else slotWriteRun v

/-- What `CoderWrite` does for a symbol that is not zero: its code word, unless a counted run is cut short or
the symbol was never counted (R146). -/
def slotWriteLiteral (v : Slot) (sym : Nat) : Exec (Slot × List Bool) := do
  check (0 < v.zrun.toNat) .sequence
  check (v.lenAt sym = 0) .sequence
  return (v, v.codeBits sym)

/-- The symbol's part of `CoderWrite` (R146). -/
def slotWriteSym (v : Slot) (sym : Nat) : Exec (Slot × List Bool) :=
  if sym = 0 then slotWriteZero v else slotWriteLiteral v sym

/-- What `CoderWrite` does to a slot, and the bits it appends (R146). -/
def slotWrite (v : Slot) (sym : Nat) : Exec (Slot × List Bool) := do
  check (v.phase ≠ .ready) .sequence
  check (v.ns.toNat ≤ sym) .policy
  let r ← slotWriteSym v sym
  return ({ r.1 with nwr := sat32 (v.nwr.toNat + 1) }, r.2)

/-- `CoderWrite(c, k, sym)`: the state and how many bits were appended (R146). -/
def coderWrite (s : State) (c k sym : Nat) : Exec (State × Nat) := do
  let r ← slotWrite (s.slot c k) sym
  return ((s.setSlot c k r.1).appendBits r.2, r.2.length)

/-- The pseudocode of `WRITE` (R145). -/
def writeBody (P : Params) (auto : Bool) (cls ctx : Byte) (x sym : BitVec 16) (s : State) :
    Exec (State × Word) := do
  let (c, k) ← slotSel P s auto cls ctx x
  let (t, n) ← coderWrite s c k sym.toNat
  return (t, BitVec.ofNat 32 n)

/-- `WRITE class, ctx, sym` and `WRITE.A class, x, sym` (R145). -/
def execWrite (auto : Bool) (cls ctx : Byte) (x sym : BitVec 16) (s : State) : Result :=
  runCmd (.write auto cls ctx x sym) s .output (writeBody params auto cls ctx x sym s)

end Sys2Proof.Machine
end

