-- ==== Sys2Proof/Machine/Hdec.lean ====
section
/-! DEFINITION. The entropy decoder: RDTBL, READ (42_entropy_decoder.md). The two-level lookup of R165 is a
function of `LEN` and has no state of its own (10_state.md R35, log 20). -/

namespace Sys2Proof.Machine

open Sys2Proof.Config

/-! ### Reading a table (R160 to R163) -/

/-- The cause a table codec's failure is raised as (R162). -/
def tblCause : TblError → Cause
  | .truncated => .truncated
  | .badCodelen => .badCodelen

/-- `TblDec(ALPHA)`: the lengths, and the state with the table's bits consumed (R161). -/
def readTable (P : Params) (s : State) (alpha : Nat) : Exec (List (BitVec 5) × State) :=
  match P.tblDec alpha s.br with
  | .ok (lens, rest) => .ok (lens, s.consumed (s.br.length - rest.length) rest)
  | .error e => raise (tblCause e)

/-- A slot as `RDTBL` leaves it (R160). `HIST` keeps its meaningless contents; `RL_WR` is 0 (log 15). -/
def Slot.decoder (v : Slot) (ns : BitVec 9) (len : Sparse (BitVec 5)) : Slot :=
  { v with phase := .decode, ns := ns, len := len, code := canonical len, zrun := 0, runList := [],
           rlRd := 0, nadd := 0, nwr := 0 }

/-- The pseudocode of `RDTBL` (R160). -/
def rdtblBody (P : Params) (cls ctx : Byte) (s : State) : Exec (State × Word) := do
  let (c, k) ← slotSel P s false cls ctx 0
  let ns := s.cfg.literals c
  let (lens, t) ← readTable P s (ns.toNat + zrleSyms)
  check (validLengths lens = false) .badCodelen
  return (t.setSlot c k ((s.slot c k).decoder ns (Sparse.ofList 0 0 lens)),
    BitVec.ofNat 32 (usedLengths lens).length)

/-- `RDTBL class, ctx` (R160). -/
def execRdtbl (cls ctx : Byte) (s : State) : Result :=
  runCmd (.rdtbl cls ctx) s .input (rdtblBody params cls ctx s)

/-! ### Reading a symbol (R164, R166) -/

/-- The symbol with an `l`-bit code word, if there is one (R166). -/
def Slot.findCode (v : Slot) (l code : Nat) : Option Nat :=
  (v.len.find? (fun e => decide (e.2.toNat = l) && decide ((v.codeAt e.1).toNat = code))).map Prod.fst

/-- The loop of `DecodeSym`: `fuel` more lengths to try, `l` bits read so far with value `code` (R166). -/
def decodeLoop (v : Slot) : Nat → Nat → Nat → List Bool → Exec (Nat × Nat × List Bool)
  | 0, _, _, _ => raise .badSymbol
  | _ + 1, _, _, [] => raise .truncated
  | fuel + 1, l, code, b :: bs =>
    match v.findCode (l + 1) (2 * code + b.toNat) with
    | some i => .ok (i, l + 1, bs)
    | none => decodeLoop v fuel (l + 1) (2 * code + b.toNat) bs

/-- `DecodeSym(S)`: the symbol, and the state with its code word consumed (R166). -/
def decodeSym (s : State) (v : Slot) : Exec (Nat × State) := do
  let (i, n, rest) ← decodeLoop v maxCodeLen 0 0 s.br
  return (i, s.consumed n rest)

/-- The length of the run a run symbol stands for, its extra bits read (R164). -/
def readRun (s : State) (z : Nat) : Exec (Nat × State) := do
  let (v, t) ← s.readBits (zextraLen z)
  check (maxWord < zrunOf z v) .badSymbol
  return (zrunOf z v, t)

/-- What `READ` takes from a slot that owes no zeros: the value, the zeros now owed, and the state (R164). -/
def readFresh (s : State) (v : Slot) : Exec (Nat × Word × State) := do
  let (i, t) ← decodeSym s v
  if i < v.ns.toNat then return (i, v.zrun, t)
  else
    let (r, u) ← readRun t (i - v.ns.toNat)
    return (0, BitVec.ofNat 32 (r - 1), u)

/-- The value `READ` delivers, the zeros still owed after it, and the state (R164). -/
def readSym (s : State) (v : Slot) : Exec (Nat × Word × State) :=
  if 0 < v.zrun.toNat then .ok (0, v.zrun - 1, s) else readFresh s v

/-- The pseudocode of `READ` (R164). -/
def readBody (P : Params) (auto : Bool) (cls ctx : Byte) (x : BitVec 16) (s : State) :
    Exec (State × Word) := do
  let (c, k) ← slotSel P s auto cls ctx x
  let v := s.slot c k
  check (v.phase ≠ .decode) .sequence
  let (sym, owed, t) ← readSym s v
  return (t.setSlot c k { v with zrun := owed, nwr := sat32 (v.nwr.toNat + 1) }, BitVec.ofNat 32 sym)

/-- `READ class, ctx` and `READ.A class, x` (R164). -/
def execRead (auto : Bool) (cls ctx : Byte) (x : BitVec 16) (s : State) : Result :=
  runCmd (.read auto cls ctx x) s .input (readBody params auto cls ctx x s)

end Sys2Proof.Machine
end

