-- ==== Sys2Proof/Machine/LzUnit.lean ====
section
/-! DEFINITION. The LZ unit: LZINIT, LZINS, LZFIND, LZFLUSH, LZREW, LZEMIT, LZREAD, LZSTEP (44_lz.md). -/

namespace Sys2Proof.Machine

open Sys2Proof.Config

/-- Every LZ command but `LZINIT` needs the unit ready (10_state.md R45). -/
def lzReady (s : State) : Exec Unit := check (s.work.lz.rdy = false) .sequence

/-! ### Initialising and inserting (R192 to R195) -/

/-- The LZ unit as `LZINIT` leaves it; `CHAIN` is not cleared (R192). -/
def Lz.initialised (z : Lz) (n : Word) : Lz :=
  { rdy := true, n := n, head := [], chain := z.chain, mlist := [], rdIdx := 0, coverEnd := 0,
    pend := false, pOff := 0, pDist := 0, pLen := 0, pSave := 0, runDist := 0, runLeft := 0,
    runNext := 0 }

/-- The pseudocode of `LZINIT` (R192). -/
def lzinitBody (s : State) : Exec (State × Word) :=
  .ok ({ s with work.lz := s.work.lz.initialised (s.cfg.imgW.setWidth 32 * s.cfg.imgH.setWidth 32) }, 0)

/-- `LZINIT` (R192). -/
def execLzinit (s : State) : Result := runCmd .lzinit s .inside (lzinitBody s)

/-- `Hash(p0, p1)`: the top 18 bits of the low 64 bits of the product (R193). -/
def lzHash (P : Params) (p0 p1 : Word) : Nat := (((p0 ++ p1) * P.hashK) >>> 46).toNat

/-- The hash of the pixel pair at an offset (R193). -/
def hashAt (P : Params) (s : State) (off : Nat) : Exec Nat := do
  let p0 ← s.readPix off
  let p1 ← s.readPix (off + 1)
  return lzHash P p0 p1

/-- `HEAD[h]` (10_state.md R40). -/
def Lz.headAt (z : Lz) (h : Nat) : Word := Sparse.get noneMark z.head h

/-- `CHAIN[off mod WIN_SIZE]` (10_state.md R40). -/
def Lz.chainAt (z : Lz) (off : Nat) : Word := Sparse.get noneMark z.chain (off % winSize)

/-- The unit with `off` inserted at the head of bucket `h` (R194). -/
def Lz.inserted (z : Lz) (h : Nat) (off : Word) : Lz :=
  { z with chain := Sparse.set noneMark z.chain (off.toNat % winSize) (z.headAt h)
           head := Sparse.set noneMark z.head h off }

/-- The pseudocode of `LZINS` (R194). -/
def lzinsBody (P : Params) (off : Word) (s : State) : Exec (State × Word) := do
  lzReady s
  if s.work.lz.n.toNat ≤ off.toNat + 1 then return (s, 0)
  else do
    let h ← hashAt P s off.toNat
    return ({ s with work.lz := s.work.lz.inserted h off }, 1)

/-- `LZINS off` (R194). -/
def execLzins (off : Word) (s : State) : Result :=
  runCmd (.lzins off) s .inside (lzinsBody params off s)

/-! ### Finding (R196 to R200) -/

/-- `Savings(len, dist)` (R197). -/
def savings (c : Cfg) (len dist : Nat) : Int :=
  (len * c.savedPixelBits.toNat : Nat) -
    ((c.lenPrefixCost.toNat + floorLog2 len + c.distPrefixCost.toNat + floorLog2 dist : Nat) : Int)

/-- A candidate match: start, distance, length and savings in bits (R196). -/
structure Cand where
  off : Nat
  dist : Nat
  len : Nat
  save : Int
deriving DecidableEq, Repr

/-- `Better((s1, d1), (s2, d2))` (R198). -/
def better (s1 : Int) (d1 : Nat) (s2 : Int) (d2 : Nat) : Bool :=
  decide (s2 < s1) || (decide (s1 = s2) && decide (d1 < d2))

/-- How many pixels from `c + i` and `off + i` on are equal, at most `lim` (R196). -/
def matchLen (s : State) (c off : Nat) : Nat → Nat → Exec Nat
  | 0, _ => .ok 0
  | lim + 1, i => do
    let p ← s.readPix (c + i)
    let q ← s.readPix (off + i)
    if p = q then
      let n ← matchLen s c off lim (i + 1)
      return n + 1
    else return 0

/-- The better of the best candidate so far and a match at `c` of length `len` (R196). -/
def keepBest (cfg : Cfg) (off c len : Nat) (best : Option Cand) : Option Cand :=
  let save := savings cfg len (off - c)
  if len < minMatch ∨ save ≤ 0 then best
  else
    match best with
    | none => some ⟨off, off - c, len, save⟩
    | some b => if better save (off - c) b.save b.dist then some ⟨off, off - c, len, save⟩ else best

/-- The walk along a chain: at most `steps` candidates, newest first (R196). -/
def walk (s : State) (off : Nat) : Nat → Word → Option Cand → Exec (Option Cand)
  | 0, _, best => .ok best
  | steps + 1, c, best =>
    if c = noneMark ∨ off ≤ c.toNat ∨ winSize < off - c.toNat then .ok best
    else do
      let len ← matchLen s c.toNat off (min maxMatch (s.work.lz.n.toNat - off)) 0
      let best' := keepBest s.cfg off c.toNat len best
      let nx := s.work.lz.chainAt c.toNat
      if c.toNat ≤ nx.toNat then return best' else walk s off steps nx best'

/-- The unit with a candidate as the pending match (R196). -/
def Lz.pended (z : Lz) (m : Cand) : Lz :=
  { z with pend := true, pOff := BitVec.ofNat 32 m.off, pDist := BitVec.ofNat 32 m.dist,
           pLen := BitVec.ofNat 32 m.len, pSave := BitVec.ofInt 32 m.save }

/-- The unit after a commit, `Commit()` without its capacity check (R199). -/
def Lz.committed (z : Lz) : Lz :=
  { z with mlist := z.mlist ++ [⟨z.pOff, z.pDist, z.pLen⟩]
           coverEnd := z.pOff + z.pLen
           pend := false, pOff := 0, pDist := 0, pLen := 0, pSave := 0 }

/-- `Commit()` (R199). -/
def lzCommit (P : Params) (z : Lz) : Exec Lz := do
  check (P.mListCap ≤ z.mlist.length) .resource
  return z.committed

/-- What a find does with the best candidate at its offset (R196). -/
def settle (P : Params) (z : Lz) (m : Cand) : Exec Lz :=
  if z.pend = false then .ok (z.pended m)
  else if m.off < z.pOff.toNat + z.pLen.toNat then
    .ok (if better m.save m.dist z.pSave.toNat z.pDist.toNat then z.pended m else z)
  else do
    let z' ← lzCommit P z
    return z'.pended m

/-- The pseudocode of `LZFIND` (R196). -/
def lzfindBody (P : Params) (off : Word) (s : State) : Exec (State × Word) := do
  lzReady s
  check (s.work.lz.n.toNat ≤ off.toNat) .policy
  check (s.work.lz.pend = true ∧ off.toNat ≤ s.work.lz.pOff.toNat) .sequence
  if off.toNat < s.work.lz.coverEnd.toNat ∨ s.work.lz.n.toNat ≤ off.toNat + 1 then return (s, 0)
  else do
    let h ← hashAt P s off.toNat
    let best ← walk s off.toNat s.cfg.chainLimit.toNat (s.work.lz.headAt h) none
    match best with
    | none => return (s, 0)
    | some m => do
      let z ← settle P s.work.lz m
      return ({ s with work.lz := z }, BitVec.ofNat 32 m.len)

/-- `LZFIND off` (R196). -/
def execLzfind (off : Word) (s : State) : Result :=
  runCmd (.lzfind off) s .inside (lzfindBody params off s)

/-- `if STATUS.LZ_PEND = 1: Commit()` (R200). -/
def commitPending (P : Params) (z : Lz) : Exec Lz := if z.pend then lzCommit P z else .ok z

/-- The pseudocode of `LZFLUSH` (R200). -/
def lzflushBody (P : Params) (s : State) : Exec (State × Word) := do
  lzReady s
  let z ← commitPending P s.work.lz
  return ({ s with work.lz := z }, BitVec.ofNat 32 z.mlist.length)

/-- `LZFLUSH` (R200). -/
def execLzflush (s : State) : Result := runCmd .lzflush s .inside (lzflushBody params s)

/-- The pseudocode of `LZREW` (R201). -/
def lzrewBody (s : State) : Exec (State × Word) := do
  lzReady s
  return ({ s with work.lz.rdIdx := 0 }, 0)

/-- `LZREW` (R201). -/
def execLzrew (s : State) : Result := runCmd .lzrew s .inside (lzrewBody s)

/-! ### Emitting (R202) -/

/-- The escape symbol of a match length: `256 + (e - 1)` with `e = floor_log2(len)` (30_encoding.md R103). -/
def escapeSym (len : Nat) : Nat := 256 + (floorLog2 len - 1)

/-- What follows the escape: length tail, distance class, distance tail (30_encoding.md R103). -/
def tailBits (len dist : Nat) : List Bool :=
  msbBits (floorLog2 len) (len - 2 ^ floorLog2 len) ++ msbBits 5 (floorLog2 dist) ++
    msbBits (floorLog2 dist) (dist - 2 ^ floorLog2 dist)

/-- The escape counted, or written with its tails (R202). -/
def emitMatch (P : Params) (cnt : Bool) (ctx : Byte) (m : Match) (s : State) : Exec State :=
  if cnt then coderAdd P s 0 ctx.toNat (escapeSym m.len.toNat)
  else do
    let (t, _) ← coderWrite s 0 ctx.toNat (escapeSym m.len.toNat)
    return t.appendBits (tailBits m.len.toNat m.dist.toNat)

/-- The pseudocode of `LZEMIT` (R202). -/
def lzemitBody (P : Params) (cnt : Bool) (ctx : Byte) (off : Word) (s : State) :
    Exec (State × Word) := do
  lzReady s
  match s.nextMatch with
  | none => raise .sequence
  | some m => do
    check (m.off ≠ off) .sequence
    check (s.cfg.nctx 0 ≤ ctx.toNat) .policy
    let t ← emitMatch P cnt ctx m s
    return ({ t with work.lz.rdIdx := t.work.lz.rdIdx + 1 }, m.len)

/-- What a fault of `LZEMIT` can have touched: "in count mode nothing is written" (R202). -/
def lzemitReach (cnt : Bool) : Reach := if cnt then .inside else .output

/-- `LZEMIT ctx, off` and `LZEMIT.C ctx, off` (R202). -/
def execLzemit (cnt : Bool) (ctx : Byte) (off : Word) (s : State) : Result :=
  runCmd (.lzemit cnt ctx off) s (lzemitReach cnt) (lzemitBody params cnt ctx off s)

/-! ### Reading (R204, R205) -/

/-- The length field of an LZ sequence with escape index `k` (R204). -/
def readLen (k : Nat) (s : State) : Exec (Nat × State) := do
  let (v, t) ← s.readBits (k + 1)
  check (maxMatch < 2 ^ (k + 1) + v) .badLz
  return (2 ^ (k + 1) + v, t)

/-- The distance class and tail of an LZ sequence (R204). -/
def readDist (s : State) : Exec (Nat × State) := do
  let (d, t) ← s.readBits 5
  check (20 < d) .badLz
  let (v, u) ← t.readBits d
  check (winSize < 2 ^ d + v) .badLz
  return (2 ^ d + v, u)

/-- The pseudocode of `LZREAD` (R204). -/
def lzreadBody (k : Byte) (off : Word) (s : State) : Exec (State × Word) := do
  lzReady s
  check (0 < s.work.lz.runLeft.toNat) .sequence
  check (12 ≤ k.toNat) .policy
  check (s.work.lz.n.toNat ≤ off.toNat) .policy
  let (len, t) ← readLen k.toNat s
  let (dist, u) ← readDist t
  check (off.toNat < dist) .badLz
  check (s.work.lz.n.toNat < off.toNat + len) .badLz
  return ({ u with work.lz := { u.work.lz with
      runDist := BitVec.ofNat 32 dist, runLeft := BitVec.ofNat 32 len, runNext := off } },
    BitVec.ofNat 32 len)

/-- `LZREAD k, off` (R204). -/
def execLzread (k : Byte) (off : Word) (s : State) : Result :=
  runCmd (.lzread k off) s .input (lzreadBody k off s)

/-- The pseudocode of `LZSTEP` (R205). The source offset is taken modulo 2^32; it never wraps after the
checks of `LZREAD` (log 13). -/
def lzstepBody (off : Word) (s : State) : Exec (State × Word) := do
  lzReady s
  check (s.work.lz.runLeft.toNat = 0) .sequence
  check (off ≠ s.work.lz.runNext) .sequence
  let p ← s.readPix (off - s.work.lz.runDist).toNat
  let left := s.work.lz.runLeft - 1
  return ({ s.writePix off.toNat p with work.lz := { s.work.lz with
      runLeft := left, runNext := s.work.lz.runNext + 1 } }, left)

/-- What a fault of `LZSTEP` can have written: its own pixel, if that is in the image (20_memory.md R62). -/
def lzstepReach (off : Word) (s : State) : Reach :=
  if off.toNat < s.work.lz.n.toNat then .pixel off.toNat else .inside

/-- `LZSTEP off` (R205). -/
def execLzstep (off : Word) (s : State) : Result :=
  runCmd (.lzstep off) s (lzstepReach off s) (lzstepBody off s)

end Sys2Proof.Machine
end

