-- ==== Sys2Proof/Machine/System.lean ====
section
/-! DEFINITION. The system commands NOP, SRESET, CSRW, CSRR, PUTB, GETB (40_system.md). -/

namespace Sys2Proof.Machine

/-- `NOP` (R120). -/
def execNop (s : State) : Result := runCmd .nop s .inside (.ok (s, 0))

/-- `SRESET` (R121): executed in the fault state too, and not counted. -/
def execSreset (s : State) : Result := .next (s.applyReset.answer 0)

/-- The pseudocode of `CSRW` (R122). -/
def csrwBody (a16 : BitVec 16) (value : Word) (s : State) : Exec (State × Word) :=
  match Csr.ofAddr a16 with
  | none => raise .illegalCmd
  | some r => do
    check (r.writable = false) .illegalCmd
    check (r.legal value = false) .policy
    return ({ s with cfg := r.write value s.cfg }, 0)

/-- `CSRW reg, value` (R122). -/
def execCsrw (a16 : BitVec 16) (value : Word) (s : State) : Result :=
  runCmd (.csrw a16 value) s .inside (csrwBody a16 value s)

/-- The pseudocode of `CSRR` (R123). -/
def csrrBody (a16 : BitVec 16) (s : State) : Exec (State × Word) :=
  match Csr.ofAddr a16 with
  | none => raise .illegalCmd
  | some r => .ok (s, r.read s)

/-- `CSRR` in the fault state: a defined register is read and not counted, an undefined address is refused
(R123, 60_exceptions.md R266). -/
def csrrInFault (a16 : BitVec 16) (s : State) : State :=
  match Csr.ofAddr a16 with
  | none => s.refuse
  | some r => s.answer (r.read s)

/-- `CSRR reg` (R123). -/
def execCsrr (a16 : BitVec 16) (s : State) : Result :=
  if s.err then .next (csrrInFault a16 s)
  else conclude (.csrr a16) s .inside (csrrBody a16 s)

/-- The pseudocode of `PUTB` (R124). -/
def putbBody (n : Byte) (value : Word) (s : State) : Exec (State × Word) := do
  check (32 < n.toNat) .policy
  return (s.writeBits value.toNat n.toNat, n.setWidth 32)

/-- `PUTB n, value` (R124). -/
def execPutb (n : Byte) (value : Word) (s : State) : Result :=
  runCmd (.putb n value) s .output (putbBody n value s)

/-- The pseudocode of `GETB` (R125). -/
def getbBody (n : Byte) (s : State) : Exec (State × Word) := do
  check (32 < n.toNat) .policy
  let (v, t) ← s.readBits n.toNat
  return (t, BitVec.ofNat 32 v)

/-- `GETB n` (R125). -/
def execGetb (n : Byte) (s : State) : Result := runCmd (.getb n) s .input (getbBody n s)

end Sys2Proof.Machine
end

