-- ==== Sys2Proof/Machine/TileUnit.lean ====
section
/-! DEFINITION. The tile unit: TINIT, TSET, TSEL, RESID, RECON, TSCLR, TSACC, TSBEST, TMRES, TMREC
(45_tile_filter.md). -/

namespace Sys2Proof.Machine

open Sys2Proof.Config

/-! ### The grid and the maps (R221 to R226) -/

/-- `ceil(n / 2^b)` (R222). -/
def ceilShift (n b : Nat) : Nat := (n + 2 ^ b - 1) >>> b

/-- The tile unit with its geometry latched, every map entry `TODO_TILE` and no tile seen (R222). -/
def Tile.initialised (t : Tile) (c : Cfg) (tx ty : Nat) : Tile :=
  { t with rdy := true, w := c.imgW, h := c.imgH, b := c.tileBits, tx := BitVec.ofNat 16 tx,
           ty := BitVec.ofNat 16 ty, sfMap := [], cfMap := [], seen := [] }

/-- The pseudocode of `TINIT` (R222). -/
def tinitBody (P : Params) (s : State) : Exec (State × Word) := do
  let tx := ceilShift s.cfg.imgW.toNat s.cfg.tileBits.toNat
  let ty := ceilShift s.cfg.imgH.toNat s.cfg.tileBits.toNat
  check (P.maxTiles < tx * ty) .resource
  return ({ s with work.tile := s.work.tile.initialised s.cfg tx ty }, BitVec.ofNat 32 (tx * ty))

/-- `TINIT` (R222). -/
def execTinit (s : State) : Result := runCmd .tinit s .inside (tinitBody params s)

/-- The checks of a command that names a tile: the unit is ready and the tile is in the grid (R224). -/
def tileReady (s : State) (tx ty : BitVec 16) : Exec Unit := do
  check (s.work.tile.rdy = false) .sequence
  check (s.work.tile.tx.toNat ≤ tx.toNat ∨ s.work.tile.ty.toNat ≤ ty.toNat) .policy

/-- The checks of a command that names a pixel: the unit is ready and the pixel is in the image (R226). -/
def pixelReady (s : State) (x y : BitVec 16) : Exec Unit := do
  check (s.work.tile.rdy = false) .sequence
  check (s.work.tile.w.toNat ≤ x.toNat ∨ s.work.tile.h.toNat ≤ y.toNat) .policy

/-- The tile unit with both map entries of tile `i` set (R224). -/
def Tile.withPair (t : Tile) (i : Nat) (sf cf : Byte) : Tile :=
  { t with sfMap := Sparse.set todoTile t.sfMap i sf, cfMap := Sparse.set todoTile t.cfMap i cf }

/-- The pseudocode of `TSET` (R224). -/
def tsetBody (sf cf : Byte) (ty tx : BitVec 16) (s : State) : Exec (State × Word) := do
  tileReady s tx ty
  check ((sf = maskTile) ≠ (cf = maskTile)) .filterRange
  check (sf ≠ maskTile ∧ (s.cfg.nsf.toNat ≤ sf.toNat ∨ s.cfg.ncf.toNat ≤ cf.toNat)) .filterRange
  return ({ s with work.tile :=
    s.work.tile.withPair (s.work.tile.index tx.toNat ty.toNat) sf cf }, 0)

/-- `TSET tx, ty, sf, cf` (R224). -/
def execTset (sf cf : Byte) (ty tx : BitVec 16) (s : State) : Result :=
  runCmd (.tset sf cf ty tx) s .inside (tsetBody sf cf ty tx s)

/-- The response of `TSEL`: `SFMAP[t] | (CFMAP[t] << 8) | (first << 16)` (R226). -/
def selWord (t : Tile) (i : Nat) (first : Bool) : Word :=
  0#15 ++ BitVec.ofBool first ++ t.cfAt i ++ t.sfAt i

/-- The tile unit with tile `i` seen (R226). -/
def Tile.markSeen (t : Tile) (i : Nat) : Tile := { t with seen := Sparse.set false t.seen i true }

/-- The pseudocode of `TSEL` (R226). -/
def tselBody (msk : Bool) (y x : BitVec 16) (s : State) : Exec (State × Word) := do
  pixelReady s x y
  let i := s.work.tile.indexAt x.toNat y.toNat
  if msk then return (s, selWord s.work.tile i false)
  else do
    check (s.work.tile.sfAt i = maskTile) .sequence
    return ({ s with work.tile := s.work.tile.markSeen i },
      selWord s.work.tile i (!s.work.tile.seenAt i))

/-- `TSEL x, y` and `TSEL.M x, y` (R226). -/
def execTsel (msk : Bool) (y x : BitVec 16) (s : State) : Result :=
  runCmd (.tsel msk y x) s .inside (tselBody msk y x s)

/-! ### The pixel datapath (R227 to R236) -/

/-- Byte-wise difference modulo 256 (R227). -/
def rgbSub (p q : Rgb) : Rgb := ⟨p.r - q.r, p.g - q.g, p.b - q.b⟩

/-- Byte-wise sum modulo 256 (R227). -/
def rgbAdd (p q : Rgb) : Rgb := ⟨p.r + q.r, p.g + q.g, p.b + q.b⟩

/-- The residual word of pixel `p` with neighbours `n`: Y in bits 7:0, U in 15:8, V in 23:16, `255 - A` in
31:24 (R234). -/
def residWord (P : Params) (sfc cfc : Nat) (n : Nbrs) (p : Word) : Word :=
  pixelOf (P.cfFwd cfc (rgbSub (rgbOf p) (P.sfFn sfc n))) (255 - alphaOf p)

/-- The pixel a residual word stands for, with neighbours `n` (R235). -/
def reconWord (P : Params) (sfc cfc : Nat) (n : Nbrs) (rec : Word) : Word :=
  pixelOf (rgbAdd (P.cfInv cfc (rgbOf rec)) (P.sfFn sfc n)) (255 - alphaOf rec)

/-- The pseudocode of `RESID` (R234). -/
def residBody (P : Params) (expl : Bool) (sf cf : Byte) (y x : BitVec 16) (s : State) :
    Exec (State × Word) := do
  pixelReady s x y
  let (sfc, cfc) ← filters P s expl sf cf x.toNat y.toNat
  let n ← neighbours s x.toNat y.toNat
  let p ← s.readPix (s.work.tile.offset x.toNat y.toNat)
  let v := residWord P sfc cfc n p
  return ({ s with work.tile.res := v }, v)

/-- `RESID x, y` and `RESID.X x, y, sf, cf` (R234). -/
def execResid (expl : Bool) (sf cf : Byte) (y x : BitVec 16) (s : State) : Result :=
  runCmd (.resid expl sf cf y x) s .inside (residBody params expl sf cf y x s)

/-- The pseudocode of `RECON` (R235). -/
def reconBody (P : Params) (expl : Bool) (sf cf : Byte) (y x : BitVec 16) (s : State) :
    Exec (State × Word) := do
  pixelReady s x y
  let (sfc, cfc) ← filters P s expl sf cf x.toNat y.toNat
  let n ← neighbours s x.toNat y.toNat
  let p := reconWord P sfc cfc n s.cfg.recIn
  return (s.writePix (s.work.tile.offset x.toNat y.toNat) p, p)

/-- What a fault of `RECON` can have written: its own pixel, if that is in the image (20_memory.md R62). -/
def reconReach (y x : BitVec 16) (s : State) : Reach :=
  if x.toNat < s.work.tile.w.toNat ∧ y.toNat < s.work.tile.h.toNat then
    .pixel (s.work.tile.offset x.toNat y.toNat)
  else .inside

/-- `RECON x, y` and `RECON.X x, y, sf, cf` (R235). -/
def execRecon (expl : Bool) (sf cf : Byte) (y x : BitVec 16) (s : State) : Result :=
  runCmd (.recon expl sf cf y x) s (reconReach y x s) (reconBody params expl sf cf y x s)

/-! ### The score accumulators (R237 to R239) -/

/-- The pseudocode of `TSCLR` (R237). -/
def tsclrBody (s : State) : Exec (State × Word) := .ok ({ s with work.tile.acc := [] }, 0)

/-- `TSCLR` (R237). -/
def execTsclr (s : State) : Result := runCmd .tsclr s .inside (tsclrBody s)

/-- `SCORE[Y] + SCORE[U] + SCORE[V]` of a residual word (R238). -/
def residScore (P : Params) (res : Word) : Nat :=
  (P.score (rgbOf res).r).toNat + (P.score (rgbOf res).g).toNat + (P.score (rgbOf res).b).toNat

/-- The pseudocode of `TSACC` (R238). -/
def tsaccBody (P : Params) (f : Byte) (s : State) : Exec (State × Word) := do
  check (127 < f.toNat) .policy
  let v := sat32 ((s.work.tile.accAt f.toNat).toNat + residScore P s.work.tile.res)
  return ({ s with work.tile.acc := Sparse.set 0 s.work.tile.acc f.toNat v }, v)

/-- `TSACC f` (R238). -/
def execTsacc (f : Byte) (s : State) : Result := runCmd (.tsacc f) s .inside (tsaccBody params f s)

/-- The smallest of `best` and the `n` candidates from `f` on, the lowest number on a tie (R239). -/
def bestFrom (t : Tile) : Nat → Nat → Nat → Nat
  | 0, _, best => best
  | n + 1, f, best =>
    bestFrom t n (f + 1) (if (t.accAt f).toNat < (t.accAt best).toNat then f else best)

/-- The pseudocode of `TSBEST` (R239). -/
def tsbestBody (n : Byte) (s : State) : Exec (State × Word) := do
  check (n.toNat < 1 ∨ 128 < n.toNat) .policy
  return (s, BitVec.ofNat 32 (bestFrom s.work.tile n.toNat 0 0))

/-- `TSBEST n` (R239). -/
def execTsbest (n : Byte) (s : State) : Result := runCmd (.tsbest n) s .inside (tsbestBody n s)

/-! ### The tile-map datapath (R240 to R243) -/

/-- `(v - pred) mod ns` (R242). -/
def symSub (v pred ns : Nat) : Nat := (((v : Int) - (pred : Int)) % (ns : Int)).toNat

/-- `(r + pred) mod ns` (R243). -/
def symAdd (r pred ns : Nat) : Nat := (r + pred) % ns

/-- The response of `TMRES` on a masked tile (R242). -/
def maskedWord : Word := 0x80000000

/-- The pseudocode of `TMRES` (R242). -/
def tmresBody (rf : RowFilter) (plane : Plane) (ty tx : BitVec 16) (s : State) :
    Exec (State × Word) := do
  tileReady s tx ty
  let ns := s.cfg.planeSyms plane
  let pred := tileNbr s.work.tile plane ns tx.toNat ty.toNat rf
  let v := s.work.tile.mapAt plane (s.work.tile.index tx.toNat ty.toNat)
  if v = maskTile then return (s, maskedWord)
  else do
    check (ns ≤ v.toNat) .filterRange
    return (s, BitVec.ofNat 32 (symSub v.toNat pred ns))

/-- `TMRES plane, rf, tx, ty` (R242). -/
def execTmres (rf : RowFilter) (plane : Plane) (ty tx : BitVec 16) (s : State) : Result :=
  runCmd (.tmres rf plane ty tx) s .inside (tmresBody rf plane ty tx s)

/-- The tile unit with the map entry of a plane set (R243). -/
def Tile.withMap (t : Tile) (p : Plane) (i : Nat) (v : Byte) : Tile :=
  match p with
  | .sf => { t with sfMap := Sparse.set todoTile t.sfMap i v }
  | .cf => { t with cfMap := Sparse.set todoTile t.cfMap i v }

/-- The pseudocode of `TMREC` (R243). -/
def tmrecBody (rf : RowFilter) (plane : Plane) (r : Byte) (ty tx : BitVec 16) (s : State) :
    Exec (State × Word) := do
  tileReady s tx ty
  let ns := s.cfg.planeSyms plane
  let pred := tileNbr s.work.tile plane ns tx.toNat ty.toNat rf
  let i := s.work.tile.index tx.toNat ty.toNat
  check (s.work.tile.mapAt plane i = maskTile) .sequence
  check (ns ≤ r.toNat) .filterRange
  let v := symAdd r.toNat pred ns
  return ({ s with work.tile := s.work.tile.withMap plane i (BitVec.ofNat 8 v) }, BitVec.ofNat 32 v)

/-- `TMREC plane, rf, tx, ty, r` (R243). -/
def execTmrec (rf : RowFilter) (plane : Plane) (r : Byte) (ty tx : BitVec 16) (s : State) : Result :=
  runCmd (.tmrec rf plane r ty tx) s .inside (tmrecBody rf plane r ty tx s)

end Sys2Proof.Machine
end

