-- ==== Sys2Proof/Machine/Dispatch.lean ====
section
/-! DEFINITION. One arm per command. -/

namespace Sys2Proof.Machine

def exec (i : Instr) (s : State) : Host.Outcome State Fault Refusal :=
  match i with
  | .nop => Sys2Proof.Machine.execNop s
  | .sreset => Sys2Proof.Machine.execSreset s
  | .csrw a16 value => Sys2Proof.Machine.execCsrw a16 value s
  | .csrr a16 => Sys2Proof.Machine.execCsrr a16 s
  | .putb n value => Sys2Proof.Machine.execPutb n value s
  | .getb n => Sys2Proof.Machine.execGetb n s
  | .eclr all cls ctx => Sys2Proof.Machine.execEclr all cls ctx s
  | .add auto cls ctx x sym => Sys2Proof.Machine.execAdd auto cls ctx x sym s
  | .final cls ctx => Sys2Proof.Machine.execFinal cls ctx s
  | .wrtbl cls ctx => Sys2Proof.Machine.execWrtbl cls ctx s
  | .write auto cls ctx x sym => Sys2Proof.Machine.execWrite auto cls ctx x sym s
  | .rdtbl cls ctx => Sys2Proof.Machine.execRdtbl cls ctx s
  | .read auto cls ctx x => Sys2Proof.Machine.execRead auto cls ctx x s
  | .chinit => Sys2Proof.Machine.execChinit s
  | .chget lane x => Sys2Proof.Machine.execChget lane x s
  | .chput lane r x => Sys2Proof.Machine.execChput lane r x s
  | .chzero lanes x => Sys2Proof.Machine.execChzero lanes x s
  | .lzinit => Sys2Proof.Machine.execLzinit s
  | .lzins off => Sys2Proof.Machine.execLzins off s
  | .lzfind off => Sys2Proof.Machine.execLzfind off s
  | .lzflush => Sys2Proof.Machine.execLzflush s
  | .lzrew => Sys2Proof.Machine.execLzrew s
  | .lzemit cnt ctx off => Sys2Proof.Machine.execLzemit cnt ctx off s
  | .lzread k off => Sys2Proof.Machine.execLzread k off s
  | .lzstep off => Sys2Proof.Machine.execLzstep off s
  | .tinit => Sys2Proof.Machine.execTinit s
  | .tset sf cf ty tx => Sys2Proof.Machine.execTset sf cf ty tx s
  | .tsel msk y x => Sys2Proof.Machine.execTsel msk y x s
  | .resid expl sf cf y x => Sys2Proof.Machine.execResid expl sf cf y x s
  | .recon expl sf cf y x => Sys2Proof.Machine.execRecon expl sf cf y x s
  | .tsclr => Sys2Proof.Machine.execTsclr s
  | .tsacc f => Sys2Proof.Machine.execTsacc f s
  | .tsbest n => Sys2Proof.Machine.execTsbest n s
  | .tmres rf plane ty tx => Sys2Proof.Machine.execTmres rf plane ty tx s
  | .tmrec rf plane r ty tx => Sys2Proof.Machine.execTmrec rf plane r ty tx s

end Sys2Proof.Machine
end

