-- ==== Sys2Proof/Machine/Port.lean ====
section
/-! DEFINITION. What happens at the block's ports between commands: a word taken from the command port, a word
that is no command, and the host's other actions (00_scope.md R14; log 1, log 16). -/

namespace Sys2Proof.Machine

/-- The host's queue after its first event has been taken. -/
def State.dequeue (s : State) (rest : List HostEvent) : State := { s with inbox := rest }

/-- The state when a command has been taken from the port: the host's position in its command list advances
by one whatever the command's outcome (10_state.md R22). -/
def State.taken (s : State) (rest : List HostEvent) : State :=
  { s with inbox := rest, hostPos := s.hostPos + 1 }

/-- A word that is no command: refused in the fault state, else `ILLEGAL_CMD` (30_encoding.md R92,
60_exceptions.md R265, R266). -/
def rejectWord (w : CmdWord) (s : State) : Result :=
  if s.err then .next s.refuse else .next (takeFault w .illegalCmd .inside s)

/-- The host writes a pixel between commands (20_memory.md R63). -/
def State.hostWrite (s : State) (off p : Word) : State := s.writePix off.toNat p

/-- The host hands over an input stream (20_memory.md R64, 70_reset_and_hazards.md R281). -/
def State.hostInput (s : State) (bits : List Bool) : State := { s with br := bits }

/-- The host takes the output stream away (R64, R281). -/
def State.hostOutput (s : State) : State := { s with bw := [] }

end Sys2Proof.Machine
end

