-- ==== Sys2Proof/Machine/Step.lean ====
section
/-! DEFINITION. One step: the host's next event. A command word is decoded and run; with nothing pending the
block does nothing (70_reset_and_hazards.md R282, log 2). -/

namespace Sys2Proof.Machine

/-- Run a command word: the refusal and the decode check first, then the command (00_scope.md R13,
60_exceptions.md R265). -/
def runWord (w : CmdWord) (s : State) : Result :=
  match decode w with
  | .ok i => exec i s
  | .error _ => rejectWord w s

/-- One host event on the state from which it has been taken. -/
def runEvent (s : State) (rest : List HostEvent) : HostEvent → Result
  | .command w => runWord w (s.taken rest)
  | .writePixel off p => .next ((s.dequeue rest).hostWrite off p)
  | .newInput bits => .next ((s.dequeue rest).hostInput bits)
  | .newOutput => .next (s.dequeue rest).hostOutput
  | .hardReset => .next (s.dequeue rest).applyReset

/-- One step. -/
def step (s : State) : Host.Outcome State Fault Refusal :=
  match s.inbox with
  | [] => .next s
  | e :: rest => runEvent s rest e

/-- The state with a command word at the head of the host's queue, so that the next step runs it (log 1). -/
def State.withFetchWord (s : State) (nbits w : Nat) : State :=
  { s with inbox := .command (BitVec.ofNat 64 (w % 2 ^ nbits)) :: s.inbox }

end Sys2Proof.Machine
end

