-- ==== Sys2Proof/Safety.lean ====
section
/-! DEFINITION. The terms claims are stated in: how a command ends, what a parameter instance must satisfy, and
the invariants of the machine. Everything 60_exceptions.md R264 leaves unspecified after a fault is exempt, so an
invariant over `Work` is claimed of states with `ERR = 0` only. -/

namespace Sys2Proof.Machine

open Sys2Proof.Config

/-! ### How a command ends -/

/-- A run ended well when `STATUS.ERR = 0` (00_scope.md R15). -/
def State.endedWell (s : State) : Bool := !s.err

/-- `t` is `s` after a command word `w` has raised cause `c`, as far as 60_exceptions.md R263 and R264 define
it: the fault record, the response, and what is kept (`CMDCNT`, every RW register). -/
structure FaultEntry (w : CmdWord) (c : Cause) (s t : State) : Prop where
  err : t.err = true
  errCause : t.errCause = c.code
  errCmdHi : t.errCmdHi = w.extractLsb' 32 32
  errCmdLo : t.errCmdLo = w.extractLsb' 0 32
  rsp : t.rsp = some (respFault c)
  cmdcnt : t.cmdcnt = s.cmdcnt
  cfg : t.cfg = s.cfg
  inbox : t.inbox = s.inbox
  hostPos : t.hostPos = s.hostPos

/-- Command `i` in state `s` raises cause `c` (60_exceptions.md R263). -/
def Faults (i : Instr) (s : State) (c : Cause) : Prop :=
  ∃ t, exec i s = .next t ∧ FaultEntry (encode i) c s t

/-- `t` has what stands outside the block, and the fault record, as `s` has them. -/
def KeepsOutside (s t : State) : Prop :=
  t.inbox = s.inbox ∧ t.hostPos = s.hostPos ∧ t.pix = s.pix ∧ t.bw = s.bw ∧ t.br = s.br ∧
    t.faultNo = s.faultNo ∧ t.err = s.err ∧ t.errCause = s.errCause ∧ t.errCmdHi = s.errCmdHi ∧
    t.errCmdLo = s.errCmdLo

/-- `t` answers `v` with `ST = OK` and counts one command more than `s` (10_state.md R22,
30_encoding.md R81). -/
def Answers (s t : State) (v : Word) : Prop :=
  t.rsp = some (respOk v) ∧ t.cmdcnt = s.cmdcnt + 1

/-- Every coder slot but `(c, k)` is as before. -/
def OtherSlotsKept (s t : State) (c k : Nat) : Prop :=
  ∀ c' k', k' < 32 → ¬(c' = c ∧ k' = k) → t.slot c' k' = s.slot c' k'

/-- Every pixel byte outside pixel `off` is as before (20_memory.md R61, R62). -/
def OtherPixelsKept (s t : State) (off : Nat) : Prop :=
  ∀ a, a < 4 * off ∨ 4 * off + 4 ≤ a → t.pix.readByte a = s.pix.readByte a

/-! ### What a parameter instance must satisfy (93_implementation_defined.md) -/

/-- 43_chaos.md R176. -/
def ScoreConforms (score : Byte → Byte) : Prop :=
  score 0 = 0 ∧ (∀ r, score r = score (-r)) ∧
    (∀ q r : Byte, min q.toNat (256 - q.toNat) ≤ min r.toNat (256 - r.toNat) →
      (score q).toNat ≤ (score r).toNat) ∧
    ∀ r, (score r).toNat ≤ 128

/-- 43_chaos.md R177. -/
def ChaosMapConforms (m : Nat → Nat → Nat) : Prop :=
  (∀ row sum, row < 32 → sum ≤ 256 → m row sum ≤ row) ∧
    (∀ row s1 s2, row < 32 → s1 ≤ s2 → s2 ≤ 256 → m row s1 ≤ m row s2) ∧
    (∀ row, row < 32 → m row 0 = 0)

/-- 45_tile_filter.md R231. -/
def ColorsConform (P : Params) : Prop :=
  P.cfCount ≤ 32 ∧ ∀ j p, j < P.cfCount → P.cfInv j (P.cfFwd j p) = p

/-- 45_tile_filter.md R229. -/
def FiltersConform (P : Params) : Prop := P.sfCount ≤ 128

/-- What a table codec must keep (41_entropy_encoder.md R144, 42_entropy_decoder.md R162). -/
structure CodecConforms (P : Params) : Prop where
  /-- R144: decoding inverts encoding, for the vectors that pass the check of R163. Those `FINAL` can produce
  are among them (R142 (f)). -/
  inverts : ∀ lens rest, validLengths lens = true →
    P.tblDec lens.length (P.tblEnc lens ++ rest) = .ok (lens, rest)
  /-- R162: a table that is accepted has as many lengths as asked for, each in 0 to 16. -/
  lengths : ∀ n bs lens rest, P.tblDec n bs = .ok (lens, rest) →
    lens.length = n ∧ ∀ l ∈ lens, l.toNat ≤ maxCodeLen
  /-- R162: only the bits of the table are consumed, so whatever follows them comes next. -/
  consumes : ∀ n bs lens rest, P.tblDec n bs = .ok (lens, rest) →
    ∃ table, bs = table ++ rest ∧ ∀ other, P.tblDec n (table ++ other) = .ok (lens, other)
  /-- R162: a stream that ends inside a table is `TRUNCATED` and nothing else. -/
  truncated : ∀ n bs more lens rest, P.tblDec n (bs ++ more) = .ok (lens, rest) →
    rest.length < more.length → P.tblDec n bs = .error .truncated
  /-- R162: any other failure is `BAD_CODELEN`. It is a verdict on the bits read, so bits behind them do not
  change it. -/
  malformed : ∀ n bs more, P.tblDec n bs = .error .badCodelen → P.tblDec n (bs ++ more) = .error .badCodelen
  /-- R162: `TRUNCATED` is raised only where the stream ends inside the table, so some longer stream is not. -/
  ended : ∀ n bs, P.tblDec n bs = .error .truncated → ∃ more, P.tblDec n (bs ++ more) ≠ .error .truncated

/-! ### Invariants of the registers -/

/-- Every register `CSRW` writes holds a legal value (10_state.md R24, R26). -/
def Cfg.legal (c : Cfg) : Bool :=
  decide (1 ≤ c.imgW.toNat) && decide (1 ≤ c.imgH.toNat) &&
    decide (1 ≤ c.tileBits.toNat ∧ c.tileBits.toNat ≤ 8) &&
    decide (1 ≤ c.lYuv.toNat ∧ c.lYuv.toNat ≤ 32) && decide (1 ≤ c.lA.toNat ∧ c.lA.toNat ≤ 32) &&
    decide (1 ≤ c.lSf.toNat ∧ c.lSf.toNat ≤ 32) && decide (1 ≤ c.lCf.toNat ∧ c.lCf.toNat ≤ 32) &&
    decide (1 ≤ c.nsf.toNat ∧ c.nsf.toNat ≤ 128) && decide (1 ≤ c.ncf.toNat ∧ c.ncf.toNat ≤ 32) &&
    decide (1 ≤ c.chainLimit.toNat) && slotSelOk (c.slotSel.setWidth 32)

/-- The fault record: no fault recorded and every record register zero, or a fault with a cause code from 1 to
9 (60_exceptions.md R261, R263). -/
def State.recordOk (s : State) : Bool :=
  if s.err then decide (1 ≤ s.errCause.toNat ∧ s.errCause.toNat ≤ 9)
  else s.errCause == 0 && s.errCmdHi == 0 && s.errCmdLo == 0

/-! ### Invariants of the LZ unit (10_state.md R41 to R43, 44_lz.md R203, R206) -/

/-- The match invariants of a match in an image of `n` pixels (R41, R206). -/
def Match.legal (n : Nat) (m : Match) : Bool :=
  decide (1 ≤ m.dist.toNat) && decide (minMatch ≤ m.len.toNat) && decide (m.dist.toNat ≤ m.off.toNat) &&
    decide (m.off.toNat + m.len.toNat ≤ n) && decide (m.dist.toNat ≤ winSize) &&
    decide (m.len.toNat ≤ maxMatch)

/-- Matches in emit order that do not overlap: each starts at or after the end of the one before (R41). -/
def ordered : List Match → Bool
  | m :: m' :: ms => decide (m.off.toNat + m.len.toNat ≤ m'.off.toNat) && ordered (m' :: ms)
  | _ => true

/-- One past the last committed match, 0 when there is none (R42). -/
def coverEndOf (ms : List Match) : Nat :=
  match ms.getLast? with
  | some m => m.off.toNat + m.len.toNat
  | none => 0

/-- The pending match, as an entry it would become. -/
def Lz.pending (z : Lz) : Match := ⟨z.pOff, z.pDist, z.pLen⟩

/-- The invariants of the match list, the pending match and the copy run (R41 to R43). -/
def Lz.inv (z : Lz) : Bool :=
  z.mlist.all (Match.legal z.n.toNat) && ordered z.mlist &&
    decide (z.rdIdx.toNat ≤ z.mlist.length) && decide (z.coverEnd.toNat = coverEndOf z.mlist) &&
    (!z.pend || (z.pending.legal z.n.toNat && decide (z.coverEnd.toNat ≤ z.pOff.toNat) &&
      decide (0 < z.pSave.toNat))) &&
    (decide (z.runLeft = 0) || (decide (z.runLeft.toNat ≤ maxMatch) && decide (1 ≤ z.runDist.toNat) &&
      decide (z.runDist.toNat ≤ winSize) && decide (z.runDist.toNat ≤ z.runNext.toNat) &&
      decide (z.runNext.toNat + z.runLeft.toNat ≤ z.n.toNat)))

/-! ### Invariants of a coder slot (10_state.md R36) -/

/-- `sum of HIST[s]` for `lo ≤ s < hi`. -/
def Slot.histSum (v : Slot) (lo hi : Nat) : Nat :=
  (v.hist.map (fun e => if lo ≤ e.1 ∧ e.1 < hi then e.2.toNat else 0)).sum

/-- `sum of RUNLIST[0..RL_WR)`. -/
def Slot.runSum (v : Slot) : Nat := (v.runList.map BitVec.toNat).sum

/-- A slot being counted: zeros are never counted as literals, no counter stands beyond the table, and no
recorded run is empty (R36, 41_entropy_encoder.md R134). -/
def Slot.shapeInv (v : Slot) : Bool :=
  Sparse.wf 0 v.hist && decide (v.histAt 0 = 0) && v.hist.all (fun e => decide (e.1 < v.alpha)) &&
    v.runList.all (fun r => decide (1 ≤ r.toNat))

/-- R36 in COUNT, while no counter has saturated: the symbols presented are the literals counted, the runs
recorded at their lengths and the run being counted, and each recorded run counts as one run symbol. -/
def Slot.sumInv (v : Slot) : Bool :=
  decide (v.nadd = sat32 (v.histSum 1 v.ns.toNat + v.runSum + v.zrun.toNat)) &&
    decide (v.histSum v.ns.toNat v.alpha = v.runList.length)

/-- R36 in READY and DECODE: the lengths pass the check of 42_entropy_decoder.md R163 and the code words are
their canonical assignment. -/
def Slot.codeInv (v : Slot) : Bool :=
  Sparse.wf 0 v.len && v.len.all (fun e => decide (e.1 < v.alpha)) && validLengths v.lengths &&
    decide (v.code = canonical v.len)

/-- The part of R36 about COUNT. -/
def State.countInv (s : State) : Bool :=
  s.work.slots.all (fun e => decide (e.2.phase ≠ .count) ||
    (e.2.shapeInv && (s.work.hsat || e.2.sumInv)))

/-- The part of R36 about READY and DECODE, with what it needs of the slots being counted. -/
def State.codeInv (s : State) : Bool :=
  s.work.slots.all (fun e =>
    match e.2.phase with
    | .idle => true
    | .count => e.2.shapeInv
    | .ready => e.2.codeInv
    | .decode => e.2.codeInv)

/-! ### Invariants of the chaos and tile units (10_state.md R38, R46, R49; 45_tile_filter.md R223) -/

/-- The row buffer's table is canonical, its left border entries are 0 and no score is above 128 (R38). -/
def Chaos.inv (c : Chaos) : Bool :=
  Sparse.wf 0 c.row && c.row.all (fun e => decide (e.1 % 65536 ≠ 0) && decide (e.2.toNat ≤ 128))

/-- A map byte is a subset index, `MASK_TILE` or `TODO_TILE` (R46), where `top` bounds the subset indices. -/
def mapByteOk (top : Nat) (b : Byte) : Bool := decide (b.toNat < top) || b == maskTile || b == todoTile

/-- Tile `i` holds legal map bytes and is masked in both maps or in neither (45_tile_filter.md R223). -/
def Tile.tileOk (t : Tile) (i : Nat) : Prop :=
  mapByteOk 128 (t.sfAt i) = true ∧ mapByteOk 32 (t.cfAt i) = true ∧
    (t.sfAt i = maskTile ↔ t.cfAt i = maskTile)

/-- The latched geometry agrees with itself (10_state.md R49) and every tile is legal. -/
def Tile.inv (t : Tile) : Prop :=
  t.tx.toNat = ceilShift t.w.toNat t.b.toNat ∧ t.ty.toNat = ceilShift t.h.toNat t.b.toNat ∧
    ∀ i, t.tileOk i

/-! ### Reference definitions for claims -/

/-- Run commands in order (00_scope.md R15), collecting the responses; `none` if the model itself stops. -/
def execAll : List Instr → State → Option (State × List CmdWord)
  | [], s => some (s, [])
  | i :: is, s =>
    match exec i s with
    | .next t => (execAll is t).map (fun r => (r.1, t.rsp.getD 0 :: r.2))
    | _ => none

/-- The neighbours of pixel `(x, y)` of an image of width `w` whose pixel at offset `p` is `img p`, with the
fallbacks at the edges (45_tile_filter.md R228). -/
def imageNeighbours (img : Nat → Word) (w x y : Nat) : Nbrs :=
  let off := y * w + x
  let a := if 0 < x then rgbOf (img (off - 1)) else ⟨0, 0, 0⟩
  let b := if 0 < y then rgbOf (img (off - w)) else ⟨0, 0, 0⟩
  let c := if 0 < x ∧ 0 < y then rgbOf (img (off - w - 1)) else if 0 < y then b else a
  let d := if 0 < y ∧ x + 1 < w then rgbOf (img (off - w + 1)) else if 0 < y then b else a
  ⟨a, b, c, d⟩

/-- The number the bits of a stream stand for, first bit most significant (20_memory.md R66). -/
def bitsValue (bits : List Bool) : Nat := bits.foldl (fun n b => 2 * n + b.toNat) 0

/-- The opcodes of 30_encoding.md R93. -/
def definedOpcodes : List Nat :=
  [0x00, 0x01, 0x02, 0x03, 0x04, 0x05, 0x10, 0x11, 0x12, 0x13, 0x14, 0x18, 0x19, 0x20, 0x21, 0x22, 0x23,
   0x30, 0x31, 0x32, 0x33, 0x34, 0x35, 0x36, 0x37, 0x40, 0x41, 0x42, 0x44, 0x45, 0x46, 0x47, 0x48, 0x49,
   0x4A]

/-- The reset column of 10_state.md R24, for every register but `STATUS` (R25). -/
def Csr.resetValue : Csr → Word
  | .id => 0x47434946
  | .imgW => 1
  | .imgH => 1
  | .tileBits => 8
  | .lYuv => 1
  | .lA => 1
  | .lSf => 1
  | .lCf => 1
  | .nsf => 1
  | .ncf => 1
  | .chainLimit => 32
  | .lenPrefixCost => 8
  | .distPrefixCost => 5
  | .lzNextOff => 0xFFFFFFFF
  | _ => 0

/-- The candidates a find examines: along the chain from `c`, newest first, each below `off` and in the window,
at most so many (44_lz.md R196). -/
def examined (z : Lz) (off : Nat) : Nat → Word → List Nat
  | 0, _ => []
  | steps + 1, c =>
    if c = noneMark ∨ off ≤ c.toNat ∨ winSize < off - c.toNat then []
    else c.toNat :: (if c.toNat ≤ (z.chainAt c.toNat).toNat then [] else examined z off steps (z.chainAt c.toNat))

end Sys2Proof.Machine

namespace Sys2Proof

/-- Whether a command writes `BW` (20_memory.md R60). -/
def Instr.writesBw : Instr → Bool
  | .putb _ _ => true
  | .wrtbl _ _ => true
  | .write _ _ _ _ _ => true
  | .lzemit _ _ _ => true
  | _ => false

/-- Whether a command reads `BR` (R60). -/
def Instr.readsBr : Instr → Bool
  | .getb _ => true
  | .rdtbl _ _ => true
  | .read _ _ _ _ => true
  | .lzread _ _ => true
  | _ => false

/-- The pixel offset a command writes, if it writes one (20_memory.md R62). -/
def Instr.writesPixel (i : Instr) (s : Machine.State) : Option Nat :=
  match i with
  | .lzstep off => some off.toNat
  | .recon _ _ _ y x => some (y.toNat * s.work.tile.w.toNat + x.toNat)
  | _ => none

/-- The causes a command's own rule lists beside those of the decode check (40_system.md R120 to R125,
41_entropy_encoder.md R132 to R145, 42_entropy_decoder.md R160, R164, 43_chaos.md R178 to R182, 44_lz.md R192 to
R205, 45_tile_filter.md R222 to R243; summed up in 60_exceptions.md R261). -/
def Instr.causes : Instr → List Machine.Cause
  | .nop => []
  | .sreset => []
  | .csrw _ _ => [.illegalCmd, .policy]
  | .csrr _ => [.illegalCmd]
  | .putb _ _ => [.policy]
  | .getb _ => [.policy, .truncated]
  | .eclr _ _ _ => [.policy]
  | .add _ _ _ _ _ => [.policy, .sequence, .resource]
  | .final _ _ => [.policy, .sequence, .resource]
  | .wrtbl _ _ => [.policy, .sequence]
  | .write _ _ _ _ _ => [.policy, .sequence]
  | .rdtbl _ _ => [.policy, .truncated, .badCodelen]
  | .read _ _ _ _ => [.policy, .sequence, .truncated, .badSymbol]
  | .chinit => []
  | .chget _ _ => [.sequence, .policy]
  | .chput _ _ _ => [.sequence, .policy]
  | .chzero _ _ => [.sequence, .policy]
  | .lzinit => []
  | .lzins _ => [.sequence]
  | .lzfind _ => [.sequence, .policy, .resource]
  | .lzflush => [.sequence, .resource]
  | .lzrew => [.sequence]
  | .lzemit true _ _ => [.sequence, .policy, .resource]
  | .lzemit false _ _ => [.sequence, .policy]
  | .lzread _ _ => [.sequence, .policy, .badLz, .truncated]
  | .lzstep _ => [.sequence]
  | .tinit => [.resource]
  | .tset _ _ _ _ => [.sequence, .policy, .filterRange]
  | .tsel _ _ _ => [.sequence, .policy]
  | .resid _ _ _ _ _ => [.sequence, .policy, .filterRange]
  | .recon _ _ _ _ _ => [.sequence, .policy, .filterRange]
  | .tsclr => []
  | .tsacc _ => [.policy]
  | .tsbest _ => [.policy]
  | .tmres _ _ _ _ => [.sequence, .policy, .filterRange]
  | .tmrec _ _ _ _ _ => [.sequence, .policy, .filterRange]

end Sys2Proof
end

