-- ==== Sys2Proof/Certificates/Slice0/Obligations.lean ====
section
/-! DEFINITION. The statements for the provers. Each docstring names the rule of spec/ it formalises. Where a
statement needs an invariant of the machine (a legal configuration, the LZ invariants) it takes it as a premise,
and the invariant is a statement of its own at the end of the file. -/

open Sys2Proof Sys2Proof.Machine Sys2Proof.Config

/-! ### Encoding and the step -/

/-- Words of the spec's examples decode to the commands they stand for (30_encoding.md R80 to R93). -/
def Obligations.SpecWordsDecode : Prop :=
  decode 0x0000000000000000 = .ok .nop ∧
  decode 0x020000407F090401 = .ok (.csrw 0x0040 0x7F090401) ∧
  decode 0x1010000000000000 = .ok (.eclr true 0 0) ∧
  decode 0x1101000000010009 = .ok (.add true 0 0 1 9) ∧
  decode 0x1900050000000000 = .ok (.read false 5 0 0) ∧
  decode 0x22000300007F0003 = .ok (.chput .a 0x7F 3) ∧
  decode 0x3502000000000009 = .ok (.lzemit true 0 9) ∧
  decode 0x3600000700000100 = .ok (.lzread 7 0x100) ∧
  decode 0x4404030100010001 = .ok (.resid true 3 1 1 1) ∧
  decode 0x4A00060300010001 = .ok (.tmrec .upLeft .sf 3 1 1)

/-- Decoding the word of a well-formed command gives the command (30_encoding.md R80 to R93). -/
def Obligations.DecodeEncode : Prop :=
  ∀ i : Instr, i.wf = true → decode (encode i) = .ok i

/-- A word that decodes is the word of the well-formed command it decodes to: no bit of it is dropped, and
every reserved bit is zero (30_encoding.md R92). -/
def Obligations.EncodeDecode : Prop :=
  ∀ (w : CmdWord) (i : Instr), decode w = .ok i → i.wf = true ∧ encode i = w

/-- A step at a presented word that decodes is the command, on the state from which the word has been taken;
the host's position advances by one (10_state.md R22; the queue is the model's, log 1). -/
def Obligations.StepRunsCommand : Prop :=
  ∀ (s : State) (w : CmdWord) (rest : List HostEvent) (i : Instr),
    s.inbox = .command w :: rest → decode w = .ok i →
      step s = exec i { s with inbox := rest, hostPos := s.hostPos + 1 }

/-- The opcodes outside the map of 30_encoding.md R93, and only they, are rejected as undefined. Any word that does
not decode raises `ILLEGAL_CMD` when the block is not in the fault state (R92). That such a word touches neither
`PIX` nor the streams is the model's choice (DESIGN CHOICE, log 5), where 60_exceptions.md R264 leaves open what a
faulting command has written or taken. -/
def Obligations.RejectedWordFaults : Prop :=
  (∀ w : CmdWord, (opOf w).toNat ∉ definedOpcodes ↔ decode w = .error (.undefinedOpcode (opOf w))) ∧
  ∀ (s : State) (w : CmdWord) (rest : List HostEvent) (e : DecodeError),
    s.inbox = .command w :: rest → s.err = false → decode w = .error e →
      ∃ t, step s = .next t ∧
        FaultEntry w .illegalCmd { s with inbox := rest, hostPos := s.hostPos + 1 } t ∧
        t.pix = s.pix ∧ t.bw = s.bw ∧ t.br = s.br

/-! ### Faults, refusal and reset -/

/-- A step that enters the fault state records the cause and the faulting word, answers `FAULT`, and keeps the
count and every register `CSRW` writes; the level output follows (60_exceptions.md R263, R264). -/
def Obligations.FaultEntryRecords : Prop :=
  ∀ (s t : State) (w : CmdWord) (rest : List HostEvent),
    s.inbox = .command w :: rest → s.err = false → step s = .next t → t.err = true →
      (∃ c, FaultEntry w c { s with inbox := rest, hostPos := s.hostPos + 1 } t) ∧ t.faultOut = true

/-- A command that enters the fault state does so with a cause its own rule lists, and records its own word; so a
command whose rule lists none never faults (60_exceptions.md R263). The list of each command is the one its own rule
gives (40_system.md R120 to R125, 41_entropy_encoder.md R132, R133, R136, R143, R145, 42_entropy_decoder.md R160,
R164, 43_chaos.md R178 to R182, 44_lz.md R192, R194, R196, R200 to R202, R204, R205, 45_tile_filter.md R222, R224,
R226, R234, R235, R237 to R239, R242, R243), which is often shorter than what the summary of 60_exceptions.md R261
allows. -/
def Obligations.CausesAreTheCommandsOwn : Prop :=
  ∀ (i : Instr) (s t : State), s.err = false → exec i s = .next t → t.err = true →
    ∃ c, c ∈ i.causes ∧ FaultEntry (encode i) c s t

/-- A command that reads a pixel nothing has written stops the model, naming the pixel, and reads no value there
(20_memory.md R63, log 7): the hash of `LZINS` and `LZFIND`, the source of `LZSTEP`, the left neighbour of `RESID`
and `RECON`, the pixel of `RESID`. That a filter which does not use its left neighbour stops too is the model's
reading of 45_tile_filter.md R234 and R235 (DEDUCED, log 12). -/
def Obligations.UnwrittenPixelStops : Prop :=
  ∀ (s : State) (p : Nat), s.err = false → s.pix.readPixel p = none →
    (∀ off : Word, s.work.lz.rdy = true → off.toNat + 1 < s.work.lz.n.toNat →
      p = off.toNat ∨ (p = off.toNat + 1 ∧ s.pix.readPixel off.toNat ≠ none) →
        exec (.lzins off) s = .fault (.pixelNeverWritten p) ∧
        ((s.work.lz.pend = true → s.work.lz.pOff.toNat < off.toNat) →
          s.work.lz.coverEnd.toNat ≤ off.toNat →
            exec (.lzfind off) s = .fault (.pixelNeverWritten p))) ∧
    (s.work.lz.rdy = true → 0 < s.work.lz.runLeft.toNat →
      s.work.lz.runNext.toNat = p + s.work.lz.runDist.toNat →
        exec (.lzstep s.work.lz.runNext) s = .fault (.pixelNeverWritten p)) ∧
    (∀ (expl : Bool) (sf cf : Byte) (y x : BitVec 16) (f : Nat × Nat), s.work.tile.rdy = true →
      x.toNat < s.work.tile.w.toNat → y.toNat < s.work.tile.h.toNat →
      filters params s expl sf cf x.toNat y.toNat = .ok f →
        (0 < x.toNat → p + 1 = y.toNat * s.work.tile.w.toNat + x.toNat →
          exec (.resid expl sf cf y x) s = .fault (.pixelNeverWritten p) ∧
          exec (.recon expl sf cf y x) s = .fault (.pixelNeverWritten p)) ∧
        (p = y.toNat * s.work.tile.w.toNat + x.toNat → (∀ q, q < p → s.pix.readPixel q ≠ none) →
          exec (.resid expl sf cf y x) s = .fault (.pixelNeverWritten p)))

/-- In the fault state a well-formed `SRESET` resets, a well-formed `CSRR` of a defined address reads, and every
other word is refused with no change of state (60_exceptions.md R266). The clause about `SRESET` gives the whole
next state: the contents 10_state.md R52 leaves unspecified after a reset hold the model's values there (DESIGN
CHOICE, log 8), and the model's own counter `faultNo` is kept (DESIGN CHOICE, log 4), as are the host's queue and
position (log 1). -/
def Obligations.FaultStateRefuses : Prop :=
  ∀ (s : State) (w : CmdWord) (rest : List HostEvent), s.inbox = .command w :: rest → s.err = true →
    (w = encode .sreset →
      step s = .next { State.reset with
        inbox := rest, hostPos := s.hostPos + 1, rsp := some (respOk 0), pix := s.pix, bw := s.bw,
        br := s.br, faultNo := s.faultNo }) ∧
    (∀ a r, w = encode (.csrr a) → Csr.ofAddr a = some r →
      step s = .next { s with
        inbox := rest, hostPos := s.hostPos + 1, rsp := some (respOk (r.read s)) }) ∧
    (w ≠ encode .sreset → (∀ a, w = encode (.csrr a) → Csr.ofAddr a = none) →
      step s = .next { s with
        inbox := rest, hostPos := s.hostPos + 1, rsp := some (respRefused s.errCause) })

/-- The only exits from the fault state are `SRESET` and the hardware reset, and no second fault is recorded in it
(60_exceptions.md R267). -/
def Obligations.OnlyResetLeavesFaultState : Prop :=
  ∀ s t : State, s.err = true → step s = .next t →
    (t.err = false ∧ ∃ rest, s.inbox = .hardReset :: rest ∨ s.inbox = .command 0x0100000000000000 :: rest) ∨
    (t.err = true ∧ t.errCause = s.errCause ∧ t.errCmdHi = s.errCmdHi ∧ t.errCmdLo = s.errCmdLo ∧
      t.faultNo = s.faultNo ∧ t.cmdcnt = s.cmdcnt ∧ t.cfg = s.cfg)

/-- `SRESET` and the hardware reset input have the same effect but for the response: every register takes its
reset value, every slot is IDLE, the ready flags and the accumulators are zero (70_reset_and_hazards.md R280,
10_state.md R24, R52); `PIX` and the two streams stay as they are (R281). That the response port keeps what it held
over a hardware reset is the model's choice (DESIGN CHOICE, log 3), as are the host's queue and position (log 1,
log 16). -/
def Obligations.ResetEffects : Prop :=
  ∀ (s : State) (rest : List HostEvent), ∃ t,
    exec .sreset s = .next { t with inbox := s.inbox, rsp := some (respOk 0) } ∧
    (s.inbox = .hardReset :: rest → step s = .next { t with inbox := rest, rsp := s.rsp }) ∧
    t.pix = s.pix ∧ t.bw = s.bw ∧ t.br = s.br ∧ t.hostPos = s.hostPos ∧ t.err = false ∧
    (∀ r : Csr, r ≠ .status → r.read t = r.resetValue) ∧
    t.status = (if s.br = [] then 2 else 0) ∧
    (∀ c k, (t.slot c k).phase = .idle) ∧ ∀ f, t.work.tile.accAt f = 0

/-- Every command that ends normally is counted; a faulting or refused one is not, and the count is frozen in the
fault state. `SRESET` clears the count and is not counted (10_state.md R22, 40_system.md R121). -/
def Obligations.CommandsAreCounted : Prop :=
  ∀ (i : Instr) (s t : State), exec i s = .next t →
    (i = .sreset → t.cmdcnt = 0) ∧
    (i ≠ .sreset → s.err = true → t.cmdcnt = s.cmdcnt ∧ t.err = true) ∧
    (i ≠ .sreset → s.err = false → t.err = true → t.cmdcnt = s.cmdcnt) ∧
    (i ≠ .sreset → s.err = false → t.err = false →
      t.cmdcnt = s.cmdcnt + 1 ∧ ∃ v, t.rsp = some (respOk v))

/-- What a command of each kind leaves alone, whatever its outcome: the host's queue and position; the registers
`CSRW` writes, but for `CSRW` and `SRESET` (60_exceptions.md R264); every pixel but the one `LZSTEP` or `RECON`
names (20_memory.md R62); `BW` but for bits appended by the four commands that write it, and `BR` but for bits
taken by the four that read it (R60, R64). That this holds of a faulting command too is the model's choice (DESIGN
CHOICE, log 5, log 6), where 60_exceptions.md R264 leaves open what it has written or taken. -/
def Obligations.CommandsReachOnlyTheirOwn : Prop :=
  ∀ (i : Instr) (s t : State), exec i s = .next t →
    t.inbox = s.inbox ∧ t.hostPos = s.hostPos ∧
    (i ≠ .sreset → (∀ a v, i ≠ .csrw a v) → t.cfg = s.cfg) ∧
    (i.writesPixel s = none → t.pix = s.pix) ∧
    (∀ off, i.writesPixel s = some off → OtherPixelsKept s t off) ∧
    (∃ bits, t.bw = s.bw ++ bits) ∧ (i.writesBw = false → t.bw = s.bw) ∧
    (∃ n, t.br = s.br.drop n) ∧ (i.readsBr = false → t.br = s.br)

/-! ### System commands -/

/-- `STATUS` holds the eight flags and zero in bits 31:8 (10_state.md R25). `BR_EOS` is set exactly when `BR` has no
bits left, reading it consumes nothing, and the fault is raised by the read that needs a missing bit
(20_memory.md R67). That `BR_EOS` is so in the fault state too is the model's choice (DESIGN CHOICE, log 21). -/
def Obligations.StatusReports : Prop :=
  ∀ s : State, ∀ v, v = Csr.read .status s →
    (v.getLsbD 0 = s.err ∧ (v.getLsbD 1 = true ↔ s.br = []) ∧ v.getLsbD 2 = s.work.lz.pend ∧
      v.getLsbD 3 = decide (0 < s.work.lz.runLeft.toNat) ∧ v.getLsbD 4 = s.work.hsat ∧
      v.getLsbD 5 = s.work.ch.rdy ∧ v.getLsbD 6 = s.work.lz.rdy ∧ v.getLsbD 7 = s.work.tile.rdy ∧
      ∀ j, 8 ≤ j → v.getLsbD j = false) ∧
    (∃ t, exec (.csrr 0x0001) s = .next t ∧ t.br = s.br ∧ t.rsp = some (respOk v)) ∧
    ∀ n, s.readBits n = raise .truncated ↔ s.br.length < n

/-- The register map (10_state.md R24, R26): the register at each address, which registers may be written, and the
values legal for each. `CSRW` of a legal value to a writable register stores it and changes no other register; an
undefined address or a read-only register is `ILLEGAL_CMD`, an illegal value `POLICY` (40_system.md R122). -/
def Obligations.CsrwWrites : Prop :=
  (∀ (a16 : BitVec 16) (r : Csr), Csr.ofAddr a16 = some r ↔
    (a16.toNat, r) ∈ ([(0x0000, .id), (0x0001, .status), (0x0002, .errCause), (0x0003, .errCmdHi),
        (0x0004, .errCmdLo), (0x0005, .cmdcnt), (0x0006, .bwCount), (0x0007, .brCount)] ++
      [(0x0010, .imgW), (0x0011, .imgH), (0x0012, .tileBits), (0x0013, .lYuv), (0x0014, .lA), (0x0015, .lSf),
        (0x0016, .lCf), (0x0017, .nsf), (0x0018, .ncf)] ++
      [(0x0020, .chainLimit), (0x0021, .lenPrefixCost), (0x0022, .distPrefixCost), (0x0023, .savedPixelBits)] ++
      [(0x0028, .lzNmatch), (0x0029, .lzRdidx), (0x002A, .lzNextOff), (0x002B, .lzNextDist),
        (0x002C, .lzNextLen), (0x002D, .lzRunDist), (0x002E, .lzRunLeft), (0x002F, .lzCoverEnd),
        (0x0030, .lzPOff), (0x0031, .lzPDist), (0x0032, .lzPLen), (0x0033, .lzPSave), (0x0034, .lzN),
        (0x0035, .lzRunNext)] ++
      [(0x0038, .slotSel), (0x0039, .slotPhase), (0x003A, .slotNadd), (0x003B, .slotNwr), (0x003C, .slotZrun),
        (0x003D, .slotNruns), (0x003E, .slotRlrd)] ++
      [(0x0040, .recIn), (0x0041, .res), (0x0042, .chW), (0x0043, .tW), (0x0044, .tH), (0x0045, .tB),
        (0x0046, .tTx), (0x0047, .tTy)] : List (Nat × Csr)) ∨
    (∃ i, i < 128 ∧ a16.toNat = 0x0100 + i ∧ r = .sfSel i) ∨
    ∃ j, j < 32 ∧ a16.toNat = 0x0180 + j ∧ r = .cfSel j) ∧
  (∀ r : Csr, r.writable = true ↔
    r ∈ ([.imgW, .imgH, .tileBits, .lYuv, .lA, .lSf, .lCf, .nsf, .ncf, .chainLimit, .lenPrefixCost,
      .distPrefixCost, .savedPixelBits, .slotSel, .recIn] : List Csr) ∨ (∃ i, r = .sfSel i) ∨ ∃ j, r = .cfSel j) ∧
  (∀ (v : Word) (i j : Nat),
    (∀ e ∈ ([(.imgW, 1, 65535), (.imgH, 1, 65535), (.tileBits, 1, 8), (.lYuv, 1, 32), (.lA, 1, 32), (.lSf, 1, 32),
        (.lCf, 1, 32), (.nsf, 1, 128), (.ncf, 1, 32), (.chainLimit, 1, 65535), (.lenPrefixCost, 0, 255),
        (.distPrefixCost, 0, 255), (.savedPixelBits, 0, 255), (.recIn, 0, 4294967295), (.sfSel i, 0, 127),
        (.cfSel j, 0, 31)] : List (Csr × Nat × Nat)),
      e.1.legal v = true ↔ e.2.1 ≤ v.toNat ∧ v.toNat ≤ e.2.2) ∧
    (Csr.slotSel.legal v = true ↔ ∃ cls ctx, cls ≤ 5 ∧ ctx ≤ 31 ∧ v.toNat = 256 * cls + ctx)) ∧
  ∀ (a16 : BitVec 16) (v : Word) (s : State), s.err = false →
    (∀ r, Csr.ofAddr a16 = some r → r.writable = true → r.legal v = true →
      ∃ t, exec (.csrw a16 v) s = .next t ∧
        t = { s with cfg := t.cfg, cmdcnt := s.cmdcnt + 1, rsp := some (respOk 0) } ∧
        r.read t = v ∧ ∀ r' : Csr, r'.writable = true → r' ≠ r → r'.read t = r'.read s) ∧
    (Csr.ofAddr a16 = none → Faults (.csrw a16 v) s .illegalCmd) ∧
    (∀ r, Csr.ofAddr a16 = some r → r.writable = false → Faults (.csrw a16 v) s .illegalCmd) ∧
    (∀ r, Csr.ofAddr a16 = some r → r.writable = true → r.legal v = false →
      Faults (.csrw a16 v) s .policy)

/-- `NOP` answers 0 and `CSRR` the register it names; both are counted and change nothing else. A `CSRR` of an
undefined address is `ILLEGAL_CMD` (40_system.md R120, R123). Each register reads what the table of 10_state.md R24
says, zero-extended (`STATUS` is in StatusReports): the fault record, the counters, the configuration, the LZ unit's
registers, those of the chaos and tile units; `LZ_NEXT_*` the entry of `MLIST` at `LZ_RDIDX`, or 0xFFFFFFFF, 0, 0
when there is none; the `SLOT_*` views the selected slot's fields, or 0 for a slot in IDLE (R26). -/
def Obligations.NopCsrrOnlyCount : Prop :=
  ∀ s : State, s.err = false →
    exec .nop s = .next { s with cmdcnt := s.cmdcnt + 1, rsp := some (respOk 0) } ∧
    (∀ a16 : BitVec 16,
      (∀ r, Csr.ofAddr a16 = some r →
        exec (.csrr a16) s =
          .next { s with cmdcnt := s.cmdcnt + 1, rsp := some (respOk (r.read s)) }) ∧
      (Csr.ofAddr a16 = none → Faults (.csrr a16) s .illegalCmd)) ∧
    (∀ e ∈ ([(.id, 0x47434946), (.errCause, s.errCause.setWidth 32), (.errCmdHi, s.errCmdHi),
        (.errCmdLo, s.errCmdLo), (.cmdcnt, s.cmdcnt), (.bwCount, s.work.bwCount),
        (.brCount, s.work.brCount)] ++
      [(.imgW, s.cfg.imgW.setWidth 32), (.imgH, s.cfg.imgH.setWidth 32), (.tileBits, s.cfg.tileBits.setWidth 32),
        (.lYuv, s.cfg.lYuv.setWidth 32), (.lA, s.cfg.lA.setWidth 32), (.lSf, s.cfg.lSf.setWidth 32),
        (.lCf, s.cfg.lCf.setWidth 32), (.nsf, s.cfg.nsf.setWidth 32), (.ncf, s.cfg.ncf.setWidth 32)] ++
      [(.chainLimit, s.cfg.chainLimit.setWidth 32), (.lenPrefixCost, s.cfg.lenPrefixCost.setWidth 32),
        (.distPrefixCost, s.cfg.distPrefixCost.setWidth 32),
        (.savedPixelBits, s.cfg.savedPixelBits.setWidth 32), (.slotSel, s.cfg.slotSel.setWidth 32),
        (.recIn, s.cfg.recIn)] ++
      [(.lzNmatch, BitVec.ofNat 32 s.work.lz.mlist.length), (.lzRdidx, s.work.lz.rdIdx),
        (.lzRunDist, s.work.lz.runDist), (.lzRunLeft, s.work.lz.runLeft), (.lzCoverEnd, s.work.lz.coverEnd),
        (.lzPOff, s.work.lz.pOff), (.lzPDist, s.work.lz.pDist), (.lzPLen, s.work.lz.pLen),
        (.lzPSave, s.work.lz.pSave), (.lzN, s.work.lz.n), (.lzRunNext, s.work.lz.runNext)] ++
      [(.res, s.work.tile.res), (.chW, s.work.ch.w.setWidth 32), (.tW, s.work.tile.w.setWidth 32),
        (.tH, s.work.tile.h.setWidth 32), (.tB, s.work.tile.b.setWidth 32), (.tTx, s.work.tile.tx.setWidth 32),
        (.tTy, s.work.tile.ty.setWidth 32)] : List (Csr × Word)), e.1.read s = e.2) ∧
    (∀ i, Csr.read (.sfSel i) s = (s.cfg.sfSelAt i).setWidth 32 ∧
      Csr.read (.cfSel i) s = (s.cfg.cfSelAt i).setWidth 32) ∧
    (s.work.lz.mlist.length ≤ s.work.lz.rdIdx.toNat →
      Csr.read .lzNextOff s = 0xFFFFFFFF ∧ Csr.read .lzNextDist s = 0 ∧ Csr.read .lzNextLen s = 0) ∧
    (∀ m, s.work.lz.mlist[s.work.lz.rdIdx.toNat]? = some m →
      Csr.read .lzNextOff s = m.off ∧ Csr.read .lzNextDist s = m.dist ∧ Csr.read .lzNextLen s = m.len) ∧
    ∀ c k v, k < 32 → s.cfg.slotSel.toNat = 256 * c + k → s.slot c k = v →
      (v.phase = .idle →
        ∀ r ∈ ([.slotPhase, .slotNadd, .slotNwr, .slotZrun, .slotNruns, .slotRlrd] : List Csr), r.read s = 0) ∧
      (v.phase = .count → Csr.read .slotPhase s = 1) ∧ (v.phase = .ready → Csr.read .slotPhase s = 2) ∧
      (v.phase = .decode → Csr.read .slotPhase s = 3) ∧
      (v.phase ≠ .idle →
        Csr.read .slotNadd s = v.nadd ∧ Csr.read .slotNwr s = v.nwr ∧ Csr.read .slotZrun s = v.zrun ∧
        Csr.read .slotNruns s = BitVec.ofNat 32 v.runList.length ∧ Csr.read .slotRlrd s = v.rlRd)

/-- `PUTB n, value` appends bits `n - 1` to 0 of the value, most significant first, and counts them; `GETB n` takes
the next `n` bits, first bit most significant, and counts them, and is `TRUNCATED` where fewer are left. For both,
`n > 32` is `POLICY` (40_system.md R124, R125, 20_memory.md R65, R66). -/
def Obligations.PutbGetbMoveBits : Prop :=
  ∀ (n : Byte) (v : Word) (s : State), s.err = false →
    (n.toNat ≤ 32 →
      exec (.putb n v) s = .next { s with
        bw := s.bw ++ (List.range n.toNat).map (fun j => v.getLsbD (n.toNat - 1 - j))
        work := { s.work with bwCount := s.work.bwCount + BitVec.ofNat 32 n.toNat }
        cmdcnt := s.cmdcnt + 1
        rsp := some (respOk (BitVec.ofNat 32 n.toNat)) }) ∧
    (n.toNat ≤ 32 → n.toNat ≤ s.br.length →
      exec (.getb n) s = .next { s with
        br := s.br.drop n.toNat
        work := { s.work with brCount := s.work.brCount + BitVec.ofNat 32 n.toNat }
        cmdcnt := s.cmdcnt + 1
        rsp := some (respOk (BitVec.ofNat 32 (bitsValue (s.br.take n.toNat)))) }) ∧
    (n.toNat ≤ 32 → s.br.length < n.toNat → Faults (.getb n) s .truncated) ∧
    (32 < n.toNat → Faults (.putb n v) s .policy ∧ Faults (.getb n) s .policy)

/-! ### The entropy encoder -/

/-- `ECLR` puts the slot, or with `ALL` every slot, into COUNT with every field zero and its number of literals
latched; a class above 5 or a context above 31 is `POLICY` (41_entropy_encoder.md R132). -/
def Obligations.EclrClears : Prop :=
  ∀ (cls ctx : Byte) (s : State), s.err = false →
    (∃ t, exec (.eclr true cls ctx) s = .next t ∧ Answers s t 0 ∧ KeepsOutside s t ∧ t.cfg = s.cfg ∧
      t.work = { s.work with slots := t.work.slots } ∧
      ∀ c k, c ≤ 5 → k ≤ 31 →
        t.slot c k =
          { phase := .count, ns := s.cfg.literals c, hist := [], len := [], code := [], zrun := 0,
            runList := [], rlRd := 0, nadd := 0, nwr := 0 }) ∧
    (cls.toNat ≤ 5 → ctx.toNat ≤ 31 →
      ∃ t, exec (.eclr false cls ctx) s = .next t ∧ Answers s t 0 ∧ KeepsOutside s t ∧ t.cfg = s.cfg ∧
        t.work = { s.work with slots := t.work.slots } ∧ OtherSlotsKept s t cls.toNat ctx.toNat ∧
        t.slot cls.toNat ctx.toNat =
          { phase := .count, ns := s.cfg.literals cls.toNat, hist := [], len := [], code := [], zrun := 0,
            runList := [], rlRd := 0, nadd := 0, nwr := 0 }) ∧
    (5 < cls.toNat ∨ 31 < ctx.toNat → Faults (.eclr false cls ctx) s .policy) ∧
    s.cfg.literals 0 = 268 ∧ s.cfg.literals 1 = 256 ∧ s.cfg.literals 2 = 256 ∧ s.cfg.literals 3 = 256 ∧
    (s.cfg.literals 4).toNat = s.cfg.nsf.toNat ∧ (s.cfg.literals 5).toNat = s.cfg.ncf.toNat

/-- `SlotSel`: the order of its checks, and the slot it answers; with `AUTO` the context is the chaos bin of the
lane equal to the class, else the command's own (41_entropy_encoder.md R131, 43_chaos.md R180), and it is below the
class's context count (10_state.md R30). -/
def Obligations.SlotSelResolves : Prop :=
  ∀ (P : Params) (s : State) (cls ctx : Byte) (x : BitVec 16) (lane : Lane),
    (5 < cls.toNat → ∀ auto, slotSel P s auto cls ctx x = raise .policy) ∧
    (3 < cls.toNat → slotSel P s true cls ctx x = raise .policy) ∧
    (cls.toNat = lane.code.toNat →
      (s.work.ch.rdy = false → slotSel P s true cls ctx x = raise .sequence) ∧
      (s.work.ch.rdy = true → s.work.ch.w.toNat ≤ x.toNat → slotSel P s true cls ctx x = raise .policy) ∧
      (s.work.ch.rdy = true → x.toNat < s.work.ch.w.toNat →
        ∀ k, k = P.chaosMap ((if lane = .a then s.cfg.lA else s.cfg.lYuv).toNat - 1)
            ((s.row lane x.toNat).toNat + (s.row lane (x.toNat + 1)).toNat) →
          slotSel P s true cls ctx x =
            if s.cfg.nctx cls.toNat ≤ k then raise .policy else .ok (cls.toNat, k))) ∧
    (cls.toNat ≤ 5 →
      slotSel P s false cls ctx x =
        if s.cfg.nctx cls.toNat ≤ ctx.toNat then raise .policy else .ok (cls.toNat, ctx.toNat)) ∧
    s.cfg.nctx 0 = s.cfg.lYuv.toNat ∧ s.cfg.nctx 1 = s.cfg.lYuv.toNat ∧ s.cfg.nctx 2 = s.cfg.lYuv.toNat ∧
    s.cfg.nctx 3 = s.cfg.lA.toNat ∧ s.cfg.nctx 4 = s.cfg.lSf.toNat ∧ s.cfg.nctx 5 = s.cfg.lCf.toNat

/-- `ADD` of a literal that is not zero: a run being counted is recorded at its length and counted as one run
symbol, the literal is counted, no counter passes its maximum, and a counter asked to sets `HSAT`; the response
is the context (41_entropy_encoder.md R133, R134). -/
def Obligations.AddCountsLiteral : Prop :=
  ∀ (auto : Bool) (cls ctx : Byte) (x sym : BitVec 16) (s : State) (c k : Nat) (v : Slot),
    s.err = false → s.cfg.legal = true → slotSel params s auto cls ctx x = .ok (c, k) → s.slot c k = v →
    v.phase = .count → sym ≠ 0 → sym.toNat < v.ns.toNat →
    (0 < v.zrun.toNat → v.runList.length < 1048576) →
      ∃ t w, exec (.add auto cls ctx x sym) s = .next t ∧ t.slot c k = w ∧
        Answers s t (BitVec.ofNat 32 k) ∧ KeepsOutside s t ∧ t.cfg = s.cfg ∧ OtherSlotsKept s t c k ∧
        t.work = { s.work with slots := t.work.slots, hsat := t.work.hsat } ∧
        w = { v with
          hist := w.hist, nadd := sat32 (v.nadd.toNat + 1), zrun := 0
          runList := if 0 < v.zrun.toNat then v.runList ++ [v.zrun] else v.runList } ∧
        (∀ i, (w.histAt i).toNat = min 4294967295 ((v.histAt i).toNat + (if i = sym.toNat then 1 else 0) +
          (if 0 < v.zrun.toNat ∧ i = v.ns.toNat + zsym v.zrun.toNat then 1 else 0))) ∧
        (t.work.hsat = true ↔ s.work.hsat = true ∨ (v.histAt sym.toNat).toNat = 4294967295 ∨
          (0 < v.zrun.toNat ∧ (v.histAt (v.ns.toNat + zsym v.zrun.toNat)).toNat = 4294967295))

/-- `ADD` of zero lengthens the run being counted; a run at the counter's maximum is recorded first and a new run
begins. No literal is counted (41_entropy_encoder.md R134). -/
def Obligations.AddCountsZero : Prop :=
  ∀ (auto : Bool) (cls ctx : Byte) (x : BitVec 16) (s : State) (c k : Nat) (v : Slot),
    s.err = false → s.cfg.legal = true → slotSel params s auto cls ctx x = .ok (c, k) → s.slot c k = v →
    v.phase = .count → 0 < v.ns.toNat →
    (v.zrun.toNat = 4294967295 → v.runList.length < 1048576) →
      ∃ t w, exec (.add auto cls ctx x 0) s = .next t ∧ t.slot c k = w ∧
        Answers s t (BitVec.ofNat 32 k) ∧ KeepsOutside s t ∧ t.cfg = s.cfg ∧ OtherSlotsKept s t c k ∧
        t.work = { s.work with slots := t.work.slots, hsat := t.work.hsat } ∧
        (v.zrun.toNat < 4294967295 →
          w = { v with zrun := v.zrun + 1, nadd := sat32 (v.nadd.toNat + 1) } ∧
          t.work.hsat = s.work.hsat) ∧
        (v.zrun.toNat = 4294967295 →
          w = { v with
            hist := w.hist, zrun := 1, nadd := sat32 (v.nadd.toNat + 1), runList := v.runList ++ [v.zrun] } ∧
          (∀ i, (w.histAt i).toNat = min 4294967295
            ((v.histAt i).toNat + if i = v.ns.toNat + 127 then 1 else 0)) ∧
          (t.work.hsat = true ↔ s.work.hsat = true ∨ (v.histAt (v.ns.toNat + 127)).toNat = 4294967295))

/-- `FINAL` records the last run, builds lengths and code words from the counts, and puts the slot into READY with
its run list rewound; the response is the longest length. A class above 5 or a context at or above the class's
count is `POLICY` (41_entropy_encoder.md R136). -/
def Obligations.FinalBuilds : Prop :=
  (∀ (cls ctx : Byte) (s : State), s.err = false → 5 < cls.toNat ∨ s.cfg.nctx cls.toNat ≤ ctx.toNat →
    Faults (.final cls ctx) s .policy) ∧
  ∀ (cls ctx : Byte) (s : State) (c k : Nat) (v : Slot),
    s.err = false → s.cfg.legal = true → slotSel params s false cls ctx 0 = .ok (c, k) → s.slot c k = v →
    (v.phase = .count → (0 < v.zrun.toNat → v.runList.length < 1048576) →
      ∃ t w m, exec (.final cls ctx) s = .next t ∧ t.slot c k = w ∧
        Answers s t (BitVec.ofNat 32 m) ∧ KeepsOutside s t ∧ t.cfg = s.cfg ∧ OtherSlotsKept s t c k ∧
        t.work = { s.work with slots := t.work.slots, hsat := t.work.hsat } ∧
        w = { v with
          hist := w.hist, phase := .ready, zrun := 0, rlRd := 0, nwr := 0
          runList := if 0 < v.zrun.toNat then v.runList ++ [v.zrun] else v.runList
          len := buildLengths w.hist (v.ns.toNat + 128)
          code := canonical (buildLengths w.hist (v.ns.toNat + 128)) } ∧
        (∀ i, (w.histAt i).toNat = min 4294967295 ((v.histAt i).toNat +
          (if 0 < v.zrun.toNat ∧ i = v.ns.toNat + zsym v.zrun.toNat then 1 else 0))) ∧
        (∀ i, (w.lenAt i).toNat ≤ m) ∧ (m = 0 ∨ ∃ i, (w.lenAt i).toNat = m)) ∧
    (v.phase ≠ .count → Faults (.final cls ctx) s .sequence) ∧
    (v.phase = .count → 0 < v.zrun.toNat → 1048576 ≤ v.runList.length →
      Faults (.final cls ctx) s .resource)

/-- The code words of every table that passes the check of a received table are the canonical assignment
(41_entropy_encoder.md R141): the first code word of a length follows from how many symbols have each shorter
length, within one length the symbols take consecutive code words in increasing symbol order, and a symbol without a
length has code word 0. Then the properties of a code `FINAL` builds (R142 (a) to (f)): it is complete when two or
more symbols are used; its code words fit their lengths and none is a prefix of another; exactly the counted symbols
have one; symbol 0 has none; no length is above 16; and the table passes the check of a received table. -/
def Obligations.BuiltCodeProperties : Prop :=
  (∀ (len : Sparse (BitVec 5)) (alpha : Nat) (cnt first : Nat → Nat),
    Sparse.wf 0 len = true → (∀ e ∈ len, e.1 < alpha) → validLengths (Sparse.toList 0 len alpha) = true →
    (∀ l, cnt l =
      if l = 0 then 0 else (List.range alpha).countP (fun i => decide ((Sparse.get 0 len i).toNat = l))) →
    first 0 = 0 → (∀ l, first (l + 1) = 2 * (first l + cnt l)) →
      ∀ i, (Sparse.get 0 (canonical len) i).toNat =
        if Sparse.get 0 len i = 0 then 0
        else first (Sparse.get 0 len i).toNat +
          (List.range i).countP (fun j => decide (Sparse.get 0 len j = Sparse.get 0 len i))) ∧
  ∀ (hist : Sparse Word) (alpha : Nat) (len : Sparse (BitVec 5)) (code : Sparse (BitVec 16)),
    Sparse.wf 0 hist = true → (∀ e ∈ hist, 1 ≤ e.1 ∧ e.1 < alpha) → alpha ≤ 396 →
    len = buildLengths hist alpha → code = canonical len →
      (2 ≤ hist.length → (len.map (fun e => 2 ^ (16 - e.2.toNat))).sum = 2 ^ 16) ∧
      (∀ i, Sparse.get 0 len i ≠ 0 →
        (Sparse.get 0 code i).toNat < 2 ^ (Sparse.get 0 len i).toNat) ∧
      (∀ i j, Sparse.get 0 len i ≠ 0 → Sparse.get 0 len j ≠ 0 → i ≠ j →
        ¬(msbBits (Sparse.get 0 len i).toNat (Sparse.get 0 code i).toNat <+:
          msbBits (Sparse.get 0 len j).toNat (Sparse.get 0 code j).toNat)) ∧
      (∀ i, Sparse.get 0 len i ≠ 0 ↔ Sparse.get 0 hist i ≠ 0) ∧
      Sparse.get 0 len 0 = 0 ∧
      (∀ i, (Sparse.get 0 len i).toNat ≤ 16) ∧
      validLengths (Sparse.toList 0 len alpha) = true

/-- `WRTBL` appends the length of every symbol of the alphabet in five bits, in symbol order, and leaves the slot
alone; a class above 5 or a context at or above the class's count is `POLICY`, a slot not in READY `SEQUENCE`
(41_entropy_encoder.md R143, 30_encoding.md R105). -/
def Obligations.WrtblWrites : Prop :=
  (∀ (cls ctx : Byte) (s : State), s.err = false → 5 < cls.toNat ∨ s.cfg.nctx cls.toNat ≤ ctx.toNat →
    Faults (.wrtbl cls ctx) s .policy) ∧
  ∀ (cls ctx : Byte) (s : State) (c k : Nat) (v : Slot),
    s.err = false → slotSel params s false cls ctx 0 = .ok (c, k) → s.slot c k = v →
    (v.phase = .ready →
      exec (.wrtbl cls ctx) s = .next { s with
        bw := s.bw ++ (List.range (v.ns.toNat + 128)).flatMap (fun i =>
          (List.range 5).map (fun j => (v.lenAt i).getLsbD (4 - j)))
        work := { s.work with bwCount := s.work.bwCount + BitVec.ofNat 32 (5 * (v.ns.toNat + 128)) }
        cmdcnt := s.cmdcnt + 1
        rsp := some (respOk (BitVec.ofNat 32 (5 * (v.ns.toNat + 128)))) }) ∧
    (v.phase ≠ .ready → Faults (.wrtbl cls ctx) s .sequence)

/-- `WRITE`: a literal appends its code word; the first zero of a recorded run appends the run symbol's code word
and the extra bits; a zero covered by them appends nothing (41_entropy_encoder.md R145, R146). -/
def Obligations.WriteEmits : Prop :=
  ∀ (auto : Bool) (cls ctx : Byte) (x sym : BitVec 16) (s : State) (c k : Nat) (v : Slot),
    s.err = false → s.cfg.legal = true → slotSel params s auto cls ctx x = .ok (c, k) → s.slot c k = v →
    v.phase = .ready → sym.toNat < v.ns.toNat →
    ∀ bits w,
      (sym ≠ 0 ∧ v.zrun.toNat = 0 ∧ v.lenAt sym.toNat ≠ 0 ∧ bits = v.codeBits sym.toNat ∧ w = v) ∨
      (sym = 0 ∧ 0 < v.zrun.toNat ∧ bits = [] ∧ w = { v with zrun := v.zrun - 1 }) ∨
      (sym = 0 ∧ v.zrun.toNat = 0 ∧ ∃ r z e, v.runList[v.rlRd.toNat]? = some r ∧ z = zsym r.toNat ∧
        e = z - 96 ∧ v.lenAt (v.ns.toNat + z) ≠ 0 ∧
        bits = v.codeBits (v.ns.toNat + z) ++ msbBits e (r.toNat - 96 - 2 ^ e) ∧
        w = { v with rlRd := v.rlRd + 1, zrun := r - 1 }) →
      ∃ t, exec (.write auto cls ctx x sym) s = .next t ∧
        Answers s t (BitVec.ofNat 32 bits.length) ∧ OtherSlotsKept s t c k ∧
        t.slot c k = { w with nwr := sat32 (v.nwr.toNat + 1) } ∧ t.bw = s.bw ++ bits ∧
        t = { s with
          bw := t.bw, cmdcnt := t.cmdcnt, rsp := t.rsp
          work := { s.work with
            slots := t.work.slots, bwCount := s.work.bwCount + BitVec.ofNat 32 bits.length } }

/-! ### The entropy decoder -/

/-- `RDTBL` on a stream that starts with a table of legal fields: the table's bits are consumed and, if the lengths
are a code, the slot becomes a decoder with that code, else the cause is `BAD_CODELEN`. A field above 16 is
`BAD_CODELEN`, a stream that ends inside the table `TRUNCATED`, and a class above 5 or a context at or above the
class's count `POLICY` (42_entropy_decoder.md R160, R161, R163). That the slot keeps its meaningless `HIST` and its
`RUNLIST` is emptied is the model's choice (DESIGN CHOICE, log 15), and the response is read from R160 against
vector D14 (DEDUCED, log 19). -/
def Obligations.RdtblReads : Prop :=
  (∀ (cls ctx : Byte) (s : State), s.err = false → 5 < cls.toNat ∨ s.cfg.nctx cls.toNat ≤ ctx.toNat →
    Faults (.rdtbl cls ctx) s .policy) ∧
  ∀ (cls ctx : Byte) (s : State) (c k : Nat) (v : Slot) (lens : List (BitVec 5)) (rest : List Bool),
    s.err = false → s.cfg.legal = true → slotSel params s false cls ctx 0 = .ok (c, k) → s.slot c k = v →
    (∀ l ∈ lens, l.toNat ≤ 16) →
    s.br = lens.flatMap (fun l => msbBits 5 l.toNat) ++ rest →
    (lens.length = (s.cfg.literals c).toNat + 128 → validLengths lens = true →
      ∃ t w, exec (.rdtbl cls ctx) s = .next t ∧ t.slot c k = w ∧ t.br = rest ∧
        Answers s t (BitVec.ofNat 32 (lens.countP (fun l => l != 0))) ∧ OtherSlotsKept s t c k ∧
        t = { s with
          br := t.br, cmdcnt := t.cmdcnt, rsp := t.rsp
          work := { s.work with
            slots := t.work.slots, brCount := s.work.brCount + BitVec.ofNat 32 (5 * lens.length) } } ∧
        w = { v with
          phase := .decode, ns := s.cfg.literals c, len := w.len, code := canonical w.len, zrun := 0
          runList := [], rlRd := 0, nadd := 0, nwr := 0 } ∧
        Sparse.wf 0 w.len = true ∧ ∀ i, w.lenAt i = lens.getD i 0) ∧
    (lens.length = (s.cfg.literals c).toNat + 128 → validLengths lens = false →
      Faults (.rdtbl cls ctx) s .badCodelen) ∧
    (lens.length < (s.cfg.literals c).toNat + 128 → rest.length < 5 →
      Faults (.rdtbl cls ctx) s .truncated) ∧
    (lens.length < (s.cfg.literals c).toNat + 128 → 5 ≤ rest.length → 16 < bitsValue (rest.take 5) →
      Faults (.rdtbl cls ctx) s .badCodelen)

/-- In a slot whose table passed its check, the bits of a code word in front of any stream decode to its symbol,
and exactly they are consumed (42_entropy_decoder.md R163, R166). -/
def Obligations.CodeWordDecodes : Prop :=
  ∀ (v : Slot) (i : Nat) (rest : List Bool), v.codeInv = true → v.lenAt i ≠ 0 →
    decodeLoop v 16 0 0 (v.codeBits i ++ rest) = .ok (i, (v.lenAt i).toNat, rest)

/-- `READ` delivers an owed zero without consuming anything; else the symbol whose code word stands in front of the
stream: a literal, or the first zero of a run whose other zeros are then owed (42_entropy_decoder.md R164). -/
def Obligations.ReadDelivers : Prop :=
  ∀ (auto : Bool) (cls ctx : Byte) (x : BitVec 16) (s : State) (c k : Nat) (v : Slot),
    s.err = false → s.cfg.legal = true → slotSel params s auto cls ctx x = .ok (c, k) → s.slot c k = v →
    v.phase = .decode → v.codeInv = true →
    ∀ (val : Nat) (owed : Word) (bits rest : List Bool), s.br = bits ++ rest →
      (0 < v.zrun.toNat ∧ bits = [] ∧ val = 0 ∧ owed = v.zrun - 1) ∨
      (v.zrun.toNat = 0 ∧ val < v.ns.toNat ∧ v.lenAt val ≠ 0 ∧ bits = v.codeBits val ∧ owed = 0) ∨
      (v.zrun.toNat = 0 ∧ val = 0 ∧ ∃ z e, v.lenAt (v.ns.toNat + z) ≠ 0 ∧
        ((z < 96 ∧ bits = v.codeBits (v.ns.toNat + z) ∧ owed.toNat = z) ∨
          (96 ≤ z ∧ e < 2 ^ (z - 96) ∧ 96 + 2 ^ (z - 96) + e ≤ 4294967295 ∧
            bits = v.codeBits (v.ns.toNat + z) ++ msbBits (z - 96) e ∧
            owed.toNat = 96 + 2 ^ (z - 96) + e - 1))) →
      ∃ t, exec (.read auto cls ctx x) s = .next t ∧ t.br = rest ∧
        Answers s t (BitVec.ofNat 32 val) ∧ OtherSlotsKept s t c k ∧
        t.slot c k = { v with zrun := owed, nwr := sat32 (v.nwr.toNat + 1) } ∧
        t = { s with
          br := t.br, cmdcnt := t.cmdcnt, rsp := t.rsp
          work := { s.work with
            slots := t.work.slots, brCount := s.work.brCount + BitVec.ofNat 32 bits.length } }

/-- The faults of `ADD`, `WRITE` and `READ`, in order: those of `SlotSel`, a slot in another phase, a symbol outside
the alphabet; then for `ADD` a full run list, for `WRITE` a write pass that differs from the count pass, for `READ`
bits that match no code word (`BAD_SYMBOL` after 16 of them, `TRUNCATED` when the stream ends before), a stream that
ends inside the extra bits, a run above 2^32 - 1 (41_entropy_encoder.md R133, R134, R145, R146,
42_entropy_decoder.md R164, R166). -/
def Obligations.CoderCommandFaults : Prop :=
  ∀ (auto : Bool) (cls ctx : Byte) (x sym : BitVec 16) (s : State), s.err = false →
    (∀ e, slotSel params s auto cls ctx x = raise e →
      Faults (.add auto cls ctx x sym) s e ∧ Faults (.write auto cls ctx x sym) s e ∧
      Faults (.read auto cls ctx x) s e) ∧
    ∀ c k v, slotSel params s auto cls ctx x = .ok (c, k) → s.slot c k = v →
      (v.phase ≠ .count → Faults (.add auto cls ctx x sym) s .sequence) ∧
      (v.phase ≠ .ready → Faults (.write auto cls ctx x sym) s .sequence) ∧
      (v.phase ≠ .decode → Faults (.read auto cls ctx x) s .sequence) ∧
      (v.phase = .count → v.ns.toNat ≤ sym.toNat → Faults (.add auto cls ctx x sym) s .policy) ∧
      (v.phase = .ready → v.ns.toNat ≤ sym.toNat → Faults (.write auto cls ctx x sym) s .policy) ∧
      (v.phase = .count → sym.toNat < v.ns.toNat → 1048576 ≤ v.runList.length →
        (sym ≠ 0 ∧ 0 < v.zrun.toNat ∨ sym = 0 ∧ v.zrun.toNat = 4294967295) →
          Faults (.add auto cls ctx x sym) s .resource) ∧
      (v.phase = .ready → sym.toNat < v.ns.toNat →
        (sym = 0 ∧ v.zrun.toNat = 0 ∧ v.runList.length ≤ v.rlRd.toNat) ∨
        (sym ≠ 0 ∧ 0 < v.zrun.toNat) ∨ (sym ≠ 0 ∧ v.zrun.toNat = 0 ∧ v.lenAt sym.toNat = 0) →
          Faults (.write auto cls ctx x sym) s .sequence) ∧
      (v.phase = .decode → v.codeInv = true → v.zrun.toNat = 0 →
        ((∀ i, v.lenAt i ≠ 0 → ¬(v.codeBits i <+: s.br)) →
          (16 ≤ s.br.length → Faults (.read auto cls ctx x) s .badSymbol) ∧
          (s.br.length < 16 → Faults (.read auto cls ctx x) s .truncated)) ∧
        ∀ z rest, 96 ≤ z → v.lenAt (v.ns.toNat + z) ≠ 0 → s.br = v.codeBits (v.ns.toNat + z) ++ rest →
          (rest.length < z - 96 → Faults (.read auto cls ctx x) s .truncated) ∧
          (z - 96 ≤ rest.length → 4294967295 < 96 + 2 ^ (z - 96) + bitsValue (rest.take (z - 96)) →
            Faults (.read auto cls ctx x) s .badSymbol))

/-- The run symbol of a run of `n` zeros, its extra bits, the range of its index, and that the decoder's reading of
them gives `n` back (41_entropy_encoder.md R135, 30_encoding.md R102). -/
def Obligations.RunSymbols : Prop :=
  zsym 4294967295 = 127 ∧
  ∀ n, 1 ≤ n → n ≤ 4294967295 →
    (n ≤ 96 → zsym n = n - 1 ∧ zextraLen (zsym n) = 0) ∧
    (97 ≤ n → ∃ e, 2 ^ e ≤ n - 96 ∧ n - 96 < 2 ^ (e + 1) ∧ zsym n = 96 + e ∧ zextraLen (zsym n) = e ∧
      zextraVal n = n - 96 - 2 ^ e ∧ zextraVal n < 2 ^ e) ∧
    zsym n ≤ 127 ∧ zrunOf (zsym n) (zextraVal n) = n

/-- The coder's round trip (42_entropy_decoder.md R167): a slot cleared, fed any sequence of literals, finalised,
its table and the sequence written; a decoder slot of the same class that reads the table and then as many symbols
from a stream that starts with the bits written gets the sequence back, consumes exactly those bits and owes no
zero, and no command faults. -/
def Obligations.CoderRoundTrip : Prop :=
  ∀ (cls ctx : Byte) (q : List (BitVec 16)) (s d : State) (rest : List Bool),
    s.err = false → s.cfg.legal = true → cls.toNat ≤ 5 → ctx.toNat < s.cfg.nctx cls.toNat →
    (∀ x ∈ q, x.toNat < (s.cfg.literals cls.toNat).toNat) → q.length ≤ 1048576 →
    d.err = false → ctx.toNat < d.cfg.nctx cls.toNat →
    d.cfg.literals cls.toNat = s.cfg.literals cls.toNat →
      ∃ e r B, execAll ([.eclr false cls ctx] ++ q.map (fun x => .add false cls ctx 0 x) ++
          [.final cls ctx, .wrtbl cls ctx] ++ q.map (fun x => .write false cls ctx 0 x)) s = some (e, r) ∧
        e.err = false ∧ e.bw = s.bw ++ B ∧
        (d.br = B ++ rest →
          ∃ t r0, execAll (.rdtbl cls ctx :: q.map (fun _ => .read false cls ctx 0)) d =
              some (t, r0 :: q.map (fun x => respOk (x.setWidth 32))) ∧
            t.err = false ∧ t.br = rest ∧ (t.slot cls.toNat ctx.toNat).zrun = 0 ∧
            (t.slot cls.toNat ctx.toNat).nwr.toNat = q.length)

/-! ### The chaos unit -/

/-- `CHINIT` latches the width and zeroes the row buffer; `LZINIT` latches the pixel count, empties every bucket and
the match list, clears the pending match and the run, and does not clear the chain (43_chaos.md R178,
44_lz.md R192). -/
def Obligations.InitCommandsClear : Prop :=
  ∀ s : State, s.err = false →
    (∃ t, exec .chinit s = .next t ∧ Answers s t 0 ∧ KeepsOutside s t ∧ t.cfg = s.cfg ∧
      t.work = { s.work with ch := t.work.ch } ∧ t.work.ch.rdy = true ∧ t.work.ch.w = s.cfg.imgW ∧
      ∀ l i, t.row l i = 0) ∧
    (∃ t, exec .lzinit s = .next t ∧ Answers s t 0 ∧ KeepsOutside s t ∧ t.cfg = s.cfg ∧
      t.work = { s.work with lz := t.work.lz } ∧ t.work.lz.rdy = true ∧
      t.work.lz.n.toNat = s.cfg.imgW.toNat * s.cfg.imgH.toNat ∧ t.work.lz.chain = s.work.lz.chain ∧
      (∀ h, t.work.lz.headAt h = 0xFFFFFFFF) ∧ t.work.lz.mlist = [] ∧ t.work.lz.rdIdx = 0 ∧
      t.work.lz.coverEnd = 0 ∧ t.work.lz.pend = false ∧ t.work.lz.pOff = 0 ∧ t.work.lz.pDist = 0 ∧
      t.work.lz.pLen = 0 ∧ t.work.lz.pSave = 0 ∧ t.work.lz.runDist = 0 ∧ t.work.lz.runLeft = 0 ∧
      t.work.lz.runNext = 0)

/-- `CHGET` answers the bin of the left score and the up score under the default map and changes nothing else; it
needs the unit ready and the column in the row (43_chaos.md R177, R179, R180). -/
def Obligations.ChgetAnswersBin : Prop :=
  ∀ (lane : Lane) (x : BitVec 16) (s : State), s.err = false →
    (s.work.ch.rdy = true → x.toNat < s.work.ch.w.toNat →
      ∀ L sum, L = (if lane = .a then s.cfg.lA else s.cfg.lYuv).toNat →
        sum = (s.row lane x.toNat).toNat + (s.row lane (x.toNat + 1)).toNat →
        exec (.chget lane x) s = .next { s with
          cmdcnt := s.cmdcnt + 1
          rsp := some (respOk (BitVec.ofNat 32 (min (L - 1) (if sum = 0 then 0 else Nat.log2 sum + 1)))) }) ∧
    (s.work.ch.rdy = false → Faults (.chget lane x) s .sequence) ∧
    (s.work.ch.rdy = true → s.work.ch.w.toNat ≤ x.toNat → Faults (.chget lane x) s .policy)

/-- `CHPUT` stores the residual's score above its column in its lane, `CHZERO` stores zero there in every selected
lane; every other entry stays; both need the unit ready and the column in the row (43_chaos.md R176, R181, R182). -/
def Obligations.ChputChzeroStore : Prop :=
  ∀ (x : BitVec 16) (s : State), s.err = false →
    (s.work.ch.rdy = true → x.toNat < s.work.ch.w.toNat →
      (∀ (lane : Lane) (r : Byte), ∃ t, exec (.chput lane r x) s = .next t ∧
        Answers s t (BitVec.ofNat 32 (min r.toNat (256 - r.toNat))) ∧ KeepsOutside s t ∧ t.cfg = s.cfg ∧
        t.work = { s.work with ch := { s.work.ch with row := t.work.ch.row } } ∧
        ∀ l i, i < 65536 → (t.row l i).toNat =
          if l = lane ∧ i = x.toNat + 1 then min r.toNat (256 - r.toNat) else (s.row l i).toNat) ∧
      (∀ lanes : BitVec 4, ∃ t, exec (.chzero lanes x) s = .next t ∧ Answers s t 0 ∧ KeepsOutside s t ∧
        t.cfg = s.cfg ∧ t.work = { s.work with ch := { s.work.ch with row := t.work.ch.row } } ∧
        ∀ l i, i < 65536 → t.row l i =
          if lanes.getLsbD l.code.toNat = true ∧ i = x.toNat + 1 then 0 else s.row l i)) ∧
    (∀ (lane : Lane) (r : Byte) (lanes : BitVec 4),
      (s.work.ch.rdy = false →
        Faults (.chput lane r x) s .sequence ∧ Faults (.chzero lanes x) s .sequence) ∧
      (s.work.ch.rdy = true → s.work.ch.w.toNat ≤ x.toNat →
        Faults (.chput lane r x) s .policy ∧ Faults (.chzero lanes x) s .policy))

/-- Under every conforming map a bin is below the lane's level count, so `AUTO` never faults on its context, and
with one level every bin is 0 (43_chaos.md R185). -/
def Obligations.ChaosBinBelowLevels : Prop :=
  ∀ (P : Params) (s : State) (lane : Lane) (cls ctx : Byte) (x : BitVec 16),
    ChaosMapConforms P.chaosMap → s.cfg.legal = true → s.work.ch.inv = true →
    s.work.ch.rdy = true → x.toNat < s.work.ch.w.toNat → cls.toNat = lane.code.toNat →
      ∃ k, chaosBin P s lane x = .ok k ∧ k < (s.cfg.laneLevels lane).toNat ∧
        ((s.cfg.laneLevels lane).toNat = 1 → k = 0) ∧ slotSel P s true cls ctx x = .ok (cls.toNat, k)

/-! ### The LZ unit -/

/-- `LZINS` puts the offset at the head of the bucket of its pixel pair's hash and the old head into the chain; at
the last pixel or beyond it answers 0 and changes nothing (44_lz.md R193, R194). -/
def Obligations.LzinsInserts : Prop :=
  ∀ (off : Word) (s : State), s.err = false →
    (s.work.lz.rdy = true → s.work.lz.n.toNat ≤ off.toNat + 1 →
      exec (.lzins off) s = .next { s with cmdcnt := s.cmdcnt + 1, rsp := some (respOk 0) }) ∧
    (∀ (p0 p1 : Word) (h : Nat), s.work.lz.rdy = true → off.toNat + 1 < s.work.lz.n.toNat →
      s.pix.readPixel off.toNat = some p0 → s.pix.readPixel (off.toNat + 1) = some p1 →
      h = ((p0.toNat * 2 ^ 32 + p1.toNat) * 0x9E3779B97F4A7C15) % 2 ^ 64 / 2 ^ 46 →
        ∃ t, exec (.lzins off) s = .next t ∧ Answers s t 1 ∧ KeepsOutside s t ∧ t.cfg = s.cfg ∧
          t.work = { s.work with
            lz := { s.work.lz with head := t.work.lz.head, chain := t.work.lz.chain } } ∧
          (∀ h', t.work.lz.headAt h' = if h' = h then off else s.work.lz.headAt h') ∧
          (∀ o, t.work.lz.chainAt o =
            if o % 1048576 = off.toNat % 1048576 then s.work.lz.headAt h else s.work.lz.chainAt o)) ∧
    (s.work.lz.rdy = false → Faults (.lzins off) s .sequence)

/-- `LZFIND` over an image that has been loaded completes, where there is room for a match it may have to commit:
with no acceptable candidate it answers 0 and changes nothing; a best candidate is a true match within the limits
with positive savings, its length is the response, and it becomes the pending match, or replaces the pending match
it overlaps if it is better, or becomes the pending match after the old one has been committed to the end of the
list (44_lz.md R196 to R199, R206). -/
def Obligations.LzfindFindsTrueMatch : Prop :=
  ∀ (off : Word) (s : State), s.err = false → s.work.lz.rdy = true →
    off.toNat + 1 < s.work.lz.n.toNat → s.work.lz.coverEnd.toNat ≤ off.toNat →
    (s.work.lz.pend = true → s.work.lz.pOff.toNat < off.toNat) →
    (s.work.lz.pend = true → s.work.lz.pOff.toNat + s.work.lz.pLen.toNat ≤ off.toNat →
      s.work.lz.mlist.length < 65536) →
    (∀ p, p < s.work.lz.n.toNat → (s.pix.readPixel p).isSome = true) →
      ∃ h best t, hashAt params s off.toNat = .ok h ∧
        walk s off.toNat s.cfg.chainLimit.toNat (s.work.lz.headAt h) none = .ok best ∧
        exec (.lzfind off) s = .next t ∧ KeepsOutside s t ∧ t.cfg = s.cfg ∧
        t.work = { s.work with lz := t.work.lz } ∧
        (best = none → Answers s t 0 ∧ t.work.lz = s.work.lz) ∧
        ∀ m, best = some m →
          Answers s t (BitVec.ofNat 32 m.len) ∧ m.off = off.toNat ∧ 1 ≤ m.dist ∧ m.dist ≤ off.toNat ∧
          m.dist ≤ 1048576 ∧ 2 ≤ m.len ∧ m.len ≤ 4096 ∧ off.toNat + m.len ≤ s.work.lz.n.toNat ∧
          m.save = ((m.len * s.cfg.savedPixelBits.toNat : Nat) : Int) -
            ((s.cfg.lenPrefixCost.toNat + Nat.log2 m.len + s.cfg.distPrefixCost.toNat + Nat.log2 m.dist : Nat) :
              Int) ∧
          0 < m.save ∧
          (∀ j, j < m.len →
            s.pix.readPixel (off.toNat + j) = s.pix.readPixel (off.toNat - m.dist + j)) ∧
          ∃ save : Word, (save.toNat : Int) = m.save ∧
            (s.work.lz.pend = false →
              t.work.lz = { s.work.lz with
                pend := true, pOff := off, pDist := BitVec.ofNat 32 m.dist, pLen := BitVec.ofNat 32 m.len
                pSave := save }) ∧
            (s.work.lz.pend = true → off.toNat < s.work.lz.pOff.toNat + s.work.lz.pLen.toNat →
              t.work.lz =
                if m.save > s.work.lz.pSave.toNat ∨
                    (m.save = s.work.lz.pSave.toNat ∧ m.dist < s.work.lz.pDist.toNat)
                then { s.work.lz with
                  pOff := off, pDist := BitVec.ofNat 32 m.dist, pLen := BitVec.ofNat 32 m.len, pSave := save }
                else s.work.lz) ∧
            (s.work.lz.pend = true → s.work.lz.pOff.toNat + s.work.lz.pLen.toNat ≤ off.toNat →
              t.work.lz = { s.work.lz with
                mlist := s.work.lz.mlist ++ [⟨s.work.lz.pOff, s.work.lz.pDist, s.work.lz.pLen⟩]
                coverEnd := s.work.lz.pOff + s.work.lz.pLen
                pOff := off, pDist := BitVec.ofNat 32 m.dist, pLen := BitVec.ofNat 32 m.len, pSave := save })

/-- The candidate a find keeps is one of the candidates examined, and none examined that could be accepted is
better: none saves more, and none that saves as much is nearer (44_lz.md R196, R198). -/
def Obligations.LzfindKeepsBest : Prop :=
  ∀ (s : State) (off steps : Nat) (c0 : Word) (best : Option Cand),
    walk s off steps c0 none = .ok best →
      (∀ m, best = some m → off - m.dist ∈ examined s.work.lz off steps c0) ∧
      ∀ c ∈ examined s.work.lz off steps c0, ∀ len,
        matchLen s c off (min 4096 (s.work.lz.n.toNat - off)) 0 = .ok len → 2 ≤ len →
        0 < savings s.cfg len (off - c) →
          ∃ m, best = some m ∧ savings s.cfg len (off - c) ≤ m.save ∧
            (savings s.cfg len (off - c) = m.save → m.dist ≤ off - c)

/-- `LZFLUSH` commits a pending match to the end of the list and answers the list's length; a full list is
`RESOURCE`. `LZREW` returns to the list's first match. Both need the unit ready (44_lz.md R199 to R201). -/
def Obligations.LzflushLzrew : Prop :=
  ∀ s : State, s.err = false →
    (s.work.lz.rdy = true → s.work.lz.pend = false →
      exec .lzflush s = .next { s with
        cmdcnt := s.cmdcnt + 1, rsp := some (respOk (BitVec.ofNat 32 s.work.lz.mlist.length)) }) ∧
    (s.work.lz.rdy = true → s.work.lz.pend = true → s.work.lz.mlist.length < 65536 →
      exec .lzflush s = .next { s with
        cmdcnt := s.cmdcnt + 1
        rsp := some (respOk (BitVec.ofNat 32 (s.work.lz.mlist.length + 1)))
        work := { s.work with lz := { s.work.lz with
          mlist := s.work.lz.mlist ++ [⟨s.work.lz.pOff, s.work.lz.pDist, s.work.lz.pLen⟩]
          coverEnd := s.work.lz.pOff + s.work.lz.pLen
          pend := false, pOff := 0, pDist := 0, pLen := 0, pSave := 0 } } }) ∧
    (s.work.lz.rdy = true → s.work.lz.pend = true → 65536 ≤ s.work.lz.mlist.length →
      Faults .lzflush s .resource) ∧
    (s.work.lz.rdy = true →
      exec .lzrew s = .next { s with
        cmdcnt := s.cmdcnt + 1, rsp := some (respOk 0)
        work := { s.work with lz := { s.work.lz with rdIdx := 0 } } }) ∧
    (s.work.lz.rdy = false → Faults .lzflush s .sequence ∧ Faults .lzrew s .sequence)

/-- `LZEMIT` at the next match's offset: in count mode it does what `ADD` of the escape symbol does; in write mode
it appends the escape's code word, the length tail, the distance class and the distance tail. Either way the match
is consumed and its length answered (44_lz.md R202, 30_encoding.md R103). -/
def Obligations.LzemitEmits : Prop :=
  ∀ (ctx : Byte) (off : Word) (s : State) (m : Match) (v : Slot) (e d : Nat),
    s.err = false → s.cfg.legal = true → s.work.lz.rdy = true →
    s.work.lz.mlist[s.work.lz.rdIdx.toNat]? = some m → m.off = off → ctx.toNat < s.cfg.lYuv.toNat →
    s.slot 0 ctx.toNat = v → 2 ^ e ≤ m.len.toNat → m.len.toNat < 2 ^ (e + 1) →
    2 ^ d ≤ m.dist.toNat → m.dist.toNat < 2 ^ (d + 1) → 256 + (e - 1) < v.ns.toNat →
    (v.phase = .count → (0 < v.zrun.toNat → v.runList.length < 1048576) →
      ∃ a, exec (.add false 0 ctx 0 (BitVec.ofNat 16 (256 + (e - 1)))) s = .next a ∧ a.err = false ∧
        exec (.lzemit true ctx off) s = .next { a with
          rsp := some (respOk m.len)
          work := { a.work with lz := { s.work.lz with rdIdx := s.work.lz.rdIdx + 1 } } }) ∧
    (v.phase = .ready → v.zrun.toNat = 0 → v.lenAt (256 + (e - 1)) ≠ 0 →
      ∀ bits, bits = v.codeBits (256 + (e - 1)) ++ msbBits e (m.len.toNat - 2 ^ e) ++ msbBits 5 d ++
          msbBits d (m.dist.toNat - 2 ^ d) →
        ∃ t, exec (.lzemit false ctx off) s = .next t ∧ Answers s t m.len ∧ t.bw = s.bw ++ bits ∧
          OtherSlotsKept s t 0 ctx.toNat ∧
          t.slot 0 ctx.toNat = { v with nwr := sat32 (v.nwr.toNat + 1) } ∧
          t = { s with
            bw := t.bw, cmdcnt := t.cmdcnt, rsp := t.rsp
            work := { s.work with
              slots := t.work.slots, bwCount := s.work.bwCount + BitVec.ofNat 32 bits.length
              lz := { s.work.lz with rdIdx := s.work.lz.rdIdx + 1 } } })

/-- `LZREAD` of a length tail, a distance class and a distance tail: a sequence that keeps the match invariants
starts a run; one that breaks any of them is `BAD_LZ` (44_lz.md R204). -/
def Obligations.LzreadStartsRun : Prop :=
  ∀ (k : Byte) (off : Word) (s : State) (a d b : Nat) (rest : List Bool) (len dist : Nat),
    s.err = false → s.work.lz.rdy = true → s.work.lz.runLeft = 0 → k.toNat < 12 →
    off.toNat < s.work.lz.n.toNat → a < 2 ^ (k.toNat + 1) → d < 32 → b < 2 ^ d →
    s.br = msbBits (k.toNat + 1) a ++ msbBits 5 d ++ msbBits d b ++ rest →
    len = 2 ^ (k.toNat + 1) + a → dist = 2 ^ d + b →
    (len ≤ 4096 → d ≤ 20 → dist ≤ 1048576 → dist ≤ off.toNat → off.toNat + len ≤ s.work.lz.n.toNat →
      exec (.lzread k off) s = .next { s with
        br := rest, cmdcnt := s.cmdcnt + 1, rsp := some (respOk (BitVec.ofNat 32 len))
        work := { s.work with
          brCount := s.work.brCount + BitVec.ofNat 32 (k.toNat + 1 + 5 + d)
          lz := { s.work.lz with
            runDist := BitVec.ofNat 32 dist, runLeft := BitVec.ofNat 32 len, runNext := off } } }) ∧
    (4096 < len ∨ 20 < d ∨ 1048576 < dist ∨ off.toNat < dist ∨ s.work.lz.n.toNat < off.toNat + len →
      Faults (.lzread k off) s .badLz)

/-- Where `LZFIND`, `LZEMIT` and `LZREAD` do not do their work: `LZFIND` inside a committed match, at the last pixel
or with no acceptable candidate answers 0 and changes nothing; and their faults, in order, before any coder work or
any read of the streams. Then those within the work: `LZFIND` that must commit the pending match to a full list is
`RESOURCE`; `LZEMIT` has the faults of `CoderAdd` and `CoderWrite` of the escape symbol; `LZREAD` of a stream that
ends inside the length tail, the distance class or the distance tail is `TRUNCATED`, and of a length above 4096 or a
distance class above 20 `BAD_LZ` whatever follows it (44_lz.md R196, R199, R202, R204, 20_memory.md R77,
41_entropy_encoder.md R134, R146). -/
def Obligations.LzSkipsAndFaults : Prop :=
  ∀ (off : Word) (s : State), s.err = false →
    (s.work.lz.rdy = false →
      Faults (.lzfind off) s .sequence ∧ (∀ cnt ctx, Faults (.lzemit cnt ctx off) s .sequence) ∧
      ∀ k, Faults (.lzread k off) s .sequence) ∧
    (s.work.lz.rdy = true →
      (s.work.lz.n.toNat ≤ off.toNat → Faults (.lzfind off) s .policy) ∧
      (off.toNat < s.work.lz.n.toNat → s.work.lz.pend = true → off.toNat ≤ s.work.lz.pOff.toNat →
        Faults (.lzfind off) s .sequence) ∧
      (off.toNat < s.work.lz.n.toNat → (s.work.lz.pend = true → s.work.lz.pOff.toNat < off.toNat) →
        (off.toNat < s.work.lz.coverEnd.toNat ∨ s.work.lz.n.toNat ≤ off.toNat + 1) →
          exec (.lzfind off) s = .next { s with cmdcnt := s.cmdcnt + 1, rsp := some (respOk 0) }) ∧
      (∀ h best, off.toNat + 1 < s.work.lz.n.toNat → s.work.lz.coverEnd.toNat ≤ off.toNat →
        (s.work.lz.pend = true → s.work.lz.pOff.toNat < off.toNat) → hashAt params s off.toNat = .ok h →
        walk s off.toNat s.cfg.chainLimit.toNat (s.work.lz.headAt h) none = .ok best →
          (best = none →
            exec (.lzfind off) s = .next { s with cmdcnt := s.cmdcnt + 1, rsp := some (respOk 0) }) ∧
          (best ≠ none → s.work.lz.pend = true →
            s.work.lz.pOff.toNat + s.work.lz.pLen.toNat ≤ off.toNat → 65536 ≤ s.work.lz.mlist.length →
              Faults (.lzfind off) s .resource)) ∧
      (∀ cnt ctx, s.work.lz.mlist.length ≤ s.work.lz.rdIdx.toNat →
        Faults (.lzemit cnt ctx off) s .sequence) ∧
      (∀ cnt ctx m, s.work.lz.mlist[s.work.lz.rdIdx.toNat]? = some m →
        (m.off ≠ off → Faults (.lzemit cnt ctx off) s .sequence) ∧
        (m.off = off → s.cfg.lYuv.toNat ≤ ctx.toNat → Faults (.lzemit cnt ctx off) s .policy)) ∧
      (∀ (ctx : Byte) (m : Match) (v : Slot) (e sym : Nat),
        s.work.lz.mlist[s.work.lz.rdIdx.toNat]? = some m → m.off = off → ctx.toNat < s.cfg.lYuv.toNat →
        s.slot 0 ctx.toNat = v → 2 ^ e ≤ m.len.toNat → m.len.toNat < 2 ^ (e + 1) → sym = 256 + (e - 1) →
          (v.phase ≠ .count → Faults (.lzemit true ctx off) s .sequence) ∧
          (v.phase = .count → v.ns.toNat ≤ sym → Faults (.lzemit true ctx off) s .policy) ∧
          (v.phase = .count → sym < v.ns.toNat → 0 < v.zrun.toNat → 1048576 ≤ v.runList.length →
            Faults (.lzemit true ctx off) s .resource) ∧
          (v.phase ≠ .ready → Faults (.lzemit false ctx off) s .sequence) ∧
          (v.phase = .ready → v.ns.toNat ≤ sym → Faults (.lzemit false ctx off) s .policy) ∧
          (v.phase = .ready → sym < v.ns.toNat → 0 < v.zrun.toNat ∨ v.lenAt sym = 0 →
            Faults (.lzemit false ctx off) s .sequence)) ∧
      (∀ k, 0 < s.work.lz.runLeft.toNat → Faults (.lzread k off) s .sequence) ∧
      ∀ k : Byte, s.work.lz.runLeft = 0 →
        (12 ≤ k.toNat → Faults (.lzread k off) s .policy) ∧
        (k.toNat < 12 → s.work.lz.n.toNat ≤ off.toNat → Faults (.lzread k off) s .policy) ∧
        (k.toNat < 12 → off.toNat < s.work.lz.n.toNat →
          (s.br.length < k.toNat + 1 → Faults (.lzread k off) s .truncated) ∧
          ∀ (a : Nat) (tail : List Bool), a < 2 ^ (k.toNat + 1) → s.br = msbBits (k.toNat + 1) a ++ tail →
            (4096 < 2 ^ (k.toNat + 1) + a → Faults (.lzread k off) s .badLz) ∧
            (2 ^ (k.toNat + 1) + a ≤ 4096 →
              (tail.length < 5 → Faults (.lzread k off) s .truncated) ∧
              ∀ (d : Nat) (rest : List Bool), d < 32 → tail = msbBits 5 d ++ rest →
                (20 < d → Faults (.lzread k off) s .badLz) ∧
                (d ≤ 20 → rest.length < d → Faults (.lzread k off) s .truncated))))

/-- `LZSTEP` at the run's next pixel copies the pixel `LZ_RUN_DIST` before it, alpha included, and advances the run;
every other pixel stays. It needs the unit ready, a run, and the run's next offset (44_lz.md R205). -/
def Obligations.LzstepCopies : Prop :=
  ∀ (off : Word) (s : State), s.err = false →
    (∀ p, s.work.lz.rdy = true → 0 < s.work.lz.runLeft.toNat → off = s.work.lz.runNext →
      s.work.lz.runDist.toNat ≤ off.toNat →
      s.pix.readPixel (off.toNat - s.work.lz.runDist.toNat) = some p →
        ∃ t, exec (.lzstep off) s = .next t ∧ Answers s t (s.work.lz.runLeft - 1) ∧
          t.pix.readPixel off.toNat = some p ∧ OtherPixelsKept s t off.toNat ∧
          t = { s with
            pix := t.pix, cmdcnt := t.cmdcnt, rsp := t.rsp
            work := { s.work with lz := { s.work.lz with
              runLeft := s.work.lz.runLeft - 1, runNext := s.work.lz.runNext + 1 } } }) ∧
    (s.work.lz.rdy = false → Faults (.lzstep off) s .sequence) ∧
    (s.work.lz.rdy = true → s.work.lz.runLeft = 0 → Faults (.lzstep off) s .sequence) ∧
    (s.work.lz.rdy = true → 0 < s.work.lz.runLeft.toNat → off ≠ s.work.lz.runNext →
      Faults (.lzstep off) s .sequence)

/-- A copy run restores what was matched: if `PIX` holds an image below the run's start and the image's pixels in
the run equal those `LZ_RUN_DIST` before them, then after one `LZSTEP` for each pixel `PIX` holds the image to the
run's end, even where the run overlaps its own source (44_lz.md R206). -/
def Obligations.LzRunRestoresImage : Prop :=
  ∀ (img : Nat → Word) (s : State) (len start dist : Nat),
    s.err = false → s.work.lz.rdy = true → s.work.lz.inv = true → s.work.lz.runLeft.toNat = len → 0 < len →
    s.work.lz.runNext.toNat = start → s.work.lz.runDist.toNat = dist →
    (∀ p, p < start → s.pix.readPixel p = some (img p)) →
    (∀ j, j < len → img (start + j) = img (start + j - dist)) →
      ∃ t r, execAll ((List.range len).map (fun j => .lzstep (BitVec.ofNat 32 (start + j)))) s = some (t, r) ∧
        t.err = false ∧ t.work.lz.runLeft = 0 ∧
        ∀ p, p < start + len → t.pix.readPixel p = some (img p)

/-! ### The tile unit -/

/-- `TINIT` latches the geometry, marks every tile `TODO_TILE` and unseen, and answers the number of tiles; too many
tiles are `RESOURCE` (45_tile_filter.md R222, 10_state.md R49). -/
def Obligations.TinitLatches : Prop :=
  ∀ (s : State) (tx ty : Nat), s.err = false →
    tx = (s.cfg.imgW.toNat + 2 ^ s.cfg.tileBits.toNat - 1) / 2 ^ s.cfg.tileBits.toNat →
    ty = (s.cfg.imgH.toNat + 2 ^ s.cfg.tileBits.toNat - 1) / 2 ^ s.cfg.tileBits.toNat →
    (tx * ty ≤ 1048576 →
      ∃ t, exec .tinit s = .next t ∧ Answers s t (BitVec.ofNat 32 (tx * ty)) ∧ KeepsOutside s t ∧
        t.cfg = s.cfg ∧ t.work = { s.work with tile := t.work.tile } ∧
        t.work.tile.rdy = true ∧ t.work.tile.w = s.cfg.imgW ∧ t.work.tile.h = s.cfg.imgH ∧
        t.work.tile.b = s.cfg.tileBits ∧ t.work.tile.tx.toNat = tx ∧ t.work.tile.ty.toNat = ty ∧
        t.work.tile.acc = s.work.tile.acc ∧ t.work.tile.res = s.work.tile.res ∧
        ∀ i, t.work.tile.sfAt i = 254 ∧ t.work.tile.cfAt i = 254 ∧ t.work.tile.seenAt i = false) ∧
    (1048576 < tx * ty → Faults .tinit s .resource)

/-- `TSET` sets both map entries of a tile to legal subset indices or to `MASK_TILE`, and no other entry; its faults
in order (45_tile_filter.md R224). -/
def Obligations.TsetSetsPair : Prop :=
  ∀ (sf cf : Byte) (ty tx : BitVec 16) (s : State) (i : Nat), s.err = false →
    i = ty.toNat * s.work.tile.tx.toNat + tx.toNat →
    (s.work.tile.rdy = false → Faults (.tset sf cf ty tx) s .sequence) ∧
    (s.work.tile.rdy = true → s.work.tile.tx.toNat ≤ tx.toNat ∨ s.work.tile.ty.toNat ≤ ty.toNat →
      Faults (.tset sf cf ty tx) s .policy) ∧
    (s.work.tile.rdy = true → tx.toNat < s.work.tile.tx.toNat → ty.toNat < s.work.tile.ty.toNat →
      ((sf = 255 ∧ cf = 255) ∨
          (sf ≠ 255 ∧ cf ≠ 255 ∧ sf.toNat < s.cfg.nsf.toNat ∧ cf.toNat < s.cfg.ncf.toNat) →
        ∃ t, exec (.tset sf cf ty tx) s = .next t ∧ Answers s t 0 ∧ KeepsOutside s t ∧ t.cfg = s.cfg ∧
          t.work = { s.work with
            tile := { s.work.tile with sfMap := t.work.tile.sfMap, cfMap := t.work.tile.cfMap } } ∧
          (∀ j, t.work.tile.sfAt j = if j = i then sf else s.work.tile.sfAt j) ∧
          (∀ j, t.work.tile.cfAt j = if j = i then cf else s.work.tile.cfAt j)) ∧
      ((sf = 255 ∧ cf ≠ 255) ∨ (sf ≠ 255 ∧ cf = 255) ∨
          (sf ≠ 255 ∧ cf ≠ 255 ∧ (s.cfg.nsf.toNat ≤ sf.toNat ∨ s.cfg.ncf.toNat ≤ cf.toNat)) →
        Faults (.tset sf cf ty tx) s .filterRange))

/-- `TSEL` answers the tile's map bytes; an unmasked pixel marks the tile seen and reports whether it was the first,
a masked pixel does neither, and an unmasked pixel of a masked tile is `SEQUENCE` (45_tile_filter.md R226). -/
def Obligations.TselReportsFirstVisit : Prop :=
  ∀ (y x : BitVec 16) (s : State) (i : Nat) (val : Nat), s.err = false →
    i = (y.toNat / 2 ^ s.work.tile.b.toNat) * s.work.tile.tx.toNat + x.toNat / 2 ^ s.work.tile.b.toNat →
    val = (s.work.tile.sfAt i).toNat + 256 * (s.work.tile.cfAt i).toNat →
    (∀ msk, s.work.tile.rdy = false → Faults (.tsel msk y x) s .sequence) ∧
    (∀ msk, s.work.tile.rdy = true → s.work.tile.w.toNat ≤ x.toNat ∨ s.work.tile.h.toNat ≤ y.toNat →
      Faults (.tsel msk y x) s .policy) ∧
    (s.work.tile.rdy = true → x.toNat < s.work.tile.w.toNat → y.toNat < s.work.tile.h.toNat →
      exec (.tsel true y x) s = .next { s with
        cmdcnt := s.cmdcnt + 1, rsp := some (respOk (BitVec.ofNat 32 val)) } ∧
      (s.work.tile.sfAt i = 255 → Faults (.tsel false y x) s .sequence) ∧
      (s.work.tile.sfAt i ≠ 255 →
        ∃ t, exec (.tsel false y x) s = .next t ∧
          Answers s t (BitVec.ofNat 32 (val + if s.work.tile.seenAt i then 0 else 65536)) ∧
          KeepsOutside s t ∧ t.cfg = s.cfg ∧
          t.work = { s.work with tile := { s.work.tile with seen := t.work.tile.seen } } ∧
          ∀ j, t.work.tile.seenAt j = (decide (j = i) || s.work.tile.seenAt j)))

/-- `Filters`: explicit catalog indices or those the tile's map bytes select, and the range checks
(45_tile_filter.md R233). -/
def Obligations.FiltersResolve : Prop :=
  ∀ (P : Params) (s : State) (sf cf : Byte) (x y i : Nat) (a b : Nat),
    i = (y / 2 ^ s.work.tile.b.toNat) * s.work.tile.tx.toNat + x / 2 ^ s.work.tile.b.toNat →
    a = (s.cfg.sfSelAt (s.work.tile.sfAt i).toNat).toNat →
    b = (s.cfg.cfSelAt (s.work.tile.cfAt i).toNat).toNat →
      filters P s true sf cf x y =
        (if sf.toNat < P.sfCount ∧ cf.toNat < P.cfCount then .ok (sf.toNat, cf.toNat)
          else raise .filterRange) ∧
      filters P s false sf cf x y =
        (if (s.work.tile.sfAt i).toNat < s.cfg.nsf.toNat ∧ (s.work.tile.cfAt i).toNat < s.cfg.ncf.toNat ∧
            a < P.sfCount ∧ b < P.cfCount then .ok (a, b) else raise .filterRange)

/-- `RESID` of a pixel whose filter pair resolves, where the image has been loaded to that pixel: each channel minus
its prediction modulo 256, through the color filter, with the complemented alpha, into `RES` and the response
(45_tile_filter.md R227, R228, R234). The filters are those of the default catalogs: zero, left, up, up-left,
up-right; identity, subtract-green (R230, R232). -/
def Obligations.ResidComputes : Prop :=
  (params.sfCount = 5 ∧ params.cfCount = 2 ∧
    ∀ (n : Nbrs) (p : Rgb),
      params.sfFn 0 n = ⟨0, 0, 0⟩ ∧ params.sfFn 1 n = n.a ∧ params.sfFn 2 n = n.b ∧ params.sfFn 3 n = n.c ∧
      params.sfFn 4 n = n.d ∧ params.cfFwd 0 p = p ∧
      params.cfFwd 1 p = ⟨p.g, p.r - p.g, p.b - p.g⟩) ∧
  ∀ (expl : Bool) (sf cf : Byte) (y x : BitVec 16) (s : State), s.err = false →
    (s.work.tile.rdy = false → Faults (.resid expl sf cf y x) s .sequence) ∧
    (s.work.tile.rdy = true → s.work.tile.w.toNat ≤ x.toNat ∨ s.work.tile.h.toNat ≤ y.toNat →
      Faults (.resid expl sf cf y x) s .policy) ∧
    (s.work.tile.rdy = true → x.toNat < s.work.tile.w.toNat → y.toNat < s.work.tile.h.toNat →
      (filters params s expl sf cf x.toNat y.toNat = raise .filterRange →
        Faults (.resid expl sf cf y x) s .filterRange) ∧
      ∀ (a b off : Nat) (img : Nat → Word) (p pred : Rgb) (v : Word),
        filters params s expl sf cf x.toNat y.toNat = .ok (a, b) →
        off = y.toNat * s.work.tile.w.toNat + x.toNat →
        (∀ q, q ≤ off → s.pix.readPixel q = some (img q)) → p = rgbOf (img off) →
        pred = params.sfFn a (imageNeighbours img s.work.tile.w.toNat x.toNat y.toNat) →
        rgbOf v = params.cfFwd b ⟨p.r - pred.r, p.g - pred.g, p.b - pred.b⟩ →
        alphaOf v = 255 - alphaOf (img off) →
          exec (.resid expl sf cf y x) s = .next { s with
            cmdcnt := s.cmdcnt + 1, rsp := some (respOk v)
            work := { s.work with tile := { s.work.tile with res := v } } })

/-- `RECON` of a pixel whose filter pair resolves, where the pixels before it have been written: the inverse color
filter of `REC_IN`, plus the prediction modulo 256, with the complemented alpha, is written at the pixel and
answered; every other pixel stays (45_tile_filter.md R227, R228, R235). The filters are those of the default
catalogs (R230, R232). -/
def Obligations.ReconWrites : Prop :=
  (params.sfCount = 5 ∧ params.cfCount = 2 ∧
    ∀ (n : Nbrs) (p : Rgb),
      params.sfFn 0 n = ⟨0, 0, 0⟩ ∧ params.sfFn 1 n = n.a ∧ params.sfFn 2 n = n.b ∧ params.sfFn 3 n = n.c ∧
      params.sfFn 4 n = n.d ∧ params.cfInv 0 p = p ∧
      params.cfInv 1 p = ⟨p.g + p.r, p.r, p.b + p.r⟩) ∧
  ∀ (expl : Bool) (sf cf : Byte) (y x : BitVec 16) (s : State), s.err = false →
    (s.work.tile.rdy = false → Faults (.recon expl sf cf y x) s .sequence) ∧
    (s.work.tile.rdy = true → s.work.tile.w.toNat ≤ x.toNat ∨ s.work.tile.h.toNat ≤ y.toNat →
      Faults (.recon expl sf cf y x) s .policy) ∧
    (s.work.tile.rdy = true → x.toNat < s.work.tile.w.toNat → y.toNat < s.work.tile.h.toNat →
      (filters params s expl sf cf x.toNat y.toNat = raise .filterRange →
        Faults (.recon expl sf cf y x) s .filterRange) ∧
      ∀ (a b off : Nat) (img : Nat → Word) (d pred : Rgb) (v : Word),
        filters params s expl sf cf x.toNat y.toNat = .ok (a, b) →
        off = y.toNat * s.work.tile.w.toNat + x.toNat →
        (∀ q, q < off → s.pix.readPixel q = some (img q)) → d = params.cfInv b (rgbOf s.cfg.recIn) →
        pred = params.sfFn a (imageNeighbours img s.work.tile.w.toNat x.toNat y.toNat) →
        rgbOf v = ⟨d.r + pred.r, d.g + pred.g, d.b + pred.b⟩ → alphaOf v = 255 - alphaOf s.cfg.recIn →
          ∃ t, exec (.recon expl sf cf y x) s = .next t ∧ t.pix.readPixel off = some v ∧
            OtherPixelsKept s t off ∧
            t = { s with pix := t.pix, cmdcnt := s.cmdcnt + 1, rsp := some (respOk v) })

/-- For every conforming catalog: where the decoder has the encoder's neighbours and filter pair, `RECON` of what
`RESID` answered writes the encoder's pixel (45_tile_filter.md R236). -/
def Obligations.ReconInvertsResid : Prop :=
  ∀ (P : Params) (expl expl' : Bool) (sf cf sf' cf' : Byte) (y x : BitVec 16) (s s' u : State) (v : Word),
    ColorsConform P → residBody P expl sf cf y x s = .ok (s', v) →
    pixelReady u x y = .ok () →
    filters P u expl' sf' cf' x.toNat y.toNat = filters P s expl sf cf x.toNat y.toNat →
    neighbours u x.toNat y.toNat = neighbours s x.toNat y.toNat → u.cfg.recIn = v →
      s'.work.tile.res = v ∧
      ∃ p, s.pix.readPixel (s.work.tile.offset x.toNat y.toNat) = some p ∧
        reconBody P expl' sf' cf' y x u =
          .ok (u.writePix (u.work.tile.offset x.toNat y.toNat) p, p)

/-- `TSCLR` zeroes every accumulator; `TSACC f` adds the default scores of the three residual bytes to accumulator
`f`, saturating, and answers it; a candidate above 127 is `POLICY` (45_tile_filter.md R237, R238,
43_chaos.md R176). -/
def Obligations.ScoresAccumulate : Prop :=
  ∀ (f : Byte) (s : State), s.err = false →
    (∃ t, exec .tsclr s = .next t ∧ Answers s t 0 ∧ KeepsOutside s t ∧ t.cfg = s.cfg ∧
      t.work = { s.work with tile := { s.work.tile with acc := t.work.tile.acc } } ∧
      ∀ g, t.work.tile.accAt g = 0) ∧
    (∀ c total, f.toNat ≤ 127 → c = rgbOf s.work.tile.res →
      total = min 4294967295 ((s.work.tile.accAt f.toNat).toNat + min c.r.toNat (256 - c.r.toNat) +
        min c.g.toNat (256 - c.g.toNat) + min c.b.toNat (256 - c.b.toNat)) →
        ∃ t, exec (.tsacc f) s = .next t ∧ Answers s t (BitVec.ofNat 32 total) ∧ KeepsOutside s t ∧
          t.cfg = s.cfg ∧
          t.work = { s.work with tile := { s.work.tile with acc := t.work.tile.acc } } ∧
          ∀ g, (t.work.tile.accAt g).toNat = if g = f.toNat then total else (s.work.tile.accAt g).toNat) ∧
    (127 < f.toNat → Faults (.tsacc f) s .policy)

/-- `TSBEST n` answers the lowest candidate among the first `n` with the smallest score and changes nothing else;
`n` outside 1 to 128 is `POLICY` (45_tile_filter.md R239). -/
def Obligations.TsbestAnswersMinimum : Prop :=
  ∀ (n : Byte) (s : State), s.err = false →
    (1 ≤ n.toNat → n.toNat ≤ 128 →
      ∃ f, f < n.toNat ∧
        exec (.tsbest n) s = .next { s with
          cmdcnt := s.cmdcnt + 1, rsp := some (respOk (BitVec.ofNat 32 f)) } ∧
        ∀ g, g < n.toNat →
          (s.work.tile.accAt f).toNat ≤ (s.work.tile.accAt g).toNat ∧
          (g < f → (s.work.tile.accAt f).toNat < (s.work.tile.accAt g).toNat)) ∧
    (n.toNat < 1 ∨ 128 < n.toNat → Faults (.tsbest n) s .policy)

/-- `TMRES` answers a tile's map byte minus its prediction modulo the plane's alphabet, or bit 31 alone for a masked
tile; `TMREC` of a residual sets the map byte of the tile, and no other, to residual plus prediction modulo the
alphabet. The prediction is the map byte of the left, upper or upper-left tile, and 0 for the row filter noop,
outside the grid, for a tile not seen and for a byte outside the alphabet. Their faults in order (45_tile_filter.md
R240 to R243). -/
def Obligations.TileMapResiduals : Prop :=
  ∀ (rf : RowFilter) (plane : Plane) (r : Byte) (ty tx : BitVec 16) (s : State) (i ns dx dy j pred : Nat),
    s.err = false → i = ty.toNat * s.work.tile.tx.toNat + tx.toNat →
    ns = (if plane = .sf then s.cfg.nsf.toNat else s.cfg.ncf.toNat) →
    dx = (if rf = .left ∨ rf = .upLeft then 1 else 0) → dy = (if rf = .up ∨ rf = .upLeft then 1 else 0) →
    j = (ty.toNat - dy) * s.work.tile.tx.toNat + (tx.toNat - dx) →
    pred = (if rf = .noop ∨ tx.toNat < dx ∨ ty.toNat < dy ∨ s.work.tile.seenAt j = false ∨
        ns ≤ (s.work.tile.mapAt plane j).toNat then 0 else (s.work.tile.mapAt plane j).toNat) →
    (s.work.tile.rdy = false →
      Faults (.tmres rf plane ty tx) s .sequence ∧ Faults (.tmrec rf plane r ty tx) s .sequence) ∧
    (s.work.tile.rdy = true → s.work.tile.tx.toNat ≤ tx.toNat ∨ s.work.tile.ty.toNat ≤ ty.toNat →
      Faults (.tmres rf plane ty tx) s .policy ∧ Faults (.tmrec rf plane r ty tx) s .policy) ∧
    (s.work.tile.rdy = true → tx.toNat < s.work.tile.tx.toNat → ty.toNat < s.work.tile.ty.toNat →
      (s.work.tile.mapAt plane i = 255 →
        exec (.tmres rf plane ty tx) s = .next { s with
          cmdcnt := s.cmdcnt + 1, rsp := some (respOk 0x80000000) } ∧
        Faults (.tmrec rf plane r ty tx) s .sequence) ∧
      (s.work.tile.mapAt plane i ≠ 255 →
        (ns ≤ (s.work.tile.mapAt plane i).toNat → Faults (.tmres rf plane ty tx) s .filterRange) ∧
        ((s.work.tile.mapAt plane i).toNat < ns →
          exec (.tmres rf plane ty tx) s = .next { s with
            cmdcnt := s.cmdcnt + 1
            rsp := some (respOk (BitVec.ofNat 32
              (((s.work.tile.mapAt plane i).toNat + ns - pred) % ns))) }) ∧
        (ns ≤ r.toNat → Faults (.tmrec rf plane r ty tx) s .filterRange) ∧
        (r.toNat < ns →
          ∃ t, exec (.tmrec rf plane r ty tx) s = .next t ∧
            Answers s t (BitVec.ofNat 32 ((r.toNat + pred) % ns)) ∧ KeepsOutside s t ∧ t.cfg = s.cfg ∧
            t.work = { s.work with
              tile := { s.work.tile with sfMap := t.work.tile.sfMap, cfMap := t.work.tile.cfMap } } ∧
            ∀ p k, (t.work.tile.mapAt p k).toNat =
              if p = plane ∧ k = i then (r.toNat + pred) % ns else (s.work.tile.mapAt p k).toNat)))

/-! ### Invariants -/

/-- Every step keeps the canonical form of the pixel memory (the model's own form, 20_memory.md R61), a legal value
in every register `CSRW` writes (10_state.md R24), and a consistent fault record (60_exceptions.md R261). -/
def Obligations.RegistersAndMemoryKept : Prop :=
  ∀ s t : State, s.pix.wf = true ∧ s.cfg.legal = true ∧ s.recordOk = true → step s = .next t →
    t.pix.wf = true ∧ t.cfg.legal = true ∧ t.recordOk = true

/-- Outside the fault state every step keeps the invariants of the match list, the pending match and the copy run
(10_state.md R41 to R43, 44_lz.md R206). -/
def Obligations.LzInvariantKept : Prop :=
  ∀ s t : State, (s.err = false → s.work.lz.inv = true) → step s = .next t →
    (t.err = false → t.work.lz.inv = true)

/-- Outside the fault state every step keeps the count invariant of every slot in COUNT: while no counter has
saturated, the symbols presented are the literals counted, the runs recorded at their lengths and the run being
counted, and the run symbols counted are the runs recorded (10_state.md R36). -/
def Obligations.CountInvariantKept : Prop :=
  ∀ s t : State, (s.err = false → s.countInv = true) → step s = .next t →
    (t.err = false → t.countInv = true)

/-- Outside the fault state every step keeps the code invariant of every slot in READY or DECODE: the lengths are a
code and the code words are its canonical assignment (10_state.md R36). -/
def Obligations.CodeInvariantKept : Prop :=
  ∀ s t : State, (s.err = false → s.codeInv = true) → step s = .next t →
    (t.err = false → t.codeInv = true)

/-- Outside the fault state every step keeps the row buffer's border at zero and its scores at most 128
(10_state.md R38), the latched tile geometry consistent (R49), and every tile legal and masked in both maps or in
neither (45_tile_filter.md R223), where the registers hold legal values. It is claimed whether or not the unit is
ready, so for a step that resets it rests on the values the model gives `ROW` and the maps at reset (DESIGN CHOICE,
log 8), where 10_state.md R39, R50 and R52 leave them unspecified. -/
def Obligations.ChaosAndTileInvariantKept : Prop :=
  ∀ s t : State, s.cfg.legal = true ∧ (s.err = false → s.work.ch.inv = true ∧ s.work.tile.inv) →
    step s = .next t → (t.err = false → t.work.ch.inv = true ∧ t.work.tile.inv)

/-- The machine right after reset has every invariant. The clauses about the row buffer and the tile maps read
contents 10_state.md R52 leaves unspecified, and rest on the values the model gives them (DESIGN CHOICE, log 8); the
clause about the pixel memory rests on its being empty (DESIGN CHOICE, log 9). -/
def Obligations.InvariantsHoldAtReset : Prop :=
  State.reset.pix.wf = true ∧ State.reset.cfg.legal = true ∧ State.reset.recordOk = true ∧
    State.reset.err = false ∧ State.reset.work.lz.inv = true ∧ State.reset.countInv = true ∧
    State.reset.codeInv = true ∧ State.reset.work.ch.inv = true ∧ State.reset.work.tile.inv
end

