-- ==== Sys2Proof/Laws/Memory.lean ====
section
/-! SUPPORT. The pixel memory: reading after writing, and the canonical form every operation keeps
(20_memory.md R61, R62). -/

namespace Sys2Proof.Machine

@[simp] theorem Memory.readByte_nil (a : Nat) : Memory.readByte [] a = none := rfl

theorem Memory.readByte_cons (c : Host.Cell) (m : Memory) (a : Nat) :
    Memory.readByte (c :: m) a = if c.1 = a then some c.2 else Memory.readByte m a := rfl

/-- Reading a byte after a byte write. -/
theorem Memory.readByte_writeByte (m : Memory) (a b : Nat) (v : Byte) :
    (m.writeByte a v).readByte b = if b = a then some v else m.readByte b := by
  induction m with
  | nil => by_cases h : a = b <;> simp [Memory.writeByte, Memory.readByte_cons, h, eq_comm]
  | cons c m ih =>
    unfold Memory.writeByte
    split
    · by_cases h : a = b <;> simp_all [Memory.readByte_cons, eq_comm]
    · split
      · subst_vars; by_cases h : c.1 = b <;> simp_all [Memory.readByte_cons, eq_comm]
      · rw [Memory.readByte_cons, Memory.readByte_cons, ih]
        by_cases h : c.1 = b <;> simp_all [eq_comm]

/-- Reading a byte after a pixel write. -/
theorem Memory.readByte_writePixel (m : Memory) (off a : Nat) (p : Word) :
    (m.writePixel off p).readByte a =
      if a = 4 * off then some (p.extractLsb' 0 8)
      else if a = 4 * off + 1 then some (p.extractLsb' 8 8)
      else if a = 4 * off + 2 then some (p.extractLsb' 16 8)
      else if a = 4 * off + 3 then some (p.extractLsb' 24 8)
      else m.readByte a := by
  simp only [Memory.writePixel, Memory.readByte_writeByte]
  split_ifs <;> first | rfl | omega

theorem Memory.readByte_writePixel_ne (m : Memory) {off a : Nat} (p : Word)
    (h : a < 4 * off ∨ 4 * off + 4 ≤ a) : (m.writePixel off p).readByte a = m.readByte a := by
  rw [Memory.readByte_writePixel]
  split_ifs <;> first | rfl | omega

theorem bytes_of_word (p : Word) :
    p.extractLsb' 24 8 ++ p.extractLsb' 16 8 ++ p.extractLsb' 8 8 ++ p.extractLsb' 0 8 = p := by
  apply BitVec.eq_of_getLsbD_eq
  intro i hi
  simp only [BitVec.getLsbD_append, BitVec.getLsbD_extractLsb']
  have : i < 8 ∨ (8 ≤ i ∧ i < 16) ∨ (16 ≤ i ∧ i < 24) ∨ (24 ≤ i ∧ i < 32) := by omega
  rcases this with h | ⟨h, h'⟩ | ⟨h, h'⟩ | ⟨h, h'⟩
  · simp [h]
  · rw [if_neg (by omega), if_pos (by omega)]
    simp [show i - 8 < 8 by omega, show 8 + (i - 8) = i by omega]
  · rw [if_neg (by omega), if_neg (by omega), if_pos (by omega)]
    simp [show i - 8 - 8 < 8 by omega, show 16 + (i - 8 - 8) = i by omega]
  · rw [if_neg (by omega), if_neg (by omega), if_neg (by omega)]
    simp [show i - 8 - 8 - 8 < 8 by omega, show 24 + (i - 8 - 8 - 8) = i by omega]

/-- A pixel written is the pixel read. -/
@[simp] theorem Memory.readPixel_writePixel_same (m : Memory) (off : Nat) (p : Word) :
    (m.writePixel off p).readPixel off = some p := by
  simp [Memory.readPixel, Memory.readByte_writePixel, bytes_of_word]

/-- A pixel write leaves every other pixel alone. -/
theorem Memory.readPixel_writePixel_ne (m : Memory) {off off' : Nat} (p : Word) (h : off' ≠ off) :
    (m.writePixel off p).readPixel off' = m.readPixel off' := by
  have h4 : ∀ k, k < 4 → (m.writePixel off p).readByte (4 * off' + k) = m.readByte (4 * off' + k) :=
    fun k hk => Memory.readByte_writePixel_ne m p (by omega)
  have h0 := h4 0 (by omega)
  simp only [Nat.add_zero] at h0
  unfold Memory.readPixel
  rw [h0, h4 1 (by omega), h4 2 (by omega), h4 3 (by omega)]

theorem Memory.wfFrom_mono {m : Memory} {lo lo' : Nat} (h : lo' ≤ lo) (hm : Memory.wfFrom lo m = true) :
    Memory.wfFrom lo' m = true := by
  cases m with
  | nil => rfl
  | cons c m =>
    simp only [Memory.wfFrom, Bool.and_eq_true, decide_eq_true_eq] at *
    exact ⟨h.trans hm.1, hm.2⟩

theorem Memory.wfFrom_writeByte {m : Memory} {lo a : Nat} (v : Byte) (ha : lo ≤ a)
    (hm : Memory.wfFrom lo m = true) : Memory.wfFrom lo (m.writeByte a v) = true := by
  induction m generalizing lo with
  | nil => simp [Memory.writeByte, Memory.wfFrom, ha]
  | cons c m ih =>
    simp only [Memory.wfFrom, Bool.and_eq_true, decide_eq_true_eq] at hm
    unfold Memory.writeByte
    split
    · simp only [Memory.wfFrom, Bool.and_eq_true, decide_eq_true_eq]
      exact ⟨ha, by omega, hm.2⟩
    · split
      · simp only [Memory.wfFrom, Bool.and_eq_true, decide_eq_true_eq]
        exact ⟨ha, by subst_vars; exact hm.2⟩
      · simp only [Memory.wfFrom, Bool.and_eq_true, decide_eq_true_eq]
        exact ⟨hm.1, ih (by omega) hm.2⟩

/-- A byte write keeps the canonical form. -/
theorem Memory.wf_writeByte {m : Memory} (a : Nat) (v : Byte) (hm : m.wf = true) :
    (m.writeByte a v).wf = true := Memory.wfFrom_writeByte v (Nat.zero_le a) hm

/-- A pixel write keeps the canonical form. -/
theorem Memory.wf_writePixel {m : Memory} (off : Nat) (p : Word) (hm : m.wf = true) :
    (m.writePixel off p).wf = true :=
  Memory.wf_writeByte _ _ (Memory.wf_writeByte _ _ (Memory.wf_writeByte _ _ (Memory.wf_writeByte _ _ hm)))

/-- What a fault may have done to the pixel memory keeps the canonical form (log 6). -/
theorem wf_faultPix {m : Memory} (n : Nat) (r : Reach) (hm : m.wf = true) : (faultPix n r m).wf = true := by
  unfold faultPix
  split
  · split
    · exact Memory.wf_writePixel _ _ hm
    · exact hm
  · exact hm

/-- The memory right after reset has the canonical form. -/
theorem reset_pix_wf : State.reset.pix.wf = true := rfl

end Sys2Proof.Machine
end

