-- ==== Sys2Proof/Laws/State.lean ====
section
/-! SUPPORT. Every field after every named update of the state, so that no proof unfolds a record update. -/

namespace Sys2Proof.Machine

variable (s : State)

/-! ### Bits appended to `BW` (20_memory.md R65) -/

@[simp] theorem State.appendBits_inbox (bits : List Bool) : (s.appendBits bits).inbox = s.inbox := rfl
@[simp] theorem State.appendBits_hostPos (bits : List Bool) : (s.appendBits bits).hostPos = s.hostPos := rfl
@[simp] theorem State.appendBits_rsp (bits : List Bool) : (s.appendBits bits).rsp = s.rsp := rfl
@[simp] theorem State.appendBits_pix (bits : List Bool) : (s.appendBits bits).pix = s.pix := rfl
@[simp] theorem State.appendBits_bw (bits : List Bool) : (s.appendBits bits).bw = s.bw ++ bits := rfl
@[simp] theorem State.appendBits_br (bits : List Bool) : (s.appendBits bits).br = s.br := rfl
@[simp] theorem State.appendBits_faultNo (bits : List Bool) : (s.appendBits bits).faultNo = s.faultNo := rfl
@[simp] theorem State.appendBits_err (bits : List Bool) : (s.appendBits bits).err = s.err := rfl
@[simp] theorem State.appendBits_errCause (bits : List Bool) :
    (s.appendBits bits).errCause = s.errCause := rfl
@[simp] theorem State.appendBits_errCmdHi (bits : List Bool) :
    (s.appendBits bits).errCmdHi = s.errCmdHi := rfl
@[simp] theorem State.appendBits_errCmdLo (bits : List Bool) :
    (s.appendBits bits).errCmdLo = s.errCmdLo := rfl
@[simp] theorem State.appendBits_cmdcnt (bits : List Bool) : (s.appendBits bits).cmdcnt = s.cmdcnt := rfl
@[simp] theorem State.appendBits_cfg (bits : List Bool) : (s.appendBits bits).cfg = s.cfg := rfl
@[simp] theorem State.appendBits_work (bits : List Bool) :
    (s.appendBits bits).work = { s.work with bwCount := s.work.bwCount + BitVec.ofNat 32 bits.length } := rfl

/-! ### Bits taken from `BR` (20_memory.md R66) -/

@[simp] theorem State.consumed_inbox (n : Nat) (rest : List Bool) : (s.consumed n rest).inbox = s.inbox := rfl
@[simp] theorem State.consumed_hostPos (n : Nat) (rest : List Bool) :
    (s.consumed n rest).hostPos = s.hostPos := rfl
@[simp] theorem State.consumed_rsp (n : Nat) (rest : List Bool) : (s.consumed n rest).rsp = s.rsp := rfl
@[simp] theorem State.consumed_pix (n : Nat) (rest : List Bool) : (s.consumed n rest).pix = s.pix := rfl
@[simp] theorem State.consumed_bw (n : Nat) (rest : List Bool) : (s.consumed n rest).bw = s.bw := rfl
@[simp] theorem State.consumed_br (n : Nat) (rest : List Bool) : (s.consumed n rest).br = rest := rfl
@[simp] theorem State.consumed_faultNo (n : Nat) (rest : List Bool) :
    (s.consumed n rest).faultNo = s.faultNo := rfl
@[simp] theorem State.consumed_err (n : Nat) (rest : List Bool) : (s.consumed n rest).err = s.err := rfl
@[simp] theorem State.consumed_errCause (n : Nat) (rest : List Bool) :
    (s.consumed n rest).errCause = s.errCause := rfl
@[simp] theorem State.consumed_errCmdHi (n : Nat) (rest : List Bool) :
    (s.consumed n rest).errCmdHi = s.errCmdHi := rfl
@[simp] theorem State.consumed_errCmdLo (n : Nat) (rest : List Bool) :
    (s.consumed n rest).errCmdLo = s.errCmdLo := rfl
@[simp] theorem State.consumed_cmdcnt (n : Nat) (rest : List Bool) :
    (s.consumed n rest).cmdcnt = s.cmdcnt := rfl
@[simp] theorem State.consumed_cfg (n : Nat) (rest : List Bool) : (s.consumed n rest).cfg = s.cfg := rfl
@[simp] theorem State.consumed_work (n : Nat) (rest : List Bool) :
    (s.consumed n rest).work = { s.work with brCount := s.work.brCount + BitVec.ofNat 32 n } := rfl

/-! ### A pixel stored (20_memory.md R62) -/

@[simp] theorem State.writePix_inbox (off : Nat) (p : Word) : (s.writePix off p).inbox = s.inbox := rfl
@[simp] theorem State.writePix_hostPos (off : Nat) (p : Word) : (s.writePix off p).hostPos = s.hostPos := rfl
@[simp] theorem State.writePix_rsp (off : Nat) (p : Word) : (s.writePix off p).rsp = s.rsp := rfl
@[simp] theorem State.writePix_pix (off : Nat) (p : Word) :
    (s.writePix off p).pix = s.pix.writePixel off p := rfl
@[simp] theorem State.writePix_bw (off : Nat) (p : Word) : (s.writePix off p).bw = s.bw := rfl
@[simp] theorem State.writePix_br (off : Nat) (p : Word) : (s.writePix off p).br = s.br := rfl
@[simp] theorem State.writePix_faultNo (off : Nat) (p : Word) : (s.writePix off p).faultNo = s.faultNo := rfl
@[simp] theorem State.writePix_err (off : Nat) (p : Word) : (s.writePix off p).err = s.err := rfl
@[simp] theorem State.writePix_errCause (off : Nat) (p : Word) :
    (s.writePix off p).errCause = s.errCause := rfl
@[simp] theorem State.writePix_errCmdHi (off : Nat) (p : Word) :
    (s.writePix off p).errCmdHi = s.errCmdHi := rfl
@[simp] theorem State.writePix_errCmdLo (off : Nat) (p : Word) :
    (s.writePix off p).errCmdLo = s.errCmdLo := rfl
@[simp] theorem State.writePix_cmdcnt (off : Nat) (p : Word) : (s.writePix off p).cmdcnt = s.cmdcnt := rfl
@[simp] theorem State.writePix_cfg (off : Nat) (p : Word) : (s.writePix off p).cfg = s.cfg := rfl
@[simp] theorem State.writePix_work (off : Nat) (p : Word) : (s.writePix off p).work = s.work := rfl

/-! ### A coder slot replaced (10_state.md R30) -/

@[simp] theorem State.setSlot_inbox (c k : Nat) (v : Slot) : (s.setSlot c k v).inbox = s.inbox := rfl
@[simp] theorem State.setSlot_hostPos (c k : Nat) (v : Slot) : (s.setSlot c k v).hostPos = s.hostPos := rfl
@[simp] theorem State.setSlot_rsp (c k : Nat) (v : Slot) : (s.setSlot c k v).rsp = s.rsp := rfl
@[simp] theorem State.setSlot_pix (c k : Nat) (v : Slot) : (s.setSlot c k v).pix = s.pix := rfl
@[simp] theorem State.setSlot_bw (c k : Nat) (v : Slot) : (s.setSlot c k v).bw = s.bw := rfl
@[simp] theorem State.setSlot_br (c k : Nat) (v : Slot) : (s.setSlot c k v).br = s.br := rfl
@[simp] theorem State.setSlot_faultNo (c k : Nat) (v : Slot) : (s.setSlot c k v).faultNo = s.faultNo := rfl
@[simp] theorem State.setSlot_err (c k : Nat) (v : Slot) : (s.setSlot c k v).err = s.err := rfl
@[simp] theorem State.setSlot_errCause (c k : Nat) (v : Slot) : (s.setSlot c k v).errCause = s.errCause := rfl
@[simp] theorem State.setSlot_errCmdHi (c k : Nat) (v : Slot) : (s.setSlot c k v).errCmdHi = s.errCmdHi := rfl
@[simp] theorem State.setSlot_errCmdLo (c k : Nat) (v : Slot) : (s.setSlot c k v).errCmdLo = s.errCmdLo := rfl
@[simp] theorem State.setSlot_cmdcnt (c k : Nat) (v : Slot) : (s.setSlot c k v).cmdcnt = s.cmdcnt := rfl
@[simp] theorem State.setSlot_cfg (c k : Nat) (v : Slot) : (s.setSlot c k v).cfg = s.cfg := rfl
@[simp] theorem State.setSlot_work (c k : Nat) (v : Slot) :
    (s.setSlot c k v).work = { s.work with slots := Sparse.set Slot.idle s.work.slots (slotIndex c k) v } := rfl

/-! ### A slot replaced after counting (41_entropy_encoder.md R134) -/

@[simp] theorem State.putCounted_inbox (c k : Nat) (r : Slot × Bool) :
    (s.putCounted c k r).inbox = s.inbox := rfl
@[simp] theorem State.putCounted_hostPos (c k : Nat) (r : Slot × Bool) :
    (s.putCounted c k r).hostPos = s.hostPos := rfl
@[simp] theorem State.putCounted_rsp (c k : Nat) (r : Slot × Bool) : (s.putCounted c k r).rsp = s.rsp := rfl
@[simp] theorem State.putCounted_pix (c k : Nat) (r : Slot × Bool) : (s.putCounted c k r).pix = s.pix := rfl
@[simp] theorem State.putCounted_bw (c k : Nat) (r : Slot × Bool) : (s.putCounted c k r).bw = s.bw := rfl
@[simp] theorem State.putCounted_br (c k : Nat) (r : Slot × Bool) : (s.putCounted c k r).br = s.br := rfl
@[simp] theorem State.putCounted_faultNo (c k : Nat) (r : Slot × Bool) :
    (s.putCounted c k r).faultNo = s.faultNo := rfl
@[simp] theorem State.putCounted_err (c k : Nat) (r : Slot × Bool) : (s.putCounted c k r).err = s.err := rfl
@[simp] theorem State.putCounted_errCause (c k : Nat) (r : Slot × Bool) :
    (s.putCounted c k r).errCause = s.errCause := rfl
@[simp] theorem State.putCounted_errCmdHi (c k : Nat) (r : Slot × Bool) :
    (s.putCounted c k r).errCmdHi = s.errCmdHi := rfl
@[simp] theorem State.putCounted_errCmdLo (c k : Nat) (r : Slot × Bool) :
    (s.putCounted c k r).errCmdLo = s.errCmdLo := rfl
@[simp] theorem State.putCounted_cmdcnt (c k : Nat) (r : Slot × Bool) :
    (s.putCounted c k r).cmdcnt = s.cmdcnt := rfl
@[simp] theorem State.putCounted_cfg (c k : Nat) (r : Slot × Bool) : (s.putCounted c k r).cfg = s.cfg := rfl
@[simp] theorem State.putCounted_work (c k : Nat) (r : Slot × Bool) :
    (s.putCounted c k r).work = { s.work with
      slots := Sparse.set Slot.idle s.work.slots (slotIndex c k) r.1, hsat := s.work.hsat || r.2 } := rfl

/-! ### A row-buffer entry written (10_state.md R38) -/

@[simp] theorem State.setRow_inbox (lane : Lane) (i : Nat) (v : Byte) :
    (s.setRow lane i v).inbox = s.inbox := rfl
@[simp] theorem State.setRow_hostPos (lane : Lane) (i : Nat) (v : Byte) :
    (s.setRow lane i v).hostPos = s.hostPos := rfl
@[simp] theorem State.setRow_rsp (lane : Lane) (i : Nat) (v : Byte) : (s.setRow lane i v).rsp = s.rsp := rfl
@[simp] theorem State.setRow_pix (lane : Lane) (i : Nat) (v : Byte) : (s.setRow lane i v).pix = s.pix := rfl
@[simp] theorem State.setRow_bw (lane : Lane) (i : Nat) (v : Byte) : (s.setRow lane i v).bw = s.bw := rfl
@[simp] theorem State.setRow_br (lane : Lane) (i : Nat) (v : Byte) : (s.setRow lane i v).br = s.br := rfl
@[simp] theorem State.setRow_faultNo (lane : Lane) (i : Nat) (v : Byte) :
    (s.setRow lane i v).faultNo = s.faultNo := rfl
@[simp] theorem State.setRow_err (lane : Lane) (i : Nat) (v : Byte) : (s.setRow lane i v).err = s.err := rfl
@[simp] theorem State.setRow_errCause (lane : Lane) (i : Nat) (v : Byte) :
    (s.setRow lane i v).errCause = s.errCause := rfl
@[simp] theorem State.setRow_errCmdHi (lane : Lane) (i : Nat) (v : Byte) :
    (s.setRow lane i v).errCmdHi = s.errCmdHi := rfl
@[simp] theorem State.setRow_errCmdLo (lane : Lane) (i : Nat) (v : Byte) :
    (s.setRow lane i v).errCmdLo = s.errCmdLo := rfl
@[simp] theorem State.setRow_cmdcnt (lane : Lane) (i : Nat) (v : Byte) :
    (s.setRow lane i v).cmdcnt = s.cmdcnt := rfl
@[simp] theorem State.setRow_cfg (lane : Lane) (i : Nat) (v : Byte) : (s.setRow lane i v).cfg = s.cfg := rfl
@[simp] theorem State.setRow_work (lane : Lane) (i : Nat) (v : Byte) :
    (s.setRow lane i v).work = { s.work with ch := { s.work.ch with
      row := Sparse.set 0 s.work.ch.row (rowIndex lane i) v } } := rfl

/-! ### A response without a count (40_system.md R121, R123) -/

@[simp] theorem State.answer_inbox (v : Word) : (s.answer v).inbox = s.inbox := rfl
@[simp] theorem State.answer_hostPos (v : Word) : (s.answer v).hostPos = s.hostPos := rfl
@[simp] theorem State.answer_rsp (v : Word) : (s.answer v).rsp = some (respOk v) := rfl
@[simp] theorem State.answer_pix (v : Word) : (s.answer v).pix = s.pix := rfl
@[simp] theorem State.answer_bw (v : Word) : (s.answer v).bw = s.bw := rfl
@[simp] theorem State.answer_br (v : Word) : (s.answer v).br = s.br := rfl
@[simp] theorem State.answer_faultNo (v : Word) : (s.answer v).faultNo = s.faultNo := rfl
@[simp] theorem State.answer_err (v : Word) : (s.answer v).err = s.err := rfl
@[simp] theorem State.answer_errCause (v : Word) : (s.answer v).errCause = s.errCause := rfl
@[simp] theorem State.answer_errCmdHi (v : Word) : (s.answer v).errCmdHi = s.errCmdHi := rfl
@[simp] theorem State.answer_errCmdLo (v : Word) : (s.answer v).errCmdLo = s.errCmdLo := rfl
@[simp] theorem State.answer_cmdcnt (v : Word) : (s.answer v).cmdcnt = s.cmdcnt := rfl
@[simp] theorem State.answer_cfg (v : Word) : (s.answer v).cfg = s.cfg := rfl
@[simp] theorem State.answer_work (v : Word) : (s.answer v).work = s.work := rfl

/-! ### `resp(v)` (10_state.md R22) -/

@[simp] theorem State.complete_inbox (v : Word) : (s.complete v).inbox = s.inbox := rfl
@[simp] theorem State.complete_hostPos (v : Word) : (s.complete v).hostPos = s.hostPos := rfl
@[simp] theorem State.complete_rsp (v : Word) : (s.complete v).rsp = some (respOk v) := rfl
@[simp] theorem State.complete_pix (v : Word) : (s.complete v).pix = s.pix := rfl
@[simp] theorem State.complete_bw (v : Word) : (s.complete v).bw = s.bw := rfl
@[simp] theorem State.complete_br (v : Word) : (s.complete v).br = s.br := rfl
@[simp] theorem State.complete_faultNo (v : Word) : (s.complete v).faultNo = s.faultNo := rfl
@[simp] theorem State.complete_err (v : Word) : (s.complete v).err = s.err := rfl
@[simp] theorem State.complete_errCause (v : Word) : (s.complete v).errCause = s.errCause := rfl
@[simp] theorem State.complete_errCmdHi (v : Word) : (s.complete v).errCmdHi = s.errCmdHi := rfl
@[simp] theorem State.complete_errCmdLo (v : Word) : (s.complete v).errCmdLo = s.errCmdLo := rfl
@[simp] theorem State.complete_cmdcnt (v : Word) : (s.complete v).cmdcnt = s.cmdcnt + 1 := rfl
@[simp] theorem State.complete_cfg (v : Word) : (s.complete v).cfg = s.cfg := rfl
@[simp] theorem State.complete_work (v : Word) : (s.complete v).work = s.work := rfl

/-! ### Refusal (60_exceptions.md R266) -/

@[simp] theorem State.refuse_inbox : (s.refuse).inbox = s.inbox := rfl
@[simp] theorem State.refuse_hostPos : (s.refuse).hostPos = s.hostPos := rfl
@[simp] theorem State.refuse_rsp : (s.refuse).rsp = some (respRefused s.errCause) := rfl
@[simp] theorem State.refuse_pix : (s.refuse).pix = s.pix := rfl
@[simp] theorem State.refuse_bw : (s.refuse).bw = s.bw := rfl
@[simp] theorem State.refuse_br : (s.refuse).br = s.br := rfl
@[simp] theorem State.refuse_faultNo : (s.refuse).faultNo = s.faultNo := rfl
@[simp] theorem State.refuse_err : (s.refuse).err = s.err := rfl
@[simp] theorem State.refuse_errCause : (s.refuse).errCause = s.errCause := rfl
@[simp] theorem State.refuse_errCmdHi : (s.refuse).errCmdHi = s.errCmdHi := rfl
@[simp] theorem State.refuse_errCmdLo : (s.refuse).errCmdLo = s.errCmdLo := rfl
@[simp] theorem State.refuse_cmdcnt : (s.refuse).cmdcnt = s.cmdcnt := rfl
@[simp] theorem State.refuse_cfg : (s.refuse).cfg = s.cfg := rfl
@[simp] theorem State.refuse_work : (s.refuse).work = s.work := rfl

/-! ### Fault entry (60_exceptions.md R263, R264) -/

@[simp] theorem takeFault_inbox (w : CmdWord) (c : Cause) (r : Reach) :
    (takeFault w c r s).inbox = s.inbox := rfl
@[simp] theorem takeFault_hostPos (w : CmdWord) (c : Cause) (r : Reach) :
    (takeFault w c r s).hostPos = s.hostPos := rfl
@[simp] theorem takeFault_rsp (w : CmdWord) (c : Cause) (r : Reach) :
    (takeFault w c r s).rsp = some (respFault c) := rfl
@[simp] theorem takeFault_pix (w : CmdWord) (c : Cause) (r : Reach) :
    (takeFault w c r s).pix = faultPix s.faultNo r s.pix := rfl
@[simp] theorem takeFault_bw (w : CmdWord) (c : Cause) (r : Reach) :
    (takeFault w c r s).bw = faultOutput s.faultNo r s.bw := rfl
@[simp] theorem takeFault_br (w : CmdWord) (c : Cause) (r : Reach) :
    (takeFault w c r s).br = faultInput s.faultNo r s.br := rfl
@[simp] theorem takeFault_faultNo (w : CmdWord) (c : Cause) (r : Reach) :
    (takeFault w c r s).faultNo = s.faultNo + 1 := rfl
@[simp] theorem takeFault_err (w : CmdWord) (c : Cause) (r : Reach) : (takeFault w c r s).err = true := rfl
@[simp] theorem takeFault_errCause (w : CmdWord) (c : Cause) (r : Reach) :
    (takeFault w c r s).errCause = c.code := rfl
@[simp] theorem takeFault_errCmdHi (w : CmdWord) (c : Cause) (r : Reach) :
    (takeFault w c r s).errCmdHi = w.extractLsb' 32 32 := rfl
@[simp] theorem takeFault_errCmdLo (w : CmdWord) (c : Cause) (r : Reach) :
    (takeFault w c r s).errCmdLo = w.extractLsb' 0 32 := rfl
@[simp] theorem takeFault_cmdcnt (w : CmdWord) (c : Cause) (r : Reach) :
    (takeFault w c r s).cmdcnt = s.cmdcnt := rfl
@[simp] theorem takeFault_cfg (w : CmdWord) (c : Cause) (r : Reach) : (takeFault w c r s).cfg = s.cfg := rfl
@[simp] theorem takeFault_work (w : CmdWord) (c : Cause) (r : Reach) :
    (takeFault w c r s).work = Config.workAfterFault s.faultNo := rfl

/-! ### Reset (10_state.md R52) -/

@[simp] theorem State.applyReset_inbox : (s.applyReset).inbox = s.inbox := rfl
@[simp] theorem State.applyReset_hostPos : (s.applyReset).hostPos = s.hostPos := rfl
@[simp] theorem State.applyReset_rsp : (s.applyReset).rsp = s.rsp := rfl
@[simp] theorem State.applyReset_pix : (s.applyReset).pix = s.pix := rfl
@[simp] theorem State.applyReset_bw : (s.applyReset).bw = s.bw := rfl
@[simp] theorem State.applyReset_br : (s.applyReset).br = s.br := rfl
@[simp] theorem State.applyReset_faultNo : (s.applyReset).faultNo = s.faultNo := rfl
@[simp] theorem State.applyReset_err : (s.applyReset).err = false := rfl
@[simp] theorem State.applyReset_errCause : (s.applyReset).errCause = 0 := rfl
@[simp] theorem State.applyReset_errCmdHi : (s.applyReset).errCmdHi = 0 := rfl
@[simp] theorem State.applyReset_errCmdLo : (s.applyReset).errCmdLo = 0 := rfl
@[simp] theorem State.applyReset_cmdcnt : (s.applyReset).cmdcnt = 0 := rfl
@[simp] theorem State.applyReset_cfg : (s.applyReset).cfg = Cfg.reset := rfl
@[simp] theorem State.applyReset_work : (s.applyReset).work = Work.reset := rfl

/-! ### A host event taken (log 1) -/

@[simp] theorem State.dequeue_inbox (rest : List HostEvent) : (s.dequeue rest).inbox = rest := rfl
@[simp] theorem State.dequeue_hostPos (rest : List HostEvent) : (s.dequeue rest).hostPos = s.hostPos := rfl
@[simp] theorem State.dequeue_rsp (rest : List HostEvent) : (s.dequeue rest).rsp = s.rsp := rfl
@[simp] theorem State.dequeue_pix (rest : List HostEvent) : (s.dequeue rest).pix = s.pix := rfl
@[simp] theorem State.dequeue_bw (rest : List HostEvent) : (s.dequeue rest).bw = s.bw := rfl
@[simp] theorem State.dequeue_br (rest : List HostEvent) : (s.dequeue rest).br = s.br := rfl
@[simp] theorem State.dequeue_faultNo (rest : List HostEvent) : (s.dequeue rest).faultNo = s.faultNo := rfl
@[simp] theorem State.dequeue_err (rest : List HostEvent) : (s.dequeue rest).err = s.err := rfl
@[simp] theorem State.dequeue_errCause (rest : List HostEvent) : (s.dequeue rest).errCause = s.errCause := rfl
@[simp] theorem State.dequeue_errCmdHi (rest : List HostEvent) : (s.dequeue rest).errCmdHi = s.errCmdHi := rfl
@[simp] theorem State.dequeue_errCmdLo (rest : List HostEvent) : (s.dequeue rest).errCmdLo = s.errCmdLo := rfl
@[simp] theorem State.dequeue_cmdcnt (rest : List HostEvent) : (s.dequeue rest).cmdcnt = s.cmdcnt := rfl
@[simp] theorem State.dequeue_cfg (rest : List HostEvent) : (s.dequeue rest).cfg = s.cfg := rfl
@[simp] theorem State.dequeue_work (rest : List HostEvent) : (s.dequeue rest).work = s.work := rfl

/-! ### A command taken (10_state.md R22) -/

@[simp] theorem State.taken_inbox (rest : List HostEvent) : (s.taken rest).inbox = rest := rfl
@[simp] theorem State.taken_hostPos (rest : List HostEvent) : (s.taken rest).hostPos = s.hostPos + 1 := rfl
@[simp] theorem State.taken_rsp (rest : List HostEvent) : (s.taken rest).rsp = s.rsp := rfl
@[simp] theorem State.taken_pix (rest : List HostEvent) : (s.taken rest).pix = s.pix := rfl
@[simp] theorem State.taken_bw (rest : List HostEvent) : (s.taken rest).bw = s.bw := rfl
@[simp] theorem State.taken_br (rest : List HostEvent) : (s.taken rest).br = s.br := rfl
@[simp] theorem State.taken_faultNo (rest : List HostEvent) : (s.taken rest).faultNo = s.faultNo := rfl
@[simp] theorem State.taken_err (rest : List HostEvent) : (s.taken rest).err = s.err := rfl
@[simp] theorem State.taken_errCause (rest : List HostEvent) : (s.taken rest).errCause = s.errCause := rfl
@[simp] theorem State.taken_errCmdHi (rest : List HostEvent) : (s.taken rest).errCmdHi = s.errCmdHi := rfl
@[simp] theorem State.taken_errCmdLo (rest : List HostEvent) : (s.taken rest).errCmdLo = s.errCmdLo := rfl
@[simp] theorem State.taken_cmdcnt (rest : List HostEvent) : (s.taken rest).cmdcnt = s.cmdcnt := rfl
@[simp] theorem State.taken_cfg (rest : List HostEvent) : (s.taken rest).cfg = s.cfg := rfl
@[simp] theorem State.taken_work (rest : List HostEvent) : (s.taken rest).work = s.work := rfl

/-! ### The host's pixel write (20_memory.md R63) -/

@[simp] theorem State.hostWrite_inbox (off p : Word) : (s.hostWrite off p).inbox = s.inbox := rfl
@[simp] theorem State.hostWrite_hostPos (off p : Word) : (s.hostWrite off p).hostPos = s.hostPos := rfl
@[simp] theorem State.hostWrite_rsp (off p : Word) : (s.hostWrite off p).rsp = s.rsp := rfl
@[simp] theorem State.hostWrite_pix (off p : Word) :
    (s.hostWrite off p).pix = s.pix.writePixel off.toNat p := rfl
@[simp] theorem State.hostWrite_bw (off p : Word) : (s.hostWrite off p).bw = s.bw := rfl
@[simp] theorem State.hostWrite_br (off p : Word) : (s.hostWrite off p).br = s.br := rfl
@[simp] theorem State.hostWrite_faultNo (off p : Word) : (s.hostWrite off p).faultNo = s.faultNo := rfl
@[simp] theorem State.hostWrite_err (off p : Word) : (s.hostWrite off p).err = s.err := rfl
@[simp] theorem State.hostWrite_errCause (off p : Word) : (s.hostWrite off p).errCause = s.errCause := rfl
@[simp] theorem State.hostWrite_errCmdHi (off p : Word) : (s.hostWrite off p).errCmdHi = s.errCmdHi := rfl
@[simp] theorem State.hostWrite_errCmdLo (off p : Word) : (s.hostWrite off p).errCmdLo = s.errCmdLo := rfl
@[simp] theorem State.hostWrite_cmdcnt (off p : Word) : (s.hostWrite off p).cmdcnt = s.cmdcnt := rfl
@[simp] theorem State.hostWrite_cfg (off p : Word) : (s.hostWrite off p).cfg = s.cfg := rfl
@[simp] theorem State.hostWrite_work (off p : Word) : (s.hostWrite off p).work = s.work := rfl

/-! ### The host's input stream (20_memory.md R64) -/

@[simp] theorem State.hostInput_inbox (bits : List Bool) : (s.hostInput bits).inbox = s.inbox := rfl
@[simp] theorem State.hostInput_hostPos (bits : List Bool) : (s.hostInput bits).hostPos = s.hostPos := rfl
@[simp] theorem State.hostInput_rsp (bits : List Bool) : (s.hostInput bits).rsp = s.rsp := rfl
@[simp] theorem State.hostInput_pix (bits : List Bool) : (s.hostInput bits).pix = s.pix := rfl
@[simp] theorem State.hostInput_bw (bits : List Bool) : (s.hostInput bits).bw = s.bw := rfl
@[simp] theorem State.hostInput_br (bits : List Bool) : (s.hostInput bits).br = bits := rfl
@[simp] theorem State.hostInput_faultNo (bits : List Bool) : (s.hostInput bits).faultNo = s.faultNo := rfl
@[simp] theorem State.hostInput_err (bits : List Bool) : (s.hostInput bits).err = s.err := rfl
@[simp] theorem State.hostInput_errCause (bits : List Bool) : (s.hostInput bits).errCause = s.errCause := rfl
@[simp] theorem State.hostInput_errCmdHi (bits : List Bool) : (s.hostInput bits).errCmdHi = s.errCmdHi := rfl
@[simp] theorem State.hostInput_errCmdLo (bits : List Bool) : (s.hostInput bits).errCmdLo = s.errCmdLo := rfl
@[simp] theorem State.hostInput_cmdcnt (bits : List Bool) : (s.hostInput bits).cmdcnt = s.cmdcnt := rfl
@[simp] theorem State.hostInput_cfg (bits : List Bool) : (s.hostInput bits).cfg = s.cfg := rfl
@[simp] theorem State.hostInput_work (bits : List Bool) : (s.hostInput bits).work = s.work := rfl

/-! ### The output stream taken away (20_memory.md R64) -/

@[simp] theorem State.hostOutput_inbox : (s.hostOutput).inbox = s.inbox := rfl
@[simp] theorem State.hostOutput_hostPos : (s.hostOutput).hostPos = s.hostPos := rfl
@[simp] theorem State.hostOutput_rsp : (s.hostOutput).rsp = s.rsp := rfl
@[simp] theorem State.hostOutput_pix : (s.hostOutput).pix = s.pix := rfl
@[simp] theorem State.hostOutput_bw : (s.hostOutput).bw = [] := rfl
@[simp] theorem State.hostOutput_br : (s.hostOutput).br = s.br := rfl
@[simp] theorem State.hostOutput_faultNo : (s.hostOutput).faultNo = s.faultNo := rfl
@[simp] theorem State.hostOutput_err : (s.hostOutput).err = s.err := rfl
@[simp] theorem State.hostOutput_errCause : (s.hostOutput).errCause = s.errCause := rfl
@[simp] theorem State.hostOutput_errCmdHi : (s.hostOutput).errCmdHi = s.errCmdHi := rfl
@[simp] theorem State.hostOutput_errCmdLo : (s.hostOutput).errCmdLo = s.errCmdLo := rfl
@[simp] theorem State.hostOutput_cmdcnt : (s.hostOutput).cmdcnt = s.cmdcnt := rfl
@[simp] theorem State.hostOutput_cfg : (s.hostOutput).cfg = s.cfg := rfl
@[simp] theorem State.hostOutput_work : (s.hostOutput).work = s.work := rfl

/-! ### The next word to run (log 1) -/

@[simp] theorem State.withFetchWord_inbox (nbits w : Nat) :
    (s.withFetchWord nbits w).inbox = .command (BitVec.ofNat 64 (w % 2 ^ nbits)) :: s.inbox := rfl
@[simp] theorem State.withFetchWord_hostPos (nbits w : Nat) :
    (s.withFetchWord nbits w).hostPos = s.hostPos := rfl
@[simp] theorem State.withFetchWord_rsp (nbits w : Nat) : (s.withFetchWord nbits w).rsp = s.rsp := rfl
@[simp] theorem State.withFetchWord_pix (nbits w : Nat) : (s.withFetchWord nbits w).pix = s.pix := rfl
@[simp] theorem State.withFetchWord_bw (nbits w : Nat) : (s.withFetchWord nbits w).bw = s.bw := rfl
@[simp] theorem State.withFetchWord_br (nbits w : Nat) : (s.withFetchWord nbits w).br = s.br := rfl
@[simp] theorem State.withFetchWord_faultNo (nbits w : Nat) :
    (s.withFetchWord nbits w).faultNo = s.faultNo := rfl
@[simp] theorem State.withFetchWord_err (nbits w : Nat) : (s.withFetchWord nbits w).err = s.err := rfl
@[simp] theorem State.withFetchWord_errCause (nbits w : Nat) :
    (s.withFetchWord nbits w).errCause = s.errCause := rfl
@[simp] theorem State.withFetchWord_errCmdHi (nbits w : Nat) :
    (s.withFetchWord nbits w).errCmdHi = s.errCmdHi := rfl
@[simp] theorem State.withFetchWord_errCmdLo (nbits w : Nat) :
    (s.withFetchWord nbits w).errCmdLo = s.errCmdLo := rfl
@[simp] theorem State.withFetchWord_cmdcnt (nbits w : Nat) :
    (s.withFetchWord nbits w).cmdcnt = s.cmdcnt := rfl
@[simp] theorem State.withFetchWord_cfg (nbits w : Nat) : (s.withFetchWord nbits w).cfg = s.cfg := rfl
@[simp] theorem State.withFetchWord_work (nbits w : Nat) : (s.withFetchWord nbits w).work = s.work := rfl

end Sys2Proof.Machine
end

