-- ==== Sys2Proof/Laws/Exec.lean ====
section
/-! SUPPORT. How pseudocode composes and how a command ends: once for all commands, what `exec` can answer. -/

namespace Sys2Proof.Machine

variable {α β : Type}

/-! ### Pseudocode -/

@[simp] theorem exec_ok_bind (a : α) (f : α → Exec β) : ((Except.ok a : Exec α) >>= f) = f a := rfl

@[simp] theorem exec_error_bind (e : Stop) (f : α → Exec β) :
    ((Except.error e : Exec α) >>= f) = .error e := rfl

@[simp] theorem exec_raise_bind (c : Cause) (f : α → Exec β) :
    ((raise c : Exec α) >>= f) = raise c := rfl

@[simp] theorem exec_pure (a : α) : (pure a : Exec α) = .ok a := rfl

@[simp] theorem raise_ne_ok (c : Cause) (a : α) : (raise c : Exec α) ≠ .ok a := by simp [raise]

@[simp] theorem check_false {p : Prop} [Decidable p] (c : Cause) (h : ¬p) : check p c = .ok () := by
  simp [check, h]

@[simp] theorem check_true {p : Prop} [Decidable p] (c : Cause) (h : p) : check p c = raise c := by
  simp [check, h]

/-- A check passes exactly when its condition is false. -/
theorem check_ok_iff {p : Prop} [Decidable p] {c : Cause} {u : Unit} : check p c = .ok u ↔ ¬p := by
  unfold check; split <;> simp_all

/-- A check that stops raises its cause. -/
theorem check_error_iff {p : Prop} [Decidable p] {c : Cause} {e : Stop} :
    check p c = .error e ↔ p ∧ e = .raise c := by
  unfold check; split <;> simp_all [raise, eq_comm]

/-- Pseudocode in sequence ends normally exactly when both parts do. -/
theorem bind_ok_iff {x : Exec α} {f : α → Exec β} {b : β} :
    (x >>= f) = .ok b ↔ ∃ a, x = .ok a ∧ f a = .ok b := by
  cases x <;> simp

/-- Pseudocode in sequence stops where its first part stops, else where its second part does. -/
theorem bind_error_iff {x : Exec α} {f : α → Exec β} {e : Stop} :
    (x >>= f) = .error e ↔ x = .error e ∨ ∃ a, x = .ok a ∧ f a = .error e := by
  cases x <;> simp

/-- A check in front of pseudocode. -/
theorem check_bind {p : Prop} [Decidable p] (c : Cause) (f : Unit → Exec β) :
    (check p c >>= f) = if p then raise c else f () := by
  unfold check; split <;> rfl

/-! ### How a command ends -/

@[simp] theorem conclude_ok (i : Instr) (s : State) (r : Reach) (t : State) (v : Word) :
    conclude i s r (.ok (t, v)) = .next (t.complete v) := rfl

@[simp] theorem conclude_raise (i : Instr) (s : State) (r : Reach) (c : Cause) :
    conclude i s r (raise c) = .next (takeFault (encode i) c r s) := rfl

@[simp] theorem conclude_model (i : Instr) (s : State) (r : Reach) (f : Fault) :
    conclude i s r (.error (.model f)) = .fault f := rfl

theorem runCmd_of_err (i : Instr) {s : State} (r : Reach) (b : Exec (State × Word)) (h : s.err = true) :
    runCmd i s r b = .next s.refuse := by simp [runCmd, h]

theorem runCmd_of_ok (i : Instr) {s : State} (r : Reach) (b : Exec (State × Word)) (h : s.err = false) :
    runCmd i s r b = conclude i s r b := by simp [runCmd, h]

/-- Everything `conclude` can answer as a next state. -/
theorem conclude_next {i : Instr} {s t : State} {r : Reach} {b : Exec (State × Word)}
    (h : conclude i s r b = .next t) :
    (∃ u v, b = .ok (u, v) ∧ t = u.complete v) ∨ ∃ c, b = raise c ∧ t = takeFault (encode i) c r s := by
  unfold conclude at h
  split at h
  · exact .inl ⟨_, _, rfl, (Host.Outcome.next.inj h).symm⟩
  · exact .inr ⟨_, rfl, (Host.Outcome.next.inj h).symm⟩
  · exact absurd h (by simp)

/-- Everything `runCmd` can answer as a next state: a refusal, a normal end or a fault entry. -/
theorem runCmd_next {i : Instr} {s t : State} {r : Reach} {b : Exec (State × Word)}
    (h : runCmd i s r b = .next t) :
    (s.err = true ∧ t = s.refuse) ∨
      (s.err = false ∧ ((∃ u v, b = .ok (u, v) ∧ t = u.complete v) ∨
        ∃ c, b = raise c ∧ t = takeFault (encode i) c r s)) := by
  cases he : s.err
  · rw [runCmd_of_ok i r b he] at h; exact .inr ⟨rfl, conclude_next h⟩
  · rw [runCmd_of_err i r b he] at h; exact .inl ⟨rfl, (Host.Outcome.next.inj h).symm⟩

/-! ### Every command at once -/

/-- The pseudocode of a command, with this spec's default parameters. `SRESET` has none: it resets. -/
def bodyOf (i : Instr) (s : State) : Exec (State × Word) :=
  match i with
  | .nop => .ok (s, 0)
  | .sreset => .ok (s.applyReset, 0)
  | .csrw a16 value => csrwBody a16 value s
  | .csrr a16 => csrrBody a16 s
  | .putb n value => putbBody n value s
  | .getb n => getbBody n s
  | .eclr all cls ctx => eclrBody all cls ctx s
  | .add auto cls ctx x sym => addBody params auto cls ctx x sym s
  | .final cls ctx => finalBody params cls ctx s
  | .wrtbl cls ctx => wrtblBody params cls ctx s
  | .write auto cls ctx x sym => writeBody params auto cls ctx x sym s
  | .rdtbl cls ctx => rdtblBody params cls ctx s
  | .read auto cls ctx x => readBody params auto cls ctx x s
  | .chinit => chinitBody s
  | .chget lane x => chgetBody params lane x s
  | .chput lane r x => chputBody params lane r x s
  | .chzero lanes x => chzeroBody lanes x s
  | .lzinit => lzinitBody s
  | .lzins off => lzinsBody params off s
  | .lzfind off => lzfindBody params off s
  | .lzflush => lzflushBody params s
  | .lzrew => lzrewBody s
  | .lzemit cnt ctx off => lzemitBody params cnt ctx off s
  | .lzread k off => lzreadBody k off s
  | .lzstep off => lzstepBody off s
  | .tinit => tinitBody params s
  | .tset sf cf ty tx => tsetBody sf cf ty tx s
  | .tsel msk y x => tselBody msk y x s
  | .resid expl sf cf y x => residBody params expl sf cf y x s
  | .recon expl sf cf y x => reconBody params expl sf cf y x s
  | .tsclr => tsclrBody s
  | .tsacc f => tsaccBody params f s
  | .tsbest n => tsbestBody n s
  | .tmres rf plane ty tx => tmresBody rf plane ty tx s
  | .tmrec rf plane r ty tx => tmrecBody rf plane r ty tx s

/-- What a fault of a command can have touched outside the block (20_memory.md R60, R62). -/
def reachOf (i : Instr) (s : State) : Reach :=
  match i with
  | .putb _ _ => .output
  | .getb _ => .input
  | .wrtbl _ _ => .output
  | .write _ _ _ _ _ => .output
  | .rdtbl _ _ => .input
  | .read _ _ _ _ => .input
  | .lzemit cnt _ _ => lzemitReach cnt
  | .lzread _ _ => .input
  | .lzstep off => lzstepReach off s
  | .recon _ _ _ y x => reconReach y x s
  | _ => .inside

/-- Every command but `SRESET` and `CSRR` is refused in the fault state and else runs its pseudocode. -/
theorem exec_eq_runCmd (i : Instr) (s : State) (h1 : i ≠ .sreset) (h2 : ∀ a, i ≠ .csrr a) :
    exec i s = runCmd i s (reachOf i s) (bodyOf i s) := by
  cases i <;> first | rfl | exact absurd rfl h1 | exact absurd rfl (h2 _)

theorem exec_sreset (s : State) : exec .sreset s = .next (s.applyReset.answer 0) := rfl

theorem exec_csrr_of_err (a : BitVec 16) {s : State} (h : s.err = true) :
    exec (.csrr a) s = .next (csrrInFault a s) := by simp [exec, execCsrr, h]

/-- Outside the fault state, every command but `SRESET` ends as its pseudocode does. -/
theorem exec_of_ok (i : Instr) {s : State} (h1 : i ≠ .sreset) (h : s.err = false) :
    exec i s = conclude i s (reachOf i s) (bodyOf i s) := by
  by_cases h2 : ∃ a, i = .csrr a
  · obtain ⟨a, rfl⟩ := h2; simp [exec, execCsrr, h, bodyOf, reachOf]
  · rw [exec_eq_runCmd i s h1 (fun a ha => h2 ⟨a, ha⟩), runCmd_of_ok _ _ _ h]

/-- In the fault state, every command but `SRESET` and `CSRR` is refused (60_exceptions.md R266). -/
theorem exec_of_err (i : Instr) {s : State} (h1 : i ≠ .sreset) (h2 : ∀ a, i ≠ .csrr a)
    (h : s.err = true) : exec i s = .next s.refuse := by
  rw [exec_eq_runCmd i s h1 h2, runCmd_of_err _ _ _ h]

/-- Everything a command can answer as a next state. -/
theorem exec_next {i : Instr} {s t : State} (h : exec i s = .next t) :
    (i = .sreset ∧ t = s.applyReset.answer 0) ∨
      (s.err = true ∧ ((∃ a, i = .csrr a ∧ t = csrrInFault a s) ∨ t = s.refuse)) ∨
      (s.err = false ∧ i ≠ .sreset ∧ ((∃ u v, bodyOf i s = .ok (u, v) ∧ t = u.complete v) ∨
        ∃ c, bodyOf i s = raise c ∧ t = takeFault (encode i) c (reachOf i s) s)) := by
  by_cases h1 : i = .sreset
  · subst h1; exact .inl ⟨rfl, (Host.Outcome.next.inj h).symm⟩
  · cases he : s.err
    · rw [exec_of_ok i h1 he] at h
      exact .inr (.inr ⟨rfl, h1, conclude_next h⟩)
    · refine .inr (.inl ⟨rfl, ?_⟩)
      by_cases h2 : ∃ a, i = .csrr a
      · obtain ⟨a, rfl⟩ := h2
        rw [exec_csrr_of_err a he] at h
        exact .inl ⟨a, rfl, (Host.Outcome.next.inj h).symm⟩
      · rw [exec_of_err i h1 (fun a ha => h2 ⟨a, ha⟩) he] at h
        exact .inr (Host.Outcome.next.inj h).symm

/-! ### A step -/

theorem step_nil {s : State} (h : s.inbox = []) : step s = .next s := by simp [step, h]

theorem step_cons {s : State} {e : HostEvent} {rest : List HostEvent} (h : s.inbox = e :: rest) :
    step s = runEvent s rest e := by simp [step, h]

theorem runWord_ok {w : CmdWord} {i : Instr} (s : State) (h : decode w = .ok i) :
    runWord w s = exec i s := by simp [runWord, h]

theorem runWord_error {w : CmdWord} {e : DecodeError} (s : State) (h : decode w = .error e) :
    runWord w s = rejectWord w s := by simp [runWord, h]

/-- Everything a step can answer as a next state. -/
theorem step_next {s t : State} (h : step s = .next t) :
    (s.inbox = [] ∧ t = s) ∨ ∃ e rest, s.inbox = e :: rest ∧ runEvent s rest e = .next t := by
  unfold step at h
  split at h
  · exact .inl ⟨‹_›, (Host.Outcome.next.inj h).symm⟩
  · exact .inr ⟨_, _, ‹_›, h⟩

/-- Everything a command word can answer as a next state: its command's, or a rejection's. -/
theorem runWord_next {w : CmdWord} {s t : State} (h : runWord w s = .next t) :
    (∃ i, decode w = .ok i ∧ exec i s = .next t) ∨
      ((∃ e, decode w = .error e) ∧ ((s.err = true ∧ t = s.refuse) ∨
        (s.err = false ∧ t = takeFault w .illegalCmd .inside s))) := by
  unfold runWord at h
  split at h
  · exact .inl ⟨_, ‹_›, h⟩
  · refine .inr ⟨⟨_, ‹_›⟩, ?_⟩
    unfold rejectWord at h
    cases he : s.err <;> simp [he] at h
    · exact .inr ⟨rfl, h.symm⟩
    · exact .inl ⟨rfl, h.symm⟩

/-- A property of states that every command, rejection, host action and reset keeps is kept by every step. -/
theorem step_keeps (P : State → Prop)
    (hcmd : ∀ i s t, P s → exec i s = .next t → P t)
    (hrej : ∀ w s t, P s → rejectWord w s = .next t → P t)
    (htake : ∀ s rest, P s → P (s.taken rest)) (hdeq : ∀ s rest, P s → P (s.dequeue rest))
    (hwrite : ∀ s off p, P s → P (s.hostWrite off p)) (hin : ∀ s bits, P s → P (s.hostInput bits))
    (hout : ∀ s, P s → P s.hostOutput) (hreset : ∀ s, P s → P s.applyReset)
    (s t : State) (hs : P s) (h : step s = .next t) : P t := by
  rcases step_next h with ⟨_, rfl⟩ | ⟨e, rest, _, h⟩
  · exact hs
  · cases e with
    | command w =>
      simp only [runEvent, runWord] at h
      split at h
      · exact hcmd _ _ _ (htake s rest hs) h
      · exact hrej _ _ _ (htake s rest hs) h
    | writePixel off p => cases h; exact hwrite _ _ _ (hdeq s rest hs)
    | newInput bits => cases h; exact hin _ _ (hdeq s rest hs)
    | newOutput => cases h; exact hout _ (hdeq s rest hs)
    | hardReset => cases h; exact hreset _ (hdeq s rest hs)

end Sys2Proof.Machine
end

