-- ==== Sys2Proof/Laws/Sparse.lean ====
section
/-! SUPPORT. Sparse tables: reading after writing, and the canonical form. -/

namespace Sys2Proof.Machine

variable {α : Type}

@[simp] theorem Sparse.get_nil (d : α) (a : Nat) : Sparse.get d [] a = d := rfl

theorem Sparse.get_cons (d : α) (e : Nat × α) (m : Sparse α) (a : Nat) :
    Sparse.get d (e :: m) a = if e.1 = a then e.2 else Sparse.get d m a := rfl

@[simp] theorem Sparse.erase_nil (a : Nat) : Sparse.erase ([] : Sparse α) a = [] := rfl

theorem Sparse.erase_cons (e : Nat × α) (m : Sparse α) (a : Nat) :
    Sparse.erase (e :: m) a = if e.1 = a then Sparse.erase m a else e :: Sparse.erase m a := by
  by_cases h : e.1 = a <;> simp [Sparse.erase, h]

theorem Sparse.get_erase (d : α) (m : Sparse α) (a b : Nat) :
    Sparse.get d (Sparse.erase m a) b = if b = a then d else Sparse.get d m b := by
  induction m with
  | nil => simp
  | cons e m ih =>
    rw [Sparse.erase_cons]
    by_cases h : e.1 = a <;> by_cases h' : e.1 = b <;> simp_all [Sparse.get_cons]

theorem Sparse.get_insert (d : α) (m : Sparse α) (a b : Nat) (v : α)
    (hm : Sparse.get d m a = d) (hb : ∀ e ∈ m, e.1 ≠ a) :
    Sparse.get d (Sparse.insert m a v) b = if b = a then v else Sparse.get d m b := by
  induction m with
  | nil => by_cases h : a = b <;> simp [Sparse.insert, Sparse.get_cons, h, eq_comm]
  | cons e m ih =>
    have he : e.1 ≠ a := hb e (by simp)
    have ih := ih (by simpa [Sparse.get_cons, he] using hm) (fun x hx => hb x (by simp [hx]))
    unfold Sparse.insert
    split
    · by_cases h : b = a
      · simp [Sparse.get_cons, h]
      · rw [Sparse.get_cons, if_neg (fun c => h c.symm), if_neg h]
    · rw [Sparse.get_cons, Sparse.get_cons, ih]
      by_cases h : e.1 = b
      · rw [if_pos h, if_pos h, if_neg (fun c => he (h.trans c))]
      · rw [if_neg h, if_neg h]

theorem Sparse.not_mem_erase (m : Sparse α) (a : Nat) : ∀ e ∈ Sparse.erase m a, e.1 ≠ a := by
  simp [Sparse.erase]

/-- Reading after a write. -/
theorem Sparse.get_set [DecidableEq α] (d : α) (m : Sparse α) (a b : Nat) (v : α) :
    Sparse.get d (Sparse.set d m a v) b = if b = a then v else Sparse.get d m b := by
  unfold Sparse.set
  split
  · subst_vars; exact Sparse.get_erase _ m a b
  · rw [Sparse.get_insert d _ a b v (by simp [Sparse.get_erase]) (Sparse.not_mem_erase m a),
      Sparse.get_erase]
    split <;> rfl

@[simp] theorem Sparse.get_set_same [DecidableEq α] (d : α) (m : Sparse α) (a : Nat) (v : α) :
    Sparse.get d (Sparse.set d m a v) a = v := by simp [Sparse.get_set]

theorem Sparse.get_set_ne [DecidableEq α] (d : α) (m : Sparse α) {a b : Nat} (v : α) (h : b ≠ a) :
    Sparse.get d (Sparse.set d m a v) b = Sparse.get d m b := by simp [Sparse.get_set, h]

/-! ### Members -/

theorem Sparse.mem_erase {m : Sparse α} {a : Nat} {e : Nat × α} :
    e ∈ Sparse.erase m a ↔ e ∈ m ∧ e.1 ≠ a := by simp [Sparse.erase]

theorem Sparse.mem_insert {m : Sparse α} {a : Nat} {v : α} {e : Nat × α} :
    e ∈ Sparse.insert m a v ↔ e = (a, v) ∨ e ∈ m := by
  induction m with
  | nil => simp [Sparse.insert]
  | cons x m ih =>
    unfold Sparse.insert
    split
    · simp
    · simp [ih]; tauto

/-- The entries after a write are the new one and the old ones of other indices. -/
theorem Sparse.mem_set [DecidableEq α] {d : α} {m : Sparse α} {a : Nat} {v : α} {e : Nat × α} :
    e ∈ Sparse.set d m a v ↔ (v ≠ d ∧ e = (a, v)) ∨ (e ∈ m ∧ e.1 ≠ a) := by
  unfold Sparse.set
  split <;> simp_all [Sparse.mem_erase, Sparse.mem_insert]

/-- A property of every entry survives a write of a value that has it. -/
theorem Sparse.all_set [DecidableEq α] {d : α} {m : Sparse α} {a : Nat} {v : α} {p : Nat × α → Bool}
    (hm : m.all p = true) (hv : p (a, v) = true) : (Sparse.set d m a v).all p = true := by
  rw [List.all_eq_true] at *
  intro e he
  rcases Sparse.mem_set.mp he with ⟨_, rfl⟩ | ⟨h, _⟩
  · exact hv
  · exact hm e h

/-- What an index holds is the default or a listed value. -/
theorem Sparse.get_eq_or_mem (d : α) (m : Sparse α) (a : Nat) :
    Sparse.get d m a = d ∨ (a, Sparse.get d m a) ∈ m := by
  induction m with
  | nil => simp
  | cons e m ih =>
    by_cases h : e.1 = a
    · right; simp [Sparse.get_cons, h]; left; rw [← h]
    · rcases ih with ih | ih
      · left; simp [Sparse.get_cons, h, ih]
      · right; simp [Sparse.get_cons, h, ih]

/-! ### The canonical form -/

theorem Sparse.wfFrom_mono [DecidableEq α] {d : α} {m : Sparse α} {lo lo' : Nat} (h : lo' ≤ lo)
    (hm : Sparse.wfFrom d lo m = true) : Sparse.wfFrom d lo' m = true := by
  cases m with
  | nil => rfl
  | cons e m =>
    simp only [Sparse.wfFrom, Bool.and_eq_true, decide_eq_true_eq] at *
    exact ⟨⟨h.trans hm.1.1, hm.1.2⟩, hm.2⟩

theorem Sparse.le_of_mem [DecidableEq α] {d : α} {m : Sparse α} {lo : Nat}
    (hm : Sparse.wfFrom d lo m = true) : ∀ e ∈ m, lo ≤ e.1 := by
  induction m generalizing lo with
  | nil => simp
  | cons e m ih =>
    simp only [Sparse.wfFrom, Bool.and_eq_true, decide_eq_true_eq] at hm
    intro x hx
    rcases List.mem_cons.mp hx with rfl | hx
    · exact hm.1.1
    · have := ih hm.2 x hx; omega

/-- A listed value is what its index holds, and not the default. -/
theorem Sparse.get_of_mem [DecidableEq α] {d : α} {m : Sparse α} {lo : Nat}
    (hm : Sparse.wfFrom d lo m = true) {e : Nat × α} (he : e ∈ m) :
    Sparse.get d m e.1 = e.2 ∧ e.2 ≠ d := by
  induction m generalizing lo with
  | nil => simp at he
  | cons x m ih =>
    simp only [Sparse.wfFrom, Bool.and_eq_true, decide_eq_true_eq] at hm
    rcases List.mem_cons.mp he with rfl | he
    · simp [Sparse.get_cons, hm.1.2]
    · have := Sparse.le_of_mem hm.2 e he
      rw [Sparse.get_cons, if_neg (by omega)]
      exact ih hm.2 he

theorem Sparse.get_below [DecidableEq α] {d : α} {m : Sparse α} {lo a : Nat}
    (hm : Sparse.wfFrom d lo m = true) (ha : a < lo) : Sparse.get d m a = d := by
  rcases Sparse.get_eq_or_mem d m a with h | h
  · exact h
  · have := Sparse.le_of_mem hm _ h; simp at this; omega

/-- Two tables in canonical form that hold the same are equal. -/
theorem Sparse.ext_of_wfFrom [DecidableEq α] {d : α} {m m' : Sparse α} {lo : Nat}
    (hm : Sparse.wfFrom d lo m = true) (hm' : Sparse.wfFrom d lo m' = true)
    (h : ∀ a, Sparse.get d m a = Sparse.get d m' a) : m = m' := by
  induction m generalizing m' lo with
  | nil =>
    cases m' with
    | nil => rfl
    | cons e m' =>
      have := Sparse.get_of_mem hm' (e := e) (by simp)
      rw [← h e.1] at this; simp at this; exact absurd this.1.symm this.2
  | cons e m ih =>
    cases m' with
    | nil =>
      have := Sparse.get_of_mem hm (e := e) (by simp)
      rw [h e.1] at this; simp at this; exact absurd this.1.symm this.2
    | cons e' m' =>
      have h1 := Sparse.get_of_mem hm (e := e) (by simp)
      have h2 := Sparse.get_of_mem hm' (e := e') (by simp)
      simp only [Sparse.wfFrom, Bool.and_eq_true, decide_eq_true_eq] at hm hm'
      have key : e.1 = e'.1 := by
        rcases Nat.lt_trichotomy e.1 e'.1 with c | c | c
        · have := Sparse.get_below hm'.2 (a := e.1) (by omega)
          rw [h e.1, Sparse.get_cons, if_neg (by omega), this] at h1
          exact absurd h1.1.symm h1.2
        · exact c
        · have := Sparse.get_below hm.2 (a := e'.1) (by omega)
          rw [← h e'.1, Sparse.get_cons, if_neg (by omega), this] at h2
          exact absurd h2.1.symm h2.2
      have hv : e.2 = e'.2 := by rw [← h1.1, ← h2.1, h, key]
      have he : e = e' := Prod.ext key hv
      subst he
      rw [ih (lo := e.1 + 1) hm.2 hm'.2 fun a => ?_]
      by_cases c : e.1 = a
      · rw [Sparse.get_below hm.2 (by omega), Sparse.get_below hm'.2 (by omega)]
      · simpa [Sparse.get_cons, c] using h a

theorem Sparse.ext_of_wf [DecidableEq α] {d : α} {m m' : Sparse α} (hm : Sparse.wf d m = true)
    (hm' : Sparse.wf d m' = true) (h : ∀ a, Sparse.get d m a = Sparse.get d m' a) : m = m' :=
  Sparse.ext_of_wfFrom hm hm' h

theorem Sparse.wfFrom_erase [DecidableEq α] {d : α} {m : Sparse α} {lo : Nat} (a : Nat)
    (hm : Sparse.wfFrom d lo m = true) : Sparse.wfFrom d lo (Sparse.erase m a) = true := by
  induction m generalizing lo with
  | nil => rfl
  | cons e m ih =>
    simp only [Sparse.wfFrom, Bool.and_eq_true, decide_eq_true_eq] at hm
    rw [Sparse.erase_cons]
    split
    · exact Sparse.wfFrom_mono (by omega) (ih hm.2)
    · simp [Sparse.wfFrom, hm.1.1, hm.1.2, ih hm.2]

theorem Sparse.wfFrom_insert [DecidableEq α] {d : α} {m : Sparse α} {lo a : Nat} {v : α}
    (hm : Sparse.wfFrom d lo m = true) (hv : v ≠ d) (ha : lo ≤ a) (hn : ∀ e ∈ m, e.1 ≠ a) :
    Sparse.wfFrom d lo (Sparse.insert m a v) = true := by
  induction m generalizing lo with
  | nil => simp [Sparse.insert, Sparse.wfFrom, hv, ha]
  | cons e m ih =>
    simp only [Sparse.wfFrom, Bool.and_eq_true, decide_eq_true_eq] at hm
    have he : e.1 ≠ a := hn e (by simp)
    unfold Sparse.insert
    split
    · simp only [Sparse.wfFrom, Bool.and_eq_true, decide_eq_true_eq]
      exact ⟨⟨ha, hv⟩, ⟨⟨by omega, hm.1.2⟩, hm.2⟩⟩
    · simp only [Sparse.wfFrom, Bool.and_eq_true, decide_eq_true_eq]
      exact ⟨hm.1, ih hm.2 (by omega) fun x hx => hn x (by simp [hx])⟩

/-- A write keeps the canonical form. -/
theorem Sparse.wf_set [DecidableEq α] {d : α} {m : Sparse α} (a : Nat) (v : α)
    (hm : Sparse.wf d m = true) : Sparse.wf d (Sparse.set d m a v) = true := by
  unfold Sparse.set
  split
  · exact Sparse.wfFrom_erase a hm
  · exact Sparse.wfFrom_insert (Sparse.wfFrom_erase a hm) ‹_› (Nat.zero_le _) (Sparse.not_mem_erase m a)

@[simp] theorem Sparse.wf_nil [DecidableEq α] (d : α) : Sparse.wf d ([] : Sparse α) = true := rfl

/-! ### Tables and lists -/

theorem Sparse.wfFrom_ofList [DecidableEq α] (d : α) (start : Nat) (vs : List α) :
    Sparse.wfFrom d start (Sparse.ofList d start vs) = true := by
  induction vs generalizing start with
  | nil => rfl
  | cons v vs ih =>
    unfold Sparse.ofList
    split
    · exact Sparse.wfFrom_mono (Nat.le_succ _) (ih _)
    · simp [Sparse.wfFrom, *]

theorem Sparse.wf_ofList [DecidableEq α] (d : α) (vs : List α) :
    Sparse.wf d (Sparse.ofList d 0 vs) = true := Sparse.wfFrom_ofList d 0 vs

theorem Sparse.get_ofList [DecidableEq α] (d : α) (start : Nat) (vs : List α) (i : Nat) :
    Sparse.get d (Sparse.ofList d start vs) (start + i) = vs.getD i d := by
  induction vs generalizing start i with
  | nil => simp [Sparse.ofList]
  | cons v vs ih =>
    unfold Sparse.ofList
    cases i with
    | zero =>
      split
      · rw [Nat.add_zero, Sparse.get_below (Sparse.wfFrom_ofList d (start + 1) vs) (by omega)]
        simp_all
      · simp [Sparse.get_cons]
    | succ i =>
      have e : start + (i + 1) = start + 1 + i := by omega
      split
      · rw [e, ih]; simp
      · rw [Sparse.get_cons, if_neg (by simp), e, ih]; simp

@[simp] theorem Sparse.length_toList (d : α) (m : Sparse α) (n : Nat) :
    (Sparse.toList d m n).length = n := by simp [Sparse.toList]

theorem Sparse.toList_ofList [DecidableEq α] (d : α) (vs : List α) :
    Sparse.toList d (Sparse.ofList d 0 vs) vs.length = vs := by
  apply List.ext_getElem <;> simp [Sparse.toList]
  intro i h
  have := Sparse.get_ofList d 0 vs i
  simp only [Nat.zero_add] at this
  rw [this]; simp [h]

end Sys2Proof.Machine
end

