-- ==== Sys2Proof/Laws/Ops.lean ====
section
/-! SUPPORT. One lemma per shared operation of `Machine/Ops.lean`, saying all it can do: bit streams, pixels,
coder slots. -/

namespace Sys2Proof.Machine

/-! ### Bit streams (20_memory.md R65, R66) -/

@[simp] theorem length_msbBits (n v : Nat) : (msbBits n v).length = n := by
  induction n with
  | zero => rfl
  | succ n ih => simp [msbBits, ih]

@[simp] theorem takeBits_zero (acc : Nat) (bs : List Bool) : takeBits 0 acc bs = some (acc, bs) := by
  cases bs <;> rfl

/-- `ReadBits` after `WriteBits`: the number comes back, and exactly its bits are consumed. -/
theorem takeBits_msbBits (n acc v : Nat) (rest : List Bool) :
    takeBits n acc (msbBits n v ++ rest) = some (acc * 2 ^ n + v % 2 ^ n, rest) := by
  induction n generalizing acc with
  | zero => simp [msbBits, Nat.mod_one]
  | succ n ih =>
    simp only [msbBits, List.cons_append, takeBits, ih]
    congr 2
    have h : v % 2 ^ (n + 1) = (v.testBit n).toNat * 2 ^ n + v % 2 ^ n := by
      rw [Nat.pow_succ, Nat.mod_mul, Nat.testBit_eq_decide_div_mod_eq, add_comm, mul_comm]
      congr 1
      rcases Nat.mod_two_eq_zero_or_one (v / 2 ^ n) with h | h <;> simp [h]
    rw [h, Nat.pow_succ]; ring

/-- A read that has enough bits takes exactly them; a read that has not is truncated. -/
theorem takeBits_eq (n acc : Nat) (bs : List Bool) :
    takeBits n acc bs =
      if n ≤ bs.length then
        some ((bs.take n).foldl (fun m b => 2 * m + b.toNat) acc, bs.drop n) else none := by
  induction n generalizing acc bs with
  | zero => simp
  | succ n ih =>
    cases bs with
    | nil => simp [takeBits]
    | cons b bs => simp [takeBits, ih]

theorem takeBits_lt {n : Nat} {acc v : Nat} {bs rest : List Bool} (h : takeBits n acc bs = some (v, rest)) :
    v < (acc + 1) * 2 ^ n := by
  induction n generalizing acc bs with
  | zero => simp at h; omega
  | succ n ih =>
    cases bs with
    | nil => simp [takeBits] at h
    | cons b bs =>
      have h1 := ih (by simpa [takeBits] using h)
      have h2 : 2 * acc + b.toNat + 1 ≤ (acc + 1) * 2 := by cases b <;> simp <;> omega
      calc v < _ := h1
        _ ≤ (acc + 1) * 2 * 2 ^ n := Nat.mul_le_mul_right _ h2
        _ = (acc + 1) * 2 ^ (n + 1) := by rw [Nat.pow_succ]; ring

/-- `ReadBits(n)`: with `n` bits left it takes them, else it raises `TRUNCATED`. -/
theorem readBits_eq (s : State) (n : Nat) :
    s.readBits n =
      if n ≤ s.br.length then
        .ok ((s.br.take n).foldl (fun m b => 2 * m + b.toNat) 0, s.consumed n (s.br.drop n))
      else raise .truncated := by
  unfold State.readBits
  rw [takeBits_eq]
  split <;> simp_all

theorem readBits_ok {s t : State} {n v : Nat} (h : s.readBits n = .ok (v, t)) :
    v < 2 ^ n ∧ ∃ rest, takeBits n 0 s.br = some (v, rest) ∧ t = s.consumed n rest := by
  unfold State.readBits at h
  split at h
  · rename_i v' rest heq
    simp only [Except.ok.injEq, Prod.mk.injEq] at h
    obtain ⟨rfl, rfl⟩ := h
    exact ⟨by simpa using takeBits_lt heq, rest, heq, rfl⟩
  · simp at h

/-- Reading back what stands in front of the stream. -/
theorem readBits_msbBits (s : State) (n v : Nat) (rest : List Bool) (h : s.br = msbBits n v ++ rest) :
    s.readBits n = .ok (v % 2 ^ n, s.consumed n rest) := by
  unfold State.readBits; rw [h, takeBits_msbBits]; simp

@[simp] theorem writeBits_eq (s : State) (v n : Nat) : s.writeBits v n = s.appendBits (msbBits n v) := rfl

@[simp] theorem appendBits_nil (s : State) : s.appendBits [] = s := by simp [State.appendBits]

theorem appendBits_append (s : State) (a b : List Bool) :
    (s.appendBits a).appendBits b = s.appendBits (a ++ b) := by
  simp [State.appendBits, BitVec.ofNat_add, BitVec.add_assoc]

/-! ### Pixels (20_memory.md R61 to R63) -/

/-- `MemRead` answers the pixel; where nothing has been written the model stops. -/
theorem readPix_ok_iff {s : State} {off : Nat} {p : Word} :
    s.readPix off = .ok p ↔ s.pix.readPixel off = some p := by
  unfold State.readPix; split <;> simp_all

theorem readPix_of_some {s : State} {off : Nat} {p : Word} (h : s.pix.readPixel off = some p) :
    s.readPix off = .ok p := readPix_ok_iff.mpr h

/-! ### Coder slots (10_state.md R30) -/

/-- Reading a slot after a slot write. -/
theorem slot_setSlot (s : State) (c k c' k' : Nat) (v : Slot) :
    (s.setSlot c k v).slot c' k' = if slotIndex c' k' = slotIndex c k then v else s.slot c' k' := by
  simp [State.slot, State.setSlot, Sparse.get_set]

@[simp] theorem slot_setSlot_same (s : State) (c k : Nat) (v : Slot) : (s.setSlot c k v).slot c k = v := by
  simp [slot_setSlot]

/-- Slots of contexts below 32 stand apart. -/
theorem slotIndex_inj {c k c' k' : Nat} (h : k < 32) (h' : k' < 32) :
    slotIndex c k = slotIndex c' k' ↔ c = c' ∧ k = k' := by
  unfold slotIndex; omega

theorem slot_setSlot_ne (s : State) {c k c' k' : Nat} (v : Slot) (h : k < 32) (h' : k' < 32)
    (hne : ¬(c' = c ∧ k' = k)) : (s.setSlot c k v).slot c' k' = s.slot c' k' := by
  rw [slot_setSlot, if_neg (by rw [slotIndex_inj h' h]; exact hne)]

@[simp] theorem slot_appendBits (s : State) (bits : List Bool) (c k : Nat) :
    (s.appendBits bits).slot c k = s.slot c k := rfl

@[simp] theorem slot_consumed (s : State) (n : Nat) (rest : List Bool) (c k : Nat) :
    (s.consumed n rest).slot c k = s.slot c k := rfl

@[simp] theorem slot_complete (s : State) (v : Word) (c k : Nat) :
    (s.complete v).slot c k = s.slot c k := rfl

/-! ### Saturating counts (00_scope.md R11) -/

theorem toNat_sat32 (n : Nat) : (sat32 n).toNat = min n maxWord := by
  simp [sat32, maxWord]

theorem sat32_add_one (n : Nat) : sat32 ((sat32 n).toNat + 1) = sat32 (n + 1) := by
  rw [toNat_sat32]
  unfold sat32 maxWord
  congr 1; omega

/-! ### The fault entry (60_exceptions.md R264) -/

/-- `BW` after a fault starts with what stood there. -/
theorem faultOutput_append (n : Nat) (r : Reach) (bw : List Bool) :
    ∃ bits, faultOutput n r bw = bw ++ bits := by
  unfold faultOutput; split
  · exact ⟨_, rfl⟩
  · exact ⟨[], by simp⟩

/-- `BR` after a fault is an end part of what stood there. -/
theorem faultInput_drop (n : Nat) (r : Reach) (br : List Bool) : ∃ k, faultInput n r br = br.drop k := by
  unfold faultInput; split
  · exact ⟨_, rfl⟩
  · exact ⟨0, by simp⟩

/-- A fault touches no pixel but the one its command was to write. -/
theorem faultPix_eq (n : Nat) (r : Reach) (pix : Memory) :
    faultPix n r pix = pix ∨ ∃ off p, r = .pixel off ∧ faultPix n r pix = pix.writePixel off p := by
  unfold faultPix; split
  · split
    · exact .inr ⟨_, _, rfl, rfl⟩
    · exact .inl rfl
  · exact .inl rfl

end Sys2Proof.Machine
end

