-- ==== Sys2Proof/Laws/Operands.lean ====
section
/-! SUPPORT. What the operand resolutions answer when they end normally: the chaos bin, the coder slot, tiles and
pixels, the filter pair, and the row buffer. -/

namespace Sys2Proof.Machine

open Sys2Proof.Config

/-! ### The chaos row buffer (43_chaos.md R180 to R182) -/

/-- The row buffer is usable at `x`: the unit is ready and the column is in the row. -/
theorem chaosReady_ok_iff {s : State} {x : BitVec 16} {u : Unit} :
    chaosReady s x = .ok u ↔ s.work.ch.rdy = true ∧ x.toNat < s.work.ch.w.toNat := by
  simp [chaosReady, bind_ok_iff, check_ok_iff]

/-- A chaos bin, and what it needs. -/
theorem chaosBin_ok {P : Params} {s : State} {lane : Lane} {x : BitVec 16} {k : Nat}
    (h : chaosBin P s lane x = .ok k) :
    s.work.ch.rdy = true ∧ x.toNat < s.work.ch.w.toNat ∧
      k = P.chaosMap ((s.cfg.laneLevels lane).toNat - 1) (s.scoreSum lane x.toNat) := by
  unfold chaosBin at h
  obtain ⟨u, h1, h2⟩ := bind_ok_iff.mp h
  obtain ⟨h3, h4⟩ := chaosReady_ok_iff.mp h1
  simp at h2
  exact ⟨h3, h4, h2.symm⟩

/-- Reading the row buffer after a write to it. -/
theorem row_setRow (s : State) (l l' : Lane) (i i' : Nat) (v : Byte) :
    (s.setRow l i v).row l' i' = if rowIndex l' i' = rowIndex l i then v else s.row l' i' := by
  simp [State.row, State.setRow, Sparse.get_set]

theorem laneCode_inj {l l' : Lane} : l.code = l'.code ↔ l = l' := by
  cases l <;> cases l' <;> simp [Lane.code]

/-- Entries of one lane or of different lanes stand apart. -/
theorem rowIndex_inj {l l' : Lane} {i i' : Nat} (h : i < 65536) (h' : i' < 65536) :
    rowIndex l i = rowIndex l' i' ↔ l = l' ∧ i = i' := by
  rw [← laneCode_inj (l := l)]
  unfold rowIndex
  constructor
  · intro e; exact ⟨BitVec.eq_of_toNat_eq (by omega), by omega⟩
  · rintro ⟨e, rfl⟩; rw [e]

/-! ### The coder slot (41_entropy_encoder.md R131) -/

/-- A slot a command names: its class exists and its context is below the class's context count; without
`AUTO` the context is the command's, with it the chaos bin of a class that has a lane. -/
theorem slotSel_ok {P : Params} {s : State} {auto : Bool} {cls ctx : Byte} {x : BitVec 16} {c k : Nat}
    (h : slotSel P s auto cls ctx x = .ok (c, k)) :
    c = cls.toNat ∧ c ≤ 5 ∧ k < s.cfg.nctx c ∧
      (auto = false → k = ctx.toNat) ∧
      (auto = true → c ≤ 3 ∧ chaosBin P s (Lane.ofCode (cls.setWidth 2)) x = .ok k) := by
  unfold slotSel at h
  obtain ⟨_, h1, h⟩ := bind_ok_iff.mp h
  obtain ⟨k', h2, h⟩ := bind_ok_iff.mp h
  obtain ⟨_, h3, h⟩ := bind_ok_iff.mp h
  rw [check_ok_iff] at h1 h3
  simp only [exec_pure, Except.ok.injEq, Prod.mk.injEq] at h
  obtain ⟨rfl, rfl⟩ := h
  refine ⟨rfl, by omega, by omega, ?_, ?_⟩
  · rintro rfl; simp [slotCtx] at h2; exact h2.symm
  · rintro rfl
    simp only [slotCtx, if_true] at h2
    obtain ⟨_, h4, h5⟩ := bind_ok_iff.mp h2
    rw [check_ok_iff] at h4
    exact ⟨by omega, h5⟩

/-- A context below a legal level count is below 32 (10_state.md R24, R30). -/
theorem nctx_le {c : Cfg} (h1 : c.lYuv.toNat ≤ 32) (h2 : c.lA.toNat ≤ 32) (h3 : c.lSf.toNat ≤ 32)
    (h4 : c.lCf.toNat ≤ 32) (cls : Nat) : c.nctx cls ≤ 32 := by
  unfold Cfg.nctx; split <;> assumption

/-! ### Tiles and pixels (45_tile_filter.md R224, R226) -/

theorem tileReady_ok_iff {s : State} {tx ty : BitVec 16} {u : Unit} :
    tileReady s tx ty = .ok u ↔
      s.work.tile.rdy = true ∧ tx.toNat < s.work.tile.tx.toNat ∧ ty.toNat < s.work.tile.ty.toNat := by
  simp [tileReady, bind_ok_iff, check_ok_iff]

theorem pixelReady_ok_iff {s : State} {x y : BitVec 16} {u : Unit} :
    pixelReady s x y = .ok u ↔
      s.work.tile.rdy = true ∧ x.toNat < s.work.tile.w.toNat ∧ y.toNat < s.work.tile.h.toNat := by
  simp [pixelReady, bind_ok_iff, check_ok_iff]

/-- The map-driven filter pair (45_tile_filter.md R233). -/
theorem mapFilters_ok {s : State} {t : Nat} {f : Nat × Nat} (h : mapFilters s t = .ok f) :
    (s.work.tile.sfAt t).toNat < s.cfg.nsf.toNat ∧ (s.work.tile.cfAt t).toNat < s.cfg.ncf.toNat ∧
      f = ((s.cfg.sfSelAt (s.work.tile.sfAt t).toNat).toNat,
        (s.cfg.cfSelAt (s.work.tile.cfAt t).toNat).toNat) := by
  unfold mapFilters at h
  obtain ⟨_, h1, h2⟩ := bind_ok_iff.mp h
  rw [check_ok_iff] at h1
  simp at h2
  exact ⟨by omega, by omega, h2.symm⟩

/-- A resolved filter pair is in both catalogs, and is the command's or the map's (R233). -/
theorem filters_ok {P : Params} {s : State} {expl : Bool} {sf cf : Byte} {x y : Nat} {f : Nat × Nat}
    (h : filters P s expl sf cf x y = .ok f) :
    f.1 < P.sfCount ∧ f.2 < P.cfCount ∧
      (expl = true → f = (sf.toNat, cf.toNat)) ∧
      (expl = false → mapFilters s (s.work.tile.indexAt x y) = .ok f) := by
  unfold filters at h
  obtain ⟨g, h1, h2⟩ := bind_ok_iff.mp h
  obtain ⟨_, h3, h4⟩ := bind_ok_iff.mp h2
  rw [check_ok_iff] at h3
  simp at h4; subst h4
  refine ⟨by omega, by omega, ?_, ?_⟩
  · rintro rfl; simp [filterPair] at h1; exact h1.symm
  · rintro rfl; simpa [filterPair] using h1

/-- A neighbour that is read is a pixel of the image, else the given triple. -/
theorem rgbAt_ok {s : State} {p : Prop} [Decidable p] {off : Nat} {o c : Rgb}
    (h : s.rgbAt p off o = .ok c) :
    (p ∧ ∃ q, s.pix.readPixel off = some q ∧ c = rgbOf q) ∨ (¬p ∧ c = o) := by
  unfold State.rgbAt at h
  split at h
  · obtain ⟨q, h1, h2⟩ := bind_ok_iff.mp h
    simp at h2
    exact .inl ⟨‹_›, q, readPix_ok_iff.mp h1, h2.symm⟩
  · simp at h; exact .inr ⟨‹_›, h.symm⟩

theorem rgbAt_of_some {s : State} {p : Prop} [Decidable p] {off : Nat} {o : Rgb} {q : Word}
    (h : p → s.pix.readPixel off = some q) : s.rgbAt p off o = .ok (if p then rgbOf q else o) := by
  unfold State.rgbAt
  by_cases hp : p
  · rw [if_pos hp, if_pos hp, readPix_of_some (h hp)]; rfl
  · rw [if_neg hp, if_neg hp]; rfl

/-! ### Pixel bytes (20_memory.md R61) -/

@[simp] theorem rgbOf_pixelOf (c : Rgb) (a : Byte) : rgbOf (pixelOf c a) = c := by
  cases c with
  | mk r g b =>
    simp only [rgbOf, pixelOf, Rgb.mk.injEq]
    refine ⟨?_, ?_, ?_⟩ <;>
    · apply BitVec.eq_of_getLsbD_eq
      intro i hi
      simp only [BitVec.getLsbD_extractLsb', BitVec.getLsbD_append]
      simp [hi, show ¬(8 + i < 8) by omega, show ¬(16 + i < 8) by omega, show ¬(16 + i - 8 < 8) by omega,
        show 16 + i - 8 - 8 = i by omega, show 8 + i - 8 = i by omega]

@[simp] theorem alphaOf_pixelOf (c : Rgb) (a : Byte) : alphaOf (pixelOf c a) = a := by
  apply BitVec.eq_of_getLsbD_eq
  intro i hi
  simp only [alphaOf, pixelOf, BitVec.getLsbD_extractLsb', BitVec.getLsbD_append]
  simp [hi, show ¬(24 + i < 8) by omega, show ¬(24 + i - 8 < 8) by omega, show ¬(24 + i - 8 - 8 < 8) by omega,
    show 24 + i - 8 - 8 - 8 = i by omega]

@[simp] theorem pixelOf_rgbOf (p : Word) : pixelOf (rgbOf p) (alphaOf p) = p := bytes_of_word p

end Sys2Proof.Machine
end

