-- ==== Sys2Proof/Laws/Coder.lean ====
section
/-! SUPPORT. What the coder's shared operations answer when they end normally (41_entropy_encoder.md,
42_entropy_decoder.md). -/

namespace Sys2Proof.Machine

open Sys2Proof.Config

/-! ### Counting (R134) -/

/-- A counter after `HistInc`: one more, unless it stands at its maximum. -/
theorem histInc_histAt (v : Slot) (i j : Nat) :
    ((histInc v i).1.histAt j) = if j = i then sat32 ((v.histAt i).toNat + 1) else v.histAt j := by
  unfold histInc
  split
  · rename_i h
    split
    · subst_vars
      apply BitVec.eq_of_toNat_eq
      rw [toNat_sat32, h]; simp [maxWord]
    · rfl
  · rename_i h
    simp only [Slot.histAt, Sparse.get_set]
    split
    · apply BitVec.eq_of_toNat_eq
      have := (Sparse.get 0 v.hist i).isLt
      simp only [Slot.histAt, maxWord] at h
      rw [toNat_sat32, BitVec.toNat_add, show (1 : Word).toNat = 1 from rfl]
      unfold maxWord; omega
    · rfl

/-- `HistInc` reports a counter at its maximum. -/
theorem histInc_sat (v : Slot) (i : Nat) : (histInc v i).2 = decide ((v.histAt i).toNat = maxWord) := by
  unfold histInc; split <;> simp_all

/-- `HistInc` changes no field but `HIST`. -/
theorem histInc_fields (v : Slot) (i : Nat) :
    (histInc v i).1 = { v with hist := (histInc v i).1.hist } := by
  unfold histInc; split <;> rfl

/-- `FlushRun`: there was room, the run is recorded, and its run symbol is counted. -/
theorem flushRun_ok {P : Params} {v : Slot} {r : Slot × Bool} (h : flushRun P v = .ok r) :
    v.runList.length < P.runListCap ∧
      r = ({ (histInc { v with runList := v.runList ++ [v.zrun] } (v.ns.toNat + zsym v.zrun.toNat)).1 with
              zrun := 0 },
          (histInc { v with runList := v.runList ++ [v.zrun] } (v.ns.toNat + zsym v.zrun.toNat)).2) := by
  unfold flushRun at h
  obtain ⟨_, h1, h2⟩ := bind_ok_iff.mp h
  rw [check_ok_iff] at h1
  simp at h2
  exact ⟨by omega, h2.symm⟩

/-- `FlushRun` under a condition: a flush, or nothing. -/
theorem flushIf_ok {P : Params} {p : Prop} [Decidable p] {v : Slot} {r : Slot × Bool}
    (h : flushIf P p v = .ok r) : (p ∧ flushRun P v = .ok r) ∨ (¬p ∧ r = (v, false)) := by
  unfold flushIf at h
  split at h
  · exact .inl ⟨‹_›, h⟩
  · simp at h; exact .inr ⟨‹_›, h.symm⟩

/-- `CoderAdd` on a slot: its phase and symbol are right, and a zero or a literal is counted. -/
theorem slotAdd_ok {P : Params} {v : Slot} {sym : Nat} {r : Slot × Bool} (h : slotAdd P v sym = .ok r) :
    v.phase = .count ∧ sym < v.ns.toNat ∧
      ((sym = 0 ∧ ∃ f, flushIf P (v.zrun.toNat = maxWord) v = .ok f ∧
          r = ({ f.1 with zrun := f.1.zrun + 1, nadd := sat32 (v.nadd.toNat + 1) }, f.2)) ∨
        (sym ≠ 0 ∧ ∃ f, flushIf P (0 < v.zrun.toNat) v = .ok f ∧
          r = ({ (histInc f.1 sym).1 with nadd := sat32 (v.nadd.toNat + 1) },
            f.2 || (histInc f.1 sym).2))) := by
  unfold slotAdd at h
  obtain ⟨_, h1, h⟩ := bind_ok_iff.mp h
  obtain ⟨_, h2, h⟩ := bind_ok_iff.mp h
  rw [check_ok_iff] at h1 h2
  refine ⟨not_not.mp h1, by omega, ?_⟩
  split at h
  · obtain ⟨f, h3, h4⟩ := bind_ok_iff.mp h
    simp at h4; exact .inl ⟨‹_›, f, h3, h4.symm⟩
  · obtain ⟨f, h3, h4⟩ := bind_ok_iff.mp h
    simp at h4; exact .inr ⟨‹_›, f, h3, h4.symm⟩

/-- `CoderAdd`: the slot's part, put back. -/
theorem coderAdd_ok {P : Params} {s t : State} {c k sym : Nat} (h : coderAdd P s c k sym = .ok t) :
    ∃ r, slotAdd P (s.slot c k) sym = .ok r ∧ t = s.putCounted c k r := by
  unfold coderAdd at h
  obtain ⟨r, h1, h2⟩ := bind_ok_iff.mp h
  simp at h2; exact ⟨r, h1, h2.symm⟩

/-! ### Building the code (R136) -/

/-- `FINAL` on a slot: it was being counted, its last run is flushed, and its code is built. -/
theorem slotFinal_ok {P : Params} {v : Slot} {r : Slot × Bool} (h : slotFinal P v = .ok r) :
    v.phase = .count ∧ ∃ f, flushIf P (0 < v.zrun.toNat) v = .ok f ∧
      r = ({ f.1 with
          len := buildLengths f.1.hist f.1.alpha, code := canonical (buildLengths f.1.hist f.1.alpha)
          rlRd := 0, zrun := 0, nwr := 0, phase := .ready }, f.2) := by
  unfold slotFinal at h
  obtain ⟨_, h1, h⟩ := bind_ok_iff.mp h
  obtain ⟨f, h2, h3⟩ := bind_ok_iff.mp h
  rw [check_ok_iff] at h1
  simp at h3
  exact ⟨not_not.mp h1, f, h2, h3.symm⟩

/-! ### Writing (R146) -/

/-- What `CoderWrite` does for a zero that starts a run. -/
theorem slotWriteRun_ok {v : Slot} {r : Slot × List Bool} (h : slotWriteRun v = .ok r) :
    ∃ n, v.runList[v.rlRd.toNat]? = some n ∧ v.lenAt (v.ns.toNat + zsym n.toNat) ≠ 0 ∧
      r = ({ v with rlRd := v.rlRd + 1, zrun := n - 1 },
        v.codeBits (v.ns.toNat + zsym n.toNat) ++
          msbBits (zextraLen (zsym n.toNat)) (zextraVal n.toNat)) := by
  unfold slotWriteRun at h
  split at h
  · simp at h
  · rename_i n hn
    obtain ⟨_, h1, h2⟩ := bind_ok_iff.mp h
    rw [check_ok_iff] at h1
    simp at h2
    exact ⟨n, hn, h1, h2.symm⟩

/-- Everything `CoderWrite` can do to a slot: a zero covered by a run, a zero that starts one, or a literal. -/
theorem slotWrite_ok {v : Slot} {sym : Nat} {r : Slot × List Bool} (h : slotWrite v sym = .ok r) :
    v.phase = .ready ∧ sym < v.ns.toNat ∧ ∃ u bits,
      r = ({ u with nwr := sat32 (v.nwr.toNat + 1) }, bits) ∧
      ((sym = 0 ∧ 0 < v.zrun.toNat ∧ u = { v with zrun := v.zrun - 1 } ∧ bits = []) ∨
        (sym = 0 ∧ v.zrun.toNat = 0 ∧ slotWriteRun v = .ok (u, bits)) ∨
        (sym ≠ 0 ∧ v.zrun.toNat = 0 ∧ v.lenAt sym ≠ 0 ∧ u = v ∧ bits = v.codeBits sym)) := by
  unfold slotWrite at h
  obtain ⟨_, h1, h⟩ := bind_ok_iff.mp h
  obtain ⟨_, h2, h⟩ := bind_ok_iff.mp h
  obtain ⟨w, h3, h⟩ := bind_ok_iff.mp h
  rw [check_ok_iff] at h1 h2
  simp at h
  refine ⟨not_not.mp h1, by omega, w.1, w.2, h.symm, ?_⟩
  unfold slotWriteSym at h3
  split at h3
  · unfold slotWriteZero at h3
    split at h3
    · simp at h3; subst h3; exact .inl ⟨‹_›, ‹_›, rfl, rfl⟩
    · exact .inr (.inl ⟨‹_›, by omega, h3⟩)
  · unfold slotWriteLiteral at h3
    obtain ⟨_, h4, h3⟩ := bind_ok_iff.mp h3
    obtain ⟨_, h5, h3⟩ := bind_ok_iff.mp h3
    rw [check_ok_iff] at h4 h5
    simp at h3; subst h3
    exact .inr (.inr ⟨‹_›, by omega, h5, rfl, rfl⟩)

/-- `CoderWrite`: the slot's part put back, and its bits appended. -/
theorem coderWrite_ok {s t : State} {c k sym n : Nat} (h : coderWrite s c k sym = .ok (t, n)) :
    ∃ r, slotWrite (s.slot c k) sym = .ok r ∧ t = (s.setSlot c k r.1).appendBits r.2 ∧ n = r.2.length := by
  unfold coderWrite at h
  obtain ⟨r, h1, h2⟩ := bind_ok_iff.mp h
  simp at h2; exact ⟨r, h1, h2.1.symm, h2.2.symm⟩

/-! ### Reading (42_entropy_decoder.md R161, R164, R166) -/

/-- `TblDec`: the lengths, and exactly the table's bits consumed. -/
theorem readTable_ok {P : Params} {s t : State} {alpha : Nat} {lens : List (BitVec 5)}
    (h : readTable P s alpha = .ok (lens, t)) :
    ∃ rest, P.tblDec alpha s.br = .ok (lens, rest) ∧
      t = s.consumed (s.br.length - rest.length) rest := by
  unfold readTable at h
  split at h
  · simp at h; obtain ⟨rfl, rfl⟩ := h; exact ⟨_, ‹_›, rfl⟩
  · simp at h

/-- `DecodeSym`: a symbol, and the bits of its code word consumed. -/
theorem decodeSym_ok {s t : State} {v : Slot} {i : Nat} (h : decodeSym s v = .ok (i, t)) :
    ∃ n rest, decodeLoop v maxCodeLen 0 0 s.br = .ok (i, n, rest) ∧ t = s.consumed n rest := by
  unfold decodeSym at h
  obtain ⟨⟨j, n, rest⟩, h1, h2⟩ := bind_ok_iff.mp h
  simp at h2; obtain ⟨rfl, rfl⟩ := h2
  exact ⟨n, rest, h1, rfl⟩

/-- The loop of `DecodeSym` answers a symbol the table has, of the length read. -/
theorem decodeLoop_ok {v : Slot} {fuel l code i n : Nat} {bs rest : List Bool}
    (h : decodeLoop v fuel l code bs = .ok (i, n, rest)) :
    l < n ∧ n ≤ l + fuel ∧ rest = bs.drop (n - l) ∧ n - l ≤ bs.length ∧
      ∃ code', v.findCode n code' = some i := by
  induction fuel generalizing l code bs with
  | zero => simp [decodeLoop] at h
  | succ fuel ih =>
    cases bs with
    | nil => simp [decodeLoop] at h
    | cons b bs =>
      simp only [decodeLoop] at h
      split at h
      · simp only [Except.ok.injEq, Prod.mk.injEq] at h
        obtain ⟨rfl, rfl, rfl⟩ := h
        exact ⟨by omega, by omega, by simp, by simp, _, ‹_›⟩
      · obtain ⟨h1, h2, h3, h4, h5⟩ := ih h
        refine ⟨by omega, by omega, ?_, by simp; omega, h5⟩
        rw [h3, show n - l = (n - (l + 1)) + 1 by omega, List.drop_succ_cons]

/-- The length of a run, with its extra bits consumed. -/
theorem readRun_ok {s t : State} {z r : Nat} (h : readRun s z = .ok (r, t)) :
    ∃ x, s.readBits (zextraLen z) = .ok (x, t) ∧ r = zrunOf z x ∧ r ≤ maxWord := by
  unfold readRun at h
  obtain ⟨⟨x, u⟩, h1, h⟩ := bind_ok_iff.mp h
  obtain ⟨_, h2, h3⟩ := bind_ok_iff.mp h
  rw [check_ok_iff] at h2
  simp at h3; obtain ⟨rfl, rfl⟩ := h3
  exact ⟨x, h1, rfl, by omega⟩

/-- What `READ` delivers: an owed zero, a literal, or the first zero of a run. -/
theorem readSym_ok {s t : State} {v : Slot} {x : Nat} {owed : Word} (h : readSym s v = .ok (x, owed, t)) :
    (0 < v.zrun.toNat ∧ x = 0 ∧ owed = v.zrun - 1 ∧ t = s) ∨
      (v.zrun.toNat = 0 ∧ ∃ i u, decodeSym s v = .ok (i, u) ∧
        ((i < v.ns.toNat ∧ x = i ∧ owed = v.zrun ∧ t = u) ∨
          (v.ns.toNat ≤ i ∧ ∃ r, readRun u (i - v.ns.toNat) = .ok (r, t) ∧ x = 0 ∧
            owed = BitVec.ofNat 32 (r - 1)))) := by
  unfold readSym at h
  split at h
  · simp only [Except.ok.injEq, Prod.mk.injEq] at h
    obtain ⟨rfl, rfl, rfl⟩ := h; exact .inl ⟨‹_›, rfl, rfl, rfl⟩
  · refine .inr ⟨by omega, ?_⟩
    unfold readFresh at h
    obtain ⟨⟨i, u⟩, h1, h⟩ := bind_ok_iff.mp h
    refine ⟨i, u, h1, ?_⟩
    simp only at h
    split at h
    · simp only [exec_pure, Except.ok.injEq, Prod.mk.injEq] at h
      obtain ⟨rfl, rfl, rfl⟩ := h; exact .inl ⟨‹_›, rfl, rfl, rfl⟩
    · obtain ⟨⟨r, w⟩, h2, h⟩ := bind_ok_iff.mp h
      simp only [exec_pure, Except.ok.injEq, Prod.mk.injEq] at h
      obtain ⟨rfl, rfl, rfl⟩ := h
      exact .inr ⟨by omega, r, h2, rfl, rfl⟩

end Sys2Proof.Machine
end

