-- ==== Sys2Proof/Laws/Encoding.lean ====
section
/-! SUPPORT. The five fields of a packed word, the flag byte, and the codes of the small operand types. -/

namespace Sys2Proof

variable (op f cl cx : Byte) (d : Word)

theorem packWord_getLsbD (i : Nat) :
    (packWord op f cl cx d).getLsbD i =
      if i < 32 then d.getLsbD i
      else if i < 40 then cx.getLsbD (i - 32)
      else if i < 48 then cl.getLsbD (i - 40)
      else if i < 56 then f.getLsbD (i - 48) else op.getLsbD (i - 56) := by
  simp only [packWord, BitVec.getLsbD_append]
  split_ifs <;> first | omega | rfl

@[simp] theorem opOf_packWord : opOf (packWord op f cl cx d) = op := by
  apply BitVec.eq_of_getLsbD_eq; intro i hi
  simp only [opOf, BitVec.getLsbD_extractLsb', packWord_getLsbD, hi]
  rw [if_neg (by omega), if_neg (by omega), if_neg (by omega), if_neg (by omega)]
  simp

@[simp] theorem flagsOf_packWord : flagsOf (packWord op f cl cx d) = f := by
  apply BitVec.eq_of_getLsbD_eq; intro i hi
  simp only [flagsOf, BitVec.getLsbD_extractLsb', packWord_getLsbD, hi]
  rw [if_neg (by omega), if_neg (by omega), if_neg (by omega), if_pos (by omega)]
  simp

@[simp] theorem clOf_packWord : clOf (packWord op f cl cx d) = cl := by
  apply BitVec.eq_of_getLsbD_eq; intro i hi
  simp only [clOf, BitVec.getLsbD_extractLsb', packWord_getLsbD, hi]
  rw [if_neg (by omega), if_neg (by omega), if_pos (by omega)]
  simp

@[simp] theorem cxOf_packWord : cxOf (packWord op f cl cx d) = cx := by
  apply BitVec.eq_of_getLsbD_eq; intro i hi
  simp only [cxOf, BitVec.getLsbD_extractLsb', packWord_getLsbD, hi]
  rw [if_neg (by omega), if_pos (by omega)]
  simp

@[simp] theorem dOf_packWord : dOf (packWord op f cl cx d) = d := by
  apply BitVec.eq_of_getLsbD_eq; intro i hi
  simp only [dOf, BitVec.getLsbD_extractLsb', packWord_getLsbD, hi]
  simp [hi]

/-- A word is its five fields packed. -/
theorem packWord_fields (w : CmdWord) : packWord (opOf w) (flagsOf w) (clOf w) (cxOf w) (dOf w) = w := by
  apply BitVec.eq_of_getLsbD_eq; intro i hi
  simp only [packWord_getLsbD, opOf, flagsOf, clOf, cxOf, dOf, BitVec.getLsbD_extractLsb']
  split_ifs
  · simp [*]
  · simp [show i - 32 < 8 by omega, show 32 + (i - 32) = i by omega]
  · simp [show i - 40 < 8 by omega, show 40 + (i - 40) = i by omega]
  · simp [show i - 48 < 8 by omega, show 48 + (i - 48) = i by omega]
  · simp [show i - 56 < 8 by omega, show 56 + (i - 56) = i by omega]

/-- The high half of the data word (30_encoding.md R87). -/
theorem dHiOf_eq (w : CmdWord) : dHiOf w = (dOf w).extractLsb' 16 16 := by
  apply BitVec.eq_of_getLsbD_eq; intro i hi
  simp [dHiOf, dOf, hi]

/-- The low half of the data word (R87). -/
theorem dLoOf_eq (w : CmdWord) : dLoOf w = (dOf w).extractLsb' 0 16 := by
  apply BitVec.eq_of_getLsbD_eq; intro i hi
  simp [dLoOf, dOf, hi]

@[simp] theorem extractHi_append (x y : BitVec 16) : (x ++ y).extractLsb' 16 16 = x := by
  apply BitVec.eq_of_getLsbD_eq; intro i hi
  rw [BitVec.getLsbD_extractLsb', BitVec.getLsbD_append]; simp [hi]

@[simp] theorem extractLo_append (x y : BitVec 16) : (x ++ y).extractLsb' 0 16 = y := by
  apply BitVec.eq_of_getLsbD_eq; intro i hi
  rw [BitVec.getLsbD_extractLsb', BitVec.getLsbD_append]; simp [hi]

@[simp] theorem dHiOf_packWord (x y : BitVec 16) : dHiOf (packWord op f cl cx (x ++ y)) = x := by
  rw [dHiOf_eq, dOf_packWord, extractHi_append]

@[simp] theorem dLoOf_packWord (x y : BitVec 16) : dLoOf (packWord op f cl cx (x ++ y)) = y := by
  rw [dLoOf_eq, dOf_packWord, extractLo_append]

/-- A flag byte holds its flag at its bit. -/
theorem flagByte_getLsbD (k : Nat) (b : Bool) (h : k < 8) : (flagByte k b).getLsbD k = b := by
  cases b <;> simp [flagByte, h]

@[simp] theorem Lane.ofCode_code (l : Lane) : Lane.ofCode l.code = l := by cases l <;> rfl

@[simp] theorem Plane.ofCode_code (p : Plane) : Plane.ofCode p.code = p := by cases p <;> rfl

@[simp] theorem RowFilter.ofCode_code (r : RowFilter) : RowFilter.ofCode r.code = r := by cases r <;> rfl

theorem Lane.code_ofCode (b : BitVec 2) : (Lane.ofCode b).code = b := by revert b; decide

theorem Plane.code_ofCode (b : BitVec 1) : (Plane.ofCode b).code = b := by revert b; decide

theorem RowFilter.code_ofCode (b : BitVec 2) : (RowFilter.ofCode b).code = b := by revert b; decide

theorem reserved_zero : (flagsOf (packWord op 0 cl cx d)).extractLsb' 5 3 = 0 := by
  rw [flagsOf_packWord]; rfl

theorem reserved_flags (k : Nat) (b : Bool) (h : k < 5) :
    (flagsOf (packWord op (flagByte k b) cl cx d)).extractLsb' 5 3 = 0 := by
  rw [flagsOf_packWord]
  have : k = 0 ∨ k = 1 ∨ k = 2 ∨ k = 3 ∨ k = 4 := by omega
  rcases this with rfl | rfl | rfl | rfl | rfl <;> cases b <;> rfl

end Sys2Proof
end

