-- ==== Sys2Proof/Laws/Lz.lean ====
section
/-! SUPPORT. What the LZ unit's shared operations answer when they end normally (44_lz.md). -/

namespace Sys2Proof.Machine

open Sys2Proof.Config

theorem lzReady_ok_iff {s : State} {u : Unit} : lzReady s = .ok u ↔ s.work.lz.rdy = true := by
  simp [lzReady, check_ok_iff]

/-- A match length: at most the limit, and so many pixels are written and equal (R196). -/
theorem matchLen_ok {s : State} {c off lim i n : Nat} (h : matchLen s c off lim i = .ok n) :
    n ≤ lim ∧ ∀ j < n, ∃ p, s.pix.readPixel (c + i + j) = some p ∧ s.pix.readPixel (off + i + j) = some p := by
  induction lim generalizing i n with
  | zero => simp [matchLen] at h; subst h; simp
  | succ lim ih =>
    simp only [matchLen] at h
    obtain ⟨p, h1, h⟩ := bind_ok_iff.mp h
    obtain ⟨q, h2, h⟩ := bind_ok_iff.mp h
    rw [readPix_ok_iff] at h1 h2
    split at h
    · obtain ⟨m, h3, h4⟩ := bind_ok_iff.mp h
      simp at h4; subst h4
      obtain ⟨h5, h6⟩ := ih h3
      refine ⟨by omega, fun j hj => ?_⟩
      cases j with
      | zero => subst_vars; exact ⟨_, h1, h2⟩
      | succ j =>
        obtain ⟨r, h7, h8⟩ := h6 j (by omega)
        exact ⟨r, by rw [← h7]; congr 1; omega, by rw [← h8]; congr 1; omega⟩
    · simp at h; subst h; simp

/-- `Commit()`: the list had room, and the pending match stands at its end (R199). -/
theorem lzCommit_ok {P : Params} {z z' : Lz} (h : lzCommit P z = .ok z') :
    z.mlist.length < P.mListCap ∧ z' = z.committed := by
  unfold lzCommit at h
  obtain ⟨_, h1, h2⟩ := bind_ok_iff.mp h
  rw [check_ok_iff] at h1
  simp at h2; exact ⟨by omega, h2.symm⟩

/-- What a find does with its best candidate: pend it, drop it, or commit the pending match first (R196). -/
theorem settle_ok {P : Params} {z z' : Lz} {m : Cand} (h : settle P z m = .ok z') :
    (z.pend = false ∧ z' = z.pended m) ∨
      (z.pend = true ∧ m.off < z.pOff.toNat + z.pLen.toNat ∧
        z' = if better m.save m.dist z.pSave.toNat z.pDist.toNat then z.pended m else z) ∨
      (z.pend = true ∧ z.pOff.toNat + z.pLen.toNat ≤ m.off ∧ z.mlist.length < P.mListCap ∧
        z' = z.committed.pended m) := by
  unfold settle at h
  split at h
  · simp at h; exact .inl ⟨‹_›, h.symm⟩
  · have hp : z.pend = true := by simpa using ‹¬z.pend = false›
    split at h
    · simp at h; exact .inr (.inl ⟨hp, ‹_›, h.symm⟩)
    · obtain ⟨y, h1, h2⟩ := bind_ok_iff.mp h
      obtain ⟨h3, rfl⟩ := lzCommit_ok h1
      simp at h2
      exact .inr (.inr ⟨hp, by omega, h3, h2.symm⟩)

/-- `Commit()` where a match is pending. -/
theorem commitPending_ok {P : Params} {z z' : Lz} (h : commitPending P z = .ok z') :
    (z.pend = true ∧ z.mlist.length < P.mListCap ∧ z' = z.committed) ∨ (z.pend = false ∧ z' = z) := by
  unfold commitPending at h
  split at h
  · obtain ⟨h1, h2⟩ := lzCommit_ok h; exact .inl ⟨‹_›, h1, h2⟩
  · simp at h; exact .inr ⟨by simpa using ‹¬z.pend = true›, h.symm⟩

/-- The escape counted, or written with its tails (R202). -/
theorem emitMatch_ok {P : Params} {cnt : Bool} {ctx : Byte} {m : Match} {s t : State}
    (h : emitMatch P cnt ctx m s = .ok t) :
    (cnt = true ∧ coderAdd P s 0 ctx.toNat (escapeSym m.len.toNat) = .ok t) ∨
      (cnt = false ∧ ∃ u n, coderWrite s 0 ctx.toNat (escapeSym m.len.toNat) = .ok (u, n) ∧
        t = u.appendBits (tailBits m.len.toNat m.dist.toNat)) := by
  unfold emitMatch at h
  split at h
  · exact .inl ⟨‹_›, h⟩
  · obtain ⟨⟨u, n⟩, h1, h2⟩ := bind_ok_iff.mp h
    simp at h2
    exact .inr ⟨by simpa using ‹¬cnt = true›, u, n, h1, h2.symm⟩

/-- The length field of an LZ sequence (R204). -/
theorem readLen_ok {k n : Nat} {s t : State} (h : readLen k s = .ok (n, t)) :
    ∃ v, s.readBits (k + 1) = .ok (v, t) ∧ n = 2 ^ (k + 1) + v ∧ n ≤ maxMatch := by
  unfold readLen at h
  obtain ⟨⟨v, u⟩, h1, h⟩ := bind_ok_iff.mp h
  obtain ⟨_, h2, h3⟩ := bind_ok_iff.mp h
  rw [check_ok_iff] at h2
  simp at h3; obtain ⟨rfl, rfl⟩ := h3
  exact ⟨v, h1, rfl, by omega⟩

/-- The distance field of an LZ sequence (R204). -/
theorem readDist_ok {n : Nat} {s t : State} (h : readDist s = .ok (n, t)) :
    ∃ d u v, s.readBits 5 = .ok (d, u) ∧ d ≤ 20 ∧ u.readBits d = .ok (v, t) ∧ n = 2 ^ d + v ∧
      n ≤ winSize := by
  unfold readDist at h
  obtain ⟨⟨d, u⟩, h1, h⟩ := bind_ok_iff.mp h
  obtain ⟨_, h2, h⟩ := bind_ok_iff.mp h
  obtain ⟨⟨v, w⟩, h3, h⟩ := bind_ok_iff.mp h
  obtain ⟨_, h4, h5⟩ := bind_ok_iff.mp h
  rw [check_ok_iff] at h2 h4
  simp at h5; obtain ⟨rfl, rfl⟩ := h5
  exact ⟨d, u, v, h1, by omega, h3, rfl, by omega⟩

end Sys2Proof.Machine
end

