-- ==== Sys2Proof/Laws/Params.lean ====
section
/-! SUPPORT. This spec's default parameters are a conforming instance of every family of
93_implementation_defined.md that has conditions to meet: P1, P2, P3, P4 and P5. -/

namespace Sys2Proof.Machine

open Sys2Proof.Config

/-! ### Scores and the chaos map (43_chaos.md R176, R177) -/

/-- `bitlen` is monotone. -/
theorem bitlen_mono {m n : Nat} (h : m ≤ n) : bitlen m ≤ bitlen n := by
  unfold bitlen floorLog2
  by_cases hm : m = 0
  · simp [hm]
  · have hn : n ≠ 0 := by omega
    simp only [hm, hn, if_false]
    have := Nat.log_mono_right (b := 2) h
    simp only [Nat.log2_eq_log_two]
    omega

/-- The default score, as a number. -/
@[simp] theorem toNat_defaultScore (r : Byte) : (defaultScore r).toNat = min r.toNat (256 - r.toNat) := by
  have := r.isLt
  simp only [defaultScore, BitVec.toNat_ofNat]
  omega

theorem params_score_conforms : ScoreConforms params.score := by
  refine ⟨rfl, fun r => BitVec.eq_of_toNat_eq ?_, fun q r h => ?_, fun r => ?_⟩ <;>
    simp only [params, toNat_defaultScore]
  · have := r.isLt
    rw [BitVec.toNat_neg]
    omega
  · exact h
  · have := r.isLt
    omega

theorem params_chaosMap_conforms : ChaosMapConforms params.chaosMap :=
  ⟨fun _ _ _ _ => min_le_left _ _, fun row _ _ _ h _ => min_le_min_left row (bitlen_mono h),
    fun row _ => Nat.min_zero row⟩

/-! ### The filter catalogs (45_tile_filter.md R229, R231) -/

theorem params_filters_conform : FiltersConform params := show 5 ≤ 128 by decide

theorem params_colors_conform : ColorsConform params := by
  refine ⟨by decide, fun j p hj => ?_⟩
  have hj' : j < 2 := hj
  obtain rfl | rfl : j = 0 ∨ j = 1 := by omega
  · rfl
  · obtain ⟨r, g, b⟩ := p
    simp [params, defaultCfFwd, defaultCfInv]

/-! ### The table codec RAW5 (41_entropy_encoder.md R144, 42_entropy_decoder.md R162) -/

/-- A field read is the front of the stream it was read from. -/
theorem eq_of_takeBits {n acc v : Nat} {bs rest : List Bool} (h : takeBits n acc bs = some (v, rest)) :
    bs = msbBits n v ++ rest ∧ v / 2 ^ n = acc := by
  induction n generalizing acc bs with
  | zero => simp at h; simp [h, msbBits]
  | succ n ih =>
    cases bs with
    | nil => simp [takeBits] at h
    | cons b bs =>
      obtain ⟨rfl, h2⟩ := ih (by simpa [takeBits] using h)
      rw [Nat.pow_succ, ← Nat.div_div_eq_div_mul, h2]
      simp only [msbBits, Nat.testBit_eq_decide_div_mod_eq, h2, List.cons_append]
      cases b
      · simp
      · simp; omega

/-- Bits behind a field do not change it. -/
theorem takeBits_append {n acc v : Nat} {bs rest : List Bool} (more : List Bool)
    (h : takeBits n acc bs = some (v, rest)) : takeBits n acc (bs ++ more) = some (v, rest ++ more) := by
  obtain ⟨rfl, rfl⟩ := eq_of_takeBits h
  rw [List.append_assoc, takeBits_msbBits, Nat.mul_comm, Nat.div_add_mod]

/-- `RAW5` read back: the stream ends in the field, the field is no length, or it is one and the rest is read. -/
theorem raw5Dec_succ (n : Nat) (bs : List Bool) :
    (bs.length < 5 ∧ raw5Dec (n + 1) bs = .error .truncated) ∨
    ∃ l rest, takeBits 5 0 bs = some (l, rest) ∧ bs.length = rest.length + 5 ∧
      raw5Dec (n + 1) bs =
        if maxCodeLen < l then .error .badCodelen
        else (raw5Dec n rest).map (fun r => (BitVec.ofNat 5 l :: r.1, r.2)) := by
  by_cases h : 5 ≤ bs.length
  · have ht := takeBits_eq 5 0 bs
    rw [if_pos h] at ht
    refine .inr ⟨_, _, ht, by simp; omega, ?_⟩
    simp only [raw5Dec, ht]
    split
    · rfl
    · cases raw5Dec n (bs.drop 5) <;> rfl
  · have ht : takeBits 5 0 bs = none := by rw [takeBits_eq, if_neg h]
    exact .inl ⟨by omega, by simp [raw5Dec, ht]⟩

/-- What an accepted table is: so many legal lengths, and the stream begins with their encoding. -/
theorem raw5Dec_ok {n : Nat} {bs rest : List Bool} {lens : List (BitVec 5)}
    (h : raw5Dec n bs = .ok (lens, rest)) :
    lens.length = n ∧ (∀ l ∈ lens, l.toNat ≤ maxCodeLen) ∧ bs = raw5Enc lens ++ rest := by
  induction n generalizing bs lens with
  | zero =>
    simp only [raw5Dec, Except.ok.injEq, Prod.mk.injEq] at h
    obtain ⟨rfl, rfl⟩ := h
    simp [raw5Enc]
  | succ n ih =>
    obtain ⟨_, h1⟩ | ⟨l, r, h1, _, h2⟩ := raw5Dec_succ n bs
    · rw [h1] at h; cases h
    · rw [h2] at h
      split at h
      · cases h
      · rename_i hl
        cases h3 : raw5Dec n r with
        | error e => rw [h3] at h; cases h
        | ok p =>
          rw [h3] at h
          simp only [Except.map, Except.ok.injEq, Prod.mk.injEq] at h
          obtain ⟨rfl, rfl⟩ := h
          obtain ⟨h4, h5, h6⟩ := ih h3
          have hv : (BitVec.ofNat 5 l).toNat = l := by
            rw [BitVec.toNat_ofNat]; unfold maxCodeLen at hl; omega
          refine ⟨by simp [h4], ?_, ?_⟩
          · simp only [List.mem_cons, forall_eq_or_imp]
            exact ⟨by omega, h5⟩
          · rw [(eq_of_takeBits h1).1, h6]
            simp [raw5Enc, hv]

/-- Legal lengths that were written come back, and the stream behind them is untouched. -/
theorem raw5Dec_raw5Enc (lens : List (BitVec 5)) (rest : List Bool) (h : ∀ l ∈ lens, l.toNat ≤ maxCodeLen) :
    raw5Dec lens.length (raw5Enc lens ++ rest) = .ok (lens, rest) := by
  induction lens with
  | nil => rfl
  | cons l ls ih =>
    have hl : ¬maxCodeLen < l.toNat := Nat.not_lt.mpr (h l (by simp))
    have ih' := ih (fun x hx => h x (by simp [hx]))
    have ht : takeBits 5 0 (msbBits 5 l.toNat ++ (raw5Enc ls ++ rest)) = some (l.toNat, raw5Enc ls ++ rest) := by
      rw [takeBits_msbBits]
      have := l.isLt
      simp [Nat.mod_eq_of_lt this]
    have he : raw5Enc (l :: ls) ++ rest = msbBits 5 l.toNat ++ (raw5Enc ls ++ rest) := by simp [raw5Enc]
    simp [he, raw5Dec, ht, hl, ih']

/-- A stream long enough for a table is not truncated. -/
theorem raw5Dec_ne_truncated {n : Nat} {bs : List Bool} (h : 5 * n ≤ bs.length) :
    raw5Dec n bs ≠ .error .truncated := by
  induction n generalizing bs with
  | zero => simp [raw5Dec]
  | succ n ih =>
    obtain ⟨h1, _⟩ | ⟨l, r, _, h1, h2⟩ := raw5Dec_succ n bs
    · omega
    · rw [h2]
      split
      · simp
      · have := ih (bs := r) (by omega)
        cases h3 : raw5Dec n r with
        | error e => simpa [Except.map, h3] using this
        | ok p => simp [Except.map]

/-- `RAW5` is a conforming table codec. -/
theorem params_codec_conforms : CodecConforms params where
  inverts lens rest h := by
    refine raw5Dec_raw5Enc lens rest fun l hl => ?_
    simp only [validLengths, Bool.and_eq_true, List.all_eq_true, decide_eq_true_eq] at h
    exact h.1 l hl
  lengths n bs lens rest h := ⟨(raw5Dec_ok h).1, (raw5Dec_ok h).2.1⟩
  consumes n bs lens rest h := by
    obtain ⟨rfl, h2, h3⟩ := raw5Dec_ok h
    exact ⟨raw5Enc lens, h3, fun other => raw5Dec_raw5Enc lens other h2⟩
  truncated n bs more lens rest h hlt := by
    change raw5Dec n (bs ++ more) = _ at h
    change raw5Dec n bs = _
    induction n generalizing bs lens with
    | zero =>
      simp only [raw5Dec, Except.ok.injEq, Prod.mk.injEq] at h
      rw [← h.2] at hlt; simp at hlt
    | succ n ih =>
      obtain ⟨_, h1⟩ | ⟨l, r, h1, _, h2⟩ := raw5Dec_succ n bs
      · exact h1
      · simp only [raw5Dec, takeBits_append more h1] at h
        split at h
        · cases h
        · rename_i hl
          cases h3 : raw5Dec n (r ++ more) with
          | error e => rw [h3] at h; cases h
          | ok p =>
            rw [h3] at h
            simp only [Except.ok.injEq, Prod.mk.injEq] at h
            rw [h2, if_neg hl, ih r p.1 (by rw [h3, ← h.2])]
            rfl
  malformed n bs more h := by
    change raw5Dec n bs = _ at h
    change raw5Dec n (bs ++ more) = _
    induction n generalizing bs with
    | zero => simp [raw5Dec] at h
    | succ n ih =>
      obtain ⟨_, h1⟩ | ⟨l, r, h1, _, h2⟩ := raw5Dec_succ n bs
      · rw [h1] at h; simp at h
      · rw [h2] at h
        simp only [raw5Dec, takeBits_append more h1]
        split
        · rfl
        · rename_i hl
          rw [if_neg hl] at h
          rw [ih r (by cases h3 : raw5Dec n r <;> simp_all [Except.map])]
  ended n bs _ := ⟨List.replicate (5 * n) false, raw5Dec_ne_truncated (by simp)⟩

end Sys2Proof.Machine
end

