-- ==== Sys2Proof/Laws/PerInstr.lean ====
section
/-! SUPPORT. The family `EncodedOpcode` of LAWS.json: the word of every command carries the opcode 30_encoding.md
R93 gives it, and the flag bits R82 reserves are zero in it. -/

namespace Sys2Proof.Laws

/-- The opcode of a command (R93). -/
def opcode : Instr → Byte
  | .nop => 0x00
  | .sreset => 0x01
  | .csrw _ _ => 0x02
  | .csrr _ => 0x03
  | .putb _ _ => 0x04
  | .getb _ => 0x05
  | .eclr _ _ _ => 0x10
  | .add _ _ _ _ _ => 0x11
  | .final _ _ => 0x12
  | .wrtbl _ _ => 0x13
  | .write _ _ _ _ _ => 0x14
  | .rdtbl _ _ => 0x18
  | .read _ _ _ _ => 0x19
  | .chinit => 0x20
  | .chget _ _ => 0x21
  | .chput _ _ _ => 0x22
  | .chzero _ _ => 0x23
  | .lzinit => 0x30
  | .lzins _ => 0x31
  | .lzfind _ => 0x32
  | .lzflush => 0x33
  | .lzrew => 0x34
  | .lzemit _ _ _ => 0x35
  | .lzread _ _ => 0x36
  | .lzstep _ => 0x37
  | .tinit => 0x40
  | .tset _ _ _ _ => 0x41
  | .tsel _ _ _ => 0x42
  | .resid _ _ _ _ _ => 0x44
  | .recon _ _ _ _ _ => 0x45
  | .tsclr => 0x46
  | .tsacc _ => 0x47
  | .tsbest _ => 0x48
  | .tmres _ _ _ _ => 0x49
  | .tmrec _ _ _ _ _ => 0x4A

/-- The opcode and the reserved flag bits of a command's word. -/
def EncodedOpcode.Statement (i : Instr) : Prop :=
  opOf (encode i) = opcode i ∧ (flagsOf (encode i)).extractLsb' 5 3 = 0

theorem EncodedOpcode.nop :
    EncodedOpcode.Statement .nop := ⟨opOf_packWord .., reserved_zero ..⟩

theorem EncodedOpcode.sreset :
    EncodedOpcode.Statement .sreset := ⟨opOf_packWord .., reserved_zero ..⟩

theorem EncodedOpcode.csrw (a16 : BitVec 16) (value : Word) :
    EncodedOpcode.Statement (.csrw a16 value) := ⟨opOf_packWord .., reserved_zero ..⟩

theorem EncodedOpcode.csrr (a16 : BitVec 16) :
    EncodedOpcode.Statement (.csrr a16) := ⟨opOf_packWord .., reserved_zero ..⟩

theorem EncodedOpcode.putb (n : Byte) (value : Word) :
    EncodedOpcode.Statement (.putb n value) := ⟨opOf_packWord .., reserved_zero ..⟩

theorem EncodedOpcode.getb (n : Byte) :
    EncodedOpcode.Statement (.getb n) := ⟨opOf_packWord .., reserved_zero ..⟩

theorem EncodedOpcode.eclr (all : Bool) (cls ctx : Byte) :
    EncodedOpcode.Statement (.eclr all cls ctx) := ⟨opOf_packWord .., reserved_flags _ _ _ _ allBit all (by decide)⟩

theorem EncodedOpcode.add (auto : Bool) (cls ctx : Byte) (x sym : BitVec 16) :
    EncodedOpcode.Statement (.add auto cls ctx x sym) := ⟨opOf_packWord .., reserved_flags _ _ _ _ autoBit auto (by decide)⟩

theorem EncodedOpcode.final (cls ctx : Byte) :
    EncodedOpcode.Statement (.final cls ctx) := ⟨opOf_packWord .., reserved_zero ..⟩

theorem EncodedOpcode.wrtbl (cls ctx : Byte) :
    EncodedOpcode.Statement (.wrtbl cls ctx) := ⟨opOf_packWord .., reserved_zero ..⟩

theorem EncodedOpcode.write (auto : Bool) (cls ctx : Byte) (x sym : BitVec 16) :
    EncodedOpcode.Statement (.write auto cls ctx x sym) := ⟨opOf_packWord .., reserved_flags _ _ _ _ autoBit auto (by decide)⟩

theorem EncodedOpcode.rdtbl (cls ctx : Byte) :
    EncodedOpcode.Statement (.rdtbl cls ctx) := ⟨opOf_packWord .., reserved_zero ..⟩

theorem EncodedOpcode.read (auto : Bool) (cls ctx : Byte) (x : BitVec 16) :
    EncodedOpcode.Statement (.read auto cls ctx x) := ⟨opOf_packWord .., reserved_flags _ _ _ _ autoBit auto (by decide)⟩

theorem EncodedOpcode.chinit :
    EncodedOpcode.Statement .chinit := ⟨opOf_packWord .., reserved_zero ..⟩

theorem EncodedOpcode.chget (lane : Lane) (x : BitVec 16) :
    EncodedOpcode.Statement (.chget lane x) := ⟨opOf_packWord .., reserved_zero ..⟩

theorem EncodedOpcode.chput (lane : Lane) (r : Byte) (x : BitVec 16) :
    EncodedOpcode.Statement (.chput lane r x) := ⟨opOf_packWord .., reserved_zero ..⟩

theorem EncodedOpcode.chzero (lanes : BitVec 4) (x : BitVec 16) :
    EncodedOpcode.Statement (.chzero lanes x) := ⟨opOf_packWord .., reserved_zero ..⟩

theorem EncodedOpcode.lzinit :
    EncodedOpcode.Statement .lzinit := ⟨opOf_packWord .., reserved_zero ..⟩

theorem EncodedOpcode.lzins (off : Word) :
    EncodedOpcode.Statement (.lzins off) := ⟨opOf_packWord .., reserved_zero ..⟩

theorem EncodedOpcode.lzfind (off : Word) :
    EncodedOpcode.Statement (.lzfind off) := ⟨opOf_packWord .., reserved_zero ..⟩

theorem EncodedOpcode.lzflush :
    EncodedOpcode.Statement .lzflush := ⟨opOf_packWord .., reserved_zero ..⟩

theorem EncodedOpcode.lzrew :
    EncodedOpcode.Statement .lzrew := ⟨opOf_packWord .., reserved_zero ..⟩

theorem EncodedOpcode.lzemit (cnt : Bool) (ctx : Byte) (off : Word) :
    EncodedOpcode.Statement (.lzemit cnt ctx off) := ⟨opOf_packWord .., reserved_flags _ _ _ _ cntBit cnt (by decide)⟩

theorem EncodedOpcode.lzread (k : Byte) (off : Word) :
    EncodedOpcode.Statement (.lzread k off) := ⟨opOf_packWord .., reserved_zero ..⟩

theorem EncodedOpcode.lzstep (off : Word) :
    EncodedOpcode.Statement (.lzstep off) := ⟨opOf_packWord .., reserved_zero ..⟩

theorem EncodedOpcode.tinit :
    EncodedOpcode.Statement .tinit := ⟨opOf_packWord .., reserved_zero ..⟩

theorem EncodedOpcode.tset (sf cf : Byte) (ty tx : BitVec 16) :
    EncodedOpcode.Statement (.tset sf cf ty tx) := ⟨opOf_packWord .., reserved_zero ..⟩

theorem EncodedOpcode.tsel (msk : Bool) (y x : BitVec 16) :
    EncodedOpcode.Statement (.tsel msk y x) := ⟨opOf_packWord .., reserved_flags _ _ _ _ mskBit msk (by decide)⟩

theorem EncodedOpcode.resid (expl : Bool) (sf cf : Byte) (y x : BitVec 16) :
    EncodedOpcode.Statement (.resid expl sf cf y x) := ⟨opOf_packWord .., reserved_flags _ _ _ _ explBit expl (by decide)⟩

theorem EncodedOpcode.recon (expl : Bool) (sf cf : Byte) (y x : BitVec 16) :
    EncodedOpcode.Statement (.recon expl sf cf y x) := ⟨opOf_packWord .., reserved_flags _ _ _ _ explBit expl (by decide)⟩

theorem EncodedOpcode.tsclr :
    EncodedOpcode.Statement .tsclr := ⟨opOf_packWord .., reserved_zero ..⟩

theorem EncodedOpcode.tsacc (f : Byte) :
    EncodedOpcode.Statement (.tsacc f) := ⟨opOf_packWord .., reserved_zero ..⟩

theorem EncodedOpcode.tsbest (n : Byte) :
    EncodedOpcode.Statement (.tsbest n) := ⟨opOf_packWord .., reserved_zero ..⟩

theorem EncodedOpcode.tmres (rf : RowFilter) (plane : Plane) (ty tx : BitVec 16) :
    EncodedOpcode.Statement (.tmres rf plane ty tx) := ⟨opOf_packWord .., reserved_zero ..⟩

theorem EncodedOpcode.tmrec (rf : RowFilter) (plane : Plane) (r : Byte) (ty tx : BitVec 16) :
    EncodedOpcode.Statement (.tmrec rf plane r ty tx) := ⟨opOf_packWord .., reserved_zero ..⟩

end Sys2Proof.Laws
end

