-- ==== Sys2Proof/Tests/Slice0.lean ====
section
/-! SUPPORT. The writer's own tests: ill-formed terms are refused, a word of every command decodes, one step of
every command gives what the spec's example or vector says (95_test_vectors.md; the source of each is named), and
for every obligation with hypotheses a concrete case that meets them (`witness_<name of the obligation>`). -/

set_option Elab.async false

namespace Sys2Proof.Tests

open Sys2Proof Sys2Proof.Machine Sys2Proof.Config

/-! ### Well-formedness: each check refuses an ill-formed term (30_encoding.md R92) -/

theorem test_wf_auto_context : (Instr.add true 1 1 0 7).wf = false := by decide
theorem test_wf_plain_column : (Instr.add false 1 0 1 7).wf = false := by decide
theorem test_wf_write_context : (Instr.write true 1 1 0 7).wf = false := by decide
theorem test_wf_write_column : (Instr.write false 1 0 1 7).wf = false := by decide
theorem test_wf_read_context : (Instr.read true 1 1 0).wf = false := by decide
theorem test_wf_read_column : (Instr.read false 1 0 1).wf = false := by decide
theorem test_wf_all_class : (Instr.eclr true 1 0).wf = false := by decide
theorem test_wf_all_context : (Instr.eclr true 0 1).wf = false := by decide
theorem test_wf_resid_expl : (Instr.resid false 1 0 0 0).wf = false := by decide
theorem test_wf_recon_expl : (Instr.recon false 0 1 0 0).wf = false := by decide

/-! ### Decoding: a word of every command, written from 30_encoding.md or taken from 95_test_vectors.md -/

theorem test_decode_nop : decode 0x0000000000000000 = .ok .nop := by decide +kernel
theorem test_decode_sreset : decode 0x0100000000000000 = .ok .sreset := by decide +kernel
theorem test_decode_csrw : decode 0x020000100000FFFF = .ok (.csrw 0x0010 0xFFFF) := by decide +kernel
theorem test_decode_csrr : decode 0x0300017F00000000 = .ok (.csrr 0x017F) := by decide +kernel
theorem test_decode_putb : decode 0x04000020DEADBEEF = .ok (.putb 32 0xDEADBEEF) := by decide +kernel
theorem test_decode_getb : decode 0x0500000300000000 = .ok (.getb 3) := by decide +kernel
theorem test_decode_eclr : decode 0x1000050000000000 = .ok (.eclr false 5 0) := by decide +kernel
theorem test_decode_eclr_all : decode 0x1010000000000000 = .ok (.eclr true 0 0) := by decide +kernel
theorem test_decode_add : decode 0x1100050000000001 = .ok (.add false 5 0 0 1) := by decide +kernel
theorem test_decode_add_auto : decode 0x1101000000010009 = .ok (.add true 0 0 1 9) := by decide +kernel
theorem test_decode_final : decode 0x1200050000000000 = .ok (.final 5 0) := by decide +kernel
theorem test_decode_wrtbl : decode 0x1300050000000000 = .ok (.wrtbl 5 0) := by decide +kernel
theorem test_decode_write : decode 0x1400050000000002 = .ok (.write false 5 0 0 2) := by decide +kernel
theorem test_decode_rdtbl : decode 0x1800050000000000 = .ok (.rdtbl 5 0) := by decide +kernel
theorem test_decode_read : decode 0x1900050000000000 = .ok (.read false 5 0 0) := by decide +kernel
theorem test_decode_chinit : decode 0x2000000000000000 = .ok .chinit := by decide +kernel
theorem test_decode_chget : decode 0x2100030000000003 = .ok (.chget .a 3) := by decide +kernel
theorem test_decode_chput : decode 0x2200000000FE0001 = .ok (.chput .y 0xFE 1) := by decide +kernel
theorem test_decode_chzero : decode 0x23000F0000000007 = .ok (.chzero 0xF 7) := by decide +kernel
theorem test_decode_lzinit : decode 0x3000000000000000 = .ok .lzinit := by decide +kernel
theorem test_decode_lzins : decode 0x3100000000000010 = .ok (.lzins 16) := by decide +kernel
theorem test_decode_lzfind : decode 0x3200000000000100 = .ok (.lzfind 256) := by decide +kernel
theorem test_decode_lzflush : decode 0x3300000000000000 = .ok .lzflush := by decide +kernel
theorem test_decode_lzrew : decode 0x3400000000000000 = .ok .lzrew := by decide +kernel
theorem test_decode_lzemit : decode 0x3502000000000100 = .ok (.lzemit true 0 256) := by decide +kernel
theorem test_decode_lzread : decode 0x3600000700000100 = .ok (.lzread 7 256) := by decide +kernel
theorem test_decode_lzstep : decode 0x37000000000001FF = .ok (.lzstep 511) := by decide +kernel
theorem test_decode_tinit : decode 0x4000000000000000 = .ok .tinit := by decide +kernel
theorem test_decode_tset : decode 0x4100030100000001 = .ok (.tset 3 1 0 1) := by decide +kernel
theorem test_decode_tsel : decode 0x4200000000020004 = .ok (.tsel false 2 4) := by decide +kernel
theorem test_decode_tsel_masked : decode 0x4208000000000000 = .ok (.tsel true 0 0) := by decide +kernel
theorem test_decode_resid : decode 0x4404030100010001 = .ok (.resid true 3 1 1 1) := by decide +kernel
theorem test_decode_recon : decode 0x4504010000010002 = .ok (.recon true 1 0 1 2) := by decide +kernel
theorem test_decode_tsclr : decode 0x4600000000000000 = .ok .tsclr := by decide +kernel
theorem test_decode_tsacc : decode 0x4700050000000000 = .ok (.tsacc 5) := by decide +kernel
theorem test_decode_tsbest : decode 0x4800030000000000 = .ok (.tsbest 3) := by decide +kernel
theorem test_decode_tmres : decode 0x4900020000000002 = .ok (.tmres .left .sf 0 2) := by decide +kernel
theorem test_decode_tmrec : decode 0x4A00060300010001 = .ok (.tmrec .upLeft .sf 3 1 1) := by decide +kernel
/-- An opcode R93 does not list. -/
theorem test_decode_undefined : decode 0x0600000000000000 = .error (.undefinedOpcode 6) := by decide +kernel
/-- Vector F10: `ADD` with the flag `CNT`. -/
theorem test_decode_flag : decode 0x1102010000000007 = .error (.reservedField 0x11) := by decide +kernel
/-- Vector F10: `READ` with a symbol. -/
theorem test_decode_read_sym : decode 0x1900010000000001 = .error (.reservedField 0x19) := by decide +kernel

/-! ### Small states -/

/-- What a command answers; `none` if the model stops. -/
def answer (i : Instr) (s : State) : Option CmdWord :=
  match exec i s with
  | .next t => t.rsp
  | _ => none

/-- The state after a command; the state itself if the model stops. -/
def after (i : Instr) (s : State) : State :=
  match exec i s with
  | .next t => t
  | _ => s

/-- The state after a step; the state itself if the model stops. -/
def stepped (s : State) : State :=
  match step s with
  | .next t => t
  | _ => s

/-- Whether a step answers a next state. -/
def goesOn (s : State) : Bool :=
  match step s with
  | .next _ => true
  | _ => false

/-- Whether a command answers a next state. -/
def completes (i : Instr) (s : State) : Bool :=
  match exec i s with
  | .next _ => true
  | _ => false

theorem step_stepped {s : State} (h : goesOn s = true) : step s = .next (stepped s) := by
  unfold goesOn at h
  unfold stepped
  split at h <;> simp_all

theorem exec_after {i : Instr} {s : State} (h : completes i s = true) : exec i s = .next (after i s) := by
  unfold completes at h
  unfold after
  split at h <;> simp_all

/-- `PIX` holding pixels from offset 0 on. -/
def pixels (ps : List Word) : Memory :=
  (ps.foldl (fun (a : Nat × Memory) p => (a.1 + 1, a.2.writePixel a.1 p)) (0, [])).2

/-- A bit string written as a number of so many digits. -/
def bits (n v : Nat) : List Bool := msbBits n v

/-- The five-bit fields of a table of `n` lengths, all zero but those listed. -/
def tableBits (n : Nat) (t : Sparse (BitVec 5)) : List Bool := raw5Enc (Sparse.toList 0 t n)

/-- A configuration: image 4 by 2, tiles of 2 by 2, 8 and 2 levels, subsets of 4. -/
def conf : Cfg :=
  { Cfg.reset with imgW := 4, imgH := 2, tileBits := 1, lYuv := 8, lA := 2, nsf := 4, ncf := 4,
                   savedPixelBits := 24 }

/-- The reset state with that configuration. -/
def base : State := { State.reset with cfg := conf }

/-- `base` in the fault state. -/
def faulted : State := { base with err := true, errCause := 7, errCmdHi := 0x04000021 }

/-- Slot (5, 0) in COUNT with four literals. -/
def counting : State := base.setSlot 5 0 (Slot.cleared 4)

/-- The slot of 41_entropy_encoder.md R136's example in READY. -/
def readySlot : Slot :=
  { Slot.cleared 4 with phase := .ready, hist := [(1, 2), (2, 1), (4, 1), (6, 1)],
                        len := [(1, 2), (2, 2), (4, 2), (6, 2)], code := [(2, 1), (4, 2), (6, 3)],
                        runList := [3, 1], nadd := 7 }

/-- Slot (5, 0) in READY. -/
def ready : State := base.setSlot 5 0 readySlot

/-- The same code in a decoder slot. -/
def decoderSlot : Slot := { Slot.cleared 4 with phase := .decode, len := readySlot.len, code := readySlot.code }

/-- Slot (5, 0) in DECODE, with bits in front of it. -/
def decoder (br : List Bool) : State := { base.setSlot 5 0 decoderSlot with br := br }

/-- The chaos unit ready, width 4, residual 5 put at column 0 of lane Y. -/
def chaos : State :=
  { base with work := { base.work with ch := { rdy := true, w := 4, row := [(1, 5)] } } }

/-- The LZ unit of an image of `n` pixels, over the reset state. -/
def lzOf (n : Word) : Lz := Work.reset.lz.initialised n

/-- `base` with an LZ unit and pixels. -/
def withLz (z : Lz) (ps : List Word) : State :=
  { base with pix := pixels ps, work := { base.work with lz := z } }

/-- Five identical pixels (95_test_vectors.md 2.5), offset 0 inserted. -/
def fivePixels : List Word := [0x11223344, 0x11223344, 0x11223344, 0x11223344, 0x11223344]

/-- The LZ unit over them. -/
def fiveLz : Lz := (lzOf 5).inserted (lzHash params 0x11223344 0x11223344) 0

/-- A pending match in an image of 12 pixels. -/
def pendingLz : Lz := (lzOf 12).pended ⟨3, 3, 2, 33⟩

/-- The match of 44_lz.md R202's example committed. -/
def emitLz : Lz := { lzOf 512 with mlist := [⟨256, 256, 256⟩], coverEnd := 512 }

/-- Slot (0, 0) in READY holding only the escape 263. -/
def escapeSlot : Slot := { Slot.cleared 268 with phase := .ready, len := [(263, 1)] }

/-- That match and that slot. -/
def emitting : State := (withLz emitLz []).setSlot 0 0 escapeSlot

/-- The match with slot (0, 0) in COUNT. -/
def emitCounting : State := (withLz emitLz []).setSlot 0 0 (Slot.cleared 268)

/-- A copy run of two pixels at offset 1, distance 1, in an image of 3 pixels (vector L1). -/
def running : State :=
  withLz { lzOf 3 with runDist := 1, runLeft := 2, runNext := 1 } [0x80706050]

/-- The tile unit of an image of `w` by `h` pixels with tiles of 2 by 2. -/
def tileOf (w h tx ty : BitVec 16) : Tile :=
  { Work.reset.tile with rdy := true, w := w, h := h, b := 1, tx := tx, ty := ty }

/-- `base` with a tile unit and pixels. -/
def withTile (t : Tile) (ps : List Word) : State :=
  { base with pix := pixels ps, work := { base.work with tile := t } }

/-- The image of 45_tile_filter.md R234's example. -/
def residImage : List Word := [0xFF1E140A, 0xFF1C190C, 0xC821160B, 0x8028150F]

/-- The tile unit over that image. -/
def residState : State := withTile (tileOf 2 2 1 1) residImage

/-- The grid of 45_tile_filter.md R242's example: 3 by 2 tiles, tile (0, 0) seen. -/
def gridTile : Tile :=
  { tileOf 6 4 3 2 with
    sfMap := [(0, 1), (1, 3), (2, 255), (3, 2), (4, 0), (5, 3)], cfMap := [(0, 0), (1, 0), (2, 255)],
    seen := [(0, true)] }

/-- The tile unit with that grid. -/
def grid : State := withTile gridTile []

/-! ### One step of every command -/

/-- Vector S1. -/
theorem test_nop : answer .nop base = some 0 ∧ (after .nop base).cmdcnt = 1 := by decide +kernel
/-- Vector S13. -/
theorem test_nop_refused : answer .nop faulted = some 0x9C00000000000000 := by decide +kernel
/-- Vector S14. -/
theorem test_sreset : answer .sreset faulted = some 0 ∧ (after .sreset faulted).err = false ∧
    (after .sreset faulted).cfg.imgW = 1 := by decide +kernel
/-- Vector S5. -/
theorem test_csrw : answer (.csrw 0x0010 0xFFFF) base = some 0 ∧
    (after (.csrw 0x0010 0xFFFF) base).cfg.imgW = 0xFFFF := by decide +kernel
/-- Vector S21: the cause and the faulting word. -/
theorem test_csrw_policy : answer (.csrw 0x0012 9) base = some 0x5C00000000000000 ∧
    (after (.csrw 0x0012 9) base).errCmdHi = 0x02000012 ∧ (after (.csrw 0x0012 9) base).errCmdLo = 9 ∧
    (after (.csrw 0x0012 9) base).cfg.tileBits = 1 := by decide +kernel
/-- Vector S4. -/
theorem test_csrr : answer (.csrr 0x0000) base = some 0x47434946 := by decide +kernel
/-- Vector S19. -/
theorem test_csrr_undefined : answer (.csrr 0x0099) base = some 0x6000000000000000 := by decide +kernel
/-- 40_system.md R124's example. -/
theorem test_putb : answer (.putb 3 5) base = some 3 ∧ (after (.putb 3 5) base).bw = [true, false, true] ∧
    (after (.putb 3 5) base).work.bwCount = 3 := by decide +kernel
/-- Vector S8: only the four low bits. -/
theorem test_putb_low : (after (.putb 4 0xFFFFFFF5) base).bw = [false, true, false, true] := by decide +kernel
/-- 40_system.md R125's example. -/
theorem test_getb : answer (.getb 3) { base with br := [true, false, true, true] } = some 5 ∧
    (after (.getb 3) { base with br := [true, false, true, true] }).br = [true] := by decide +kernel
/-- 40_system.md R125: an empty stream. -/
theorem test_getb_truncated : answer (.getb 1) base = some 0x4400000000000000 := by decide +kernel
/-- 41_entropy_encoder.md R132's example. -/
theorem test_eclr : answer (.eclr false 5 0) ready = some 0 ∧
    (after (.eclr false 5 0) ready).slot 5 0 = Slot.cleared 4 := by decide +kernel
/-- Vector F6: the last of the 192 slots. -/
theorem test_eclr_all : completes (.eclr true 0 0) base = true ∧ allSlots.length = 192 ∧ (5, 31) ∈ allSlots := by
  decide +kernel
/-- 41_entropy_encoder.md R133's example. -/
theorem test_add : answer (.add false 5 0 0 1) counting = some 0 ∧
    ((after (.add false 5 0 0 1) counting).slot 5 0).hist = [(1, 1)] ∧
    ((after (.add false 5 0 0 1) counting).slot 5 0).nadd = 1 := by decide +kernel
/-- The run boundary of 95_test_vectors.md 2.2: a run of 300 is run symbol 103. -/
theorem test_add_run :
    ((after (.add false 0 0 0 5) (base.setSlot 0 0 { Slot.cleared 268 with zrun := 300 })).slot 0 0).hist =
      [(5, 1), (371, 1)] := by decide +kernel
/-- Vector E3: lengths 2, 2, 1 and code words 10, 11, 0. -/
theorem test_final :
    answer (.final 1 0) (base.setSlot 1 0 { Slot.cleared 256 with hist := [(1, 1), (2, 1), (3, 1)] }) = some 2 ∧
    ((after (.final 1 0) (base.setSlot 1 0
      { Slot.cleared 256 with hist := [(1, 1), (2, 1), (3, 1)] })).slot 1 0).len = [(1, 2), (2, 2), (3, 1)] ∧
    ((after (.final 1 0) (base.setSlot 1 0
      { Slot.cleared 256 with hist := [(1, 1), (2, 1), (3, 1)] })).slot 1 0).code = [(1, 2), (2, 3)] := by
  decide +kernel
/-- 41_entropy_encoder.md R136's example: the final flush, and four symbols of length 2. -/
theorem test_final_flush :
    (after (.final 5 0) (base.setSlot 5 0
      { Slot.cleared 4 with hist := [(1, 2), (2, 1), (6, 1)], zrun := 1, runList := [3], nadd := 7 })).slot 5 0 =
      readySlot := by decide +kernel
/-- 41_entropy_encoder.md R143's example. -/
theorem test_wrtbl : answer (.wrtbl 5 0) ready = some 0x294 ∧
    (after (.wrtbl 5 0) ready).bw.take 40 = bits 40 0x0084010040 := by decide +kernel
/-- 41_entropy_encoder.md R145's example: the run of three. -/
theorem test_write : answer (.write false 5 0 0 0) ready = some 2 ∧
    (after (.write false 5 0 0 0) ready).bw = [true, true] ∧
    ((after (.write false 5 0 0 0) ready).slot 5 0).zrun = 2 := by decide +kernel
/-- Vector W2: a symbol that was not counted. -/
theorem test_write_uncounted : answer (.write false 5 0 0 3) ready = some 0x6400000000000000 := by decide +kernel
/-- 42_entropy_decoder.md R160's example. -/
theorem test_rdtbl :
    answer (.rdtbl 5 0) { base with br := tableBits 132 readySlot.len } = some 4 ∧
    (after (.rdtbl 5 0) { base with br := tableBits 132 readySlot.len }).slot 5 0 = decoderSlot := by
  decide +kernel
/-- Vector D3: an incomplete set of lengths. -/
theorem test_rdtbl_incomplete :
    answer (.rdtbl 5 0) { base with br := tableBits 132 [(0, 1), (1, 2)] } = some 0x4800000000000000 := by
  decide +kernel
/-- 42_entropy_decoder.md R164's example: run symbol 2, a run of three. -/
theorem test_read : answer (.read false 5 0 0) (decoder [true, true, false]) = some 0 ∧
    (after (.read false 5 0 0) (decoder [true, true, false])).br = [false] ∧
    ((after (.read false 5 0 0) (decoder [true, true, false])).slot 5 0).zrun = 2 := by decide +kernel
/-- 42_entropy_decoder.md R164's example: the literal 2. -/
theorem test_read_literal : answer (.read false 5 0 0) (decoder [false, true]) = some 2 := by decide +kernel
/-- 43_chaos.md, the walk's step 1. -/
theorem test_chinit : answer .chinit base = some 0 ∧ (after .chinit base).work.ch.w = 4 ∧
    (after .chinit base).status = 0x22 := by decide +kernel
/-- 43_chaos.md R179's example. -/
theorem test_chget : answer (.chget .y 1) chaos = some 3 := by decide +kernel
/-- 43_chaos.md, the walk's step 18. -/
theorem test_chget_column : answer (.chget .y 4) chaos = some 0x5C00000000000000 := by decide +kernel
/-- 43_chaos.md R181's example. -/
theorem test_chput : answer (.chput .y 0xFE 1) chaos = some 2 ∧
    (after (.chput .y 0xFE 1) chaos).row .y 2 = 2 := by decide +kernel
/-- 43_chaos.md R182: lane Y only. -/
theorem test_chzero : answer (.chzero 1 0) chaos = some 0 ∧ (after (.chzero 1 0) chaos).row .y 1 = 0 ∧
    (after (.chzero 14 0) chaos).row .y 1 = 5 := by decide +kernel
/-- 44_lz.md R192, with a configuration of 4 by 2. -/
theorem test_lzinit : answer .lzinit base = some 0 ∧ (after .lzinit base).work.lz.n = 8 := by decide +kernel
/-- 44_lz.md R194's example: the hash of its two pixels is 0x073B5. -/
theorem test_lzins : answer (.lzins 0) (withLz (lzOf 2) [0xFFFF0000, 0xFFFE0201]) = some 1 ∧
    (after (.lzins 0) (withLz (lzOf 2) [0xFFFF0000, 0xFFFE0201])).work.lz.head = [(0x073B5, 0)] := by
  decide +kernel
/-- 95_test_vectors.md 2.5, the overlapping match: `LZFIND 1` pends (1, 1, 4, 81). -/
theorem test_lzfind : answer (.lzfind 1) (withLz fiveLz fivePixels) = some 4 ∧
    (after (.lzfind 1) (withLz fiveLz fivePixels)).work.lz = fiveLz.pended ⟨1, 1, 4, 81⟩ := by decide +kernel
/-- 95_test_vectors.md 2.5: an offset that is not above the pending match's start. -/
theorem test_lzfind_order : answer (.lzfind 3) (withLz pendingLz []) = some 0x6400000000000000 := by decide +kernel
/-- 44_lz.md R200. -/
theorem test_lzflush : answer .lzflush (withLz pendingLz []) = some 1 ∧
    (after .lzflush (withLz pendingLz [])).work.lz.mlist = [⟨3, 3, 2⟩] ∧
    (after .lzflush (withLz pendingLz [])).work.lz.coverEnd = 5 := by decide +kernel
/-- 44_lz.md R201. -/
theorem test_lzrew : answer .lzrew (withLz { emitLz with rdIdx := 1 } []) = some 0 ∧
    (after .lzrew (withLz { emitLz with rdIdx := 1 } [])).work.lz.rdIdx = 0 := by decide +kernel
/-- 44_lz.md R202's example: the 22 bits. -/
theorem test_lzemit : answer (.lzemit false 0 256) emitting = some 0x100 ∧
    (after (.lzemit false 0 256) emitting).bw = bits 1 0 ++ bits 8 0 ++ bits 5 8 ++ bits 8 0 ∧
    (after (.lzemit false 0 256) emitting).work.lz.rdIdx = 1 := by decide +kernel
/-- 44_lz.md R202: in count mode the escape 263 is counted and nothing is written. -/
theorem test_lzemit_count : answer (.lzemit true 0 256) emitCounting = some 0x100 ∧
    ((after (.lzemit true 0 256) emitCounting).slot 0 0).hist = [(263, 1)] ∧
    (after (.lzemit true 0 256) emitCounting).bw = [] := by decide +kernel
/-- Vector L1. -/
theorem test_lzread : answer (.lzread 0 1) { withLz (lzOf 3) [] with br := bits 6 0 } = some 2 ∧
    (after (.lzread 0 1) { withLz (lzOf 3) [] with br := bits 6 0 }).work.lz.runLeft = 2 ∧
    (after (.lzread 0 1) { withLz (lzOf 3) [] with br := bits 6 0 }).work.lz.runDist = 1 := by decide +kernel
/-- Vector L3: the source would start before the image. -/
theorem test_lzread_source : answer (.lzread 0 1) { withLz (lzOf 3) [] with br := bits 7 2 } =
    some 0x5000000000000000 := by decide +kernel
/-- 44_lz.md R205: the whole pixel is copied, alpha included. -/
theorem test_lzstep : answer (.lzstep 1) running = some 1 ∧
    (after (.lzstep 1) running).pix.readPixel 1 = some 0x80706050 := by decide +kernel
/-- 20_memory.md R63: a pixel nothing has written. -/
theorem test_lzstep_unwritten :
    exec (.lzstep 1) { running with pix := [] } = .fault (.pixelNeverWritten 0) := by rfl
/-- 45_tile_filter.md R222, an image of 4 by 2. -/
theorem test_tinit : answer .tinit base = some 2 ∧ (after .tinit base).work.tile.tx = 2 ∧
    (after .tinit base).work.tile.ty = 1 := by decide +kernel
/-- 95_test_vectors.md 2.6, capacity. -/
theorem test_tinit_capacity :
    answer .tinit { base with cfg := { conf with imgW := 65535, imgH := 65535 } } = some 0x5800000000000000 := by
  decide +kernel
/-- 45_tile_filter.md R224's example. -/
theorem test_tset : answer (.tset 3 1 0 1) grid = some 0 ∧ (after (.tset 3 1 0 1) grid).work.tile.sfAt 1 = 3 ∧
    (after (.tset 3 1 0 1) grid).work.tile.cfAt 1 = 1 := by decide +kernel
/-- Vector T3's faults: `MASK_TILE` in one map only. -/
theorem test_tset_half_mask : answer (.tset 255 0 0 0) grid = some 0x5400000000000000 := by decide +kernel
/-- Vector T3: the first visit of a tile with both maps `TODO_TILE`. -/
theorem test_tsel : answer (.tsel false 0 0) residState = some 0x1FEFE ∧
    (after (.tsel false 0 0) residState).work.tile.seenAt 0 = true := by decide +kernel
/-- Vector T3: a masked visit, and an unmasked pixel of a masked tile. -/
theorem test_tsel_masked : answer (.tsel true 0 4) grid = some 0xFFFF ∧
    answer (.tsel false 0 4) grid = some 0x6400000000000000 := by decide +kernel
/-- 45_tile_filter.md R234's first example. -/
theorem test_resid : answer (.resid true 3 1 1 1) residState = some 0x7F090401 ∧
    (after (.resid true 3 1 1 1) residState).work.tile.res = 0x7F090401 := by decide +kernel
/-- 45_tile_filter.md R234's second example. -/
theorem test_resid_left : answer (.resid true 1 0 1 1) residState = some 0x7F07FF04 := by decide +kernel
/-- 45_tile_filter.md R235's example. -/
theorem test_recon :
    answer (.recon true 3 1 1 1)
      { withTile (tileOf 2 2 1 1) (residImage.take 3) with cfg := { conf with recIn := 0x7F090401 } } =
      some 0x8028150F := by decide +kernel
/-- 45_tile_filter.md R237. -/
theorem test_tsclr : (after .tsclr (withTile { tileOf 2 2 1 1 with acc := [(0, 14)] } [])).work.tile.accAt 0 = 0 := by
  decide +kernel
/-- 45_tile_filter.md R238's example. -/
theorem test_tsacc : answer (.tsacc 0) (withTile { tileOf 2 2 1 1 with res := 0x7F090401 } []) = some 14 := by
  decide +kernel
/-- 45_tile_filter.md R239's example. -/
theorem test_tsbest :
    answer (.tsbest 3) (withTile { tileOf 2 2 1 1 with acc := [(0, 14), (1, 12), (2, 14)] } []) = some 1 := by
  decide +kernel
/-- 45_tile_filter.md R242's examples. -/
theorem test_tmres : answer (.tmres .upLeft .sf 1 1) grid = some 3 ∧
    answer (.tmres .left .sf 0 2) grid = some 0x80000000 := by decide +kernel
/-- 45_tile_filter.md R242: a neighbour that has not been seen predicts 0. -/
theorem test_tmres_unseen :
    answer (.tmres .upLeft .sf 1 1) (withTile { gridTile with seen := [] } []) = some 0 := by decide +kernel
/-- 45_tile_filter.md R243's examples. -/
theorem test_tmrec : answer (.tmrec .upLeft .sf 3 1 1) grid = some 0 ∧
    answer (.tmrec .upLeft .sf 4 1 1) grid = some 0x5400000000000000 := by decide +kernel
/-- A step takes the word from the host's queue. -/
theorem test_step : (stepped { base with inbox := [.command 0x0400000300000005] }).bw = [true, false, true] ∧
    (stepped { base with inbox := [.command 0x0400000300000005] }).inbox = [] := by decide +kernel
/-- What `withFetchWord` places is what the next step runs. -/
theorem test_withFetchWord : (stepped (State.reset.withFetchWord 64 0x0300000000000000)).rsp =
    some 0x47434946 := by decide +kernel

/-! ### Witnesses: concrete cases that meet an obligation's hypotheses -/

/-- `base` with a word on the command port. -/
def presented (w : CmdWord) (s : State) : State := { s with inbox := [.command w] }

/-- A configuration that allows the widest context and class. -/
def wide : State :=
  { State.reset with cfg := { conf with lYuv := 32, lA := 32, lSf := 32, lCf := 32, nsf := 128, ncf := 32 } }

theorem witness_DecodeEncode : (Instr.add true 0 0 65535 267).wf = true ∧
    (Instr.resid false 0 0 65535 65535).wf = true ∧ (Instr.eclr true 0 0).wf = true := by decide
theorem witness_EncodeDecode : decode 0x45041F7FFFFFFFFF = .ok (.recon true 0x1F 0x7F 65535 65535) := by
  decide +kernel
theorem witness_StepRunsCommand : (presented 0x0400002000000000 base).inbox = [.command 0x0400002000000000] ∧
    decode 0x0400002000000000 = .ok (.putb 32 0) := by decide +kernel
theorem witness_RejectedWordFaults :
    (presented 0xFF00000000000000 base).inbox = [.command 0xFF00000000000000] ∧ base.err = false ∧
    decode 0xFF00000000000000 = .error (.undefinedOpcode 255) ∧
    decode 0x0100000000000001 = .error (.reservedField 1) := by decide +kernel
theorem witness_FaultEntryRecords : (presented 0x0400002100000000 base).inbox = [.command 0x0400002100000000] ∧
    (presented 0x0400002100000000 base).err = false ∧
    step (presented 0x0400002100000000 base) = .next (stepped (presented 0x0400002100000000 base)) ∧
    (stepped (presented 0x0400002100000000 base)).err = true :=
  ⟨rfl, rfl, step_stepped (by decide +kernel), by decide +kernel⟩
theorem witness_CausesAreTheCommandsOwn : base.err = false ∧
    exec (.putb 33 0) base = .next (after (.putb 33 0) base) ∧ (after (.putb 33 0) base).err = true :=
  ⟨rfl, exec_after (by decide +kernel), by decide +kernel⟩
/-- The five clauses: hash pixels, find, copy source, left neighbour, own pixel. -/
theorem witness_UnwrittenPixelStops :
    ((withLz (lzOf 2) []).pix.readPixel 0 = none ∧ (withLz (lzOf 2) []).work.lz.rdy = true ∧
      (0 : Word).toNat + 1 < (withLz (lzOf 2) []).work.lz.n.toNat ∧ (withLz (lzOf 2) []).work.lz.pend = false ∧
      (withLz (lzOf 2) []).work.lz.coverEnd = 0) ∧
    ((withLz (lzOf 2) [7]).pix.readPixel 1 = none ∧ (withLz (lzOf 2) [7]).pix.readPixel 0 ≠ none) ∧
    (({ running with pix := [] } : State).pix.readPixel 0 = none ∧ 0 < running.work.lz.runLeft.toNat ∧
      running.work.lz.runNext.toNat = 0 + running.work.lz.runDist.toNat) ∧
    ((withTile (tileOf 2 2 1 1) []).work.tile.rdy = true ∧
      (withTile (tileOf 2 2 1 1) []).pix.readPixel 0 = none ∧ (1 : BitVec 16).toNat < (tileOf 2 2 1 1).w.toNat ∧
      filters params (withTile (tileOf 2 2 1 1) []) true 4 1 1 0 = .ok (4, 1) ∧
      filters params (withTile (tileOf 2 2 1 1) []) true 0 0 0 0 = .ok (0, 0)) := by decide +kernel
theorem witness_FaultStateRefuses : faulted.err = true ∧
    (presented (encode .sreset) faulted).inbox = [.command (encode .sreset)] ∧
    (presented (encode (.csrr 0x019F)) faulted).inbox = [.command (encode (.csrr 0x019F))] ∧
    Csr.ofAddr 0x019F = some (.cfSel 31) ∧ Csr.ofAddr 0x01A0 = none ∧ encode .nop ≠ encode .sreset ∧
    encode (.csrr 0x01A0) ≠ encode .sreset := by decide +kernel
theorem witness_OnlyResetLeavesFaultState : faulted.err = true ∧
    step (presented 0 faulted) = .next (stepped (presented 0 faulted)) ∧
    step { faulted with inbox := [.hardReset] } = .next (stepped { faulted with inbox := [.hardReset] }) :=
  ⟨rfl, step_stepped (by decide +kernel), step_stepped (by decide +kernel)⟩
theorem witness_ResetEffects : ({ faulted with inbox := [.hardReset] } : State).inbox = [.hardReset] := rfl
theorem witness_CommandsAreCounted :
    exec .sreset faulted = .next (after .sreset faulted) ∧
    (exec .nop faulted = .next (after .nop faulted) ∧ Instr.nop ≠ .sreset ∧ faulted.err = true) ∧
    (exec (.getb 1) base = .next (after (.getb 1) base) ∧ base.err = false ∧ (after (.getb 1) base).err = true) ∧
    exec (.getb 0) base = .next (after (.getb 0) base) ∧ (after (.getb 0) base).err = false :=
  ⟨exec_after (by decide +kernel), ⟨exec_after (by decide +kernel), by decide, rfl⟩,
    ⟨exec_after (by decide +kernel), rfl, by decide +kernel⟩, exec_after (by decide +kernel), by decide +kernel⟩
theorem witness_CommandsReachOnlyTheirOwn :
    exec (.lzstep 1) running = .next (after (.lzstep 1) running) ∧
    (Instr.lzstep 1).writesPixel running = some 1 ∧ (Instr.lzstep 1).writesBw = false ∧
    (Instr.lzstep 1).readsBr = false ∧ Instr.nop.writesPixel running = none ∧
    exec .nop running = .next (after .nop running) :=
  ⟨exec_after (by decide +kernel), rfl, rfl, rfl, rfl, exec_after (by decide +kernel)⟩
/-- Vector S12: `ERR` and `BR_EOS` are 1 after a fault of a command that reads no input (log 21). -/
theorem witness_StatusReports : (after (.putb 33 0) base).err = true ∧ (after (.putb 33 0) base).brEos = true := by
  decide +kernel
theorem witness_CsrwWrites : base.err = false ∧
    (Csr.ofAddr 0x0010 = some .imgW ∧ Csr.imgW.writable = true ∧ Csr.imgW.legal 65535 = true) ∧
    (Csr.ofAddr 0x019F = some (.cfSel 31) ∧ (Csr.cfSel 31).legal 31 = true) ∧
    (Csr.ofAddr 0x0038 = some .slotSel ∧ Csr.slotSel.legal 0x051F = true ∧ Csr.slotSel.legal 0x0600 = false) ∧
    Csr.ofAddr 0x01A0 = none ∧ (Csr.ofAddr 0 = some .id ∧ Csr.id.writable = false) ∧
    (Csr.imgW.legal 0 = false ∧ Csr.imgW.legal 65536 = false) ∧
    (Csr.ofAddr 0x0047 = some .tTy ∧ Csr.ofAddr 0x0048 = none ∧ Csr.ofAddr 0x0100 = some (.sfSel 0) ∧
      Csr.ofAddr 0x0180 = some (.cfSel 0)) ∧
    (Csr.slotSel.legal 0x001F = true ∧ Csr.slotSel.legal 0x0020 = false) := by decide +kernel
theorem witness_NopCsrrOnlyCount : base.err = false ∧ Csr.ofAddr 0x017F = some (.sfSel 127) ∧
    Csr.ofAddr 0xFFFF = none ∧ base.work.lz.mlist.length ≤ base.work.lz.rdIdx.toNat ∧
    emitLz.mlist[emitLz.rdIdx.toNat]? = some ⟨256, 256, 256⟩ ∧
    (base.cfg.slotSel.toNat = 256 * 0 + 0 ∧ (base.slot 0 0).phase = .idle) ∧
    ((0x51F : BitVec 11).toNat = 256 * 5 + 31 ∧ readySlot.phase ≠ .idle) := by decide +kernel
theorem witness_PutbGetbMoveBits : base.err = false ∧ (0 : Byte).toNat ≤ 32 ∧ (32 : Byte).toNat ≤ 32 ∧
    (32 : Byte).toNat ≤ ({ base with br := bits 32 7 } : State).br.length ∧
    ({ base with br := bits 31 7 } : State).br.length < (32 : Byte).toNat ∧ 32 < (33 : Byte).toNat := by
  decide +kernel
theorem witness_EclrClears : base.err = false ∧ ((5 : Byte).toNat ≤ 5 ∧ (31 : Byte).toNat ≤ 31) ∧
    (5 < (6 : Byte).toNat ∨ 31 < (0 : Byte).toNat) ∧ (5 < (5 : Byte).toNat ∨ 31 < (32 : Byte).toNat) := by decide
theorem witness_SlotSelResolves : 5 < (6 : Byte).toNat ∧ 3 < (4 : Byte).toNat ∧
    ((3 : Byte).toNat = Lane.a.code.toNat ∧ (0 : Byte).toNat = Lane.y.code.toNat) ∧
    base.work.ch.rdy = false ∧ (chaos.work.ch.rdy = true ∧ chaos.work.ch.w.toNat ≤ (4 : BitVec 16).toNat ∧
      (3 : BitVec 16).toNat < chaos.work.ch.w.toNat) ∧ (5 : Byte).toNat ≤ 5 := by decide +kernel
/-- Without a run, with a run, and with both counters at their maximum. -/
theorem witness_AddCountsLiteral : counting.err = false ∧ counting.cfg.legal = true ∧
    slotSel params counting false 5 0 0 = .ok (5, 0) ∧ (counting.slot 5 0).phase = .count ∧
    (3 : BitVec 16) ≠ 0 ∧ (3 : BitVec 16).toNat < (counting.slot 5 0).ns.toNat ∧
    (counting.slot 5 0).zrun = 0 ∧
    slotSel params (counting.setSlot 5 0
      { Slot.cleared 4 with zrun := 0xFFFFFFFF, hist := [(3, 0xFFFFFFFF), (131, 0xFFFFFFFF)] }) false 5 0 0 =
      .ok (5, 0) ∧
    ((counting.setSlot 5 0
      { Slot.cleared 4 with zrun := 0xFFFFFFFF, hist := [(3, 0xFFFFFFFF), (131, 0xFFFFFFFF)] }).slot 5 0).phase =
      .count := by decide +kernel
/-- The chaos bin as the context. -/
theorem witness_AddCountsLiteral_auto : slotSel params
    (chaos.setSlot 0 3 (Slot.cleared 268)) true 0 0 1 = .ok (0, 3) ∧
    ((chaos.setSlot 0 3 (Slot.cleared 268)).slot 0 3).phase = .count := by decide +kernel
theorem witness_AddCountsZero : counting.err = false ∧ counting.cfg.legal = true ∧
    slotSel params counting false 5 0 0 = .ok (5, 0) ∧ (counting.slot 5 0).phase = .count ∧
    0 < (counting.slot 5 0).ns.toNat ∧ (counting.slot 5 0).zrun.toNat < 4294967295 ∧
    ((counting.setSlot 5 0 { Slot.cleared 4 with zrun := 0xFFFFFFFF }).slot 5 0).zrun.toNat = 4294967295 := by
  decide +kernel
theorem witness_FinalBuilds : counting.err = false ∧ counting.cfg.legal = true ∧
    slotSel params counting false 5 0 0 = .ok (5, 0) ∧ (counting.slot 5 0).phase = .count ∧
    ((counting.setSlot 5 0 { Slot.cleared 4 with zrun := 1 }).slot 5 0).zrun.toNat = 1 ∧
    (slotSel params ready false 5 0 0 = .ok (5, 0) ∧ (ready.slot 5 0).phase ≠ .count) ∧
    (5 < (6 : Byte).toNat ∧ counting.cfg.nctx 5 ≤ (1 : Byte).toNat) := by decide +kernel
/-- A run list at its capacity. -/
theorem witness_FinalBuilds_full :
    1048576 ≤ ({ Slot.cleared 4 with zrun := 1, runList := List.replicate 1048576 1 } : Slot).runList.length :=
  List.length_replicate.ge
theorem witness_BuiltCodeProperties : Sparse.wf 0 readySlot.hist = true ∧
    (∀ e ∈ readySlot.hist, 1 ≤ e.1 ∧ e.1 < 132) ∧ 2 ≤ readySlot.hist.length ∧
    readySlot.len = buildLengths readySlot.hist 132 ∧ readySlot.code = canonical readySlot.len := by
  decide +kernel
/-- A table that passes its check, with the counts and first code words of its lengths. -/
theorem witness_BuiltCodeProperties_canonical : Sparse.wf 0 readySlot.len = true ∧
    (∀ e ∈ readySlot.len, e.1 < 132) ∧ validLengths (Sparse.toList 0 readySlot.len 132) = true ∧
    ∃ cnt first : Nat → Nat,
      (∀ l, cnt l =
        if l = 0 then 0
        else (List.range 132).countP (fun i => decide ((Sparse.get 0 readySlot.len i).toNat = l))) ∧
      first 0 = 0 ∧ ∀ l, first (l + 1) = 2 * (first l + cnt l) :=
  ⟨by decide +kernel, by decide +kernel, by decide +kernel,
    ⟨_, fun l => l.rec 0 (fun l f => 2 * (f + if l = 0 then 0
      else (List.range 132).countP (fun i => decide ((Sparse.get 0 readySlot.len i).toNat = l)))),
      fun _ => rfl, rfl, fun _ => rfl⟩⟩
theorem witness_WrtblWrites : ready.err = false ∧ slotSel params ready false 5 0 0 = .ok (5, 0) ∧
    (ready.slot 5 0).phase = .ready ∧ (counting.slot 5 0).phase ≠ .ready ∧
    slotSel params counting false 5 0 0 = .ok (5, 0) ∧
    (5 < (6 : Byte).toNat ∧ ready.cfg.nctx 0 ≤ (8 : Byte).toNat) := by decide +kernel
/-- A literal; a covered zero; the first zero of a run. -/
theorem witness_WriteEmits : ready.err = false ∧ ready.cfg.legal = true ∧
    slotSel params ready false 5 0 0 = .ok (5, 0) ∧ (ready.slot 5 0).phase = .ready ∧
    ((2 : BitVec 16) ≠ 0 ∧ (2 : BitVec 16).toNat < (ready.slot 5 0).ns.toNat ∧ (ready.slot 5 0).zrun.toNat = 0 ∧
      (ready.slot 5 0).lenAt 2 ≠ 0) ∧
    0 < ((ready.setSlot 5 0 { readySlot with zrun := 2 }).slot 5 0).zrun.toNat ∧
    ((ready.slot 5 0).runList[(ready.slot 5 0).rlRd.toNat]? = some 3 ∧
      (ready.slot 5 0).lenAt (4 + zsym 3) ≠ 0) := by decide +kernel
/-- A full table; a table that is no code; a stream that ends inside; a field above 16; no such slot. -/
theorem witness_RdtblReads : base.err = false ∧ base.cfg.legal = true ∧
    slotSel params base false 5 0 0 = .ok (5, 0) ∧
    ((∀ l ∈ Sparse.toList 0 readySlot.len 132, l.toNat ≤ 16) ∧
      (Sparse.toList 0 readySlot.len 132).length = (base.cfg.literals 5).toNat + 128 ∧
      validLengths (Sparse.toList 0 readySlot.len 132) = true) ∧
    (validLengths (Sparse.toList (0 : BitVec 5) [(0, 1), (1, 2)] 132) = false ∧
      ∀ l ∈ Sparse.toList (0 : BitVec 5) [(0, 1), (1, 2)] 132, l.toNat ≤ 16) ∧
    ((Sparse.toList (0 : BitVec 5) [(0, 16)] 131).length < (base.cfg.literals 5).toNat + 128 ∧
      (bits 4 0).length < 5) ∧
    16 < bitsValue ((bits 5 17).take 5) ∧
    (5 < (6 : Byte).toNat ∧ base.cfg.nctx 3 ≤ (2 : Byte).toNat) := by decide +kernel
theorem witness_CodeWordDecodes : decoderSlot.codeInv = true ∧ decoderSlot.lenAt 6 ≠ 0 := by decide +kernel
/-- An owed zero; a literal; a direct run; a run with extra bits, the longest. -/
theorem witness_ReadDelivers : (decoder []).err = false ∧ (decoder []).cfg.legal = true ∧
    slotSel params (decoder []) false 5 0 0 = .ok (5, 0) ∧ ((decoder []).slot 5 0).phase = .decode ∧
    decoderSlot.codeInv = true ∧ 0 < ({ decoderSlot with zrun := 1 } : Slot).zrun.toNat ∧
    ({ decoderSlot with zrun := 1 } : Slot).codeInv = true ∧
    (decoderSlot.zrun.toNat = 0 ∧ 2 < decoderSlot.ns.toNat ∧ decoderSlot.lenAt 2 ≠ 0) ∧
    decoderSlot.lenAt (decoderSlot.ns.toNat + 2) ≠ 0 ∧
    (({ decoderSlot with len := [(131, 1)], code := [] } : Slot).codeInv = true ∧
      2147483551 < 2 ^ (127 - 96) ∧ 96 + 2 ^ (127 - 96) + 2147483551 ≤ 4294967295) := by decide +kernel
/-- Each clause: an unresolved slot, the phases, the alphabet, a full list, a departing write pass, no code word,
short extra bits, a run above the maximum. -/
theorem witness_CoderCommandFaults : base.err = false ∧ slotSel params base false 6 0 0 = raise .policy ∧
    slotSel params base false 5 0 0 = .ok (5, 0) ∧ (base.slot 5 0).phase = .idle ∧
    ((counting.slot 5 0).phase = .count ∧ (counting.slot 5 0).ns.toNat ≤ (4 : BitVec 16).toNat) ∧
    ((ready.slot 5 0).phase = .ready ∧ (ready.slot 5 0).ns.toNat ≤ (4 : BitVec 16).toNat ∧
      (ready.slot 5 0).lenAt 3 = 0 ∧ readySlot.runList.length ≤ ({ readySlot with rlRd := 2 } : Slot).rlRd.toNat) ∧
    ((decoder []).slot 5 0 = decoderSlot ∧ decoderSlot.codeInv = true ∧ decoderSlot.zrun.toNat = 0 ∧
      (decoder []).br.length < 16) ∧
    (({ decoderSlot with len := [], code := [] } : Slot).codeInv = true ∧ 16 ≤ (bits 16 0).length) ∧
    (({ decoderSlot with len := [(131, 1)], code := [] } : Slot).codeInv = true ∧ (bits 30 0).length < 127 - 96 ∧
      4294967295 < 96 + 2 ^ (127 - 96) + bitsValue ((bits 31 2147483552).take (127 - 96))) := by decide +kernel
theorem witness_RunSymbols : 1 ≤ 1 ∧ 96 ≤ 96 ∧ 97 ≤ 4294967295 := by decide

theorem witness_CoderRoundTrip :
    (∀ x ∈ [(1 : BitVec 16), 0], x.toNat < (base.cfg.literals 5).toNat) ∧
    base.err = false ∧ base.cfg.legal = true ∧ (5 : Byte).toNat ≤ 5 ∧ (0 : Byte).toNat < base.cfg.nctx 5 ∧
    [(1 : BitVec 16), 0].length ≤ 1048576 ∧ (decoder [true]).err = false ∧
    (0 : Byte).toNat < (decoder [true]).cfg.nctx 5 ∧ (decoder [true]).cfg.literals 5 = base.cfg.literals 5 :=
  ⟨by simp [base, conf, Cfg.literals], by decide +kernel⟩
theorem witness_InitCommandsClear : base.err = false := rfl
theorem witness_ChgetAnswersBin : chaos.err = false ∧ chaos.work.ch.rdy = true ∧
    (3 : BitVec 16).toNat < chaos.work.ch.w.toNat ∧ base.work.ch.rdy = false ∧
    chaos.work.ch.w.toNat ≤ (4 : BitVec 16).toNat := by decide +kernel
theorem witness_ChputChzeroStore : chaos.err = false ∧ chaos.work.ch.rdy = true ∧
    (3 : BitVec 16).toNat < chaos.work.ch.w.toNat ∧ base.work.ch.rdy = false ∧
    chaos.work.ch.w.toNat ≤ (4 : BitVec 16).toNat := by decide +kernel

/-- The default map conforms (43_chaos.md R177). -/
theorem witness_ChaosBinBelowLevels : ChaosMapConforms params.chaosMap ∧ chaos.cfg.legal = true ∧
    chaos.work.ch.inv = true ∧ chaos.work.ch.rdy = true ∧ (3 : BitVec 16).toNat < chaos.work.ch.w.toNat ∧
    (3 : Byte).toNat = Lane.a.code.toNat := by
  exact ⟨params_chaosMap_conforms, by decide +kernel⟩
theorem witness_LzinsInserts : base.err = false ∧ (lzOf 2).rdy = true ∧ (lzOf 2).n.toNat ≤ (1 : Word).toNat + 1 ∧
    (0 : Word).toNat + 1 < (lzOf 2).n.toNat ∧
    (withLz (lzOf 2) [0xFFFF0000, 0xFFFE0201]).pix.readPixel (0 : Word).toNat = some 0xFFFF0000 ∧
    (withLz (lzOf 2) [0xFFFF0000, 0xFFFE0201]).pix.readPixel ((0 : Word).toNat + 1) = some 0xFFFE0201 ∧
    0x073B5 = (0xFFFF0000 * 2 ^ 32 + 0xFFFE0201) * 0x9E3779B97F4A7C15 % 2 ^ 64 / 2 ^ 46 ∧
    base.work.lz.rdy = false := by decide +kernel

/-- The LZ unit over the five pixels with a pending match that ends at pixel 2. -/
def shortPending : Lz := fiveLz.pended ⟨0, 1, 2, 9⟩

/-- Nothing pending; a pending match that overlaps; a pending match that has ended. -/
theorem witness_LzfindFindsTrueMatch : (withLz fiveLz fivePixels).err = false ∧ fiveLz.rdy = true ∧
    (3 : Word).toNat + 1 < fiveLz.n.toNat ∧ fiveLz.coverEnd.toNat ≤ (1 : Word).toNat ∧ fiveLz.pend = false ∧
    fiveLz.mlist.length < 65536 ∧
    (∀ p, p < fiveLz.n.toNat → ((withLz fiveLz fivePixels).pix.readPixel p).isSome = true) ∧
    (shortPending.pend = true ∧ shortPending.pOff.toNat < (1 : Word).toNat ∧
      (1 : Word).toNat < shortPending.pOff.toNat + shortPending.pLen.toNat ∧
      shortPending.pOff.toNat + shortPending.pLen.toNat ≤ (2 : Word).toNat) ∧
    ((81 : Word).toNat : Int) = savings base.cfg 4 1 := by decide +kernel

/-- The LZ unit with a match list at its capacity. -/
def fullList (z : Lz) : Lz := { z with mlist := List.replicate 65536 ⟨0, 1, 2⟩ }

/-- A full list where the match found at pixel 1 overlaps the pending one, so nothing is committed. -/
theorem witness_LzfindFindsTrueMatch_full : (fullList shortPending).pend = true ∧
    ¬((fullList shortPending).pOff.toNat + (fullList shortPending).pLen.toNat ≤ (1 : Word).toNat) ∧
    65536 ≤ (fullList shortPending).mlist.length :=
  ⟨by decide, by decide, List.length_replicate.ge⟩
theorem witness_LzfindKeepsBest :
    walk (withLz fiveLz fivePixels) 1 32 0 none = .ok (some ⟨1, 1, 4, 81⟩) ∧
    0 ∈ examined fiveLz 1 32 0 ∧
    matchLen (withLz fiveLz fivePixels) 0 1 (min 4096 (fiveLz.n.toNat - 1)) 0 = .ok 4 ∧
    0 < savings base.cfg 4 (1 - 0) := by decide +kernel
theorem witness_LzflushLzrew : base.err = false ∧ (lzOf 12).rdy = true ∧ (lzOf 12).pend = false ∧
    (pendingLz.rdy = true ∧ pendingLz.pend = true ∧ pendingLz.mlist.length < 65536) ∧
    base.work.lz.rdy = false := by decide +kernel
/-- A match list at its capacity. -/
theorem witness_LzflushLzrew_full :
    65536 ≤ ({ pendingLz with mlist := List.replicate 65536 ⟨3, 3, 2⟩ } : Lz).mlist.length :=
  List.length_replicate.ge
theorem witness_LzemitEmits : emitting.err = false ∧ emitting.cfg.legal = true ∧ emitting.work.lz.rdy = true ∧
    emitting.work.lz.mlist[emitting.work.lz.rdIdx.toNat]? = some ⟨256, 256, 256⟩ ∧
    (0 : Byte).toNat < emitting.cfg.lYuv.toNat ∧ emitting.slot 0 0 = escapeSlot ∧
    (2 ^ 8 ≤ (256 : Word).toNat ∧ (256 : Word).toNat < 2 ^ (8 + 1)) ∧ 256 + (8 - 1) < escapeSlot.ns.toNat ∧
    (escapeSlot.phase = .ready ∧ escapeSlot.zrun.toNat = 0 ∧ escapeSlot.lenAt (256 + (8 - 1)) ≠ 0) ∧
    (emitCounting.slot 0 0).phase = .count ∧ (emitCounting.slot 0 0).zrun = 0 := by decide +kernel
/-- Vector L1 for the run, vector L4 for a distance class above 20. -/
theorem witness_LzreadStartsRun : base.err = false ∧ (lzOf 3).rdy = true ∧ (lzOf 3).runLeft = 0 ∧
    (0 : Byte).toNat < 12 ∧ (1 : Word).toNat < (lzOf 3).n.toNat ∧
    bits 6 0 = msbBits ((0 : Byte).toNat + 1) 0 ++ msbBits 5 0 ++ msbBits 0 0 ++ [] ∧
    (2 ^ 1 + 0 ≤ 4096 ∧ 2 ^ 0 + 0 ≤ (1 : Word).toNat ∧ (1 : Word).toNat + 2 ≤ (lzOf 3).n.toNat) ∧
    bits 27 (21 * 2 ^ 21) = msbBits ((0 : Byte).toNat + 1) 0 ++ msbBits 5 21 ++ msbBits 21 0 ++ [] := by
  decide +kernel
/-- Each order of checks; then `LZREAD` on a length of 4097, on 4 of 5 class bits, on class 21, and on 19 of 20
tail bits. -/
theorem witness_LzSkipsAndFaults : base.err = false ∧ base.work.lz.rdy = false ∧ pendingLz.rdy = true ∧
    pendingLz.n.toNat ≤ (12 : Word).toNat ∧
    ((3 : Word).toNat < pendingLz.n.toNat ∧ pendingLz.pend = true ∧ (3 : Word).toNat ≤ pendingLz.pOff.toNat) ∧
    ((11 : Word).toNat < pendingLz.n.toNat ∧ pendingLz.pOff.toNat < (11 : Word).toNat ∧
      pendingLz.n.toNat ≤ (11 : Word).toNat + 1) ∧
    ((511 : Word).toNat < emitLz.coverEnd.toNat ∧ emitLz.pend = false) ∧
    pendingLz.mlist.length ≤ pendingLz.rdIdx.toNat ∧
    (emitLz.mlist[emitLz.rdIdx.toNat]? = some ⟨256, 256, 256⟩ ∧ (256 : Word) ≠ 257 ∧
      base.cfg.lYuv.toNat ≤ (8 : Byte).toNat) ∧
    0 < running.work.lz.runLeft.toNat ∧
    ((lzOf 3).runLeft = 0 ∧ 12 ≤ (12 : Byte).toNat ∧ (11 : Byte).toNat < 12 ∧
      (lzOf 3).n.toNat ≤ (3 : Word).toNat ∧ base.br.length < (11 : Byte).toNat + 1) ∧
    (bits 12 1 = msbBits ((11 : Byte).toNat + 1) 1 ++ [] ∧ 4096 < 2 ^ ((11 : Byte).toNat + 1) + 1) ∧
    (bits 16 0 = msbBits ((11 : Byte).toNat + 1) 0 ++ bits 4 0 ∧ 2 ^ ((11 : Byte).toNat + 1) + 0 ≤ 4096 ∧
      (bits 4 0).length < 5) ∧
    (bits 5 21 = msbBits 5 21 ++ [] ∧ 20 < 21 ∧ 21 < 32) ∧
    (bits 24 (20 * 2 ^ 19) = msbBits 5 20 ++ bits 19 0 ∧ (bits 19 0).length < 20) := by decide +kernel

/-- `LZFIND` at pixel 2, where the pending match has ended, with a candidate and a full list; and without one. -/
theorem witness_LzSkipsAndFaults_find :
    let s := withLz (fullList shortPending) fivePixels
    (s.err = false ∧ s.work.lz.rdy = true ∧ (2 : Word).toNat + 1 < s.work.lz.n.toNat ∧
      s.work.lz.coverEnd.toNat ≤ (2 : Word).toNat ∧ s.work.lz.pend = true ∧
      s.work.lz.pOff.toNat < (2 : Word).toNat) ∧
    (∃ h, hashAt params s 2 = .ok h ∧
      walk s 2 s.cfg.chainLimit.toNat (s.work.lz.headAt h) none = .ok (some ⟨2, 2, 3, 57⟩)) ∧
    s.work.lz.pOff.toNat + s.work.lz.pLen.toNat ≤ (2 : Word).toNat ∧ 65536 ≤ s.work.lz.mlist.length ∧
    (∃ h, hashAt params (withLz (lzOf 5) fivePixels) 2 = .ok h ∧
      walk (withLz (lzOf 5) fivePixels) 2 32 ((lzOf 5).headAt h) none = .ok none) :=
  ⟨by decide +kernel, ⟨lzHash params 0x11223344 0x11223344, by decide +kernel, by decide +kernel⟩,
    by decide +kernel, List.length_replicate.ge,
    ⟨lzHash params 0x11223344 0x11223344, by decide +kernel, by decide +kernel⟩⟩

/-- `LZEMIT` of escape 263 on a slot in another phase, with few symbols, owing zeros, and without a code word. -/
theorem witness_LzSkipsAndFaults_emit : emitting.err = false ∧ emitting.work.lz.rdy = true ∧
    (emitLz.mlist[emitLz.rdIdx.toNat]? = some ⟨256, 256, 256⟩ ∧ (7 : Byte).toNat < emitting.cfg.lYuv.toNat) ∧
    (2 ^ 8 ≤ (256 : Word).toNat ∧ (256 : Word).toNat < 2 ^ (8 + 1) ∧ 263 = 256 + (8 - 1)) ∧
    ((emitting.slot 0 0).phase ≠ .count ∧ (emitCounting.slot 0 0).phase ≠ .ready) ∧
    ((Slot.cleared 263).phase = .count ∧ (Slot.cleared 263).ns.toNat ≤ 263 ∧ 263 < (Slot.cleared 264).ns.toNat) ∧
    (escapeSlot.phase = .ready ∧ 263 < escapeSlot.ns.toNat ∧ 263 < ({ escapeSlot with zrun := 1 } : Slot).ns.toNat ∧
      ({ escapeSlot with len := [] } : Slot).lenAt 263 = 0) := by decide +kernel
theorem witness_LzstepCopies : running.err = false ∧ running.work.lz.rdy = true ∧
    0 < running.work.lz.runLeft.toNat ∧ 1 = running.work.lz.runNext ∧
    running.work.lz.runDist.toNat ≤ (1 : Word).toNat ∧
    running.pix.readPixel ((1 : Word).toNat - running.work.lz.runDist.toNat) = some 0x80706050 ∧
    base.work.lz.rdy = false ∧ (lzOf 3).runLeft = 0 ∧ 2 ≠ running.work.lz.runNext := by decide +kernel
theorem witness_LzRunRestoresImage : running.err = false ∧ running.work.lz.rdy = true ∧
    running.work.lz.inv = true ∧ running.work.lz.runLeft.toNat = 2 ∧ running.work.lz.runNext.toNat = 1 ∧
    running.work.lz.runDist.toNat = 1 ∧
    (∀ p, p < 1 → running.pix.readPixel p = some ((fun _ => 0x80706050) p)) ∧
    (∀ j, j < 2 → (fun _ => (0x80706050 : Word)) (1 + j) = (fun _ => 0x80706050) (1 + j - 1)) := by
  decide +kernel
/-- The capacity reached exactly, and exceeded (95_test_vectors.md 2.6). -/
theorem witness_TinitLatches : base.err = false ∧
    (2048 + 2 ^ 1 - 1) / 2 ^ 1 * ((2048 + 2 ^ 1 - 1) / 2 ^ 1) ≤ 1048576 ∧
    1048576 < (2049 + 2 ^ 1 - 1) / 2 ^ 1 * ((2048 + 2 ^ 1 - 1) / 2 ^ 1) := by decide +kernel
theorem witness_TsetSetsPair : grid.err = false ∧ base.work.tile.rdy = false ∧ grid.work.tile.rdy = true ∧
    (grid.work.tile.tx.toNat ≤ (3 : BitVec 16).toNat ∨ grid.work.tile.ty.toNat ≤ (0 : BitVec 16).toNat) ∧
    ((2 : BitVec 16).toNat < grid.work.tile.tx.toNat ∧ (1 : BitVec 16).toNat < grid.work.tile.ty.toNat) ∧
    ((3 : Byte).toNat < grid.cfg.nsf.toNat ∧ grid.cfg.nsf.toNat ≤ (4 : Byte).toNat ∧
      grid.cfg.ncf.toNat ≤ (254 : Byte).toNat) := by decide +kernel
theorem witness_TselReportsFirstVisit : grid.err = false ∧ grid.work.tile.rdy = true ∧
    base.work.tile.rdy = false ∧
    (grid.work.tile.w.toNat ≤ (6 : BitVec 16).toNat ∨ grid.work.tile.h.toNat ≤ (0 : BitVec 16).toNat) ∧
    ((5 : BitVec 16).toNat < grid.work.tile.w.toNat ∧ (3 : BitVec 16).toNat < grid.work.tile.h.toNat) ∧
    grid.work.tile.sfAt 2 = 255 ∧ grid.work.tile.sfAt 5 ≠ 255 := by decide +kernel
theorem witness_FiltersResolve : 5 = (3 / 2 ^ grid.work.tile.b.toNat) * grid.work.tile.tx.toNat +
    5 / 2 ^ grid.work.tile.b.toNat := by decide +kernel
/-- Before `TINIT`, outside the image, no filter pair, and a pixel that completes. -/
theorem witness_ResidComputes : residState.err = false ∧ base.work.tile.rdy = false ∧
    residState.work.tile.rdy = true ∧
    (residState.work.tile.w.toNat ≤ (2 : BitVec 16).toNat ∨
      residState.work.tile.h.toNat ≤ (0 : BitVec 16).toNat) ∧
    ((1 : BitVec 16).toNat < residState.work.tile.w.toNat ∧ (1 : BitVec 16).toNat < residState.work.tile.h.toNat) ∧
    filters params residState true 5 0 1 1 = raise .filterRange ∧
    filters params residState true 3 1 1 1 = .ok (3, 1) ∧
    (∀ q, q ≤ 3 → residState.pix.readPixel q = some (residImage.getD q 0)) := by decide +kernel
theorem witness_ReconWrites : residState.err = false ∧ base.work.tile.rdy = false ∧
    residState.work.tile.rdy = true ∧
    filters params residState false 0 0 1 1 = raise .filterRange ∧
    filters params residState true 3 1 1 1 = .ok (3, 1) ∧
    (∀ q, q < 3 → residState.pix.readPixel q = some (residImage.getD q 0)) := by decide +kernel

/-- A decoder with the encoder's neighbours, one pixel short, and its residual word. -/
def reconState : State :=
  { withTile (tileOf 2 2 1 1) (residImage.take 3) with cfg := { conf with recIn := 0x7F090401 } }

theorem witness_ReconInvertsResid : ColorsConform params ∧
    residBody params true 3 1 1 1 residState =
      .ok ({ residState with work := { residState.work with
        tile := { residState.work.tile with res := 0x7F090401 } } }, 0x7F090401) ∧
    pixelReady reconState 1 1 = .ok () ∧
    filters params reconState true 3 1 1 1 = filters params residState true 3 1 1 1 ∧
    neighbours reconState 1 1 = neighbours residState 1 1 ∧ reconState.cfg.recIn = 0x7F090401 := by
  exact ⟨params_colors_conform, by decide +kernel⟩
theorem witness_ScoresAccumulate : base.err = false ∧ (127 : Byte).toNat ≤ 127 ∧ 127 < (128 : Byte).toNat := by
  decide
theorem witness_TsbestAnswersMinimum : base.err = false ∧ (1 ≤ (1 : Byte).toNat ∧ (128 : Byte).toNat ≤ 128) ∧
    ((0 : Byte).toNat < 1 ∧ 128 < (129 : Byte).toNat) := by decide
theorem witness_TileMapResiduals : grid.err = false ∧ base.work.tile.rdy = false ∧ grid.work.tile.rdy = true ∧
    (grid.work.tile.tx.toNat ≤ (3 : BitVec 16).toNat ∨ grid.work.tile.ty.toNat ≤ (0 : BitVec 16).toNat) ∧
    (grid.work.tile.mapAt .sf 2 = 255 ∧ grid.work.tile.mapAt .cf 2 = 255) ∧
    (grid.work.tile.mapAt .sf 5 ≠ 255 ∧ (grid.work.tile.mapAt .sf 5).toNat < grid.cfg.planeSyms .sf ∧
      grid.cfg.planeSyms .cf ≤ (grid.work.tile.mapAt .cf 5).toNat) ∧
    (grid.cfg.planeSyms .sf ≤ (4 : Byte).toNat ∧ (3 : Byte).toNat < grid.cfg.planeSyms .sf) ∧
    (4 = (1 : BitVec 16).toNat * grid.work.tile.tx.toNat + (1 : BitVec 16).toNat ∧
      0 = ((1 : BitVec 16).toNat - 1) * grid.work.tile.tx.toNat + ((1 : BitVec 16).toNat - 1) ∧
      grid.work.tile.seenAt 0 = true ∧ grid.work.tile.seenAt 3 = false ∧ (0 : BitVec 16).toNat < 1) := by
  decide +kernel

theorem witness_RegistersAndMemoryKept : running.pix.wf = true ∧ running.cfg.legal = true ∧
    running.recordOk = true ∧
    step (presented 0x3700000000000001 running) = .next (stepped (presented 0x3700000000000001 running)) :=
  ⟨by decide +kernel, by decide +kernel, by decide +kernel, step_stepped (by decide +kernel)⟩
theorem witness_LzInvariantKept : (withLz pendingLz []).work.lz.inv = true ∧
    step (presented 0x3300000000000000 (withLz pendingLz [])) =
      .next (stepped (presented 0x3300000000000000 (withLz pendingLz []))) ∧
    (stepped (presented 0x3300000000000000 (withLz pendingLz []))).err = false :=
  ⟨by decide +kernel, step_stepped (by decide +kernel), by decide +kernel⟩
theorem witness_CountInvariantKept : counting.countInv = true ∧
    step (presented 0x1100050000000001 counting) = .next (stepped (presented 0x1100050000000001 counting)) ∧
    (stepped (presented 0x1100050000000001 counting)).err = false := ⟨by decide +kernel, step_stepped (by decide +kernel), by decide +kernel⟩
theorem witness_CodeInvariantKept : ready.codeInv = true ∧
    step (presented 0x1400050000000001 ready) = .next (stepped (presented 0x1400050000000001 ready)) ∧
    (stepped (presented 0x1400050000000001 ready)).err = false := ⟨by decide +kernel, step_stepped (by decide +kernel), by decide +kernel⟩

/-- Every tile of `chaos` is `TODO_TILE` in both maps. -/
theorem witness_ChaosAndTileInvariantKept : chaos.cfg.legal = true ∧ chaos.work.ch.inv = true ∧
    chaos.work.tile.inv ∧ step (presented 0x2200000000FE0001 chaos) =
      .next (stepped (presented 0x2200000000FE0001 chaos)) ∧
    (stepped (presented 0x2200000000FE0001 chaos)).err = false :=
  ⟨by decide +kernel, by decide +kernel,
    ⟨by decide, by decide, fun _ => ⟨rfl, rfl, Iff.rfl⟩⟩,
    step_stepped (by decide +kernel), by decide +kernel⟩

end Sys2Proof.Tests
end

section
/-! PROOFS. Sparse tables as lists of entries: their indices in order, counting over them, and tables filled from a
list. -/

namespace Sys2Proof.Machine

open Sys2Proof.Config

variable {α β : Type}

theorem Sparse.sorted_keys [DecidableEq α] {d : α} {m : Sparse α} {lo : Nat}
    (hm : Sparse.wfFrom d lo m = true) : (m.map Prod.fst).Pairwise (· < ·) := by
  induction m generalizing lo with
  | nil => simp
  | cons e m ih =>
    simp only [Sparse.wfFrom, Bool.and_eq_true, decide_eq_true_eq] at hm
    rw [List.map_cons, List.pairwise_cons]
    refine ⟨?_, ih hm.2⟩
    intro k hk
    obtain ⟨x, hx, rfl⟩ := List.mem_map.mp hk
    exact Sparse.le_of_mem hm.2 x hx

theorem Sparse.nodup_keys [DecidableEq α] {d : α} {m : Sparse α} (hm : Sparse.wf d m = true) :
    (m.map Prod.fst).Nodup :=
  (Sparse.sorted_keys hm).imp Nat.ne_of_lt

/-- An index holds something else than the default exactly when it is listed. -/
theorem Sparse.get_ne_iff_mem [DecidableEq α] {d : α} {m : Sparse α} (hm : Sparse.wf d m = true) (i : Nat) :
    Sparse.get d m i ≠ d ↔ i ∈ m.map Prod.fst := by
  constructor
  · intro h
    have hmem := (Sparse.get_eq_or_mem d m i).resolve_left h
    exact List.mem_map_of_mem (f := Prod.fst) hmem
  · intro h
    obtain ⟨e, he, rfl⟩ := List.mem_map.mp h
    obtain ⟨hget, hne⟩ := Sparse.get_of_mem hm he
    rwa [hget]

/-- The indices below `n` that hold something else than the default are the listed ones, in order. -/
theorem Sparse.filter_range_get_ne [DecidableEq α] {d : α} {m : Sparse α} (hm : Sparse.wf d m = true) (n : Nat) :
    (List.range n).filter (fun i => decide (Sparse.get d m i ≠ d)) =
      (m.map Prod.fst).filter (fun i => decide (i < n)) := by
  refine List.Perm.eq_of_pairwise (le := (· < ·)) (fun a b _ _ h h' => absurd h (Nat.lt_asymm h'))
    (List.pairwise_lt_range.filter _) ((Sparse.sorted_keys hm).filter _) ?_
  rw [List.perm_ext_iff_of_nodup (List.nodup_range.filter _) ((Sparse.nodup_keys hm).filter _)]
  intro i
  simp only [List.mem_filter, List.mem_range, decide_eq_true_eq, Sparse.get_ne_iff_mem hm]
  exact And.comm

/-- Counting indices below `n` by what they hold is counting entries, when the default is not counted. -/
theorem Sparse.countP_range [DecidableEq α] {d : α} {m : Sparse α} (hm : Sparse.wf d m = true) (n : Nat)
    (p : α → Bool) (hp : p d = false) :
    (List.range n).countP (fun i => p (Sparse.get d m i)) =
      m.countP (fun e => p e.2 && decide (e.1 < n)) := by
  have hsplit : (fun i => p (Sparse.get d m i)) =
      fun i => p (Sparse.get d m i) && decide (Sparse.get d m i ≠ d) := by
    funext i
    by_cases h : Sparse.get d m i = d <;> simp [h, hp]
  rw [hsplit, ← List.countP_filter, Sparse.filter_range_get_ne hm, List.countP_filter, List.countP_map]
  refine List.countP_congr fun e he => ?_
  simp [(Sparse.get_of_mem hm he).1]

/-- A table filled from the entries of a canonical one: what each index holds. -/
theorem Sparse.get_foldr_set [DecidableEq α] [DecidableEq β] {d : α} {d' : β} {m : Sparse α} {lo : Nat}
    (f : Nat × α → β) (hm : Sparse.wfFrom d lo m = true) (i : Nat) :
    Sparse.get d' (m.foldr (fun e t => Sparse.set d' t e.1 (f e)) []) i =
      if Sparse.get d m i = d then d' else f (i, Sparse.get d m i) := by
  induction m generalizing lo with
  | nil => simp
  | cons e m ih =>
    simp only [Sparse.wfFrom, Bool.and_eq_true, decide_eq_true_eq] at hm
    obtain ⟨⟨-, hne⟩, htail⟩ := hm
    rw [List.foldr_cons, Sparse.get_set, Sparse.get_cons, ih htail]
    by_cases h : i = e.1
    · subst h; simp [hne]
    · rw [if_neg h, if_neg (Ne.symm h)]

theorem Sparse.wf_foldr_set [DecidableEq β] {d' : β} (f : Nat × α → β) (l : List (Nat × α)) :
    Sparse.wf d' (l.foldr (fun e t => Sparse.set d' t e.1 (f e)) []) = true := by
  induction l with
  | nil => rfl
  | cons e l ih => exact Sparse.wf_set _ _ ih

theorem Sparse.perm_insert (m : Sparse α) (a : Nat) (v : α) : (Sparse.insert m a v).Perm ((a, v) :: m) := by
  induction m with
  | nil => rfl
  | cons e m ih =>
    unfold Sparse.insert
    split
    · rfl
    · exact (ih.cons e).trans (List.Perm.swap _ _ _)

/-- A write at an unlisted index adds one entry. -/
theorem Sparse.perm_set [DecidableEq α] {d : α} {m : Sparse α} {a : Nat} {v : α} (hv : v ≠ d)
    (ha : a ∉ m.map Prod.fst) : (Sparse.set d m a v).Perm ((a, v) :: m) := by
  have herase : Sparse.erase m a = m := by
    refine List.filter_eq_self.mpr fun e he => ?_
    simp only [bne_iff_ne, ne_eq]
    rintro rfl
    exact ha (List.mem_map_of_mem he)
  rw [Sparse.set, if_neg hv, herase]
  exact Sparse.perm_insert m a v

/-- A table filled from entries of different indices lists exactly them. -/
theorem Sparse.perm_foldr_set [DecidableEq β] {d' : β} {f : Nat × α → β} {l : List (Nat × α)}
    (hl : (l.map Prod.fst).Nodup) (hf : ∀ e ∈ l, f e ≠ d') :
    (l.foldr (fun e t => Sparse.set d' t e.1 (f e)) []).Perm (l.map (fun e => (e.1, f e))) := by
  induction l with
  | nil => rfl
  | cons e l ih =>
    rw [List.map_cons, List.nodup_cons] at hl
    have hperm := ih hl.2 (fun x hx => hf x (List.mem_cons_of_mem e hx))
    have hkeys := hperm.map Prod.fst
    rw [List.map_map, show (Prod.fst ∘ fun e => (e.1, f e)) = (Prod.fst : Nat × α → Nat) from rfl] at hkeys
    refine (Sparse.perm_set (hf e List.mem_cons_self) ?_).trans (hperm.cons _)
    rw [hkeys.mem_iff]
    exact hl.1

/-- A table whose indices are below `n` has at most `n` entries. -/
theorem Sparse.length_le_of_lt [DecidableEq α] {d : α} {m : Sparse α} {n : Nat}
    (h : Sparse.wf d m = true) (hn : ∀ e ∈ m, e.1 < n) : m.length ≤ n := by
  have hsub : m.map Prod.fst ⊆ List.range n := by
    intro i hi
    obtain ⟨e, he, rfl⟩ := List.mem_map.mp hi
    exact List.mem_range.mpr (hn e he)
  simpa using (List.subperm_of_subset (Sparse.nodup_keys h) hsub).length_le

/-- Counting fewer things where one of the list is left out. -/
theorem countP_lt_countP_of_mem {p q : α → Bool} {l : List α} {a : α} (hpq : ∀ x, p x = true → q x = true)
    (ha : a ∈ l) (hq : q a = true) (hp : p a = false) : l.countP p < l.countP q := by
  have hfilter : l.countP p = (l.filter q).countP p := by
    rw [List.countP_filter]
    refine List.countP_congr fun x _ => ?_
    simpa using hpq x
  rw [hfilter, List.countP_eq_length_filter (p := q)]
  exact List.countP_lt_length_iff.mpr ⟨a, List.mem_filter.mpr ⟨ha, hq⟩, hp⟩

end Sys2Proof.Machine
end

section
/-! PROOFS. The run symbols of zero runs and their extra bits (41_entropy_encoder.md R135, 30_encoding.md R102). -/

namespace Sys2Proof.Machine

open Sys2Proof.Config

theorem zsym_direct {n : Nat} (h : n ≤ 96) : zsym n = n - 1 := if_pos h

theorem zsym_indirect {n : Nat} (h : 97 ≤ n) : zsym n = 96 + (n - 96).log2 := by
  simp [zsym, zrleDirect, floorLog2, show ¬n ≤ 96 by omega]

theorem zextraLen_zsym_direct {n : Nat} (h : n ≤ 96) : zextraLen (zsym n) = 0 := by
  rw [zsym_direct h, zextraLen, zrleDirect]; omega

theorem zextraLen_zsym_indirect {n : Nat} (h : 97 ≤ n) : zextraLen (zsym n) = (n - 96).log2 := by
  simp [zsym_indirect h, zextraLen, zrleDirect]

theorem zextraVal_indirect {n : Nat} (h : 97 ≤ n) : zextraVal n = n - 96 - 2 ^ (n - 96).log2 := by
  simp [zextraVal, zrleDirect, zextraLen_zsym_indirect h]

/-- A run above 96 lies in the octave of its extra bits. -/
theorem log2_run_bounds {n : Nat} (h : 97 ≤ n) :
    2 ^ (n - 96).log2 ≤ n - 96 ∧ n - 96 < 2 ^ ((n - 96).log2 + 1) :=
  ⟨Nat.log2_self_le (by omega), Nat.lt_log2_self⟩

/-- The run symbols number 128: no 32-bit run needs more than 31 extra bits. -/
theorem zsym_le {n : Nat} (h : n ≤ 4294967295) : zsym n ≤ 127 := by
  rcases Nat.lt_or_ge n 97 with hn | hn
  · rw [zsym_direct (by omega)]; omega
  · have : (n - 96).log2 < 32 := (Nat.log2_lt (by omega)).mpr (by omega)
    rw [zsym_indirect hn]; omega

/-- R102 inverts R135: the index and the extra bits of a run give its length back. -/
theorem zrunOf_zsym {n : Nat} (h : 1 ≤ n) : zrunOf (zsym n) (zextraVal n) = n := by
  rcases Nat.lt_or_ge n 97 with hn | hn
  · rw [zsym_direct (by omega), zrunOf, zrleDirect, if_pos (by omega)]; omega
  · obtain ⟨hle, -⟩ := log2_run_bounds hn
    rw [zrunOf, zextraLen_zsym_indirect hn, zextraVal_indirect hn, zsym_indirect hn, zrleDirect,
      if_neg (by omega)]
    omega

end Sys2Proof.Machine
end

section
/-! PROOFS. The slot and the context a command names (41_entropy_encoder.md R131, 43_chaos.md R180). -/

namespace Sys2Proof.Machine

open Sys2Proof.Config

theorem slotSel_class_out_of_range (P : Params) (s : State) (auto : Bool) {cls : Byte} (ctx : Byte)
    (x : BitVec 16) (h : 5 < cls.toNat) : slotSel P s auto cls ctx x = raise .policy := by
  simp [slotSel, h]

/-- `SlotSel` of a class that exists: the context, checked against the class's context count. -/
theorem slotSel_of_slotCtx {P : Params} {s : State} {auto : Bool} {cls ctx : Byte} {x : BitVec 16} {k : Nat}
    (hc : cls.toNat ≤ 5) (h : slotCtx P s auto cls ctx x = .ok k) :
    slotSel P s auto cls ctx x = if s.cfg.nctx cls.toNat ≤ k then raise .policy else .ok (cls.toNat, k) := by
  simp only [slotSel, h, check_bind, if_neg (Nat.not_lt.mpr hc), exec_ok_bind, exec_pure]

/-- A cause raised while the context is resolved is the cause of `SlotSel`. -/
theorem slotSel_of_slotCtx_raise {P : Params} {s : State} {auto : Bool} {cls ctx : Byte} {x : BitVec 16}
    {c : Cause} (hc : cls.toNat ≤ 5) (h : slotCtx P s auto cls ctx x = raise c) :
    slotSel P s auto cls ctx x = raise c := by
  simp only [slotSel, h, check_bind, if_neg (Nat.not_lt.mpr hc), exec_raise_bind]

theorem slotCtx_auto_no_lane (P : Params) (s : State) {cls : Byte} (ctx : Byte) (x : BitVec 16)
    (h : 3 < cls.toNat) : slotCtx P s true cls ctx x = raise .policy := by
  simp [slotCtx, h]

theorem laneCode_le (lane : Lane) : lane.code.toNat ≤ 3 := by cases lane <;> decide

/-- The class with a lane's number names that lane. -/
theorem lane_ofCode_setWidth {cls : Byte} {lane : Lane} (h : cls.toNat = lane.code.toNat) :
    Lane.ofCode (cls.setWidth 2) = lane := by
  have hw : cls.setWidth 2 = lane.code := by
    apply BitVec.eq_of_toNat_eq
    rw [BitVec.toNat_setWidth, h, Nat.mod_eq_of_lt lane.code.isLt]
  rw [hw]; cases lane <;> rfl

/-- With `AUTO` and a class that has a lane, the context is the lane's chaos bin. -/
theorem slotCtx_auto_lane (P : Params) (s : State) {cls : Byte} (ctx : Byte) (x : BitVec 16) {lane : Lane}
    (h : cls.toNat = lane.code.toNat) : slotCtx P s true cls ctx x = chaosBin P s lane x := by
  have := laneCode_le lane
  simp only [slotCtx, if_true, check_bind, lane_ofCode_setWidth h]
  rw [if_neg (by omega)]

theorem chaosBin_not_ready (P : Params) {s : State} (lane : Lane) (x : BitVec 16) (h : s.work.ch.rdy = false) :
    chaosBin P s lane x = raise .sequence := by
  simp [chaosBin, chaosReady, h]

theorem chaosBin_column_out_of_range (P : Params) {s : State} (lane : Lane) {x : BitVec 16}
    (h : s.work.ch.rdy = true) (hx : s.work.ch.w.toNat ≤ x.toNat) : chaosBin P s lane x = raise .policy := by
  simp [chaosBin, chaosReady, h, hx]

theorem chaosBin_of_ready (P : Params) {s : State} (lane : Lane) {x : BitVec 16} (h : s.work.ch.rdy = true)
    (hx : x.toNat < s.work.ch.w.toNat) :
    chaosBin P s lane x = .ok (P.chaosMap ((s.cfg.laneLevels lane).toNat - 1) (s.scoreSum lane x.toNat)) := by
  rw [chaosBin, (chaosReady_ok_iff (u := ())).mpr ⟨h, hx⟩]; rfl

theorem Cfg.laneLevels_eq (c : Cfg) (lane : Lane) : c.laneLevels lane = if lane = .a then c.lA else c.lYuv := by
  cases lane <;> rfl

end Sys2Proof.Machine
end

section
/-! PROOFS. Canonical code words: they fit their lengths, no two symbols share one, and no code word is the front of
another (41_entropy_encoder.md R141, R142 (b), (c)). -/

namespace Sys2Proof.Machine

open Sys2Proof.Config

/-- A table of code lengths that leaves room for its code words: canonical as a table, no length above 16, and
Kraft's sum at most 1. -/
structure LengthsFit (len : Sparse (BitVec 5)) : Prop where
  wf : Sparse.wf 0 len = true
  le : ∀ e ∈ len, e.2.toNat ≤ 16
  kraft : (len.map (fun e => 2 ^ (16 - e.2.toNat))).sum ≤ 2 ^ 16

/-- How many of the `2^16` words of 16 bits start with a code word of at most `l` bits. -/
def claimed (len : Sparse (BitVec 5)) (l : Nat) : Nat :=
  (len.map (fun e => if e.2.toNat ≤ l then 2 ^ (16 - e.2.toNat) else 0)).sum

theorem claimed_le (len : Sparse (BitVec 5)) (l : Nat) :
    claimed len l ≤ (len.map (fun e => 2 ^ (16 - e.2.toNat))).sum := by
  refine List.sum_le_sum fun e _ => ?_
  split <;> simp

theorem claimed_succ (len : Sparse (BitVec 5)) (l : Nat) :
    claimed len (l + 1) = claimed len l + lenCount len (l + 1) * 2 ^ (16 - (l + 1)) := by
  simp only [claimed, lenCount, if_neg (Nat.succ_ne_zero l)]
  induction len with
  | nil => simp
  | cons e len ih =>
    simp only [List.map_cons, List.sum_cons, List.countP_cons, ih]
    rcases Nat.lt_trichotomy e.2.toNat (l + 1) with h | h | h
    · rw [if_pos h.le, if_pos (Nat.lt_succ_iff.mp h), if_neg (by simp [h.ne])]; ring
    · rw [if_pos h.le, if_neg (by omega), if_pos (by simp [h]), h]; ring
    · rw [if_neg (by omega), if_neg (by omega), if_neg (by simp [h.ne'])]; ring

theorem claimed_zero {len : Sparse (BitVec 5)} (h : Sparse.wf 0 len = true) : claimed len 0 = 0 := by
  refine List.sum_eq_zero fun k hk => ?_
  obtain ⟨e, he, rfl⟩ := List.mem_map.mp hk
  have hne := (Sparse.get_of_mem h he).2
  rw [if_neg]
  intro h0
  exact hne (BitVec.eq_of_toNat_eq (Nat.le_zero.mp h0))

theorem firstCode_succ (len : Sparse (BitVec 5)) (l : Nat) :
    firstCode len (l + 1) = 2 * (firstCode len l + lenCount len l) := by
  rw [firstCode, Nat.shiftLeft_eq, pow_one, mul_comm]

/-- The code words of at most `l` bits are, in order, the front of the code space (R141). -/
theorem firstCode_add_lenCount {len : Sparse (BitVec 5)} (h : Sparse.wf 0 len = true) {l : Nat} (hl : l ≤ 16) :
    (firstCode len l + lenCount len l) * 2 ^ (16 - l) = claimed len l := by
  induction l with
  | zero => simp [claimed_zero h, firstCode, lenCount]
  | succ l ih =>
    have hpow : 2 ^ (16 - l) = 2 * 2 ^ (16 - (l + 1)) := by
      rw [show 16 - l = 16 - (l + 1) + 1 by omega, Nat.pow_succ']
    rw [claimed_succ, ← ih (by omega), firstCode_succ, hpow]
    ring

/-- Kraft: the code words of `l` bits fit in `l` bits (R142 (b)). -/
theorem firstCode_add_lenCount_le {len : Sparse (BitVec 5)} (h : LengthsFit len) {l : Nat} (hl : l ≤ 16) :
    firstCode len l + lenCount len l ≤ 2 ^ l := by
  refine Nat.le_of_mul_le_mul_right ?_ (Nat.two_pow_pos (16 - l))
  calc (firstCode len l + lenCount len l) * 2 ^ (16 - l)
      = claimed len l := firstCode_add_lenCount h.wf hl
    _ ≤ _ := claimed_le len l
    _ ≤ 2 ^ 16 := h.kraft
    _ = 2 ^ l * 2 ^ (16 - l) := by rw [← Nat.pow_add, Nat.add_sub_cancel' hl]

/-- Code words of longer lengths start behind the extensions of all shorter ones. -/
theorem firstCode_mono (len : Sparse (BitVec 5)) (l k : Nat) :
    (firstCode len l + lenCount len l) * 2 ^ (k + 1) ≤ firstCode len (l + k + 1) := by
  induction k with
  | zero => rw [Nat.add_zero, firstCode_succ]; omega
  | succ k ih =>
    rw [← Nat.add_assoc, firstCode_succ, Nat.pow_succ, ← Nat.mul_assoc]
    omega

/-- The code words of one length stand before its end. -/
theorem codeOf_lt {len : Sparse (BitVec 5)} (h : Sparse.wf 0 len = true) {e : Nat × BitVec 5} (he : e ∈ len) :
    codeOf len e.1 e.2 < firstCode len e.2.toNat + lenCount len e.2.toNat := by
  have hne : e.2.toNat ≠ 0 := fun h0 => (Sparse.get_of_mem h he).2 (BitVec.eq_of_toNat_eq h0)
  rw [codeOf, lenCount, if_neg hne]
  refine Nat.add_lt_add_left (countP_lt_countP_of_mem ?_ he ?_ ?_) _ <;> simp +contextual

/-- Within one length the code words rise with the symbols (R141). -/
theorem codeOf_strictMono {len : Sparse (BitVec 5)} {e : Nat × BitVec 5} (he : e ∈ len) {s : Nat}
    (hs : e.1 < s) : codeOf len e.1 e.2 < codeOf len s e.2 := by
  refine Nat.add_lt_add_left (countP_lt_countP_of_mem ?_ he ?_ ?_) _
  · simp only [Bool.and_eq_true, decide_eq_true_eq]
    exact fun x ⟨hx, hlt⟩ => ⟨hx, hlt.trans hs⟩
  · simp [hs]
  · simp

/-- The code word of an entry fits its length (R142 (b)). -/
theorem codeOf_lt_two_pow {len : Sparse (BitVec 5)} (h : LengthsFit len) {e : Nat × BitVec 5} (he : e ∈ len) :
    codeOf len e.1 e.2 < 2 ^ e.2.toNat :=
  (codeOf_lt h.wf he).trans_le (firstCode_add_lenCount_le h (h.le e he))

/-- `Canonical` gives each symbol with a length its code word, without overflow, and the others 0 (R141). -/
theorem toNat_get_canonical {len : Sparse (BitVec 5)} (h : LengthsFit len) (i : Nat) :
    (Sparse.get 0 (canonical len) i).toNat =
      if Sparse.get 0 len i = 0 then 0 else codeOf len i (Sparse.get 0 len i) := by
  rw [canonical, Sparse.get_foldr_set _ h.wf]
  split
  · rfl
  · have hmem := (Sparse.get_eq_or_mem 0 len i).resolve_left ‹_›
    have hle : 2 ^ (Sparse.get 0 len i).toNat ≤ 2 ^ 16 := Nat.pow_le_pow_right (by decide) (h.le _ hmem)
    exact BitVec.toNat_ofNat .. ▸ Nat.mod_eq_of_lt ((codeOf_lt_two_pow h hmem).trans_le hle)

/-! ### No code word in front of another (R142 (c)) -/

theorem msbBits_add (n k v : Nat) : msbBits (n + k) v = msbBits n (v / 2 ^ k) ++ msbBits k v := by
  induction n with
  | zero => simp [msbBits]
  | succ n ih => rw [Nat.succ_add, msbBits, ih, msbBits, Nat.testBit_div_two_pow]; rfl

theorem msbBits_inj {n v w : Nat} (hv : v < 2 ^ n) (hw : w < 2 ^ n) (h : msbBits n v = msbBits n w) : v = w := by
  have hread := takeBits_msbBits n 0 v []
  rw [h, takeBits_msbBits] at hread
  simpa [Nat.mod_eq_of_lt hv, Nat.mod_eq_of_lt hw] using hread.symm

/-- A word of bits in front of another is what is left of it without its last bits. -/
theorem eq_div_of_msbBits_isPrefix {a b v w : Nat} (hv : v < 2 ^ a) (hw : w < 2 ^ b)
    (h : msbBits a v <+: msbBits b w) : ∃ k, b = a + k ∧ v = w / 2 ^ k := by
  have hab : a ≤ b := by simpa using h.length_le
  obtain ⟨k, rfl⟩ := Nat.exists_eq_add_of_le hab
  obtain ⟨t, ht⟩ := h
  rw [msbBits_add] at ht
  refine ⟨k, rfl, msbBits_inj hv ?_ (List.append_inj_left ht (by simp))⟩
  exact Nat.div_lt_of_lt_mul (by rwa [← Nat.pow_add, Nat.add_comm])

/-- No code word is the front of another symbol's (R142 (c)): in one length the words differ, and those of a longer
length lie behind every extension of the shorter. -/
theorem codeOf_not_isPrefix {len : Sparse (BitVec 5)} (h : LengthsFit len) {e f : Nat × BitVec 5} (he : e ∈ len)
    (hf : f ∈ len) (hne : e.1 ≠ f.1) :
    ¬(msbBits e.2.toNat (codeOf len e.1 e.2) <+: msbBits f.2.toNat (codeOf len f.1 f.2)) := by
  intro hpre
  obtain ⟨k, hlen, hcode⟩ := eq_div_of_msbBits_isPrefix (codeOf_lt_two_pow h he) (codeOf_lt_two_pow h hf) hpre
  cases k with
  | zero =>
    have hl : f.2 = e.2 := BitVec.eq_of_toNat_eq hlen
    rw [Nat.pow_zero, Nat.div_one, hl] at hcode
    rcases Nat.lt_or_gt_of_ne hne with hlt | hgt
    · exact absurd hcode (codeOf_strictMono he hlt).ne
    · exact absurd hcode (hl ▸ codeOf_strictMono hf hgt).ne'
  | succ k =>
    have hbehind : (codeOf len e.1 e.2 + 1) * 2 ^ (k + 1) ≤ codeOf len f.1 f.2 :=
      calc (codeOf len e.1 e.2 + 1) * 2 ^ (k + 1)
          ≤ (firstCode len e.2.toNat + lenCount len e.2.toNat) * 2 ^ (k + 1) :=
            Nat.mul_le_mul_right _ (codeOf_lt h.wf he)
        _ ≤ firstCode len (e.2.toNat + k + 1) := firstCode_mono len _ k
        _ = firstCode len f.2.toNat := by rw [hlen]; rfl
        _ ≤ codeOf len f.1 f.2 := Nat.le_add_right _ _
    have := (Nat.le_div_iff_mul_le (Nat.two_pow_pos _)).mpr hbehind
    omega

end Sys2Proof.Machine
end

section
/-! PROOFS. The check of a table on its entries (42_entropy_decoder.md R163), and the canonical assignment in the words
of 41_entropy_encoder.md R141. -/

namespace Sys2Proof.Machine

open Sys2Proof.Config

/-- What `ValidLengths` asks for, by the number of used symbols. -/
theorem validLengths_iff (lens : List (BitVec 5)) :
    validLengths lens = true ↔ (∀ l ∈ lens, l.toNat ≤ maxCodeLen) ∧
      ((usedLengths lens).length = 1 → ∀ l ∈ usedLengths lens, l = 1) ∧
      (2 ≤ (usedLengths lens).length → kraftSum (usedLengths lens) = 2 ^ maxCodeLen) := by
  simp only [validLengths, Bool.and_eq_true, List.all_eq_true, decide_eq_true_eq]
  refine and_congr_right fun _ => ?_
  rcases usedLengths lens with _ | ⟨l, _ | ⟨l', ls⟩⟩ <;> simp

/-- The used lengths of a table laid out over its alphabet are the listed ones. -/
theorem usedLengths_toList {len : Sparse (BitVec 5)} {alpha : Nat} (h : Sparse.wf 0 len = true)
    (ha : ∀ e ∈ len, e.1 < alpha) :
    usedLengths (Sparse.toList 0 len alpha) = len.map (fun e => e.2.toNat) := by
  have hkeys : (len.map Prod.fst).filter (fun i => decide (i < alpha)) = len.map Prod.fst := by
    simpa [List.filter_eq_self] using ha
  have hne : (fun i => Sparse.get 0 len i != 0) = fun i => decide (Sparse.get 0 len i ≠ 0) := by
    funext i; rw [bne, beq_eq_decide, decide_not]
  rw [usedLengths, Sparse.toList, List.filter_map, Function.comp_def, hne, Sparse.filter_range_get_ne h, hkeys,
    List.map_map, List.map_map]
  exact List.map_congr_left fun e he => congrArg BitVec.toNat (Sparse.get_of_mem h he).1

/-- The check of a table laid out over its alphabet, on its entries (R163). -/
theorem validLengths_toList_iff {len : Sparse (BitVec 5)} {alpha : Nat} (h : Sparse.wf 0 len = true)
    (ha : ∀ e ∈ len, e.1 < alpha) :
    validLengths (Sparse.toList 0 len alpha) = true ↔ (∀ e ∈ len, e.2.toNat ≤ 16) ∧
      (len.length = 1 → ∀ e ∈ len, e.2.toNat = 1) ∧
      (2 ≤ len.length → (len.map (fun e => 2 ^ (16 - e.2.toNat))).sum = 2 ^ 16) := by
  have hle : (∀ l ∈ Sparse.toList 0 len alpha, l.toNat ≤ 16) ↔ ∀ e ∈ len, e.2.toNat ≤ 16 := by
    simp only [Sparse.toList, List.forall_mem_map, List.mem_range]
    constructor
    · intro hl e he
      have := hl e.1 (ha e he)
      rwa [(Sparse.get_of_mem h he).1] at this
    · intro hl i _
      rcases Sparse.get_eq_or_mem 0 len i with h0 | hmem
      · rw [h0]; exact Nat.zero_le 16
      · exact hl _ hmem
  rw [validLengths_iff, maxCodeLen, hle, usedLengths_toList h ha, kraftSum, List.length_map, List.map_map,
    List.forall_mem_map]
  rfl

/-- A table that passes the check leaves room for its code words. -/
theorem LengthsFit.of_validLengths {len : Sparse (BitVec 5)} {alpha : Nat} (h : Sparse.wf 0 len = true)
    (ha : ∀ e ∈ len, e.1 < alpha) (hv : validLengths (Sparse.toList 0 len alpha) = true) : LengthsFit len := by
  obtain ⟨hle, hone, hmany⟩ := (validLengths_toList_iff h ha).mp hv
  refine ⟨h, hle, ?_⟩
  match len, hone, hmany with
  | [], _, _ => simp
  | [e], hone, _ => simp [hone rfl e (by simp)]
  | e :: f :: len, _, hmany => exact (hmany (by simp)).le

/-! ### The canonical assignment in the words of R141 -/

/-- `cnt[l]` counted over the alphabet. -/
theorem lenCount_eq_countP_range {len : Sparse (BitVec 5)} {alpha : Nat} (h : Sparse.wf 0 len = true)
    (ha : ∀ e ∈ len, e.1 < alpha) (l : Nat) :
    lenCount len l =
      if l = 0 then 0 else (List.range alpha).countP (fun i => decide ((Sparse.get 0 len i).toNat = l)) := by
  unfold lenCount
  split
  · rfl
  · rw [Sparse.countP_range h alpha (fun v => decide (v.toNat = l)) (by simpa using Ne.symm ‹_›)]
    refine List.countP_congr fun e he => ?_
    simp [ha e he]

/-- A code word is the first of its length plus the number of smaller symbols of that length. -/
theorem codeOf_eq_countP_range {len : Sparse (BitVec 5)} (h : Sparse.wf 0 len = true) (i : Nat) {l : BitVec 5}
    (hl : l ≠ 0) :
    codeOf len i l =
      firstCode len l.toNat + (List.range i).countP (fun j => decide (Sparse.get 0 len j = l)) := by
  rw [codeOf, Sparse.countP_range h i (fun v => decide (v = l)) (by simpa using hl.symm)]

/-- The recurrence of R141 determines the first code words. -/
theorem firstCode_unique {len : Sparse (BitVec 5)} {cnt first : Nat → Nat} (hcnt : ∀ l, cnt l = lenCount len l)
    (h0 : first 0 = 0) (hsucc : ∀ l, first (l + 1) = 2 * (first l + cnt l)) (l : Nat) :
    first l = firstCode len l := by
  induction l with
  | zero => rw [h0]; rfl
  | succ l ih => rw [hsucc, ih, hcnt, firstCode_succ]

/-- In a table that passes the check `Canonical` is the assignment of R141, its counts taken over the alphabet. -/
theorem toNat_get_canonical_of_validLengths {len : Sparse (BitVec 5)} {alpha : Nat} {cnt first : Nat → Nat}
    (h : Sparse.wf 0 len = true) (ha : ∀ e ∈ len, e.1 < alpha)
    (hv : validLengths (Sparse.toList 0 len alpha) = true)
    (hcnt : ∀ l, cnt l =
      if l = 0 then 0 else (List.range alpha).countP (fun i => decide ((Sparse.get 0 len i).toNat = l)))
    (h0 : first 0 = 0) (hsucc : ∀ l, first (l + 1) = 2 * (first l + cnt l)) (i : Nat) :
    (Sparse.get 0 (canonical len) i).toNat =
      if Sparse.get 0 len i = 0 then 0
      else first (Sparse.get 0 len i).toNat +
        (List.range i).countP (fun j => decide (Sparse.get 0 len j = Sparse.get 0 len i)) := by
  have hcount : ∀ l, cnt l = lenCount len l := fun l => by rw [hcnt, lenCount_eq_countP_range h ha]
  rw [toNat_get_canonical (LengthsFit.of_validLengths h ha hv)]
  split
  · rfl
  · rw [codeOf_eq_countP_range h i ‹_›, firstCode_unique hcount h0 hsucc]

end Sys2Proof.Machine
end

section
/-! PROOFS. The lengths `FINAL` builds: the depths of a Huffman tree, complete, and limited to 16
(41_entropy_encoder.md R137 to R140, R142). -/

namespace Sys2Proof.Machine

open Sys2Proof.Config

/-! ### Trees -/

theorem Tree.depths_eq_map (t : Tree) (d : Nat) :
    t.depths d = (t.depths 0).map (fun e => (e.1, e.2 + d)) := by
  induction t generalizing d with
  | leaf s => simp [Tree.depths]
  | node a b iha ihb =>
    simp only [Tree.depths, List.map_append]
    rw [iha (d + 1), ihb (d + 1), iha (0 + 1), ihb (0 + 1)]
    simp [Function.comp_def, Nat.add_assoc, Nat.add_comm 1 d]

theorem Tree.depths_node (a b : Tree) :
    (Tree.node a b).depths 0 = (a.depths 0 ++ b.depths 0).map (fun e => (e.1, e.2 + 1)) := by
  rw [List.map_append, ← Tree.depths_eq_map, ← Tree.depths_eq_map]; rfl

/-- The symbols at the leaves of a tree. -/
def Tree.syms (t : Tree) : List Nat := (t.depths 0).map Prod.fst

theorem Tree.syms_leaf (s : Nat) : (Tree.leaf s).syms = [s] := rfl

theorem Tree.syms_node (a b : Tree) : (Tree.node a b).syms = a.syms ++ b.syms := by
  simp [Tree.syms, Tree.depths_node, Function.comp_def]

/-- Kraft's equality: the leaves of a tree whose depths are at most `D` share the `2^D` words of `D` bits. -/
theorem Tree.sum_two_pow_depths (t : Tree) {d D : Nat} (h : ∀ e ∈ t.depths d, e.2 ≤ D) :
    d ≤ D ∧ ((t.depths d).map (fun e => 2 ^ (D - e.2))).sum = 2 ^ (D - d) := by
  induction t generalizing d with
  | leaf s => simpa [Tree.depths] using h
  | node a b iha ihb =>
    simp only [Tree.depths, List.mem_append] at h
    obtain ⟨hd, ha⟩ := iha fun e he => h e (.inl he)
    obtain ⟨-, hb⟩ := ihb fun e he => h e (.inr he)
    refine ⟨by omega, ?_⟩
    rw [Tree.depths, List.map_append, List.sum_append, ha, hb, ← Nat.two_mul, ← Nat.pow_succ', Nat.succ_eq_add_one,
      show D - (d + 1) + 1 = D - d by omega]

/-- In a tree of two or more leaves every leaf has a depth of at least 1. -/
theorem Tree.one_le_depth {t : Tree} (h : 2 ≤ t.syms.length) : ∀ e ∈ t.depths 0, 1 ≤ e.2 := by
  cases t with
  | leaf s => simp [Tree.syms_leaf] at h
  | node a b =>
    rw [Tree.depths_node, List.forall_mem_map]
    intro e _
    exact Nat.le_add_left 1 e.2

/-! ### The pool of nodes (R137) -/

theorem poolInsert_perm (n : PoolNode) (ps : List PoolNode) : (poolInsert n ps).Perm (n :: ps) := by
  induction ps with
  | nil => rfl
  | cons p ps ih =>
    unfold poolInsert
    split
    · rfl
    · exact (ih.cons p).trans (List.Perm.swap _ _ _)

theorem weight_le_of_before {a b : PoolNode} (h : a.before b = true) : a.weight ≤ b.weight := by
  simp only [PoolNode.before, Bool.or_eq_true, Bool.and_eq_true, decide_eq_true_eq] at h
  omega

theorem weight_le_of_not_before {a b : PoolNode} (h : ¬a.before b = true) : b.weight ≤ a.weight := by
  simp only [PoolNode.before, Bool.or_eq_true, Bool.and_eq_true, decide_eq_true_eq] at h
  omega

theorem poolInsert_sorted (n : PoolNode) {ps : List PoolNode} (h : ps.Pairwise (fun a b => a.weight ≤ b.weight)) :
    (poolInsert n ps).Pairwise (fun a b => a.weight ≤ b.weight) := by
  induction ps with
  | nil => simp [poolInsert]
  | cons p ps ih =>
    obtain ⟨hp, hps⟩ := List.pairwise_cons.mp h
    unfold poolInsert
    split
    · have hnp := weight_le_of_before ‹_›
      refine List.pairwise_cons.mpr ⟨List.forall_mem_cons.mpr ⟨hnp, fun q hq => hnp.trans (hp q hq)⟩, h⟩
    · refine List.pairwise_cons.mpr ⟨fun q hq => ?_, ih hps⟩
      rcases List.mem_cons.mp ((poolInsert_perm n ps).mem_iff.mp hq) with rfl | hq
      · exact weight_le_of_not_before ‹_›
      · exact hp q hq

/-- The leaf of a used symbol (R137). -/
def leafNode (e : Nat × Nat) : PoolNode := ⟨e.2, e.1, .leaf e.1⟩

theorem leafPool_cons (e : Nat × Nat) (ws : List (Nat × Nat)) :
    leafPool (e :: ws) = poolInsert (leafNode e) (leafPool ws) := rfl

theorem leafPool_perm (ws : List (Nat × Nat)) : (leafPool ws).Perm (ws.map leafNode) := by
  induction ws with
  | nil => rfl
  | cons e ws ih => rw [leafPool_cons]; exact (poolInsert_perm _ _).trans (ih.cons _)

theorem leafPool_sorted (ws : List (Nat × Nat)) :
    (leafPool ws).Pairwise (fun a b => a.weight ≤ b.weight) := by
  induction ws with
  | nil => simp [leafPool]
  | cons e ws ih => rw [leafPool_cons]; exact poolInsert_sorted _ ih

/-- The node that replaces the two of smallest key (R137). -/
def mergeNode (ident : Nat) (a b : PoolNode) : PoolNode := ⟨a.weight + b.weight, ident, .node a.tree b.tree⟩

theorem mergePool_merge (alpha fuel j : Nat) (a b : PoolNode) (ps : List PoolNode) :
    mergePool alpha (fuel + 1) j (a :: b :: ps) =
      mergePool alpha fuel (j + 1) (poolInsert (mergeNode (alpha + j) a b) ps) := rfl

theorem mergeNode_weight (ident : Nat) (a b : PoolNode) : (mergeNode ident a b).weight = a.weight + b.weight := rfl

theorem mergeNode_tree (ident : Nat) (a b : PoolNode) : (mergeNode ident a b).tree = .node a.tree b.tree := rfl

/-- What every merge keeps holds of the one node that is left, and the merges end before their bound. -/
theorem mergePool_induction {Q : List PoolNode → Prop} {alpha : Nat}
    (hmerge : ∀ ident a b ps, Q (a :: b :: ps) → Q (poolInsert (mergeNode ident a b) ps)) {fuel j : Nat}
    {ps : List PoolNode} (hne : ps ≠ []) (hfuel : ps.length ≤ fuel + 1) (hQ : Q ps) :
    ∃ n, Q [n] ∧ mergePool alpha fuel j ps = some n.tree := by
  induction fuel generalizing j ps with
  | zero =>
    match ps, hne, hfuel with
    | [n], _, _ => exact ⟨n, hQ, rfl⟩
  | succ fuel ih =>
    match ps, hne, hfuel, hQ with
    | [n], _, _, hQ => exact ⟨n, hQ, rfl⟩
    | a :: b :: ps, _, hfuel, hQ =>
      have hperm := poolInsert_perm (mergeNode (alpha + j) a b) ps
      rw [mergePool_merge]
      refine ih (List.ne_nil_of_length_pos ?_) ?_ (hmerge (alpha + j) a b ps hQ) <;> rw [hperm.length_eq]
      · exact Nat.succ_pos _
      · simpa using hfuel

/-- The construction answers the depths of one tree, and what holds of the pool of leaves and is kept by every merge
holds of it. -/
theorem treeLengths_induction {Q : List PoolNode → Prop} (alpha : Nat) {ws : List (Nat × Nat)} (hne : ws ≠ [])
    (hmerge : ∀ ident a b ps, Q (a :: b :: ps) → Q (poolInsert (mergeNode ident a b) ps)) (hQ : Q (leafPool ws)) :
    ∃ n : PoolNode, Q [n] ∧ treeLengths alpha ws = n.tree.depths 0 := by
  have hlen := (leafPool_perm ws).length_eq
  rw [List.length_map] at hlen
  obtain ⟨n, hn, hmerge⟩ := mergePool_induction (alpha := alpha) (fuel := ws.length) (j := 0) hmerge
    (fun h => hne (List.length_eq_zero_iff.mp (by rw [← hlen, h]; rfl))) (by omega) hQ
  exact ⟨n, hn, by rw [treeLengths, hmerge]⟩

/-- The symbols of all trees of a pool. -/
def poolSyms (ps : List PoolNode) : List Nat := ps.flatMap (fun n => n.tree.syms)

theorem poolSyms_merge (ident : Nat) (a b : PoolNode) (ps : List PoolNode) :
    (poolSyms (poolInsert (mergeNode ident a b) ps)).Perm (poolSyms (a :: b :: ps)) := by
  refine ((poolInsert_perm _ _).flatMap_right _).trans ?_
  simp [poolSyms, mergeNode_tree, Tree.syms_node]

theorem poolSyms_leafPool (ws : List (Nat × Nat)) : (poolSyms (leafPool ws)).Perm (ws.map Prod.fst) := by
  refine ((leafPool_perm ws).flatMap_right _).trans ?_
  induction ws with
  | nil => rfl
  | cons e ws ih => exact ih.cons e.1

/-- The construction gives each used symbol one length: the depth of its leaf in one tree (R137). -/
theorem treeLengths_eq_depths (alpha : Nat) {ws : List (Nat × Nat)} (hne : ws ≠ []) :
    ∃ t : Tree, treeLengths alpha ws = t.depths 0 ∧ t.syms.Perm (ws.map Prod.fst) := by
  obtain ⟨n, hn, hlen⟩ := treeLengths_induction (Q := fun ps => (poolSyms ps).Perm (ws.map Prod.fst)) alpha hne
    (fun ident a b ps h => (poolSyms_merge ident a b ps).trans h) (poolSyms_leafPool ws)
  exact ⟨n.tree, hlen, by simpa [poolSyms] using hn⟩

/-! ### Equal weights give short code words (R140)

With all weights 1 the weights in the pool stay within a factor of 2 of each other, so a child has at most two
thirds of its parent's weight, and a leaf at depth `d` needs a total weight of at least `(3/2)^d`. -/

/-- No leaf lies deeper than the weight of its tree allows. -/
def PoolNode.Shallow (n : PoolNode) : Prop := ∀ e ∈ n.tree.depths 0, 3 ^ e.2 ≤ 2 ^ e.2 * n.weight

/-- A pool of total weight `W` in key order, its weights within a factor of 2 of each other. -/
structure Balanced (W : Nat) (ps : List PoolNode) : Prop where
  sorted : ps.Pairwise (fun a b => a.weight ≤ b.weight)
  near : ∀ a ∈ ps, ∀ b ∈ ps, a.weight ≤ 2 * b.weight
  shallow : ∀ n ∈ ps, n.Shallow
  total : (ps.map PoolNode.weight).sum = W

/-- One level up, where the child has at most two thirds of the parent's weight. -/
theorem three_pow_succ_le {d w W : Nat} (hd : 3 ^ d ≤ 2 ^ d * w) (hw : 3 * w ≤ 2 * W) :
    3 ^ (d + 1) ≤ 2 ^ (d + 1) * W :=
  calc 3 ^ (d + 1) = 3 * 3 ^ d := Nat.pow_succ'
    _ ≤ 3 * (2 ^ d * w) := Nat.mul_le_mul_left 3 hd
    _ = 2 ^ d * (3 * w) := by ring
    _ ≤ 2 ^ d * (2 * W) := Nat.mul_le_mul_left _ hw
    _ = 2 ^ (d + 1) * W := by ring

theorem shallow_mergeNode (ident : Nat) {a b : PoolNode} (ha : a.Shallow) (hb : b.Shallow)
    (hab : a.weight ≤ 2 * b.weight) (hba : b.weight ≤ 2 * a.weight) : (mergeNode ident a b).Shallow := by
  rw [PoolNode.Shallow, mergeNode_tree, mergeNode_weight, Tree.depths_node, List.forall_mem_map]
  intro e he
  rcases List.mem_append.mp he with he | he
  · exact three_pow_succ_le (ha e he) (by omega)
  · exact three_pow_succ_le (hb e he) (by omega)

theorem Balanced.merge {W : Nat} (ident : Nat) {a b : PoolNode} {ps : List PoolNode}
    (h : Balanced W (a :: b :: ps)) : Balanced W (poolInsert (mergeNode ident a b) ps) := by
  obtain ⟨hsorted, hnear, hshallow, htotal⟩ := h
  simp only [List.pairwise_cons, List.forall_mem_cons] at hsorted hnear hshallow
  obtain ⟨⟨hab, -⟩, hb, hps⟩ := hsorted
  obtain ⟨⟨-, hnear_ab, -⟩, ⟨hnear_ba, -⟩, hnear_ps⟩ := hnear
  obtain ⟨hshallow_a, hshallow_b, hshallow_ps⟩ := hshallow
  have hperm := poolInsert_perm (mergeNode ident a b) ps
  have hw := mergeNode_weight ident a b
  refine ⟨poolInsert_sorted _ hps, ?_, ?_, ?_⟩
  · intro p hp q hq
    rw [hperm.mem_iff, List.mem_cons] at hp hq
    rcases hp with rfl | hp <;> rcases hq with rfl | hq
    · omega
    · have := hb q hq; omega
    · have := (hnear_ps p hp).1; omega
    · exact (hnear_ps p hp).2.2 q hq
  · intro p hp
    rw [hperm.mem_iff, List.mem_cons] at hp
    rcases hp with rfl | hp
    · exact shallow_mergeNode ident hshallow_a hshallow_b hnear_ab hnear_ba
    · exact hshallow_ps p hp
  · rw [(hperm.map _).sum_eq, List.map_cons, List.sum_cons, hw, ← htotal]
    simp [Nat.add_assoc]

theorem balanced_leafPool {ws : List (Nat × Nat)} (h : ∀ e ∈ ws, e.2 = 1) :
    Balanced ws.length (leafPool ws) := by
  have hleaf : ∀ n ∈ leafPool ws, ∃ s, n.weight = 1 ∧ n.tree = .leaf s := by
    intro n hn
    obtain ⟨e, he, rfl⟩ := List.mem_map.mp ((leafPool_perm ws).mem_iff.mp hn)
    exact ⟨e.1, h e he, rfl⟩
  refine ⟨leafPool_sorted ws, fun p hp q hq => ?_, fun n hn => ?_, ?_⟩
  · obtain ⟨-, hp, -⟩ := hleaf p hp
    obtain ⟨-, hq, -⟩ := hleaf q hq
    omega
  · obtain ⟨s, hw, ht⟩ := hleaf n hn
    simp [PoolNode.Shallow, ht, hw, Tree.depths]
  · rw [((leafPool_perm ws).map _).sum_eq, List.map_map]
    have hones : ws.map (PoolNode.weight ∘ leafNode) = ws.map (fun _ => 1) := List.map_congr_left h
    simp [hones]

theorem le_of_three_pow_le {d W : Nat} (h : 3 ^ d ≤ 2 ^ d * W) (hW : W ≤ 396) : d ≤ 16 := by
  by_contra hd
  obtain ⟨k, rfl⟩ := Nat.exists_eq_add_of_le (Nat.lt_of_not_le hd)
  have hgt : 2 ^ (17 + k) * 396 < 3 ^ (17 + k) :=
    calc 2 ^ (17 + k) * 396 = (2 ^ 17 * 396) * 2 ^ k := by ring
      _ < 3 ^ 17 * 2 ^ k := Nat.mul_lt_mul_of_pos_right (by decide) (Nat.two_pow_pos k)
      _ ≤ 3 ^ 17 * 3 ^ k := Nat.mul_le_mul_left _ (Nat.pow_le_pow_left (by decide) k)
      _ = 3 ^ (17 + k) := (Nat.pow_add 3 17 k).symm
  exact absurd (h.trans (Nat.mul_le_mul_left _ hW)) (Nat.not_le.mpr hgt)

theorem treeLengths_le_of_ones (alpha : Nat) {ws : List (Nat × Nat)} (hne : ws ≠ []) (hlen : ws.length ≤ 396)
    (h : ∀ e ∈ ws, e.2 = 1) : ∀ e ∈ treeLengths alpha ws, e.2 ≤ 16 := by
  obtain ⟨n, hn, htree⟩ := treeLengths_induction (Q := Balanced ws.length) alpha hne
    (fun ident _ _ _ hb => hb.merge ident) (balanced_leafPool h)
  have hw : n.weight = ws.length := by simpa using hn.total
  rw [htree]
  intro e he
  exact le_of_three_pow_le (hw ▸ hn.shallow n List.mem_cons_self e he) hlen

/-! ### The limit on the lengths (R140) -/

theorem halveWeight_bounds {w k : Nat} (h : 1 ≤ w ∧ w ≤ 2 ^ (k + 1)) :
    1 ≤ halveWeight w ∧ halveWeight w ≤ 2 ^ k := by
  rw [Nat.pow_succ] at h
  rw [halveWeight, Nat.shiftRight_one]
  omega

/-- The limited construction is one construction over weights of the same symbols, and it ends with no length above
16 before the bound on its repetitions: after `fuel` halvings every weight is 1. -/
theorem limitLengths_eq_treeLengths (alpha : Nat) {fuel : Nat} {ws : List (Nat × Nat)} (hne : ws ≠ [])
    (hlen : ws.length ≤ 396) (h : ∀ e ∈ ws, 1 ≤ e.2 ∧ e.2 ≤ 2 ^ fuel) :
    ∃ ws', ws'.map Prod.fst = ws.map Prod.fst ∧ limitLengths alpha fuel ws = treeLengths alpha ws' ∧
      ∀ e ∈ treeLengths alpha ws', e.2 ≤ 16 := by
  induction fuel generalizing ws with
  | zero =>
    refine ⟨ws, rfl, rfl, treeLengths_le_of_ones alpha hne hlen fun e he => ?_⟩
    have := h e he
    omega
  | succ fuel ih =>
    rw [limitLengths]
    split
    · rename_i hall
      exact ⟨ws, rfl, rfl, fun e he => of_decide_eq_true (List.all_eq_true.mp hall e he)⟩
    · obtain ⟨ws', hsyms, hlim, hle⟩ := ih (ws := ws.map (fun e => (e.1, halveWeight e.2))) (by simpa using hne)
        (by simpa using hlen) (List.forall_mem_map.mpr fun e he => halveWeight_bounds (h e he))
      exact ⟨ws', by simpa [Function.comp_def] using hsyms, hlim, hle⟩

/-! ### The table of a histogram (R137, R139, R142) -/

/-- A list of (symbol, length) pairs for the symbols `syms`: each once, lengths from 1 to 16, a lone symbol of length
1, and two or more symbols share the code space. -/
structure CompleteLengths (syms : List Nat) (ls : List (Nat × Nat)) : Prop where
  perm : (ls.map Prod.fst).Perm syms
  pos : ∀ e ∈ ls, 1 ≤ e.2
  le : ∀ e ∈ ls, e.2 ≤ 16
  lone : ls.length = 1 → ∀ e ∈ ls, e.2 = 1
  kraft : 2 ≤ ls.length → (ls.map (fun e => 2 ^ (16 - e.2))).sum = 2 ^ 16

theorem completeLengths_limitLengths (alpha : Nat) {ws : List (Nat × Nat)} (htwo : 2 ≤ ws.length)
    (hlen : ws.length ≤ 396) (h : ∀ e ∈ ws, 1 ≤ e.2 ∧ e.2 ≤ 2 ^ 32) :
    CompleteLengths (ws.map Prod.fst) (limitLengths alpha 32 ws) := by
  obtain ⟨ws', hsyms, hlim, hle⟩ :=
    limitLengths_eq_treeLengths alpha (List.ne_nil_of_length_pos (by omega)) hlen h
  have hlen' : ws'.length = ws.length := by simpa using congrArg List.length hsyms
  obtain ⟨t, htree, hperm⟩ :=
    treeLengths_eq_depths alpha (ws := ws') (List.ne_nil_of_length_pos (by omega))
  rw [hlim, htree]
  rw [htree] at hle
  rw [hsyms] at hperm
  have hcount : t.syms.length = ws.length := by simpa using hperm.length_eq
  refine ⟨hperm, Tree.one_le_depth (by omega), hle, fun hone => ?_, fun _ => (t.sum_two_pow_depths hle).2⟩
  rw [Tree.syms, List.length_map] at hcount
  omega

/-- The counts of a histogram whose entries all lie in the alphabet. -/
theorem usedWeights_eq_map {hist : Sparse Word} {alpha : Nat} (h : Sparse.wf 0 hist = true)
    (ha : ∀ e ∈ hist, e.1 < alpha) : usedWeights hist alpha = hist.map (fun e => (e.1, e.2.toNat)) := by
  rw [usedWeights, List.filter_eq_self.mpr]
  intro e he
  simpa [ha e he] using (Sparse.get_of_mem h he).2

/-- `BuildLengths` tables complete lengths of exactly the counted symbols. -/
theorem buildLengths_eq_lengthsTable {hist : Sparse Word} {alpha : Nat} (h : Sparse.wf 0 hist = true)
    (ha : ∀ e ∈ hist, e.1 < alpha) (halpha : alpha ≤ 396) :
    ∃ ls, buildLengths hist alpha = lengthsTable ls ∧ CompleteLengths (hist.map Prod.fst) ls := by
  have hlen := Sparse.length_le_of_lt h ha
  rw [buildLengths, usedWeights_eq_map h ha]
  match hist, h, hlen with
  | [], _, _ => exact ⟨[], rfl, by constructor <;> simp⟩
  | [e], _, _ => exact ⟨[(e.1, 1)], rfl, by constructor <;> simp⟩
  | e :: f :: hist, h, hlen =>
    refine ⟨_, rfl, ?_⟩
    have hcomplete := completeLengths_limitLengths alpha
      (ws := (e :: f :: hist).map (fun e => (e.1, e.2.toNat))) (by simp) (by simpa using hlen.trans halpha) ?_
    · simpa [Function.comp_def] using hcomplete
    · rw [List.forall_mem_map]
      intro g hg
      have hne := (Sparse.get_of_mem h hg).2
      exact ⟨Nat.pos_of_ne_zero fun h0 => hne (BitVec.eq_of_toNat_eq h0), g.2.isLt.le⟩

/-- A table of complete lengths lists each symbol with its length. -/
theorem lengthsTable_perm {syms : List Nat} {ls : List (Nat × Nat)} (hsyms : syms.Nodup)
    (h : CompleteLengths syms ls) :
    (lengthsTable ls).Perm (ls.map (fun e => (e.1, BitVec.ofNat 5 e.2))) := by
  refine Sparse.perm_foldr_set (f := fun e => BitVec.ofNat 5 e.2) (h.perm.nodup_iff.mpr hsyms) fun e he h0 => ?_
  have hpos := h.pos e he
  have hle := h.le e he
  have hz := congrArg BitVec.toNat h0
  rw [BitVec.toNat_ofNat, Nat.mod_eq_of_lt (by omega)] at hz
  exact absurd hz (Nat.ne_of_gt hpos)

/-- The table of lengths that `FINAL` builds, as a set of symbols and as a multiset of lengths. -/
structure BuiltTable (syms : List Nat) (len : Sparse (BitVec 5)) : Prop where
  wf : Sparse.wf 0 len = true
  keys : (len.map Prod.fst).Perm syms
  le : ∀ e ∈ len, e.2.toNat ≤ 16
  lone : len.length = 1 → ∀ e ∈ len, e.2.toNat = 1
  kraft : 2 ≤ len.length → (len.map (fun e => 2 ^ (16 - e.2.toNat))).sum = 2 ^ 16

theorem builtTable_lengthsTable {syms : List Nat} {ls : List (Nat × Nat)} (hsyms : syms.Nodup)
    (h : CompleteLengths syms ls) : BuiltTable syms (lengthsTable ls) := by
  have hperm := lengthsTable_perm hsyms h
  have hlen : (lengthsTable ls).length = ls.length := by simpa using hperm.length_eq
  have hval : ∀ e ∈ ls, (BitVec.ofNat 5 e.2).toNat = e.2 := fun e he => by
    rw [BitVec.toNat_ofNat, Nat.mod_eq_of_lt]
    have := h.le e he
    omega
  have hmem : ∀ g ∈ lengthsTable ls, ∃ e ∈ ls, g.2.toNat = e.2 := by
    intro g hg
    obtain ⟨e, he, rfl⟩ := List.mem_map.mp (hperm.mem_iff.mp hg)
    exact ⟨e, he, hval e he⟩
  refine ⟨Sparse.wf_foldr_set _ ls, ?_, ?_, ?_, ?_⟩
  · refine (hperm.map Prod.fst).trans ?_
    simpa [Function.comp_def] using h.perm
  · intro g hg
    obtain ⟨e, he, heq⟩ := hmem g hg
    exact heq ▸ h.le e he
  · intro hone g hg
    obtain ⟨e, he, heq⟩ := hmem g hg
    exact heq.trans (h.lone (hlen ▸ hone) e he)
  · intro htwo
    rw [(hperm.map _).sum_eq, List.map_map, ← h.kraft (hlen ▸ htwo)]
    exact congrArg List.sum (List.map_congr_left fun e he => by rw [Function.comp_apply, hval e he])

theorem builtTable_buildLengths {hist : Sparse Word} {alpha : Nat} (h : Sparse.wf 0 hist = true)
    (ha : ∀ e ∈ hist, e.1 < alpha) (halpha : alpha ≤ 396) :
    BuiltTable (hist.map Prod.fst) (buildLengths hist alpha) := by
  obtain ⟨ls, hls, hcomplete⟩ := buildLengths_eq_lengthsTable h ha halpha
  exact hls ▸ builtTable_lengthsTable (Sparse.nodup_keys h) hcomplete

theorem BuiltTable.mem_iff {syms : List Nat} {len : Sparse (BitVec 5)} (h : BuiltTable syms len) (i : Nat) :
    Sparse.get 0 len i ≠ 0 ↔ i ∈ syms := by
  rw [Sparse.get_ne_iff_mem h.wf, h.keys.mem_iff]

theorem BuiltTable.toNat_get_le {syms : List Nat} {len : Sparse (BitVec 5)} (h : BuiltTable syms len) (i : Nat) :
    (Sparse.get 0 len i).toNat ≤ 16 := by
  rcases Sparse.get_eq_or_mem 0 len i with h0 | hmem
  · rw [h0]; exact Nat.zero_le 16
  · exact h.le _ hmem

theorem BuiltTable.lt_alpha {syms : List Nat} {len : Sparse (BitVec 5)} {alpha : Nat} (h : BuiltTable syms len)
    (ha : ∀ i ∈ syms, i < alpha) : ∀ e ∈ len, e.1 < alpha := fun e he =>
  ha e.1 (h.keys.mem_iff.mp (List.mem_map_of_mem he))

/-- The table passes the check of a received one (R142 (f)). -/
theorem BuiltTable.validLengths {syms : List Nat} {len : Sparse (BitVec 5)} {alpha : Nat} (h : BuiltTable syms len)
    (ha : ∀ i ∈ syms, i < alpha) : validLengths (Sparse.toList 0 len alpha) = true :=
  (validLengths_toList_iff h.wf (h.lt_alpha ha)).mpr ⟨h.le, h.lone, h.kraft⟩

end Sys2Proof.Machine
end

section
/-! PROOFS. The statements of the entropy encoder's family that stand on the lemmas above. -/

open Sys2Proof Sys2Proof.Machine

/-- Settles O30, by the two halves of `zsym`: the direct runs and the octaves above 96. -/
theorem runSymbols : Obligations.RunSymbols := by
  refine ⟨by decide, fun n h1 hn => ⟨fun hd => ⟨zsym_direct hd, zextraLen_zsym_direct hd⟩,
    fun hi => ?_, zsym_le hn, zrunOf_zsym h1⟩⟩
  obtain ⟨hle, hlt⟩ := log2_run_bounds hi
  refine ⟨(n - 96).log2, hle, hlt, zsym_indirect hi, zextraLen_zsym_indirect hi, zextraVal_indirect hi, ?_⟩
  rw [zextraVal_indirect hi]
  rw [Nat.pow_succ] at hlt
  omega

/-- Settles O19: the checks in R131's order, then the context of each case. -/
theorem slotSelResolves : Obligations.SlotSelResolves := by
  intro P s cls ctx x lane
  refine ⟨fun h auto => slotSel_class_out_of_range P s auto ctx x h, fun h => ?_, fun h => ?_, fun h => ?_,
    rfl, rfl, rfl, rfl, rfl, rfl⟩
  · rcases Nat.lt_or_ge 5 cls.toNat with h5 | h5
    · exact slotSel_class_out_of_range P s true ctx x h5
    · exact slotSel_of_slotCtx_raise h5 (slotCtx_auto_no_lane P s ctx x h)
  · have h5 : cls.toNat ≤ 5 := by have := laneCode_le lane; omega
    have hctx := slotCtx_auto_lane P s ctx x h
    refine ⟨fun hr => ?_, fun hr hx => ?_, fun hr hx k hk => ?_⟩
    · exact slotSel_of_slotCtx_raise h5 (hctx.trans (chaosBin_not_ready P lane x hr))
    · exact slotSel_of_slotCtx_raise h5 (hctx.trans (chaosBin_column_out_of_range P lane hr hx))
    · apply slotSel_of_slotCtx h5
      rw [hctx, chaosBin_of_ready P lane hr hx, Cfg.laneLevels_eq, hk]; rfl
  · exact slotSel_of_slotCtx h rfl

/-- Settles O23: Kraft's equality of the Huffman tree makes the canonical code words fit, and none starts another. -/
theorem builtCodeProperties : Obligations.BuiltCodeProperties := by
  refine ⟨fun _ _ _ _ => toNat_get_canonical_of_validLengths, ?_⟩
  rintro hist alpha len code h ha halpha rfl rfl
  have hlt : ∀ e ∈ hist, e.1 < alpha := fun e he => (ha e he).2
  have hsyms : ∀ i ∈ hist.map Prod.fst, i < alpha := List.forall_mem_map.mpr hlt
  have hbuilt := builtTable_buildLengths h hlt halpha
  have hcount : (buildLengths hist alpha).length = hist.length := by simpa using hbuilt.keys.length_eq
  have hfit := LengthsFit.of_validLengths hbuilt.wf (hbuilt.lt_alpha hsyms) (hbuilt.validLengths hsyms)
  have hlisted : ∀ {i}, Sparse.get 0 (buildLengths hist alpha) i ≠ 0 →
      (i, Sparse.get 0 (buildLengths hist alpha) i) ∈ buildLengths hist alpha :=
    fun hi => (Sparse.get_eq_or_mem 0 _ _).resolve_left hi
  refine ⟨fun htwo => hbuilt.kraft (hcount ▸ htwo), fun i hi => ?_, fun i j hi hj hne => ?_, fun i => ?_, ?_,
    hbuilt.toNat_get_le, hbuilt.validLengths hsyms⟩
  · rw [toNat_get_canonical hfit, if_neg hi]
    exact codeOf_lt_two_pow hfit (hlisted hi)
  · rw [toNat_get_canonical hfit, toNat_get_canonical hfit, if_neg hi, if_neg hj]
    exact codeOf_not_isPrefix hfit (hlisted hi) (hlisted hj) hne
  · rw [hbuilt.mem_iff, Sparse.get_ne_iff_mem h]
  · by_contra h0
    obtain ⟨e, he, he0⟩ := List.mem_map.mp ((hbuilt.mem_iff 0).mp h0)
    have := (ha e he).1
    omega

end

section
/-! PROOFS. What the chaos invariant and legal level counts bound: the scores, their sums and the bins
(43_chaos.md R176, R177, R185). -/

namespace Sys2Proof.Machine

open Sys2Proof.Config

/-- A legal lane has between 1 and 32 levels (10_state.md R24). -/
theorem Cfg.laneLevels_bounds {c : Cfg} (h : c.legal = true) (lane : Lane) :
    1 ≤ (c.laneLevels lane).toNat ∧ (c.laneLevels lane).toNat ≤ 32 := by
  simp only [Cfg.legal, Bool.and_eq_true, decide_eq_true_eq] at h
  obtain ⟨⟨⟨⟨⟨⟨⟨⟨-, hYuv⟩, hA⟩, -⟩, -⟩, -⟩, -⟩, -⟩, -⟩ := h
  cases lane with
  | a => exact hA
  | y | u | v => exact hYuv

/-- The class with a lane's number has one context per level of the lane (10_state.md R30, 43_chaos.md R175). -/
theorem Cfg.nctx_laneCode (c : Cfg) (lane : Lane) : c.nctx lane.code.toNat = (c.laneLevels lane).toNat := by
  cases lane <;> rfl

/-- A score of the row buffer is at most 128: it is a listed entry or the default 0. -/
theorem toNat_row_le {s : State} (h : s.work.ch.inv = true) (lane : Lane) (i : Nat) :
    (s.row lane i).toNat ≤ 128 := by
  simp only [Chaos.inv, Bool.and_eq_true, List.all_eq_true, decide_eq_true_eq] at h
  obtain ⟨-, hentries⟩ := h
  unfold State.row
  rcases Sparse.get_eq_or_mem 0 s.work.ch.row (rowIndex lane i) with hdefault | hlisted
  · rw [hdefault]; exact Nat.zero_le 128
  · exact (hentries _ hlisted).2

theorem scoreSum_le {s : State} (h : s.work.ch.inv = true) (lane : Lane) (x : Nat) :
    s.scoreSum lane x ≤ 256 :=
  Nat.add_le_add (toNat_row_le h lane x) (toNat_row_le h lane (x + 1))

/-- A conforming map takes the row of `levels` to bins below `levels`. -/
theorem ChaosMapConforms.lt_levels {m : Nat → Nat → Nat} (h : ChaosMapConforms m) {levels sum : Nat}
    (hpos : 1 ≤ levels) (hmax : levels ≤ 32) (hsum : sum ≤ 256) : m (levels - 1) sum < levels := by
  obtain ⟨hle, -, -⟩ := h
  have hbin : m (levels - 1) sum ≤ levels - 1 := hle _ _ (by omega) hsum
  omega

end Sys2Proof.Machine
end

section
/-! PROOFS. The statement of the chaos unit's family that stands on the lemmas above. -/

open Sys2Proof Sys2Proof.Machine

/-- Settles O35: scores of at most 128 keep the sum in the map's columns, and the map keeps the bin in its row, which
is the context count of the lane's class. -/
theorem chaosBinBelowLevels : Obligations.ChaosBinBelowLevels := by
  intro P s lane cls ctx x hmap hlegal hinv hrdy hx hcls
  obtain ⟨hpos, hmax⟩ := Cfg.laneLevels_bounds hlegal lane
  have hlt := hmap.lt_levels hpos hmax (scoreSum_le hinv lane x.toNat)
  have hbin := chaosBin_of_ready P lane hrdy hx
  refine ⟨_, hbin, hlt, fun hone => by omega, ?_⟩
  have hclass : cls.toNat ≤ 5 := by have := laneCode_le lane; omega
  rw [slotSel_of_slotCtx hclass ((slotCtx_auto_lane P s ctx x hcls).trans hbin), hcls, Cfg.nctx_laneCode,
    if_neg (Nat.not_le.mpr hlt)]

end

section
/-! PROOFS. The filter pair of a pixel as one conditional, and the residual of a pixel undone (45_tile_filter.md R227,
R233 to R236). -/

namespace Sys2Proof.Machine

open Sys2Proof.Config

/-! ### The filter pair of a pixel (R233) -/

theorem Tile.indexAt_eq (t : Tile) (x y : Nat) :
    t.indexAt x y = y / 2 ^ t.b.toNat * t.tx.toNat + x / 2 ^ t.b.toNat := by
  rw [Tile.indexAt, Tile.index, Nat.shiftRight_eq_div_pow, Nat.shiftRight_eq_div_pow]

/-- Both range checks of R233 have this form: two indices, each below its bound. -/
theorem check_below_bind {α : Type} (a b m n : Nat) (c : Cause) (v : α) :
    (check (m ≤ a ∨ n ≤ b) c >>= fun _ => pure v) = if a < m ∧ b < n then .ok v else raise c := by
  by_cases hbelow : a < m ∧ b < n
  · rw [if_pos hbelow, check_false c (by omega), exec_ok_bind, exec_pure]
  · rw [if_neg hbelow, check_true c (by omega), exec_raise_bind]

theorem mapFilters_eq (s : State) (t : Nat) :
    mapFilters s t =
      if (s.work.tile.sfAt t).toNat < s.cfg.nsf.toNat ∧ (s.work.tile.cfAt t).toNat < s.cfg.ncf.toNat then
        .ok ((s.cfg.sfSelAt (s.work.tile.sfAt t).toNat).toNat, (s.cfg.cfSelAt (s.work.tile.cfAt t).toNat).toNat)
      else raise .filterRange := check_below_bind ..

theorem filters_of_pair {P : Params} {s : State} {expl : Bool} {sf cf : Byte} {x y : Nat} {f : Nat × Nat}
    (h : filterPair s expl sf cf (s.work.tile.indexAt x y) = .ok f) :
    filters P s expl sf cf x y = if f.1 < P.sfCount ∧ f.2 < P.cfCount then .ok f else raise .filterRange := by
  rw [filters, h, exec_ok_bind, check_below_bind]

theorem filters_of_pair_raise (P : Params) {s : State} {expl : Bool} {sf cf : Byte} {x y : Nat} {c : Cause}
    (h : filterPair s expl sf cf (s.work.tile.indexAt x y) = raise c) :
    filters P s expl sf cf x y = raise c := by
  rw [filters, h, exec_raise_bind]

/-- The explicit form is checked against the catalogs alone. -/
theorem filters_explicit (P : Params) (s : State) (sf cf : Byte) (x y : Nat) :
    filters P s true sf cf x y =
      if sf.toNat < P.sfCount ∧ cf.toNat < P.cfCount then .ok (sf.toNat, cf.toNat) else raise .filterRange :=
  filters_of_pair (f := (sf.toNat, cf.toNat)) rfl

/-! ### The residual undone (R227, R234 to R236) -/

@[simp] theorem rgbAdd_rgbSub (p q : Rgb) : rgbAdd (rgbSub p q) q = p := by
  simp [rgbAdd, rgbSub]

/-- The word identity behind R236. -/
theorem reconWord_residWord {P : Params} (hP : ColorsConform P) {cfc : Nat} (hcfc : cfc < P.cfCount) (sfc : Nat)
    (n : Nbrs) (p : Word) : reconWord P sfc cfc n (residWord P sfc cfc n p) = p := by
  obtain ⟨-, hinv⟩ := hP
  simp [reconWord, residWord, hinv cfc _ hcfc, sub_sub_cancel]

/-- What a completed `RESID` has read and answered (R234). -/
theorem residBody_ok {P : Params} {expl : Bool} {sf cf : Byte} {y x : BitVec 16} {s t : State} {v : Word}
    (h : residBody P expl sf cf y x s = .ok (t, v)) :
    ∃ f n p, filters P s expl sf cf x.toNat y.toNat = .ok f ∧ neighbours s x.toNat y.toNat = .ok n ∧
      s.pix.readPixel (s.work.tile.offset x.toNat y.toNat) = some p ∧ v = residWord P f.1 f.2 n p ∧
      t = { s with work.tile.res := v } := by
  unfold residBody at h
  obtain ⟨_, -, h⟩ := bind_ok_iff.mp h
  obtain ⟨f, hf, h⟩ := bind_ok_iff.mp h
  obtain ⟨n, hn, h⟩ := bind_ok_iff.mp h
  obtain ⟨p, hp, h⟩ := bind_ok_iff.mp h
  obtain ⟨rfl, rfl⟩ := Prod.mk.inj (Except.ok.inj h)
  exact ⟨f, n, p, hf, hn, readPix_ok_iff.mp hp, rfl, rfl⟩

/-- `RECON` where the pixel, the filter pair and the neighbours are there (R235). -/
theorem reconBody_of {P : Params} {expl : Bool} {sf cf : Byte} {y x : BitVec 16} {s : State} {f : Nat × Nat}
    {n : Nbrs} (hready : pixelReady s x y = .ok ()) (hf : filters P s expl sf cf x.toNat y.toNat = .ok f)
    (hn : neighbours s x.toNat y.toNat = .ok n) :
    reconBody P expl sf cf y x s =
      .ok (s.writePix (s.work.tile.offset x.toNat y.toNat) (reconWord P f.1 f.2 n s.cfg.recIn),
        reconWord P f.1 f.2 n s.cfg.recIn) := by
  simp only [reconBody, hready, hf, hn, exec_ok_bind, exec_pure]

end Sys2Proof.Machine
end

section
/-! PROOFS. The statements of the tile unit's family that stand on the lemmas above. -/

open Sys2Proof Sys2Proof.Machine

/-- Settles O48: the explicit pair meets only the catalogs' bounds; the map's pair meets the map's alphabets first,
and both checks raise the same cause. -/
theorem filtersResolve : Obligations.FiltersResolve := by
  rintro P s sf cf x y i a b hi rfl rfl
  rw [← Tile.indexAt_eq] at hi
  subst hi
  refine ⟨filters_explicit P s sf cf x y, ?_⟩
  have hmap := mapFilters_eq s (s.work.tile.indexAt x y)
  split at hmap
  next hsyms =>
    rw [filters_of_pair (expl := false) (sf := sf) (cf := cf) hmap]
    simp only [hsyms, true_and]
  next hsyms =>
    rw [filters_of_pair_raise P (expl := false) (sf := sf) (cf := cf) hmap, if_neg]
    rintro ⟨hsf, hcf, -⟩
    exact hsyms ⟨hsf, hcf⟩

/-- Settles O51: both sides use one filter pair and one set of neighbours, the color filter is in the catalog
because the pair resolved, and there its inverse undoes it. -/
theorem reconInvertsResid : Obligations.ReconInvertsResid := by
  intro P expl expl' sf cf sf' cf' y x s s' u v hP hresid hready hfilters hnbrs hrec
  obtain ⟨f, n, p, hf, hn, hp, rfl, rfl⟩ := residBody_ok hresid
  obtain ⟨-, hcfc, -⟩ := filters_ok hf
  refine ⟨rfl, p, hp, ?_⟩
  rw [reconBody_of hready (hfilters.trans hf) (hnbrs.trans hn), hrec, reconWord_residWord hP hcfc]

end

section
/-! PROOFS. The word of a command is determined by what it decodes to (30_encoding.md R80 to R93): a word that decodes
is the encoding of its command. -/

namespace Sys2Proof

/-! ### Fields put together again -/

/-- A word is the packing of what its five fields are known to hold. -/
theorem packWord_of_fields {w : CmdWord} {op f cl cx : Byte} {d : Word} (hop : (opOf w).toNat = op.toNat)
    (hf : flagsOf w = f) (hcl : clOf w = cl) (hcx : cxOf w = cx) (hd : dOf w = d) :
    packWord op f cl cx d = w := by
  rw [← BitVec.eq_of_toNat_eq hop, ← hf, ← hcl, ← hcx, ← hd, packWord_fields]

/-- A field is its two parts, split anywhere. -/
theorem extractLsb'_split {n : Nat} (w : BitVec n) (start hi lo : Nat) :
    w.extractLsb' start (hi + lo) = w.extractLsb' (start + lo) hi ++ w.extractLsb' start lo :=
  (BitVec.extractLsb'_append_extractLsb'_eq_extractLsb' rfl).symm

/-- A part of a field is a part of the word. -/
theorem extractLsb'_of_extractLsb' {n : Nat} (w : BitVec n) (start len : Nat) {i m : Nat} (h : i + m ≤ len) :
    (w.extractLsb' start len).extractLsb' i m = w.extractLsb' (start + i) m := by
  apply BitVec.eq_of_getLsbD_eq; intro j hj
  simp [hj, show i + j < len by omega, Nat.add_assoc]

variable {w : CmdWord}

theorem dOf_eq_append (w : CmdWord) : dOf w = dHiOf w ++ dLoOf w := extractLsb'_split w 0 16 16

/-- The address field of `CSRW` and `CSRR` is `CL` above `CX` (R84). -/
theorem clOf_eq_address (w : CmdWord) : clOf w = (w.extractLsb' 32 16).extractLsb' 8 8 :=
  (extractLsb'_of_extractLsb' w 32 16 (i := 8) (m := 8) (by decide)).symm

theorem cxOf_eq_address (w : CmdWord) : cxOf w = (w.extractLsb' 32 16).extractLsb' 0 8 :=
  (extractLsb'_of_extractLsb' w 32 16 (i := 0) (m := 8) (by decide)).symm

/-- The residual of `CHPUT` (R88). -/
theorem dHiOf_eq_residual (h : w.extractLsb' 24 8 = 0) : dHiOf w = 0#8 ++ w.extractLsb' 16 8 := by
  rw [show dHiOf w = _ from extractLsb'_split w 16 8 8, h]; rfl

/-- The lane mask of `CHZERO` (R88). -/
theorem clOf_eq_lanes (h : w.extractLsb' 44 4 = 0) : clOf w = 0#4 ++ w.extractLsb' 40 4 := by
  rw [show clOf w = _ from extractLsb'_split w 40 4 4, h]; rfl

/-- The lane field of `CHGET` and `CHPUT` (R88). -/
theorem clOf_eq_lane (h : w.extractLsb' 42 6 = 0) :
    clOf w = 0#6 ++ (Lane.ofCode (w.extractLsb' 40 2)).code := by
  rw [Lane.code_ofCode, show clOf w = _ from extractLsb'_split w 40 6 2, h]; rfl

/-- The row filter and the plane of `TMRES` and `TMREC` (R90, R107). -/
theorem clOf_eq_plane (h : w.extractLsb' 43 5 = 0) :
    clOf w = 0#5 ++ (RowFilter.ofCode (w.extractLsb' 41 2)).code ++ (Plane.ofCode (w.extractLsb' 40 1)).code := by
  rw [RowFilter.code_ofCode, Plane.code_ofCode, show clOf w = _ from extractLsb'_split w 40 7 1,
    extractLsb'_split w 41 5 2, h]; rfl

/-! ### Formats -/

/-- What is accepted is the command offered, with every reserved field zero (R92). -/
theorem accept_ok_iff {zero : Bool} {i j : Instr} :
    accept zero w i = .ok j ↔ zero = true ∧ i.wf = true ∧ i = j := by
  unfold accept; split <;> simp_all

/-- An accepted command encodes to the word it came from if, with the reserved fields zero, the word's fields are the
ones the encoder writes. -/
theorem encode_of_accept (op : Byte) {f cl cx : Byte} {d : Word} {zero : Bool} {i j : Instr}
    (henc : encode i = packWord op f cl cx d) (hop : (opOf w).toNat = op.toNat)
    (hfields : zero = true → flagsOf w = f ∧ clOf w = cl ∧ cxOf w = cx ∧ dOf w = d)
    (h : accept zero w i = .ok j) : encode j = w := by
  obtain ⟨hzero, -, rfl⟩ := accept_ok_iff.mp h
  obtain ⟨hf, hcl, hcx, hd⟩ := hfields hzero
  exact henc.trans (packWord_of_fields hop hf hcl hcx hd)

theorem encode_of_formZ (op : Byte) {i j : Instr} (henc : encode i = wordZ op)
    (hop : (opOf w).toNat = op.toNat) (h : formZ w i = .ok j) : encode j = w :=
  encode_of_accept op henc hop (by simp +contextual) h

theorem encode_of_formS (op : Byte) {i : Bool → Byte → Byte → BitVec 16 → BitVec 16 → Instr} {j : Instr}
    (henc : ∀ auto cls ctx x sym,
      encode (i auto cls ctx x sym) = packWord op (flagByte autoBit auto) cls ctx (x ++ sym))
    (hop : (opOf w).toNat = op.toNat) (h : formS w i = .ok j) : encode j = w :=
  encode_of_accept op (henc ..) hop (by simp [dOf_eq_append]) h

theorem encode_of_formK (op : Byte) {i : Byte → Byte → Instr} {j : Instr}
    (henc : ∀ cls ctx, encode (i cls ctx) = packWord op 0 cls ctx 0)
    (hop : (opOf w).toNat = op.toNat) (h : formK w i = .ok j) : encode j = w :=
  encode_of_accept op (henc ..) hop (by simp +contextual) h

theorem encode_of_formO (op : Byte) {i : Word → Instr} {j : Instr}
    (henc : ∀ off, encode (i off) = packWord op 0 0 0 off)
    (hop : (opOf w).toNat = op.toNat) (h : formO w i = .ok j) : encode j = w :=
  encode_of_accept op (henc _) hop (by simp +contextual) h

theorem encode_of_formA (op : Byte) {i : Byte → Instr} {j : Instr}
    (henc : ∀ f, encode (i f) = packWord op 0 f 0 0)
    (hop : (opOf w).toNat = op.toNat) (h : formA w i = .ok j) : encode j = w :=
  encode_of_accept op (henc _) hop (by simp +contextual) h

theorem encode_of_formX (op : Byte) {i : Bool → Byte → Byte → BitVec 16 → BitVec 16 → Instr} {j : Instr}
    (henc : ∀ expl sf cf y x,
      encode (i expl sf cf y x) = packWord op (flagByte explBit expl) sf cf (y ++ x))
    (hop : (opOf w).toNat = op.toNat) (h : formX w i = .ok j) : encode j = w :=
  encode_of_accept op (henc ..) hop (by simp [dOf_eq_append]) h

/-! ### The whole map of opcodes (R93) -/

/-- A word that decodes is the word of its command, opcode by opcode: no bit of it is dropped (R92). -/
theorem encode_of_decode {i : Instr} (h : decode w = .ok i) : encode i = w := by
  unfold decode at h
  split at h
  next hop => exact encode_of_formZ 0x00 rfl hop h
  next hop => exact encode_of_formZ 0x01 rfl hop h
  next hop =>
    exact encode_of_accept 0x02 rfl hop (by simp +contextual [clOf_eq_address, cxOf_eq_address]) h
  next hop =>
    exact encode_of_accept 0x03 rfl hop (by simp +contextual [clOf_eq_address, cxOf_eq_address]) h
  next hop => exact encode_of_accept 0x04 rfl hop (by simp +contextual) h
  next hop => exact encode_of_accept 0x05 rfl hop (by simp +contextual) h
  next hop => exact encode_of_accept 0x10 rfl hop (by simp) h
  next hop => exact encode_of_formS 0x11 (fun _ _ _ _ _ => rfl) hop h
  next hop => exact encode_of_formK 0x12 (fun _ _ => rfl) hop h
  next hop => exact encode_of_formK 0x13 (fun _ _ => rfl) hop h
  next hop => exact encode_of_formS 0x14 (fun _ _ _ _ _ => rfl) hop h
  next hop => exact encode_of_formK 0x18 (fun _ _ => rfl) hop h
  next hop =>
    exact encode_of_accept 0x19 rfl hop (by simpa [dOf_eq_append] using fun hf hd => ⟨hf, by rw [hd]⟩) h
  next hop => exact encode_of_formZ 0x20 rfl hop h
  next hop => exact encode_of_accept 0x21 rfl hop (by simp +contextual [dOf_eq_append, clOf_eq_lane]) h
  next hop =>
    exact encode_of_accept 0x22 rfl hop (by simp +contextual [dOf_eq_append, dHiOf_eq_residual, clOf_eq_lane]) h
  next hop => exact encode_of_accept 0x23 rfl hop (by simp +contextual [dOf_eq_append, clOf_eq_lanes]) h
  next hop => exact encode_of_formZ 0x30 rfl hop h
  next hop => exact encode_of_formO 0x31 (fun _ => rfl) hop h
  next hop => exact encode_of_formO 0x32 (fun _ => rfl) hop h
  next hop => exact encode_of_formZ 0x33 rfl hop h
  next hop => exact encode_of_formZ 0x34 rfl hop h
  next hop => exact encode_of_accept 0x35 rfl hop (by simp) h
  next hop => exact encode_of_accept 0x36 rfl hop (by simp +contextual) h
  next hop => exact encode_of_formO 0x37 (fun _ => rfl) hop h
  next hop => exact encode_of_formZ 0x40 rfl hop h
  next hop => exact encode_of_accept 0x41 rfl hop (by simp [dOf_eq_append]) h
  next hop =>
    exact encode_of_accept 0x42 rfl hop (by simpa [dOf_eq_append] using fun hf hcl hcx => ⟨hf, hcl, hcx⟩) h
  next hop => exact encode_of_formX 0x44 (fun _ _ _ _ _ => rfl) hop h
  next hop => exact encode_of_formX 0x45 (fun _ _ _ _ _ => rfl) hop h
  next hop => exact encode_of_formZ 0x46 rfl hop h
  next hop => exact encode_of_formA 0x47 (fun _ => rfl) hop h
  next hop => exact encode_of_formA 0x48 (fun _ => rfl) hop h
  next hop => exact encode_of_accept 0x49 rfl hop (by simp +contextual [dOf_eq_append, clOf_eq_plane]) h
  next hop => exact encode_of_accept 0x4A rfl hop (by simp +contextual [dOf_eq_append, clOf_eq_plane]) h
  next => exact absurd h (by simp)

end Sys2Proof
end

section
/-! PROOFS. What a command that ends normally leaves alone: the pseudocode of a command reaches the registers, the
pixels, the streams and the units, and nothing else (10_state.md R22, 60_exceptions.md R263, R266). -/

namespace Sys2Proof.Machine

open Sys2Proof.Config

/-- `t` is `s` but for the registers `CSRW` writes, the pixels, the streams and the units: the host's queue and
position, the response port, the fault record and the count are as they were. -/
def KeepsControl (s t : State) : Prop :=
  t = { s with cfg := t.cfg, pix := t.pix, bw := t.bw, br := t.br, work := t.work }

theorem KeepsControl.trans {s t u : State} (h : KeepsControl s t) (h' : KeepsControl t u) : KeepsControl s u := by
  unfold KeepsControl at *
  rw [h', h]

theorem KeepsControl.err {s t : State} (h : KeepsControl s t) : t.err = s.err := by
  unfold KeepsControl at h
  rw [h]

/-- Pseudocode that ends normally, if it does, in a state with the control part of `s`. -/
def EndsKeeping (s : State) (b : Exec (State × Word)) : Prop :=
  ∀ t v, b = .ok (t, v) → KeepsControl s t

section
variable {α : Type} {s t : State}

theorem EndsKeeping.ok {v : Word} (h : KeepsControl s t) : EndsKeeping s (.ok (t, v)) := by
  rintro _ _ ⟨⟩
  exact h

theorem EndsKeeping.raised (c : Cause) : EndsKeeping s (raise c) := fun _ _ h => absurd h (raise_ne_ok c _)

/-- Pseudocode in sequence keeps what its second part keeps, whatever value the first part has handed over. -/
theorem EndsKeeping.bind {x : Exec α} {f : α → Exec (State × Word)} (h : ∀ a, x = .ok a → EndsKeeping s (f a)) :
    EndsKeeping s (x >>= f) := by
  intro t v hb
  obtain ⟨a, hx, hf⟩ := bind_ok_iff.mp hb
  exact h a hx t v hf

/-- After a check, which hands over nothing. -/
theorem EndsKeeping.after {x : Exec Unit} {f : Unit → Exec (State × Word)} (h : EndsKeeping s (f ())) :
    EndsKeeping s (x >>= f) := .bind fun _ _ => h

theorem EndsKeeping.ite {p : Prop} [Decidable p] {a b : Exec (State × Word)} (ha : EndsKeeping s a)
    (hb : EndsKeeping s b) : EndsKeeping s (if p then a else b) := by
  split
  · exact ha
  · exact hb

/-! ### The shared operations -/

theorem readBits_keeps {n v : Nat} (h : s.readBits n = .ok (v, t)) : KeepsControl s t := by
  obtain ⟨-, rest, -, rfl⟩ := readBits_ok h
  rfl

theorem foldl_keeps {β : Type} {f : State → β → State} (hf : ∀ s b, KeepsControl s (f s b)) (l : List β) (s : State) :
    KeepsControl s (l.foldl f s) := by
  induction l generalizing s with
  | nil => rfl
  | cons b l ih => exact (hf s b).trans (ih _)

theorem clearSlot_keeps (s : State) (c k : Nat) : KeepsControl s (clearSlot s c k) := rfl

theorem clearAllSlots_keeps (s : State) : KeepsControl s (allSlots.foldl (fun t e => clearSlot t e.1 e.2) s) := by
  apply foldl_keeps
  exact fun t e => clearSlot_keeps t e.1 e.2

theorem zeroLane_keeps (lanes : BitVec 4) (i : Nat) (s : State) (lane : Lane) :
    KeepsControl s (zeroLane lanes i s lane) := by
  unfold zeroLane
  split <;> rfl

theorem coderAdd_keeps {P : Params} {c k sym : Nat} (h : coderAdd P s c k sym = .ok t) : KeepsControl s t := by
  obtain ⟨r, -, rfl⟩ := coderAdd_ok h
  rfl

theorem coderWrite_keeps {c k sym n : Nat} (h : coderWrite s c k sym = .ok (t, n)) : KeepsControl s t := by
  obtain ⟨r, -, rfl, -⟩ := coderWrite_ok h
  rfl

theorem readTable_keeps {P : Params} {alpha : Nat} {lens : List (BitVec 5)}
    (h : readTable P s alpha = .ok (lens, t)) : KeepsControl s t := by
  obtain ⟨rest, -, rfl⟩ := readTable_ok h
  rfl

theorem decodeSym_keeps {v : Slot} {i : Nat} (h : decodeSym s v = .ok (i, t)) : KeepsControl s t := by
  obtain ⟨n, rest, -, rfl⟩ := decodeSym_ok h
  rfl

theorem readRun_keeps {z r : Nat} (h : readRun s z = .ok (r, t)) : KeepsControl s t := by
  obtain ⟨x, hx, -⟩ := readRun_ok h
  exact readBits_keeps hx

theorem readSym_keeps {v : Slot} {x : Nat} {owed : Word} (h : readSym s v = .ok (x, owed, t)) :
    KeepsControl s t := by
  obtain ⟨-, -, -, rfl⟩ | ⟨-, i, u, hu, ⟨-, -, -, rfl⟩ | ⟨-, r, hr, -⟩⟩ := readSym_ok h
  · rfl
  · exact decodeSym_keeps hu
  · exact (decodeSym_keeps hu).trans (readRun_keeps hr)

theorem emitMatch_keeps {P : Params} {cnt : Bool} {ctx : Byte} {m : Match} (h : emitMatch P cnt ctx m s = .ok t) :
    KeepsControl s t := by
  obtain ⟨-, ht⟩ | ⟨-, u, n, hu, rfl⟩ := emitMatch_ok h
  · exact coderAdd_keeps ht
  · exact (coderWrite_keeps hu).trans rfl

theorem readLen_keeps {k n : Nat} (h : readLen k s = .ok (n, t)) : KeepsControl s t := by
  obtain ⟨v, hv, -⟩ := readLen_ok h
  exact readBits_keeps hv

theorem readDist_keeps {n : Nat} (h : readDist s = .ok (n, t)) : KeepsControl s t := by
  obtain ⟨d, u, v, hd, -, hv, -⟩ := readDist_ok h
  exact (readBits_keeps hd).trans (readBits_keeps hv)

end

/-! ### The commands -/

section
variable (s : State)

theorem csrwBody_keeps (a16 : BitVec 16) (value : Word) : EndsKeeping s (csrwBody a16 value s) := by
  unfold csrwBody
  split
  · exact .raised _
  · exact .after (.after (.ok rfl))

theorem csrrBody_keeps (a16 : BitVec 16) : EndsKeeping s (csrrBody a16 s) := by
  unfold csrrBody
  split
  · exact .raised _
  · exact .ok rfl

theorem getbBody_keeps (n : Byte) : EndsKeeping s (getbBody n s) :=
  .after (.bind fun _ h => .ok (readBits_keeps h))

theorem eclrBody_keeps (all : Bool) (cls ctx : Byte) : EndsKeeping s (eclrBody all cls ctx s) := by
  unfold eclrBody
  split
  · exact .ok (clearAllSlots_keeps s)
  · exact .after (.ok (clearSlot_keeps s cls.toNat ctx.toNat))

theorem addBody_keeps (P : Params) (auto : Bool) (cls ctx : Byte) (x sym : BitVec 16) :
    EndsKeeping s (addBody P auto cls ctx x sym s) :=
  .bind fun _ _ => .bind fun _ h => .ok (coderAdd_keeps h)

theorem writeBody_keeps (P : Params) (auto : Bool) (cls ctx : Byte) (x sym : BitVec 16) :
    EndsKeeping s (writeBody P auto cls ctx x sym s) :=
  .bind fun _ _ => .bind fun _ h => .ok (coderWrite_keeps h)

theorem rdtblBody_keeps (P : Params) (cls ctx : Byte) : EndsKeeping s (rdtblBody P cls ctx s) :=
  .bind fun _ _ => .bind fun _ h => .after (.ok ((readTable_keeps h).trans rfl))

theorem readBody_keeps (P : Params) (auto : Bool) (cls ctx : Byte) (x : BitVec 16) :
    EndsKeeping s (readBody P auto cls ctx x s) :=
  .bind fun _ _ => .after (.bind fun _ h => .ok ((readSym_keeps h).trans rfl))

theorem chzeroBody_keeps (lanes : BitVec 4) (x : BitVec 16) : EndsKeeping s (chzeroBody lanes x s) :=
  .after (.ok (foldl_keeps (zeroLane_keeps lanes _) _ s))

theorem lzfindBody_keeps (P : Params) (off : Word) : EndsKeeping s (lzfindBody P off s) := by
  refine .after (.after (.after (.ite (.ok rfl) (.bind fun _ _ => .bind fun best _ => ?_))))
  cases best with
  | none => exact .ok rfl
  | some m => exact .bind fun _ _ => .ok rfl

theorem lzemitBody_keeps (P : Params) (cnt : Bool) (ctx : Byte) (off : Word) :
    EndsKeeping s (lzemitBody P cnt ctx off s) := by
  refine .after ?_
  split
  · exact .raised _
  · exact .after (.after (.bind fun _ h => .ok ((emitMatch_keeps h).trans rfl)))

theorem lzreadBody_keeps (k : Byte) (off : Word) : EndsKeeping s (lzreadBody k off s) :=
  .after (.after (.after (.after (.bind fun _ hlen => .bind fun _ hdist =>
    .after (.after (.ok (((readLen_keeps hlen).trans (readDist_keeps hdist)).trans rfl)))))))

/-- No command's pseudocode reaches the control part of the state. -/
theorem bodyOf_keeps {i : Instr} (hi : i ≠ .sreset) : EndsKeeping s (bodyOf i s) := by
  cases i with
  | sreset => exact absurd rfl hi
  | nop | chinit | lzinit | tsclr => exact .ok rfl
  | csrw a16 value => exact csrwBody_keeps s a16 value
  | csrr a16 => exact csrrBody_keeps s a16
  | getb n => exact getbBody_keeps s n
  | eclr all cls ctx => exact eclrBody_keeps s all cls ctx
  | add auto cls ctx x sym => exact addBody_keeps s params auto cls ctx x sym
  | final cls ctx => exact .bind fun _ _ => .bind fun _ _ => .ok rfl
  | wrtbl cls ctx => exact .bind fun _ _ => .after (.ok rfl)
  | write auto cls ctx x sym => exact writeBody_keeps s params auto cls ctx x sym
  | rdtbl cls ctx => exact rdtblBody_keeps s params cls ctx
  | read auto cls ctx x => exact readBody_keeps s params auto cls ctx x
  | putb | chput | lzrew | tinit | tsacc | tsbest => exact .after (.ok rfl)
  | chget lane x => exact .bind fun _ _ => .ok rfl
  | chzero lanes x => exact chzeroBody_keeps s lanes x
  | lzins off => exact .after (.ite (.ok rfl) (.bind fun _ _ => .ok rfl))
  | lzfind off => exact lzfindBody_keeps s params off
  | lzflush => exact .after (.bind fun _ _ => .ok rfl)
  | lzemit cnt ctx off => exact lzemitBody_keeps s params cnt ctx off
  | lzread k off => exact lzreadBody_keeps s k off
  | lzstep off => exact .after (.after (.after (.bind fun _ _ => .ok rfl)))
  | tset sf cf ty tx => exact .after (.after (.after (.ok rfl)))
  | tsel msk y x => exact .after (.ite (.ok rfl) (.after (.ok rfl)))
  | resid expl sf cf y x => exact .after (.bind fun _ _ => .bind fun _ _ => .bind fun _ _ => .ok rfl)
  | recon expl sf cf y x => exact .after (.bind fun _ _ => .bind fun _ _ => .ok rfl)
  | tmres rf plane ty tx => exact .after (.ite (.ok rfl) (.after (.ok rfl)))
  | tmrec rf plane r ty tx => exact .after (.after (.after (.ok rfl)))

end

end Sys2Proof.Machine
end

section
/-! PROOFS. What a step can do at the entry of the fault state and inside it (60_exceptions.md R263, R266, R267). -/

namespace Sys2Proof.Machine

/-! ### Entering the fault state (R263) -/

/-- The fault entry makes the record R263 asks for. -/
theorem faultEntry_takeFault (w : CmdWord) (c : Cause) (r : Reach) (s : State) :
    FaultEntry w c s (takeFault w c r s) :=
  { err := rfl, errCause := rfl, errCmdHi := rfl, errCmdLo := rfl, rsp := rfl, cmdcnt := rfl, cfg := rfl,
    inbox := rfl, hostPos := rfl }

/-- A command that enters the fault state does so by the fault entry for its own word: a command that ends normally
leaves `ERR` as it was. -/
theorem faultEntry_of_exec {i : Instr} {s t : State} (hs : s.err = false) (h : exec i s = .next t)
    (ht : t.err = true) : ∃ c, FaultEntry (encode i) c s t := by
  obtain ⟨-, rfl⟩ | ⟨hs', -⟩ | ⟨-, hi, ⟨u, v, hbody, rfl⟩ | ⟨c, -, rfl⟩⟩ := exec_next h
  · simp at ht
  · simp [hs] at hs'
  · have hu : u.err = s.err := (bodyOf_keeps s hi u v hbody).err
    simp [hu, hs] at ht
  · exact ⟨c, faultEntry_takeFault ..⟩

/-- A command word that enters the fault state is itself the recorded word, whether it decodes or is rejected. -/
theorem faultEntry_of_runWord {w : CmdWord} {s t : State} (hs : s.err = false) (h : runWord w s = .next t)
    (ht : t.err = true) : ∃ c, FaultEntry w c s t := by
  obtain ⟨i, hdec, hexec⟩ | ⟨-, ⟨hs', -⟩ | ⟨-, rfl⟩⟩ := runWord_next h
  · rw [← encode_of_decode hdec]
    exact faultEntry_of_exec hs hexec ht
  · simp [hs] at hs'
  · exact ⟨.illegalCmd, faultEntry_takeFault ..⟩

/-! ### Inside the fault state (R266, R267) -/

/-- `t` is `s` but for what stands at the block's ports: the fault record, the count, the registers and the units are
as they were. -/
def KeepsBlock (s t : State) : Prop :=
  t = { s with inbox := t.inbox, hostPos := t.hostPos, rsp := t.rsp, pix := t.pix, bw := t.bw, br := t.br }

theorem csrrInFault_keepsBlock (a : BitVec 16) (s : State) : KeepsBlock s (csrrInFault a s) := by
  unfold csrrInFault
  split <;> rfl

/-- In the fault state a command resets the block or changes only the ports. -/
theorem exec_in_fault {i : Instr} {s t : State} (hs : s.err = true) (h : exec i s = .next t) :
    (i = .sreset ∧ t.err = false) ∨ KeepsBlock s t := by
  obtain ⟨hi, rfl⟩ | ⟨-, ⟨a, -, rfl⟩ | rfl⟩ | ⟨hs', -⟩ := exec_next h
  · exact .inl ⟨hi, rfl⟩
  · exact .inr (csrrInFault_keepsBlock a s)
  · exact .inr rfl
  · simp [hs] at hs'

/-- In the fault state a command word resets the block, and is then the word of `SRESET`, or changes only the
ports. -/
theorem runWord_in_fault {w : CmdWord} {s t : State} (hs : s.err = true) (h : runWord w s = .next t) :
    (w = encode .sreset ∧ t.err = false) ∨ KeepsBlock s t := by
  obtain ⟨i, hdec, hexec⟩ | ⟨-, ⟨-, rfl⟩ | ⟨hs', -⟩⟩ := runWord_next h
  · obtain ⟨rfl, ht⟩ | hkeep := exec_in_fault hs hexec
    · exact .inl ⟨(encode_of_decode hdec).symm, ht⟩
    · exact .inr hkeep
  · exact .inr rfl
  · simp [hs] at hs'

/-- In the fault state a step is one of the two resets, or changes only the ports. -/
theorem step_in_fault {s t : State} (hs : s.err = true) (h : step s = .next t) :
    (t.err = false ∧ ∃ rest, s.inbox = .hardReset :: rest ∨ s.inbox = .command (encode .sreset) :: rest) ∨
      KeepsBlock s t := by
  obtain ⟨-, rfl⟩ | ⟨e, rest, hin, h⟩ := step_next h
  · exact .inr rfl
  cases e with
  | command w =>
    obtain ⟨rfl, ht⟩ | hkeep := runWord_in_fault (s := s.taken rest) hs h
    · exact .inl ⟨ht, rest, .inr hin⟩
    · exact .inr hkeep
  | writePixel | newInput | newOutput => cases h; exact .inr rfl
  | hardReset => cases h; exact .inl ⟨rfl, rest, .inl hin⟩

end Sys2Proof.Machine
end

section
/-! PROOFS. The statements of the family of faults and reset that stand on the lemmas above. -/

open Sys2Proof Sys2Proof.Machine

/-- Settles O6: the word taken from the port ends in the fault entry, which records that very word because a word that
decodes is the encoding of its command. -/
theorem faultEntryRecords : Obligations.FaultEntryRecords := by
  intro s t w rest hin hs hstep ht
  rw [step_cons hin] at hstep
  exact ⟨faultEntry_of_runWord (s := s.taken rest) hs hstep ht, ht⟩

/-- Settles O10: of the host's events and the commands, all but the two resets reach only the ports in the fault
state. -/
theorem onlyResetLeavesFaultState : Obligations.OnlyResetLeavesFaultState := by
  intro s t hs hstep
  obtain hreset | hkeep := step_in_fault hs hstep
  · exact .inl hreset
  · unfold KeepsBlock at hkeep
    rw [hkeep]
    exact .inr ⟨hs, rfl, rfl, rfl, rfl, rfl, rfl⟩

end

section
/-! PROOFS. The word of a well-formed command decodes to it, opcode by opcode (30_encoding.md R80 to R93), and what a
word that decodes or is rejected tells. -/

namespace Sys2Proof

/-! ### Parts of a packed word -/

theorem extractLsb'_append_high {m n : Nat} (x : BitVec m) (y : BitVec n) : (x ++ y).extractLsb' n m = x := by
  apply BitVec.eq_of_getLsbD_eq; intro i hi
  simp [BitVec.getLsbD_append, hi]

theorem extractLsb'_append_low {m n : Nat} (x : BitVec m) (y : BitVec n) : (x ++ y).extractLsb' 0 n = y := by
  apply BitVec.eq_of_getLsbD_eq; intro i hi
  simp [BitVec.getLsbD_append, hi]

theorem extract_of_clOf (w : CmdWord) {i m : Nat} (h : i + m ≤ 8) :
    w.extractLsb' (40 + i) m = (clOf w).extractLsb' i m := (extractLsb'_of_extractLsb' w 40 8 h).symm

theorem extract_of_dHiOf (w : CmdWord) {i m : Nat} (h : i + m ≤ 16) :
    w.extractLsb' (16 + i) m = (dHiOf w).extractLsb' i m := (extractLsb'_of_extractLsb' w 16 16 h).symm

variable (op f cl cx : Byte) (d : Word)

/-- The address field of `CSRW` and `CSRR` is what the encoder split into two bytes (R84). -/
theorem address_packWord (a : BitVec 16) :
    (packWord op f (a.extractLsb' 8 8) (a.extractLsb' 0 8) d).extractLsb' 32 16 = a := by
  rw [show (packWord op f (a.extractLsb' 8 8) (a.extractLsb' 0 8) d).extractLsb' 32 16 = clOf _ ++ cxOf _ from
    extractLsb'_split _ 32 8 8, clOf_packWord, cxOf_packWord]
  exact (extractLsb'_split a 0 8 8).symm.trans (BitVec.extractLsb'_eq_self)

/-- The lane field of `CHGET` and `CHPUT`, and the zero bits above it (R88). -/
theorem lane_packWord (l : Lane) :
    (packWord op f (0#6 ++ l.code) cx d).extractLsb' 42 6 = 0 ∧
      (packWord op f (0#6 ++ l.code) cx d).extractLsb' 40 2 = l.code := by
  constructor
  · rw [extract_of_clOf _ (i := 2) (m := 6) (by decide), clOf_packWord, extractLsb'_append_high]; rfl
  · rw [extract_of_clOf _ (i := 0) (m := 2) (by decide), clOf_packWord, extractLsb'_append_low]

/-- The lane mask of `CHZERO`, and the zero bits above it (R88). -/
theorem lanes_packWord (m : BitVec 4) :
    (packWord op f (0#4 ++ m) cx d).extractLsb' 44 4 = 0 ∧
      (packWord op f (0#4 ++ m) cx d).extractLsb' 40 4 = m := by
  constructor
  · rw [extract_of_clOf _ (i := 4) (m := 4) (by decide), clOf_packWord, extractLsb'_append_high]; rfl
  · rw [extract_of_clOf _ (i := 0) (m := 4) (by decide), clOf_packWord, extractLsb'_append_low]

/-- The row filter and the plane of `TMRES` and `TMREC`, and the zero bits above them (R90). -/
theorem plane_packWord (rf : RowFilter) (p : Plane) :
    (packWord op f (0#5 ++ rf.code ++ p.code) cx d).extractLsb' 43 5 = 0 ∧
      (packWord op f (0#5 ++ rf.code ++ p.code) cx d).extractLsb' 41 2 = rf.code ∧
      (packWord op f (0#5 ++ rf.code ++ p.code) cx d).extractLsb' 40 1 = p.code := by
  rw [extract_of_clOf _ (i := 3) (m := 5) (by decide), extract_of_clOf _ (i := 1) (m := 2) (by decide),
    extract_of_clOf _ (i := 0) (m := 1) (by decide), clOf_packWord]
  cases rf <;> cases p <;> decide

/-- The residual of `CHPUT`, and the zero bits above it (R88). -/
theorem residual_packWord (r : Byte) (x : BitVec 16) :
    (packWord op f cl cx (0#8 ++ r ++ x)).extractLsb' 24 8 = 0 ∧
      (packWord op f cl cx (0#8 ++ r ++ x)).extractLsb' 16 8 = r ∧
      dLoOf (packWord op f cl cx (0#8 ++ r ++ x)) = x := by
  have hhi : dHiOf (packWord op f cl cx (0#8 ++ r ++ x)) = 0#8 ++ r := dHiOf_packWord ..
  refine ⟨?_, ?_, dLoOf_packWord ..⟩
  · rw [extract_of_dHiOf _ (i := 8) (m := 8) (by decide), hhi, extractLsb'_append_high]; rfl
  · rw [extract_of_dHiOf _ (i := 0) (m := 8) (by decide), hhi, extractLsb'_append_low]

/-! ### The decoder on what the encoder writes -/

theorem accept_of {zero : Bool} {w : CmdWord} {i j : Instr} (hwf : j.wf = true) (hzero : zero = true) (hi : i = j) :
    accept zero w i = .ok j := accept_ok_iff.mpr ⟨hzero, hi ▸ hwf, hi⟩

theorem formZ_wordZ {i : Instr} (hwf : i.wf = true) : formZ (wordZ op) i = .ok i :=
  accept_of hwf (by simp [wordZ]) rfl

theorem formS_packWord {i : Bool → Byte → Byte → BitVec 16 → BitVec 16 → Instr} {auto : Bool} {cls ctx : Byte}
    {x sym : BitVec 16} (hwf : (i auto cls ctx x sym).wf = true) :
    formS (packWord op (flagByte autoBit auto) cls ctx (x ++ sym)) i = .ok (i auto cls ctx x sym) := by
  have hflag := flagByte_getLsbD autoBit auto (by decide)
  exact accept_of hwf (by simp [hflag]) (by simp [hflag])

theorem formK_packWord {i : Byte → Byte → Instr} {cls ctx : Byte} (hwf : (i cls ctx).wf = true) :
    formK (packWord op 0 cls ctx 0) i = .ok (i cls ctx) :=
  accept_of hwf (by simp) (by simp)

theorem formO_packWord {i : Word → Instr} {off : Word} (hwf : (i off).wf = true) :
    formO (packWord op 0 0 0 off) i = .ok (i off) :=
  accept_of hwf (by simp) (by simp)

theorem formA_packWord {i : Byte → Instr} {n : Byte} (hwf : (i n).wf = true) :
    formA (packWord op 0 n 0 0) i = .ok (i n) :=
  accept_of hwf (by simp) (by simp)

theorem formX_packWord {i : Bool → Byte → Byte → BitVec 16 → BitVec 16 → Instr} {expl : Bool} {sf cf : Byte}
    {y x : BitVec 16} (hwf : (i expl sf cf y x).wf = true) :
    formX (packWord op (flagByte explBit expl) sf cf (y ++ x)) i = .ok (i expl sf cf y x) := by
  have hflag := flagByte_getLsbD explBit expl (by decide)
  exact accept_of hwf (by simp [hflag]) (by simp [hflag])

/-- The encoder's word of a well-formed command decodes to it, command by command (R93). -/
theorem decode_encode {i : Instr} (hwf : i.wf = true) : decode (encode i) = .ok i := by
  cases i with
  | nop | sreset | chinit | lzinit | lzflush | lzrew | tinit | tsclr =>
    simp only [encode, wordZ, decode, opOf_packWord]
    exact formZ_wordZ _ hwf
  | csrw a16 value | csrr a16 =>
    simp only [encode, decode, opOf_packWord]
    exact accept_of hwf (by simp) (by simp [address_packWord])
  | putb n value | getb n | lzread k off | tset sf cf ty tx =>
    simp only [encode, decode, opOf_packWord]
    exact accept_of hwf (by simp) (by simp)
  | add auto cls ctx x sym | write auto cls ctx x sym =>
    simp only [encode, decode, opOf_packWord]
    exact formS_packWord _ hwf
  | final cls ctx | wrtbl cls ctx | rdtbl cls ctx =>
    simp only [encode, decode, opOf_packWord]
    exact formK_packWord _ hwf
  | lzins off | lzfind off | lzstep off =>
    simp only [encode, decode, opOf_packWord]
    exact formO_packWord _ hwf
  | tsacc f | tsbest n =>
    simp only [encode, decode, opOf_packWord]
    exact formA_packWord _ hwf
  | resid expl sf cf y x | recon expl sf cf y x =>
    simp only [encode, decode, opOf_packWord]
    exact formX_packWord _ hwf
  | eclr all cls ctx =>
    have hflag := flagByte_getLsbD allBit all (by decide)
    simp only [encode, decode, opOf_packWord]
    exact accept_of hwf (by simp [hflag]) (by simp [hflag])
  | read auto cls ctx x =>
    have hflag := flagByte_getLsbD autoBit auto (by decide)
    simp only [encode, decode, opOf_packWord]
    exact accept_of hwf (by simp [hflag]) (by simp [hflag])
  | lzemit cnt ctx off =>
    have hflag := flagByte_getLsbD cntBit cnt (by decide)
    simp only [encode, decode, opOf_packWord]
    exact accept_of hwf (by simp [hflag]) (by simp [hflag])
  | tsel msk y x =>
    have hflag := flagByte_getLsbD mskBit msk (by decide)
    simp only [encode, decode, opOf_packWord]
    exact accept_of hwf (by simp [hflag]) (by simp [hflag])
  | chget lane x =>
    simp only [encode, decode, opOf_packWord]
    exact accept_of hwf (by simp [lane_packWord]) (by simp [lane_packWord])
  | chput lane r x =>
    simp only [encode, decode, opOf_packWord]
    exact accept_of hwf (by simp [lane_packWord, residual_packWord]) (by simp [lane_packWord, residual_packWord])
  | chzero lanes x =>
    simp only [encode, decode, opOf_packWord]
    exact accept_of hwf (by simp [lanes_packWord]) (by simp [lanes_packWord])
  | tmres rf plane ty tx | tmrec rf plane r ty tx =>
    simp only [encode, decode, opOf_packWord]
    exact accept_of hwf (by simp [plane_packWord]) (by simp [plane_packWord])

/-! ### What the decoder produces and what it rejects (R92) -/

theorem wf_of_accept {zero : Bool} {w : CmdWord} {i j : Instr} (h : accept zero w i = .ok j) : j.wf = true := by
  obtain ⟨-, hwf, rfl⟩ := accept_ok_iff.mp h
  exact hwf

/-- Every arm of the decoder ends in `accept`, so what it produces is well formed. -/
theorem wf_of_decode {w : CmdWord} {i : Instr} (h : decode w = .ok i) : i.wf = true := by
  unfold decode at h
  split at h <;> first | exact wf_of_accept h | cases h

theorem decode_ok_iff {w : CmdWord} {i : Instr} : decode w = .ok i ↔ i.wf = true ∧ w = encode i :=
  ⟨fun h => ⟨wf_of_decode h, (encode_of_decode h).symm⟩, fun ⟨hwf, hw⟩ => hw ▸ decode_encode hwf⟩

theorem accept_ne_undefined {zero : Bool} {w : CmdWord} {i : Instr} (o : Byte) :
    accept zero w i ≠ .error (.undefinedOpcode o) := by
  unfold accept
  split <;> simp

/-- The opcodes outside the map of R93 are exactly those rejected as undefined. -/
theorem decode_undefined_iff (w : CmdWord) :
    (opOf w).toNat ∉ Machine.definedOpcodes ↔ decode w = .error (.undefinedOpcode (opOf w)) := by
  unfold decode
  split
  case h_36 =>
    refine iff_of_true ?_ rfl
    simp only [Machine.definedOpcodes, List.mem_cons, List.not_mem_nil, or_false, not_or]
    and_intros <;> assumption
  all_goals
    refine iff_of_false ?_ (accept_ne_undefined _)
    simp [Machine.definedOpcodes, *]

end Sys2Proof
end

section
/-! PROOFS. The statements of the encoding's family. -/

open Sys2Proof

/-- Settles O2, command by command: each format's fields come back from the packed word. -/
theorem decodeEncode : Obligations.DecodeEncode := fun _ hwf => decode_encode hwf

/-- Settles O3: the decoder accepts only well-formed commands, and drops no bit of their word. -/
theorem encodeDecode : Obligations.EncodeDecode := fun _ _ h => ⟨wf_of_decode h, encode_of_decode h⟩

/-- Settles O1: each word is the encoder's word of its command. -/
theorem specWordsDecode : Obligations.SpecWordsDecode := by
  refine ⟨?_, ?_, ?_, ?_, ?_, ?_, ?_, ?_, ?_, ?_⟩ <;> exact decode_ok_iff.mpr ⟨rfl, rfl⟩

end

section
/-! PROOFS. What every command has in common: how its pseudocode's outcome becomes the command's, the causes it can
raise (60_exceptions.md R263), and the parts of the state it can reach. -/

namespace Sys2Proof.Machine

open Sys2Proof.Config

/-! ### From pseudocode to command -/

/-- Outside the fault state, pseudocode that ends normally completes the command. -/
theorem exec_of_body {i : Instr} {s t : State} {v : Word} (hi : i ≠ .sreset) (hs : s.err = false)
    (h : bodyOf i s = .ok (t, v)) : exec i s = .next (t.complete v) := by
  rw [exec_of_ok i hi hs, h, conclude_ok]

/-- Outside the fault state, a raised cause is the command's fault. -/
theorem faults_of_body {i : Instr} {s : State} {c : Cause} (hi : i ≠ .sreset) (hs : s.err = false)
    (h : bodyOf i s = raise c) : Faults i s c :=
  ⟨_, by rw [exec_of_ok i hi hs, h, conclude_raise], faultEntry_takeFault ..⟩

/-- Outside the fault state, the model's own fault in the pseudocode stops the command. -/
theorem exec_of_model_fault {i : Instr} {s : State} {f : Fault} (hi : i ≠ .sreset) (hs : s.err = false)
    (h : bodyOf i s = .error (.model f)) : exec i s = .fault f := by
  rw [exec_of_ok i hi hs, h, conclude_model]

theorem keepsOutside_complete {s t : State} (v : Word) (h : KeepsControl s t) (hpix : t.pix = s.pix)
    (hbw : t.bw = s.bw) (hbr : t.br = s.br) : KeepsOutside s (t.complete v) := by
  unfold KeepsControl at h
  refine ⟨?_, ?_, hpix, hbw, hbr, ?_, ?_, ?_, ?_, ?_⟩ <;> simp only [State.complete_inbox,
    State.complete_hostPos, State.complete_faultNo, State.complete_err, State.complete_errCause,
    State.complete_errCmdHi, State.complete_errCmdLo] <;> rw [h]

/-! ### The causes of a command (R263) -/

/-- Pseudocode that raises no cause but those listed. -/
structure RaisesIn {α : Type} (cs : List Cause) (x : Exec α) : Prop where
  mem : ∀ c, x = raise c → c ∈ cs

section
variable {α β : Type} {cs : List Cause}

theorem RaisesIn.ok (a : α) : RaisesIn cs (Except.ok a : Exec α) :=
  ⟨fun _ h => absurd h.symm (raise_ne_ok _ a)⟩

theorem RaisesIn.model (f : Fault) : RaisesIn cs (Except.error (.model f) : Exec α) := by
  constructor
  rintro c ⟨⟩

theorem RaisesIn.raised {c : Cause} (h : c ∈ cs) : RaisesIn cs (raise c : Exec α) := by
  constructor
  rintro c' ⟨⟩
  exact h

theorem RaisesIn.check {p : Prop} [Decidable p] {c : Cause} (h : c ∈ cs) : RaisesIn cs (check p c) := by
  refine ⟨fun c' hc => ?_⟩
  obtain ⟨-, hstop⟩ := check_error_iff.mp hc
  exact (Stop.raise.inj hstop) ▸ h

theorem RaisesIn.bind {x : Exec α} {f : α → Exec β} (hx : RaisesIn cs x) (hf : ∀ a, RaisesIn cs (f a)) :
    RaisesIn cs (x >>= f) := by
  refine ⟨fun c h => ?_⟩
  obtain h | ⟨a, -, h⟩ := bind_error_iff.mp h
  · exact hx.mem c h
  · exact (hf a).mem c h

/-- A check in front of pseudocode. -/
theorem RaisesIn.checked {p : Prop} [Decidable p] {c : Cause} {f : Unit → Exec β} (h : c ∈ cs)
    (hf : RaisesIn cs (f ())) : RaisesIn cs (Machine.check p c >>= f) := (RaisesIn.check h).bind fun _ => hf

theorem RaisesIn.ite {p : Prop} [Decidable p] {a b : Exec α} (ha : RaisesIn cs a) (hb : RaisesIn cs b) :
    RaisesIn cs (if p then a else b) := by
  split
  · exact ha
  · exact hb

theorem RaisesIn.mono {cs' : List Cause} {x : Exec α} (h : RaisesIn cs x) (hsub : cs ⊆ cs') : RaisesIn cs' x :=
  ⟨fun c hc => hsub (h.mem c hc)⟩

end

section
variable (P : Params) (s : State)

theorem readBits_raises (n : Nat) : RaisesIn [.truncated] (s.readBits n) := by
  rw [readBits_eq]
  exact .ite (.ok _) (.raised (by decide))

theorem readPix_raises (off : Nat) : RaisesIn [] (s.readPix off) := by
  unfold State.readPix
  split
  · exact .ok _
  · exact .model _

theorem rgbAt_raises (p : Prop) [Decidable p] (off : Nat) (o : Rgb) : RaisesIn [] (s.rgbAt p off o) :=
  .ite ((readPix_raises s off).bind fun _ => .ok _) (.ok _)

theorem neighbours_raises (x y : Nat) : RaisesIn [] (neighbours s x y) :=
  (rgbAt_raises ..).bind fun _ => (rgbAt_raises ..).bind fun _ => (rgbAt_raises ..).bind fun _ =>
    (rgbAt_raises ..).bind fun _ => .ok _

theorem hashAt_raises (off : Nat) : RaisesIn [] (hashAt P s off) :=
  (readPix_raises ..).bind fun _ => (readPix_raises ..).bind fun _ => .ok _

theorem matchLen_raises (c off lim i : Nat) : RaisesIn [] (matchLen s c off lim i) := by
  induction lim generalizing i with
  | zero => exact .ok _
  | succ lim ih =>
    exact (readPix_raises ..).bind fun _ => (readPix_raises ..).bind fun _ =>
      .ite ((ih (i + 1)).bind fun _ => .ok _) (.ok _)

theorem walk_raises (off steps : Nat) (c : Word) (best : Option Cand) : RaisesIn [] (walk s off steps c best) := by
  induction steps generalizing c best with
  | zero => exact .ok _
  | succ steps ih => exact .ite (.ok _) ((matchLen_raises ..).bind fun _ => .ite (.ok _) (ih ..))

theorem chaosReady_raises (x : BitVec 16) : RaisesIn [.sequence, .policy] (chaosReady s x) :=
  .checked (by decide) (.check (by decide))

theorem chaosBin_raises (lane : Lane) (x : BitVec 16) : RaisesIn [.sequence, .policy] (chaosBin P s lane x) :=
  (chaosReady_raises s x).bind fun _ => .ok _

theorem slotSel_raises (auto : Bool) (cls ctx : Byte) (x : BitVec 16) :
    RaisesIn [.sequence, .policy] (slotSel P s auto cls ctx x) :=
  .checked (by decide) (.bind (.ite (.checked (by decide) (chaosBin_raises ..)) (.ok _)) fun _ =>
    .checked (by decide) (.ok _))

/-- Without `AUTO` the chaos unit is not asked, so only the ranges are checked. -/
theorem slotSel_raises_explicit (cls ctx : Byte) (x : BitVec 16) :
    RaisesIn [.policy] (slotSel P s false cls ctx x) :=
  .checked (by decide) (.bind (.ok _) fun _ => .checked (by decide) (.ok _))

theorem flushIf_raises (p : Prop) [Decidable p] (v : Slot) : RaisesIn [.resource] (flushIf P p v) :=
  .ite (.checked (by decide) (.ok _)) (.ok _)

theorem slotAdd_raises (v : Slot) (sym : Nat) : RaisesIn [.sequence, .policy, .resource] (slotAdd P v sym) :=
  .checked (by decide) (.checked (by decide)
    (.ite (((flushIf_raises ..).mono (by decide)).bind fun _ => .ok _)
      (((flushIf_raises ..).mono (by decide)).bind fun _ => .ok _)))

theorem coderAdd_raises (c k sym : Nat) : RaisesIn [.sequence, .policy, .resource] (coderAdd P s c k sym) :=
  (slotAdd_raises ..).bind fun _ => .ok _

theorem slotFinal_raises (v : Slot) : RaisesIn [.sequence, .resource] (slotFinal P v) :=
  .checked (by decide) (((flushIf_raises ..).mono (by decide)).bind fun _ => .ok _)

theorem slotWriteSym_raises (v : Slot) (sym : Nat) : RaisesIn [.sequence] (slotWriteSym v sym) := by
  refine .ite (.ite (.ok _) ?_) (.checked (by decide) (.checked (by decide) (.ok _)))
  unfold slotWriteRun
  split
  · exact .raised (by decide)
  · exact .checked (by decide) (.ok _)

theorem coderWrite_raises (c k sym : Nat) : RaisesIn [.sequence, .policy] (coderWrite s c k sym) :=
  .bind (.checked (by decide) (.checked (by decide)
    (((slotWriteSym_raises ..).mono (by decide)).bind fun _ => .ok _))) fun _ => .ok _

theorem readTable_raises (alpha : Nat) : RaisesIn [.truncated, .badCodelen] (readTable P s alpha) := by
  unfold readTable
  split
  · exact .ok _
  · rename_i e _
    cases e <;> exact .raised (by decide)

theorem decodeLoop_raises (v : Slot) (fuel l code : Nat) (bs : List Bool) :
    RaisesIn [.truncated, .badSymbol] (decodeLoop v fuel l code bs) := by
  induction fuel generalizing l code bs with
  | zero => exact .raised (by decide)
  | succ fuel ih =>
    cases bs with
    | nil => exact .raised (by decide)
    | cons b bs =>
      rw [decodeLoop]
      split
      · exact .ok _
      · exact ih ..

theorem readSym_raises (v : Slot) : RaisesIn [.truncated, .badSymbol] (readSym s v) :=
  .ite (.ok _) (.bind (.bind (decodeLoop_raises ..) fun _ => .ok _) fun _ =>
    .ite (.ok _) (.bind (.bind ((readBits_raises ..).mono (by decide)) fun _ => .checked (by decide) (.ok _))
      fun _ => .ok _))

theorem tileReady_raises (tx ty : BitVec 16) : RaisesIn [.sequence, .policy] (tileReady s tx ty) :=
  .checked (by decide) (.check (by decide))

theorem pixelReady_raises (x y : BitVec 16) : RaisesIn [.sequence, .policy] (pixelReady s x y) :=
  .checked (by decide) (.check (by decide))

theorem filters_raises (expl : Bool) (sf cf : Byte) (x y : Nat) :
    RaisesIn [.filterRange] (filters P s expl sf cf x y) :=
  .bind (.ite (.ok _) (.checked (by decide) (.ok _))) fun _ => .checked (by decide) (.ok _)

theorem lzCommit_raises (z : Lz) : RaisesIn [.resource] (lzCommit P z) := .checked (by decide) (.ok _)

theorem settle_raises (z : Lz) (m : Cand) : RaisesIn [.resource] (settle P z m) :=
  .ite (.ok _) (.ite (.ok _) ((lzCommit_raises ..).bind fun _ => .ok _))

theorem lzfindBody_raises (off : Word) : RaisesIn [.sequence, .policy, .resource] (lzfindBody P off s) := by
  refine .checked (by decide) (.checked (by decide) (.checked (by decide) (.ite (.ok _)
    (((hashAt_raises ..).mono (by decide)).bind fun _ => ((walk_raises ..).mono (by decide)).bind fun best => ?_))))
  cases best with
  | none => exact .ok _
  | some m => exact ((settle_raises ..).mono (by decide)).bind fun _ => .ok _

theorem lzemitBody_raises (cnt : Bool) (ctx : Byte) (off : Word) :
    RaisesIn (Instr.lzemit cnt ctx off).causes (lzemitBody P cnt ctx off s) := by
  cases cnt with
  | true =>
    refine .checked (by simp [Instr.causes]) ?_
    split
    · exact .raised (by simp [Instr.causes])
    · exact .checked (by simp [Instr.causes]) (.checked (by simp [Instr.causes])
        (((coderAdd_raises ..).mono (by simp [Instr.causes])).bind fun _ => .ok _))
  | false =>
    refine .checked (by simp [Instr.causes]) ?_
    split
    · exact .raised (by simp [Instr.causes])
    · exact .checked (by simp [Instr.causes]) (.checked (by simp [Instr.causes])
        (.bind (((coderWrite_raises ..).mono (by simp [Instr.causes])).bind fun _ => .ok _) fun _ => .ok _))

theorem lzreadBody_raises (k : Byte) (off : Word) :
    RaisesIn [.sequence, .policy, .badLz, .truncated] (lzreadBody k off s) :=
  .checked (by decide) (.checked (by decide) (.checked (by decide) (.checked (by decide)
    (.bind (((readBits_raises ..).mono (by decide)).bind fun _ => .checked (by decide) (.ok _)) fun _ =>
      .bind (((readBits_raises ..).mono (by decide)).bind fun _ => .checked (by decide)
        (((readBits_raises ..).mono (by decide)).bind fun _ => .checked (by decide) (.ok _))) fun _ =>
          .checked (by decide) (.checked (by decide) (.ok _))))))

/-- A command's pseudocode raises only the causes its own rule lists (R263). -/
theorem bodyOf_raises (i : Instr) : RaisesIn i.causes (bodyOf i s) := by
  cases i with
  | nop | sreset | chinit | lzinit | tsclr => exact .ok _
  | csrw a16 value =>
    simp only [bodyOf, csrwBody]
    split
    · exact .raised (by simp [Instr.causes])
    · exact .checked (by simp [Instr.causes]) (.checked (by simp [Instr.causes]) (.ok _))
  | csrr a16 =>
    simp only [bodyOf, csrrBody]
    split
    · exact .raised (by simp [Instr.causes])
    · exact .ok _
  | putb n value => exact .checked (by simp [Instr.causes]) (.ok _)
  | getb n => exact .checked (by simp [Instr.causes]) (((readBits_raises ..).mono (by simp [Instr.causes])).bind fun _ => .ok _)
  | eclr all cls ctx => exact .ite (.ok _) (.checked (by simp [Instr.causes]) (.ok _))
  | add auto cls ctx x sym =>
    exact ((slotSel_raises ..).mono (by simp [Instr.causes])).bind fun _ =>
      ((coderAdd_raises ..).mono (by simp [Instr.causes])).bind fun _ => .ok _
  | final cls ctx =>
    exact ((slotSel_raises_explicit ..).mono (by simp [Instr.causes])).bind fun _ =>
      ((slotFinal_raises ..).mono (by simp [Instr.causes])).bind fun _ => .ok _
  | wrtbl cls ctx =>
    exact ((slotSel_raises_explicit ..).mono (by simp [Instr.causes])).bind fun _ => .checked (by simp [Instr.causes]) (.ok _)
  | write auto cls ctx x sym =>
    exact ((slotSel_raises ..).mono (by simp [Instr.causes])).bind fun _ =>
      ((coderWrite_raises ..).mono (by simp [Instr.causes])).bind fun _ => .ok _
  | rdtbl cls ctx =>
    exact ((slotSel_raises_explicit ..).mono (by simp [Instr.causes])).bind fun _ =>
      ((readTable_raises ..).mono (by simp [Instr.causes])).bind fun _ => .checked (by simp [Instr.causes]) (.ok _)
  | read auto cls ctx x =>
    exact ((slotSel_raises ..).mono (by simp [Instr.causes])).bind fun _ => .checked (by simp [Instr.causes])
      (((readSym_raises ..).mono (by simp [Instr.causes])).bind fun _ => .ok _)
  | chget lane x => exact (chaosBin_raises ..).bind fun _ => .ok _
  | chput lane r x => exact (chaosReady_raises ..).bind fun _ => .ok _
  | chzero lanes x => exact (chaosReady_raises ..).bind fun _ => .ok _
  | lzins off =>
    exact .checked (by simp [Instr.causes]) (.ite (.ok _) (((hashAt_raises ..).mono (by simp [Instr.causes])).bind fun _ => .ok _))
  | lzfind off => exact lzfindBody_raises ..
  | lzflush =>
    exact .checked (by simp [Instr.causes]) (.bind (.ite ((lzCommit_raises ..).mono (by simp [Instr.causes])) (.ok _)) fun _ => .ok _)
  | lzrew => exact .checked (by simp [Instr.causes]) (.ok _)
  | lzemit cnt ctx off => exact lzemitBody_raises ..
  | lzread k off => exact lzreadBody_raises ..
  | lzstep off =>
    exact .checked (by simp [Instr.causes]) (.checked (by simp [Instr.causes]) (.checked (by simp [Instr.causes])
      (((readPix_raises ..).mono (by simp [Instr.causes])).bind fun _ => .ok _)))
  | tinit => exact .checked (by simp [Instr.causes]) (.ok _)
  | tset sf cf ty tx =>
    exact ((tileReady_raises ..).mono (by simp [Instr.causes])).bind fun _ => .checked (by simp [Instr.causes]) (.checked (by simp [Instr.causes]) (.ok _))
  | tsel msk y x =>
    exact ((pixelReady_raises ..).mono (by simp [Instr.causes])).bind fun _ => .ite (.ok _) (.checked (by simp [Instr.causes]) (.ok _))
  | resid expl sf cf y x =>
    exact ((pixelReady_raises ..).mono (by simp [Instr.causes])).bind fun _ => ((filters_raises ..).mono (by simp [Instr.causes])).bind fun _ =>
      ((neighbours_raises ..).mono (by simp [Instr.causes])).bind fun _ => ((readPix_raises ..).mono (by simp [Instr.causes])).bind fun _ => .ok _
  | recon expl sf cf y x =>
    exact ((pixelReady_raises ..).mono (by simp [Instr.causes])).bind fun _ => ((filters_raises ..).mono (by simp [Instr.causes])).bind fun _ =>
      ((neighbours_raises ..).mono (by simp [Instr.causes])).bind fun _ => .ok _
  | tsacc f => exact .checked (by simp [Instr.causes]) (.ok _)
  | tsbest n => exact .checked (by simp [Instr.causes]) (.ok _)
  | tmres rf plane ty tx =>
    exact ((tileReady_raises ..).mono (by simp [Instr.causes])).bind fun _ => .ite (.ok _) (.checked (by simp [Instr.causes]) (.ok _))
  | tmrec rf plane r ty tx =>
    exact ((tileReady_raises ..).mono (by simp [Instr.causes])).bind fun _ => .checked (by simp [Instr.causes]) (.checked (by simp [Instr.causes]) (.ok _))

end

end Sys2Proof.Machine
end

section
/-! PROOFS. The parts of the state a command's pseudocode can reach: which of the registers, the pixels, the streams and
the units each command leaves alone (20_memory.md R60 to R64, 60_exceptions.md R264). -/

namespace Sys2Proof.Machine

open Sys2Proof.Config

/-! ### Frames -/

/-- Parts of the state: the registers `CSRW` writes, the outside, the coder (its slots and `HSAT`), and the other
units. -/
structure Parts where
  cfg : Bool := false
  pix : Bool := false
  bw : Bool := false
  br : Bool := false
  coder : Bool := false
  ch : Bool := false
  lz : Bool := false
  tile : Bool := false

/-- Every part in `p` is in `q`. -/
def Parts.sub (p q : Parts) : Bool :=
  (!p.cfg || q.cfg) && (!p.pix || q.pix) && (!p.bw || q.bw) && (!p.br || q.br) && (!p.coder || q.coder) &&
    (!p.ch || q.ch) && (!p.lz || q.lz) && (!p.tile || q.tile)

/-- `t` has every part outside `p` as `s` has it. -/
structure Frame (p : Parts) (s t : State) : Prop where
  cfg : p.cfg = false → t.cfg = s.cfg
  pix : p.pix = false → t.pix = s.pix
  bw : p.bw = false → t.bw = s.bw
  br : p.br = false → t.br = s.br
  coder : p.coder = false → t.work.slots = s.work.slots ∧ t.work.hsat = s.work.hsat
  ch : p.ch = false → t.work.ch = s.work.ch
  lz : p.lz = false → t.work.lz = s.work.lz
  tile : p.tile = false → t.work.tile = s.work.tile

section
variable {p q : Parts} {s t u : State}

/-- A state that is `s` with parts in `p` replaced; a concrete update meets this by `rfl`. -/
theorem Frame.of_eq (h : t = { s with
      cfg := bif p.cfg then t.cfg else s.cfg
      pix := bif p.pix then t.pix else s.pix
      bw := bif p.bw then t.bw else s.bw
      br := bif p.br then t.br else s.br
      work := {
        bwCount := t.work.bwCount
        brCount := t.work.brCount
        hsat := bif p.coder then t.work.hsat else s.work.hsat
        slots := bif p.coder then t.work.slots else s.work.slots
        ch := bif p.ch then t.work.ch else s.work.ch
        lz := bif p.lz then t.work.lz else s.work.lz
        tile := bif p.tile then t.work.tile else s.work.tile } }) : Frame p s t := by
  constructor <;> intro hp <;> rw [h] <;> simp [hp]

theorem Frame.refl (p : Parts) (s : State) : Frame p s s := by constructor <;> simp

theorem Frame.trans (h : Frame p s t) (h' : Frame p t u) : Frame p s u where
  cfg hp := (h'.cfg hp).trans (h.cfg hp)
  pix hp := (h'.pix hp).trans (h.pix hp)
  bw hp := (h'.bw hp).trans (h.bw hp)
  br hp := (h'.br hp).trans (h.br hp)
  coder hp := ⟨(h'.coder hp).1.trans (h.coder hp).1, (h'.coder hp).2.trans (h.coder hp).2⟩
  ch hp := (h'.ch hp).trans (h.ch hp)
  lz hp := (h'.lz hp).trans (h.lz hp)
  tile hp := (h'.tile hp).trans (h.tile hp)

theorem Frame.mono (h : Frame p s t) (hpq : p.sub q = true) : Frame q s t := by
  simp only [Parts.sub, Bool.and_eq_true, Bool.or_eq_true, Bool.not_eq_true'] at hpq
  obtain ⟨⟨⟨⟨⟨⟨⟨hcfg, hpix⟩, hbw⟩, hbr⟩, hcoder⟩, hch⟩, hlz⟩, htile⟩ := hpq
  exact ⟨fun hq => h.cfg (hcfg.resolve_right (by simp [hq])), fun hq => h.pix (hpix.resolve_right (by simp [hq])),
    fun hq => h.bw (hbw.resolve_right (by simp [hq])), fun hq => h.br (hbr.resolve_right (by simp [hq])),
    fun hq => h.coder (hcoder.resolve_right (by simp [hq])), fun hq => h.ch (hch.resolve_right (by simp [hq])),
    fun hq => h.lz (hlz.resolve_right (by simp [hq])), fun hq => h.tile (htile.resolve_right (by simp [hq]))⟩

end

/-! ### Pseudocode that ends in states with a property -/

/-- If the pseudocode ends normally, its state has the property. -/
structure Ends (Q : State → Prop) (b : Exec (State × Word)) : Prop where
  out : ∀ t v, b = .ok (t, v) → Q t

section
variable {α : Type} {Q : State → Prop}

theorem Ends.ok {t : State} {v : Word} (h : Q t) : Ends Q (.ok (t, v)) := by
  constructor
  rintro _ _ ⟨⟩
  exact h

theorem Ends.raised (c : Cause) : Ends Q (raise c) := ⟨fun _ _ h => absurd h (raise_ne_ok c _)⟩

theorem Ends.bind {x : Exec α} {f : α → Exec (State × Word)} (h : ∀ a, x = .ok a → Ends Q (f a)) :
    Ends Q (x >>= f) := by
  refine ⟨fun t v hb => ?_⟩
  obtain ⟨a, hx, hf⟩ := bind_ok_iff.mp hb
  exact (h a hx).out t v hf

/-- After a check, which hands over nothing. -/
theorem Ends.after {x : Exec Unit} {f : Unit → Exec (State × Word)} (h : Ends Q (f ())) : Ends Q (x >>= f) :=
  .bind fun _ _ => h

theorem Ends.ite {p : Prop} [Decidable p] {a b : Exec (State × Word)} (ha : Ends Q a) (hb : Ends Q b) :
    Ends Q (if p then a else b) := by
  split
  · exact ha
  · exact hb

end

/-! ### The shared operations -/

section
variable {s t : State}

theorem readBits_frame {n v : Nat} (h : s.readBits n = .ok (v, t)) : Frame { br := true } s t := by
  obtain ⟨-, rest, -, rfl⟩ := readBits_ok h
  exact .of_eq rfl

theorem foldl_frame {β : Type} {p : Parts} {f : State → β → State} (hf : ∀ s b, Frame p s (f s b)) (l : List β)
    (s : State) : Frame p s (l.foldl f s) := by
  induction l generalizing s with
  | nil => exact .refl p s
  | cons b l ih => exact (hf s b).trans (ih _)

theorem clearAllSlots_frame (s : State) :
    Frame { coder := true } s (allSlots.foldl (fun t e => clearSlot t e.1 e.2) s) :=
  foldl_frame (fun _ _ => .of_eq rfl) _ s

theorem zeroLane_frame (lanes : BitVec 4) (i : Nat) (s : State) (lane : Lane) :
    Frame { ch := true } s (zeroLane lanes i s lane) := by
  unfold zeroLane
  split
  · exact .of_eq rfl
  · exact .refl _ _

theorem coderAdd_frame {P : Params} {c k sym : Nat} (h : coderAdd P s c k sym = .ok t) :
    Frame { coder := true } s t := by
  obtain ⟨r, -, rfl⟩ := coderAdd_ok h
  exact .of_eq rfl

theorem coderWrite_frame {c k sym n : Nat} (h : coderWrite s c k sym = .ok (t, n)) :
    Frame { coder := true, bw := true } s t := by
  obtain ⟨r, -, rfl, -⟩ := coderWrite_ok h
  exact .of_eq rfl

theorem readTable_frame {P : Params} {alpha : Nat} {lens : List (BitVec 5)}
    (h : readTable P s alpha = .ok (lens, t)) : Frame { br := true } s t := by
  obtain ⟨rest, -, rfl⟩ := readTable_ok h
  exact .of_eq rfl

theorem decodeSym_frame {v : Slot} {i : Nat} (h : decodeSym s v = .ok (i, t)) : Frame { br := true } s t := by
  obtain ⟨n, rest, -, rfl⟩ := decodeSym_ok h
  exact .of_eq rfl

theorem readRun_frame {z r : Nat} (h : readRun s z = .ok (r, t)) : Frame { br := true } s t := by
  obtain ⟨x, hx, -⟩ := readRun_ok h
  exact readBits_frame hx

theorem readSym_frame {v : Slot} {x : Nat} {owed : Word} (h : readSym s v = .ok (x, owed, t)) :
    Frame { br := true } s t := by
  obtain ⟨-, -, -, rfl⟩ | ⟨-, i, u, hu, ⟨-, -, -, rfl⟩ | ⟨-, r, hr, -⟩⟩ := readSym_ok h
  · exact .refl _ _
  · exact decodeSym_frame hu
  · exact (decodeSym_frame hu).trans (readRun_frame hr)

theorem emitMatch_frame {P : Params} {cnt : Bool} {ctx : Byte} {m : Match} (h : emitMatch P cnt ctx m s = .ok t) :
    Frame { coder := true, bw := true } s t := by
  obtain ⟨-, ht⟩ | ⟨-, u, n, hu, rfl⟩ := emitMatch_ok h
  · exact (coderAdd_frame ht).mono rfl
  · exact (coderWrite_frame hu).trans (.of_eq rfl)

theorem readLen_frame {k n : Nat} (h : readLen k s = .ok (n, t)) : Frame { br := true } s t := by
  obtain ⟨v, hv, -⟩ := readLen_ok h
  exact readBits_frame hv

theorem readDist_frame {n : Nat} (h : readDist s = .ok (n, t)) : Frame { br := true } s t := by
  obtain ⟨d, u, v, hd, -, hv, -⟩ := readDist_ok h
  exact (readBits_frame hd).trans (readBits_frame hv)

end

/-! ### The commands -/

/-- The parts a command's pseudocode can reach (20_memory.md R60, R62). -/
def partsOf : Instr → Parts
  | .csrw _ _ => { cfg := true }
  | .putb _ _ => { bw := true }
  | .getb _ => { br := true }
  | .eclr _ _ _ => { coder := true }
  | .add _ _ _ _ _ => { coder := true }
  | .final _ _ => { coder := true }
  | .wrtbl _ _ => { bw := true }
  | .write _ _ _ _ _ => { coder := true, bw := true }
  | .rdtbl _ _ => { coder := true, br := true }
  | .read _ _ _ _ => { coder := true, br := true }
  | .chinit => { ch := true }
  | .chput _ _ _ => { ch := true }
  | .chzero _ _ => { ch := true }
  | .lzinit => { lz := true }
  | .lzins _ => { lz := true }
  | .lzfind _ => { lz := true }
  | .lzflush => { lz := true }
  | .lzrew => { lz := true }
  | .lzemit _ _ _ => { coder := true, bw := true, lz := true }
  | .lzread _ _ => { br := true, lz := true }
  | .lzstep _ => { pix := true, lz := true }
  | .tinit => { tile := true }
  | .tset _ _ _ _ => { tile := true }
  | .tsel _ _ _ => { tile := true }
  | .resid _ _ _ _ _ => { tile := true }
  | .recon _ _ _ _ _ => { pix := true }
  | .tsclr => { tile := true }
  | .tsacc _ => { tile := true }
  | .tmrec _ _ _ _ _ => { tile := true }
  | _ => {}

section
variable (s : State)

theorem lzfindBody_frame (P : Params) (off : Word) : Ends (Frame { lz := true } s) (lzfindBody P off s) := by
  refine .after (.after (.after (.ite (.ok (.refl _ _)) (.bind fun _ _ => .bind fun best _ => ?_))))
  cases best with
  | none => exact .ok (.refl _ _)
  | some m => exact .bind fun _ _ => .ok (.of_eq rfl)

theorem lzemitBody_frame (P : Params) (cnt : Bool) (ctx : Byte) (off : Word) :
    Ends (Frame { coder := true, bw := true, lz := true } s) (lzemitBody P cnt ctx off s) := by
  refine .after ?_
  split
  · exact .raised _
  · exact .after (.after (.bind fun _ h => .ok (((emitMatch_frame h).mono rfl).trans (.of_eq rfl))))

theorem lzreadBody_frame (k : Byte) (off : Word) :
    Ends (Frame { br := true, lz := true } s) (lzreadBody k off s) :=
  .after (.after (.after (.after (.bind fun _ hlen => .bind fun _ hdist => .after (.after (.ok
    ((((readLen_frame hlen).trans (readDist_frame hdist)).mono rfl).trans (.of_eq rfl))))))))

/-- A command's pseudocode leaves every part outside its own alone. -/
theorem bodyOf_frame {i : Instr} (hi : i ≠ .sreset) : Ends (Frame (partsOf i) s) (bodyOf i s) := by
  cases i with
  | sreset => exact absurd rfl hi
  | nop => exact .ok (.refl _ _)
  | chinit | lzinit | tsclr => exact .ok (.of_eq rfl)
  | csrw a16 value =>
    simp only [bodyOf, csrwBody]
    split
    · exact .raised _
    · exact .after (.after (.ok (.of_eq rfl)))
  | csrr a16 =>
    simp only [bodyOf, csrrBody]
    split
    · exact .raised _
    · exact .ok (.refl _ _)
  | getb n => exact .after (.bind fun _ h => .ok (readBits_frame h))
  | eclr all cls ctx => exact .ite (.ok (clearAllSlots_frame s)) (.after (.ok (.of_eq rfl)))
  | add auto cls ctx x sym => exact .bind fun _ _ => .bind fun _ h => .ok (coderAdd_frame h)
  | final cls ctx => exact .bind fun _ _ => .bind fun _ _ => .ok (.of_eq rfl)
  | wrtbl cls ctx => exact .bind fun _ _ => .after (.ok (.of_eq rfl))
  | write auto cls ctx x sym => exact .bind fun _ _ => .bind fun _ h => .ok (coderWrite_frame h)
  | rdtbl cls ctx =>
    exact .bind fun _ _ => .bind fun _ h => .after (.ok (((readTable_frame h).mono rfl).trans (.of_eq rfl)))
  | read auto cls ctx x =>
    exact .bind fun _ _ => .after (.bind fun _ h => .ok (((readSym_frame h).mono rfl).trans (.of_eq rfl)))
  | putb | chput | lzrew | tinit | tsacc => exact .after (.ok (.of_eq rfl))
  | tsbest n => exact .after (.ok (.refl _ _))
  | chget lane x => exact .bind fun _ _ => .ok (.refl _ _)
  | chzero lanes x => exact .after (.ok (foldl_frame (zeroLane_frame lanes _) _ s))
  | lzins off => exact .after (.ite (.ok (.refl _ _)) (.bind fun _ _ => .ok (.of_eq rfl)))
  | lzfind off => exact lzfindBody_frame s params off
  | lzflush => exact .after (.bind fun _ _ => .ok (.of_eq rfl))
  | lzemit cnt ctx off => exact lzemitBody_frame s params cnt ctx off
  | lzread k off => exact lzreadBody_frame s k off
  | lzstep off => exact .after (.after (.after (.bind fun _ _ => .ok (.of_eq rfl))))
  | tset sf cf ty tx => exact .after (.after (.after (.ok (.of_eq rfl))))
  | tsel msk y x => exact .after (.ite (.ok (.refl _ _)) (.after (.ok (.of_eq rfl))))
  | resid expl sf cf y x =>
    exact .after (.bind fun _ _ => .bind fun _ _ => .bind fun _ _ => .ok (.of_eq rfl))
  | recon expl sf cf y x => exact .after (.bind fun _ _ => .bind fun _ _ => .ok (.of_eq rfl))
  | tmres rf plane ty tx => exact .after (.ite (.ok (.refl _ _)) (.after (.ok (.refl _ _))))
  | tmrec rf plane r ty tx =>
    refine .after (.after (.after (.ok ?_)))
    cases plane <;> exact .of_eq rfl

/-! ### What is written to the outside -/

/-- Bits are only appended to `BW` (20_memory.md R60). -/
theorem bodyOf_bw {i : Instr} (hi : i ≠ .sreset) : Ends (fun t => s.bw <+: t.bw) (bodyOf i s) := by
  by_cases hw : (partsOf i).bw = false
  · exact ⟨fun t v h => (((bodyOf_frame s hi).out t v h).bw hw) ▸ List.prefix_rfl⟩
  cases i with
  | putb n value => exact .after (.ok (List.prefix_append _ _))
  | wrtbl cls ctx => exact .bind fun _ _ => .after (.ok (List.prefix_append _ _))
  | write auto cls ctx x sym =>
    refine .bind fun _ _ => .bind fun _ h => .ok ?_
    obtain ⟨r, -, ht, -⟩ := coderWrite_ok h
    simp [ht]
  | lzemit cnt ctx off =>
    refine .after ?_
    split
    · exact .raised _
    refine .after (.after (.bind fun u h => .ok ?_))
    obtain ⟨-, ht⟩ | ⟨-, u, n, hu, rfl⟩ := emitMatch_ok h
    · exact ((coderAdd_frame ht).bw rfl) ▸ List.prefix_rfl
    · obtain ⟨r, -, ht, -⟩ := coderWrite_ok hu
      simp [ht]
  | _ => exact absurd rfl hw

theorem readBits_br {s t : State} {n v : Nat} (h : s.readBits n = .ok (v, t)) : t.br <:+ s.br := by
  obtain ⟨-, rest, hbits, rfl⟩ := readBits_ok h
  exact (eq_of_takeBits hbits).1 ▸ List.suffix_append _ _

theorem readSym_br {s t : State} {v : Slot} {x : Nat} {owed : Word} (h : readSym s v = .ok (x, owed, t)) :
    t.br <:+ s.br := by
  have hdec : ∀ {i u}, decodeSym s v = .ok (i, u) → u.br <:+ s.br := by
    intro i u hu
    obtain ⟨n, rest, hloop, rfl⟩ := decodeSym_ok hu
    obtain ⟨-, -, hrest, -⟩ := decodeLoop_ok hloop
    exact hrest ▸ List.drop_suffix _ _
  obtain ⟨-, -, -, rfl⟩ | ⟨-, i, u, hu, ⟨-, -, -, rfl⟩ | ⟨-, r, hr, -⟩⟩ := readSym_ok h
  · exact List.suffix_rfl
  · exact hdec hu
  · obtain ⟨y, hy, -⟩ := readRun_ok hr
    exact (readBits_br hy).trans (hdec hu)

/-- Bits are only taken off the front of `BR` (20_memory.md R64). -/
theorem bodyOf_br {i : Instr} (hi : i ≠ .sreset) : Ends (fun t => t.br <:+ s.br) (bodyOf i s) := by
  by_cases hr : (partsOf i).br = false
  · exact ⟨fun t v h => (((bodyOf_frame s hi).out t v h).br hr) ▸ List.suffix_rfl⟩
  cases i with
  | getb n => exact .after (.bind fun _ h => .ok (readBits_br h))
  | rdtbl cls ctx =>
    refine .bind fun _ _ => .bind fun _ h => .after (.ok ?_)
    obtain ⟨rest, htbl, ht⟩ := readTable_ok h
    obtain ⟨-, -, hbr⟩ := raw5Dec_ok htbl
    simp only [ht, State.setSlot_br, State.consumed_br]
    exact hbr ▸ List.suffix_append _ _
  | read auto cls ctx x => 
    exact .bind fun _ _ => .after (.bind fun a h => .ok (show a.2.2.br <:+ s.br from readSym_br h))
  | lzread k off =>
    refine .after (.after (.after (.after (.bind fun a hlen => .bind fun b hdist => .after (.after (.ok ?_))))))
    obtain ⟨v, hv, -⟩ := readLen_ok hlen
    obtain ⟨d, u, w, hd, -, hw, -⟩ := readDist_ok hdist
    exact (readBits_br hw).trans ((readBits_br hd).trans (readBits_br hv))
  | _ => exact absurd rfl hr

/-- A command that writes a pixel writes the one it names, and whole (20_memory.md R62). -/
theorem bodyOf_pix {i : Instr} (hi : i ≠ .sreset) :
    Ends (fun t => t.pix = s.pix ∨ ∃ off p, i.writesPixel s = some off ∧ t.pix = s.pix.writePixel off p)
      (bodyOf i s) := by
  by_cases hp : (partsOf i).pix = false
  · exact ⟨fun t v h => .inl (((bodyOf_frame s hi).out t v h).pix hp)⟩
  cases i with
  | lzstep off => exact .after (.after (.after (.bind fun p _ => .ok (.inr ⟨_, p, rfl, rfl⟩))))
  | recon expl sf cf y x => exact .after (.bind fun _ _ => .bind fun _ _ => .ok (.inr ⟨_, _, rfl, rfl⟩))
  | _ => exact absurd rfl hp

end

end Sys2Proof.Machine
end

section
/-! PROOFS. Steps, faults and resets: the statements that follow from what every command has in common. -/

namespace Sys2Proof.Machine

open Sys2Proof.Config

/-- No register shows the host's queue or position. -/
theorem read_taken (r : Csr) (s : State) (rest : List HostEvent) : r.read (s.taken rest) = r.read s := by
  cases r <;> rfl

theorem csrrInFault_of_some {a : BitVec 16} {r : Csr} (s : State) (h : Csr.ofAddr a = some r) :
    csrrInFault a s = s.answer (r.read s) := by
  simp only [csrrInFault, h]

theorem csrrInFault_of_none {a : BitVec 16} (s : State) (h : Csr.ofAddr a = none) :
    csrrInFault a s = s.refuse := by
  simp only [csrrInFault, h]

/-- In the fault state every word is refused but those of `SRESET` and of `CSRR` at a defined address (R266). -/
theorem runWord_refuse {w : CmdWord} {s : State} (hs : s.err = true) (hreset : w ≠ encode .sreset)
    (hread : ∀ a, w = encode (.csrr a) → Csr.ofAddr a = none) : runWord w s = .next s.refuse := by
  cases hdec : decode w with
  | error e => rw [runWord_error s hdec, rejectWord, if_pos hs]
  | ok i =>
    have hw := encode_of_decode hdec
    rw [runWord_ok s hdec]
    by_cases hcsrr : ∃ a, i = .csrr a
    · obtain ⟨a, rfl⟩ := hcsrr
      rw [exec_csrr_of_err a hs, csrrInFault_of_none s (hread a hw.symm)]
    · exact exec_of_err i (fun hi => hreset (by rw [← hw, hi])) (fun a ha => hcsrr ⟨a, ha⟩) hs

/-! ### What a fault can have touched outside the block (R264) -/

theorem faultOutput_of_ne (n : Nat) {r : Reach} (bw : List Bool) (h : r ≠ .output) : faultOutput n r bw = bw := by
  cases r <;> first | rfl | exact absurd rfl h

theorem faultInput_of_ne (n : Nat) {r : Reach} (br : List Bool) (h : r ≠ .input) : faultInput n r br = br := by
  cases r <;> first | rfl | exact absurd rfl h

theorem lzemitReach_ne_input (cnt : Bool) : lzemitReach cnt ≠ .input := by cases cnt <;> decide

theorem lzstepReach_cases (off : Word) (s : State) :
    lzstepReach off s = .inside ∨ lzstepReach off s = .pixel off.toNat := by
  unfold lzstepReach; split
  · exact .inr rfl
  · exact .inl rfl

theorem reconReach_cases (y x : BitVec 16) (s : State) :
    reconReach y x s = .inside ∨ reconReach y x s = .pixel (s.work.tile.offset x.toNat y.toNat) := by
  unfold reconReach; split
  · exact .inr rfl
  · exact .inl rfl

theorem reachOf_ne_output {i : Instr} (s : State) (h : i.writesBw = false) : reachOf i s ≠ .output := by
  cases i with
  | putb | wrtbl | write | lzemit => cases h
  | lzstep off => obtain hr | hr := lzstepReach_cases off s <;> simp [reachOf, hr]
  | recon expl sf cf y x => obtain hr | hr := reconReach_cases y x s <;> simp [reachOf, hr]
  | _ => simp [reachOf]

theorem reachOf_ne_input {i : Instr} (s : State) (h : i.readsBr = false) : reachOf i s ≠ .input := by
  cases i with
  | getb | rdtbl | read | lzread => cases h
  | lzemit cnt ctx off => exact lzemitReach_ne_input cnt
  | lzstep off => obtain hr | hr := lzstepReach_cases off s <;> simp [reachOf, hr]
  | recon expl sf cf y x => obtain hr | hr := reconReach_cases y x s <;> simp [reachOf, hr]
  | _ => simp [reachOf]

/-- A fault can have written no pixel but the one its command names (R62). -/
theorem writesPixel_of_reachOf {i : Instr} {s : State} {off : Nat} (h : reachOf i s = .pixel off) :
    i.writesPixel s = some off := by
  cases i with
  | lzstep o =>
    obtain hr | hr := lzstepReach_cases o s <;> simp only [reachOf, hr] at h <;> cases h
    rfl
  | recon expl sf cf y x =>
    obtain hr | hr := reconReach_cases y x s <;> simp only [reachOf, hr] at h <;> cases h
    rfl
  | lzemit cnt ctx o => cases cnt <;> cases h
  | _ => cases h

/-- What a command that is not the reset leaves of the outside, whatever its outcome (R60, R62, R64). -/
structure OutsideReach (i : Instr) (s t : State) : Prop where
  inbox : t.inbox = s.inbox
  hostPos : t.hostPos = s.hostPos
  cfg : (∀ a v, i ≠ .csrw a v) → t.cfg = s.cfg
  pix : t.pix = s.pix ∨ ∃ off p, i.writesPixel s = some off ∧ t.pix = s.pix.writePixel off p
  bw : s.bw <+: t.bw
  bw_kept : i.writesBw = false → t.bw = s.bw
  br : t.br <:+ s.br
  br_kept : i.readsBr = false → t.br = s.br

/-- A state that differs from `s` at most in the response, the count and the block's own registers. -/
theorem OutsideReach.of_kept {i : Instr} {s t : State} (hin : t.inbox = s.inbox) (hpos : t.hostPos = s.hostPos)
    (hcfg : (∀ a v, i ≠ .csrw a v) → t.cfg = s.cfg) (hpix : t.pix = s.pix) (hbw : t.bw = s.bw)
    (hbr : t.br = s.br) : OutsideReach i s t :=
  ⟨hin, hpos, hcfg, .inl hpix, hbw ▸ List.prefix_rfl, fun _ => hbw, hbr ▸ List.suffix_rfl, fun _ => hbr⟩

theorem partsOf_cfg {i : Instr} (h : ∀ a v, i ≠ .csrw a v) : (partsOf i).cfg = false := by
  cases i with
  | csrw a v => exact absurd rfl (h a v)
  | _ => rfl

theorem partsOf_bw {i : Instr} (h : i.writesBw = false) : (partsOf i).bw = false := by
  cases i <;> first | rfl | cases h

theorem partsOf_br {i : Instr} (h : i.readsBr = false) : (partsOf i).br = false := by
  cases i <;> first | rfl | cases h

theorem outsideReach_of_body {i : Instr} {s u : State} {v : Word} (hi : i ≠ .sreset)
    (h : bodyOf i s = .ok (u, v)) : OutsideReach i s (u.complete v) := by
  have hframe := (bodyOf_frame s hi).out u v h
  have hkeep := bodyOf_keeps s hi u v h
  unfold KeepsControl at hkeep
  refine ⟨?_, ?_, fun hc => hframe.cfg (partsOf_cfg hc), (bodyOf_pix s hi).out u v h, (bodyOf_bw s hi).out u v h,
    fun hw => hframe.bw (partsOf_bw hw), (bodyOf_br s hi).out u v h, fun hr => hframe.br (partsOf_br hr)⟩
  · rw [State.complete_inbox, hkeep]
  · rw [State.complete_hostPos, hkeep]

theorem outsideReach_takeFault (i : Instr) (s : State) (c : Cause) :
    OutsideReach i s (takeFault (encode i) c (reachOf i s) s) := by
  refine ⟨rfl, rfl, fun _ => rfl, ?_, ?_, fun hw => faultOutput_of_ne _ _ (reachOf_ne_output s hw), ?_,
    fun hr => faultInput_of_ne _ _ (reachOf_ne_input s hr)⟩
  · obtain hkept | ⟨off, p, hreach, hpix⟩ := faultPix_eq s.faultNo (reachOf i s) s.pix
    · exact .inl hkept
    · exact .inr ⟨off, p, writesPixel_of_reachOf hreach, hpix⟩
  · obtain ⟨bits, hbits⟩ := faultOutput_append s.faultNo (reachOf i s) s.bw
    exact ⟨bits, hbits.symm⟩
  · obtain ⟨k, hk⟩ := faultInput_drop s.faultNo (reachOf i s) s.br
    rw [takeFault_br, hk]
    exact List.drop_suffix _ _

/-- Every command but the reset reaches only its own of the outside. -/
theorem outsideReach_of_exec {i : Instr} {s t : State} (hi : i ≠ .sreset) (h : exec i s = .next t) :
    OutsideReach i s t := by
  obtain ⟨hreset, -⟩ | ⟨-, ⟨a, rfl, rfl⟩ | rfl⟩ | ⟨-, -, ⟨u, v, hbody, rfl⟩ | ⟨c, -, rfl⟩⟩ := exec_next h
  · exact absurd hreset hi
  · unfold csrrInFault
    split <;> exact .of_kept rfl rfl (fun _ => rfl) rfl rfl rfl
  · exact .of_kept rfl rfl (fun _ => rfl) rfl rfl rfl
  · exact outsideReach_of_body hi hbody
  · exact outsideReach_takeFault i s c

end Sys2Proof.Machine
end

section
/-! PROOFS. The statements about steps, faults, refusal and reset that stand on the lemmas above. -/

open Sys2Proof Sys2Proof.Machine

/-- Settles O4: the step takes the word and runs the command it decodes to. -/
theorem stepRunsCommand : Obligations.StepRunsCommand := by
  intro s w rest i hin hdec
  rw [step_cons hin]
  exact runWord_ok (s.taken rest) hdec

/-- Settles O5: the decoder's last arm is the only one that rejects an opcode, and a rejected word enters the fault
state with a reach of nothing outside the block. -/
theorem rejectedWordFaults : Obligations.RejectedWordFaults := by
  refine ⟨decode_undefined_iff, fun s w rest e hin hs hdec => ?_⟩
  refine ⟨takeFault w .illegalCmd .inside (s.taken rest), ?_, faultEntry_takeFault .., rfl, rfl, rfl⟩
  rw [step_cons hin]
  refine (runWord_error (s.taken rest) hdec).trans ?_
  simp [rejectWord, hs]

/-- Settles O7: a command enters the fault state only by a cause its pseudocode raises. -/
theorem causesAreTheCommandsOwn : Obligations.CausesAreTheCommandsOwn := by
  intro i s t hs h ht
  obtain ⟨-, rfl⟩ | ⟨hs', -⟩ | ⟨-, hi, ⟨u, v, hbody, rfl⟩ | ⟨c, hbody, rfl⟩⟩ := exec_next h
  · simp at ht
  · simp [hs] at hs'
  · have hu : u.err = s.err := (bodyOf_keeps s hi u v hbody).err
    simp [hu, hs] at ht
  · exact ⟨c, (bodyOf_raises s i).mem c hbody, faultEntry_takeFault ..⟩

/-- Settles O9: of the words that decode only `SRESET`'s and `CSRR`'s commands run in the fault state. -/
theorem faultStateRefuses : Obligations.FaultStateRefuses := by
  intro s w rest hin hs
  rw [step_cons hin]
  refine ⟨?_, ?_, fun hreset hread => runWord_refuse (s := s.taken rest) hs hreset hread⟩
  · rintro rfl
    exact runWord_ok (s.taken rest) (decode_encode (i := .sreset) rfl)
  · rintro a r rfl hr
    refine (runWord_ok (s.taken rest) (decode_encode (i := .csrr a) rfl)).trans ?_
    rw [exec_csrr_of_err a (s := s.taken rest) hs, csrrInFault_of_some _ hr, read_taken]
    rfl

/-- Settles O11: both resets are `applyReset`, and every register reads its reset value from the reset state. -/
theorem resetEffects : Obligations.ResetEffects := by
  intro s rest
  refine ⟨s.applyReset, rfl, fun hin => step_cons hin, rfl, rfl, rfl, rfl, rfl, fun r hr => ?_, ?_,
    fun _ _ => rfl, fun _ => rfl⟩
  · cases r with
    | status => exact absurd rfl hr
    | _ => rfl
  · unfold State.status State.brEos
    cases hbr : s.br with
    | nil => simp [hbr, State.applyReset, Work.reset, State.lzRun]
    | cons b bs => simp [hbr, State.applyReset, Work.reset, State.lzRun]

/-- Settles O12: only `complete` counts, and pseudocode leaves the count alone. -/
theorem commandsAreCounted : Obligations.CommandsAreCounted := by
  intro i s t h
  obtain ⟨rfl, rfl⟩ | ⟨hs, hout⟩ | ⟨hs, hi, ⟨u, v, hbody, rfl⟩ | ⟨c, hbody, rfl⟩⟩ := exec_next h
  · simp
  · have hkeep : KeepsBlock s t := by
      obtain ⟨a, -, rfl⟩ | rfl := hout
      · exact csrrInFault_keepsBlock a s
      · rfl
    unfold KeepsBlock at hkeep
    have hi : i ≠ .sreset := by
      rintro rfl
      cases h
      have := congrArg State.err hkeep
      simp [hs] at this
    have hcount : t.cmdcnt = s.cmdcnt ∧ t.err = true := by rw [hkeep]; exact ⟨rfl, hs⟩
    simp [hi, hs, hcount]
  · have hkeep := bodyOf_keeps s hi u v hbody
    have hcount : u.cmdcnt = s.cmdcnt := by unfold KeepsControl at hkeep; rw [hkeep]
    simp [hi, hs, hkeep.err, hcount]
  · simp [hi, hs]

/-- Settles O13: the reset touches nothing outside the block, and every other command only its own. -/
theorem commandsReachOnlyTheirOwn : Obligations.CommandsReachOnlyTheirOwn := by
  intro i s t h
  by_cases hi : i = .sreset
  · subst hi
    cases h
    refine ⟨rfl, rfl, fun hne => absurd rfl hne, fun _ => rfl, fun _ ho => by simp [Instr.writesPixel] at ho, ⟨[], by simp⟩,
      fun _ => rfl, ⟨0, rfl⟩, fun _ => rfl⟩
  obtain ⟨hin, hpos, hcfg, hpix, ⟨bits, hbits⟩, hbw, hbr, hbr'⟩ := outsideReach_of_exec hi h
  refine ⟨hin, hpos, fun _ hc => hcfg hc, fun hn => ?_, fun off ho a ha => ?_, ⟨bits, hbits.symm⟩, hbw,
    ⟨_, List.suffix_iff_eq_drop.mp hbr⟩, hbr'⟩
  · obtain hpix | ⟨off, p, ho, -⟩ := hpix
    · exact hpix
    · simp [hn] at ho
  · obtain hpix | ⟨off', p, ho', hpix⟩ := hpix
    · rw [hpix]
    · rw [ho] at ho'
      cases ho'
      rw [hpix, Memory.readByte_writePixel_ne _ _ ha]

end

section
/-! PROOFS. The system commands: the register map, what every register reads, and bits moved to and from the streams
(10_state.md R24 to R26, 40_system.md R120 to R125, 20_memory.md R65 to R67). -/

namespace Sys2Proof.Machine

open Sys2Proof.Config

/-! ### The register map (R24) -/

theorem Csr.legal_iff_of_range {r : Csr} (hr : r ≠ .slotSel) {lo hi : Nat} (h : r.range = some (lo, hi)) (v : Word) :
    r.legal v = true ↔ lo ≤ v.toNat ∧ v.toNat ≤ hi := by
  unfold Csr.legal
  split
  · exact absurd rfl hr
  · simp [h]

/-- `SLOT_SEL` holds a class of at most 5 above a context of at most 31 (R26). -/
theorem slotSelOk_iff (v : Word) :
    slotSelOk v = true ↔ ∃ cls ctx, cls ≤ 5 ∧ ctx ≤ 31 ∧ v.toNat = 256 * cls + ctx := by
  simp only [slotSelOk, Bool.and_eq_true, decide_eq_true_eq, beq_iff_eq, ← BitVec.toNat_inj,
    BitVec.extractLsb'_toNat, Nat.shiftRight_eq_div_pow, show (0 : BitVec 3).toNat = 0 from rfl, Nat.reducePow]
  constructor
  · rintro ⟨⟨h1, h2⟩, h3⟩
    exact ⟨v.toNat / 256, v.toNat % 256, by omega, by omega, by omega⟩
  · rintro ⟨cls, ctx, h1, h2, h3⟩
    refine ⟨⟨?_, ?_⟩, ?_⟩ <;> omega

theorem setWidth_setWidth_of_lt {n : Nat} {v : Word} (h : v.toNat < 2 ^ n) :
    (v.setWidth n).setWidth 32 = v := by
  apply BitVec.eq_of_toNat_eq
  rw [BitVec.toNat_setWidth, BitVec.toNat_setWidth, Nat.mod_eq_of_lt h, Nat.mod_eq_of_lt v.isLt]

/-- A legal value written to a register is what the register reads (40_system.md R122). -/
theorem Csr.read_write_same {r : Csr} (hw : r.writable = true) {v : Word} (hv : r.legal v = true) (s : State) :
    r.read { s with cfg := r.write v s.cfg } = v := by
  have hfits : ∀ {r : Csr} {lo hi n : Nat}, r ≠ .slotSel → r.range = some (lo, hi) → r.legal v = true → hi < 2 ^ n →
      (v.setWidth n).setWidth 32 = v := fun hr hrange hv hhi =>
    setWidth_setWidth_of_lt ((((legal_iff_of_range hr hrange v).mp hv).2).trans_lt hhi)
  cases r with
  | imgW | imgH | chainLimit => exact hfits (n := 16) (by simp) rfl hv (by decide)
  | tileBits => exact hfits (n := 4) (by simp) rfl hv (by decide)
  | lYuv | lA | lSf | lCf | ncf => exact hfits (n := 6) (by simp) rfl hv (by decide)
  | nsf | lenPrefixCost | distPrefixCost | savedPixelBits =>
    exact hfits (n := 8) (by simp) rfl hv (by decide)
  | slotSel =>
    obtain ⟨cls, ctx, h1, h2, h3⟩ := (slotSelOk_iff v).mp hv
    exact setWidth_setWidth_of_lt (n := 11) (by omega)
  | recIn => rfl
  | sfSel i =>
    simp only [Csr.read, Csr.write, Cfg.sfSelAt, Sparse.get_set_same]
    exact hfits (n := 7) (by simp) (r := .sfSel i) rfl hv (by decide)
  | cfSel j =>
    simp only [Csr.read, Csr.write, Cfg.cfSelAt, Sparse.get_set_same]
    exact hfits (n := 5) (by simp) (r := .cfSel j) rfl hv (by decide)
  | _ => cases hw

/-- A write leaves every other writable register alone. -/
theorem Csr.read_write_ne {r r' : Csr} (hw : r'.writable = true) (hne : r' ≠ r) (v : Word) (s : State) :
    r'.read { s with cfg := r.write v s.cfg } = r'.read s := by
  cases r with
  | sfSel i =>
    cases r' with
    | sfSel i' =>
      simp only [Csr.read, Csr.write, Cfg.sfSelAt]
      rw [Sparse.get_set_ne _ _ _ (fun h => hne (congrArg Csr.sfSel h))]
    | _ => rfl
  | cfSel j =>
    cases r' with
    | cfSel j' =>
      simp only [Csr.read, Csr.write, Cfg.cfSelAt]
      rw [Sparse.get_set_ne _ _ _ (fun h => hne (congrArg Csr.cfSel h))]
    | _ => rfl
  | _ => cases r' <;> first | exact absurd rfl hne | rfl | cases hw

theorem Csr.writable_iff (r : Csr) : r.writable = true ↔
    r ∈ ([.imgW, .imgH, .tileBits, .lYuv, .lA, .lSf, .lCf, .nsf, .ncf, .chainLimit, .lenPrefixCost,
      .distPrefixCost, .savedPixelBits, .slotSel, .recIn] : List Csr) ∨ (∃ i, r = .sfSel i) ∨ ∃ j, r = .cfSel j := by
  cases r <;> simp [Csr.writable, Csr.range]

/-- What a writable register reads does not depend on the response or the count. -/
theorem Csr.read_complete {r : Csr} (hw : r.writable = true) (s : State) (v : Word) :
    r.read (s.complete v) = r.read s := by
  cases r <;> first | rfl | cases hw

/-- The two subset tables stand at 128 and 32 addresses (R24). -/
theorem tables_iff (n : Nat) (r : Csr) :
    ((∃ i, i < 128 ∧ n = 0x0100 + i ∧ r = .sfSel i) ∨ ∃ j, j < 32 ∧ n = 0x0180 + j ∧ r = .cfSel j) ↔
      (0x0100 ≤ n ∧ n < 0x0180) ∧ r = .sfSel (n - 0x0100) ∨ (0x0180 ≤ n ∧ n < 0x01A0) ∧ r = .cfSel (n - 0x0180) := by
  constructor
  · rintro (⟨i, hi, rfl, rfl⟩ | ⟨j, hj, rfl, rfl⟩)
    · exact .inl ⟨by omega, by simp⟩
    · exact .inr ⟨by omega, by simp⟩
  · rintro (⟨hn, rfl⟩ | ⟨hn, rfl⟩)
    · exact .inl ⟨n - 0x0100, by omega, by omega, rfl⟩
    · exact .inr ⟨n - 0x0180, by omega, by omega, rfl⟩

/-! ### CSRW (R122) -/

theorem csrwBody_of_legal {a16 : BitVec 16} {r : Csr} {v : Word} (s : State) (h : Csr.ofAddr a16 = some r)
    (hw : r.writable = true) (hv : r.legal v = true) :
    csrwBody a16 v s = .ok ({ s with cfg := r.write v s.cfg }, 0) := by
  simp only [csrwBody, h, check_bind, hw, hv, Bool.true_eq_false, if_false, exec_pure]

theorem csrwBody_undefined {a16 : BitVec 16} (v : Word) (s : State) (h : Csr.ofAddr a16 = none) :
    csrwBody a16 v s = raise .illegalCmd := by
  simp only [csrwBody, h]

theorem csrwBody_readOnly {a16 : BitVec 16} {r : Csr} (v : Word) (s : State) (h : Csr.ofAddr a16 = some r)
    (hw : r.writable = false) : csrwBody a16 v s = raise .illegalCmd := by
  simp only [csrwBody, h, check_bind, hw, if_true]

theorem csrwBody_illegal {a16 : BitVec 16} {r : Csr} {v : Word} (s : State) (h : Csr.ofAddr a16 = some r)
    (hw : r.writable = true) (hv : r.legal v = false) : csrwBody a16 v s = raise .policy := by
  simp only [csrwBody, h, check_bind, hw, hv, Bool.true_eq_false, if_false, if_true]

/-! ### The views of the selected slot (R26) -/

theorem selectedSlot_eq {s : State} {c k : Nat} (hk : k < 32) (h : s.cfg.slotSel.toNat = 256 * c + k) :
    s.selectedSlot = s.slot c k := by
  have hlt := s.cfg.slotSel.isLt
  unfold State.selectedSlot
  rw [BitVec.extractLsb'_toNat, BitVec.extractLsb'_toNat, h, Nat.shiftRight_eq_div_pow, Nat.shiftRight_zero,
    show (256 * c + k) / 2 ^ 8 % 2 ^ 3 = c by omega, show (256 * c + k) % 2 ^ 5 = k by omega]

theorem slotView_of_idle {s : State} (f : Slot → Word) (h : s.selectedSlot.phase = .idle) : s.slotView f = 0 :=
  if_pos h

theorem slotView_of_not_idle {s : State} (f : Slot → Word) (h : s.selectedSlot.phase ≠ .idle) :
    s.slotView f = f s.selectedSlot := if_neg h

/-! ### Bits (20_memory.md R65, R66) -/

/-- `WriteBits` in the order of R65: bit `n - 1` first. -/
theorem msbBits_eq_map (n v : Nat) : msbBits n v = (List.range n).map (fun j => v.testBit (n - 1 - j)) := by
  induction n with
  | zero => rfl
  | succ n ih =>
    rw [msbBits, ih, List.range_succ_eq_map, List.map_cons, List.map_map]
    refine congrArg₂ _ (by simp) (List.map_congr_left fun j _ => ?_)
    simp [Nat.add_comm j 1, Nat.sub_sub]

/-- `ReadBits` where the stream has the bits. -/
theorem readBits_of_le {s : State} {n : Nat} (h : n ≤ s.br.length) :
    s.readBits n = .ok (bitsValue (s.br.take n), s.consumed n (s.br.drop n)) := by
  rw [readBits_eq, if_pos h]; rfl

/-- `ReadBits` where the stream ends before. -/
theorem readBits_of_lt {s : State} {n : Nat} (h : s.br.length < n) : s.readBits n = raise .truncated := by
  rw [readBits_eq, if_neg (Nat.not_le.mpr h)]

theorem readBits_truncated_iff (s : State) (n : Nat) : s.readBits n = raise .truncated ↔ s.br.length < n := by
  refine ⟨fun h => ?_, readBits_of_lt⟩
  by_contra hle
  rw [readBits_of_le (Nat.not_lt.mp hle)] at h
  exact raise_ne_ok _ _ h.symm

end Sys2Proof.Machine
end

section
/-! PROOFS. The statements of the system commands' family. -/

open Sys2Proof Sys2Proof.Machine

/-- Settles O14: bit by bit of the flags put together, and the read that needs a missing bit. -/
theorem statusReports : Obligations.StatusReports := by
  rintro s v rfl
  refine ⟨?_, ?_, readBits_truncated_iff s⟩
  · refine ⟨?_, ?_, ?_, ?_, ?_, ?_, ?_, ?_, fun j hj => ?_⟩
    all_goals simp only [Csr.read, State.status, BitVec.getLsbD_append]
    · simp
    · simp [State.brEos]
    · simp
    · rw [show s.lzRun = decide (0 < s.work.lz.runLeft.toNat) from ?_]
      · simp
      · rw [State.lzRun, bne, beq_eq_decide, ← decide_not, decide_eq_decide, ← BitVec.toNat_inj]
        exact Nat.pos_iff_ne_zero.symm
    · simp
    · simp
    · simp
    · simp
    · repeat rw [if_neg (by omega)]
      simp
  · cases hs : s.err with
    | false =>
      exact ⟨_, exec_of_body (i := .csrr 0x0001) (by simp) hs (t := s) (v := Csr.read .status s) rfl, rfl, rfl⟩
    | true => exact ⟨_, exec_csrr_of_err 0x0001 hs, rfl, rfl⟩

/-- Settles O15: the map by its table, the legal values by their ranges, and `CSRW` by the order of its checks. -/
theorem csrwWrites : Obligations.CsrwWrites := by
  refine ⟨fun a16 r => ?_, Csr.writable_iff, fun v i j => ⟨?_, slotSelOk_iff v⟩, fun a16 v s hs => ⟨?_, ?_, ?_, ?_⟩⟩
  · rw [tables_iff]
    unfold Csr.ofAddr
    split
    case h_51 =>
      simp only [imp_false] at *
      rw [or_iff_right (by simp [*])]
      split
      · simp [*, eq_comm, show ¬384 ≤ a16.toNat by omega]
      · split
        · simp [*, eq_comm]
        · simp [*]
    all_goals simp [*, eq_comm]
  · have hrecIn : v.toNat ≤ 4294967295 := Nat.le_of_lt_succ v.isLt
    simp [Csr.legal, Csr.range, hrecIn]
  · intro r hr hw hv
    exact ⟨_, exec_of_body (by simp) hs (csrwBody_of_legal s hr hw hv), rfl,
      (Csr.read_complete hw _ 0).trans (Csr.read_write_same hw hv s),
      fun r' hw' hne => (Csr.read_complete hw' _ 0).trans (Csr.read_write_ne hw' hne v s)⟩
  · exact fun hr => faults_of_body (by simp) hs (csrwBody_undefined v s hr)
  · exact fun r hr hw => faults_of_body (by simp) hs (csrwBody_readOnly v s hr hw)
  · exact fun r hr hw hv => faults_of_body (by simp) hs (csrwBody_illegal s hr hw hv)

/-- Settles O16: both commands run pseudocode that changes nothing, and the reads follow the table of R24. -/
theorem nopCsrrOnlyCount : Obligations.NopCsrrOnlyCount := by
  intro s hs
  refine ⟨exec_of_body (by simp) hs rfl, fun a16 => ⟨fun r hr => ?_, fun hr => ?_⟩, ?_, fun i => ⟨rfl, rfl⟩, fun hm => ?_,
    fun m hm => ?_, fun c k v hk hsel hv => ?_⟩
  · exact exec_of_body (by simp) hs (by simp only [bodyOf, csrrBody, hr])
  · exact faults_of_body (by simp) hs (by simp only [bodyOf, csrrBody, hr])
  · simp only [List.cons_append, List.nil_append, List.forall_mem_cons, List.not_mem_nil, false_imp_iff, implies_true,
      and_true]
    and_intros <;> rfl
  · simp [Csr.read, State.nextMatch, List.getElem?_eq_none hm, Config.noneMark]
  · simp [Csr.read, State.nextMatch, hm]
  · rw [← selectedSlot_eq hk hsel] at hv
    subst hv
    refine ⟨fun hidle => ?_, fun hp => ?_, fun hp => ?_, fun hp => ?_, fun hne => ⟨?_, ?_, ?_, ?_, ?_⟩⟩
    · simp [Csr.read, slotView_of_idle _ hidle]
    · rw [Csr.read, slotView_of_not_idle _ (by simp [hp]), hp]; rfl
    · rw [Csr.read, slotView_of_not_idle _ (by simp [hp]), hp]; rfl
    · rw [Csr.read, slotView_of_not_idle _ (by simp [hp]), hp]; rfl
    · exact slotView_of_not_idle Slot.nadd hne
    · exact slotView_of_not_idle Slot.nwr hne
    · exact slotView_of_not_idle Slot.zrun hne
    · exact slotView_of_not_idle (fun v => BitVec.ofNat 32 v.runList.length) hne
    · exact slotView_of_not_idle Slot.rlRd hne

/-- Settles O17: `PUTB` and `GETB` are `WriteBits` and `ReadBits` behind their range check. -/
theorem putbGetbMoveBits : Obligations.PutbGetbMoveBits := by
  intro n v s hs
  refine ⟨fun hn => ?_, fun hn hbr => ?_, fun hn hbr => ?_, fun hn => ⟨?_, ?_⟩⟩
  · have hbody : bodyOf (.putb n v) s = .ok (s.appendBits (msbBits n.toNat v.toNat), n.setWidth 32) := by
      simp [bodyOf, putbBody, Nat.not_lt.mpr hn]
    rw [exec_of_body (by simp) hs hbody, State.appendBits, length_msbBits, msbBits_eq_map,
      ← BitVec.ofNat_toNat]
    rfl
  · have hbody : bodyOf (.getb n) s =
        .ok (s.consumed n.toNat (s.br.drop n.toNat), BitVec.ofNat 32 (bitsValue (s.br.take n.toNat))) := by
      simp [bodyOf, getbBody, Nat.not_lt.mpr hn, readBits_of_le hbr]
    exact exec_of_body (by simp) hs hbody
  · exact faults_of_body (by simp) hs (by simp [bodyOf, getbBody, Nat.not_lt.mpr hn, readBits_of_lt hbr])
  · exact faults_of_body (by simp) hs (by simp [bodyOf, putbBody, hn])
  · exact faults_of_body (by simp) hs (by simp [bodyOf, getbBody, hn])

end

section
/-! PROOFS. Invariants over a step, and the invariants of the registers, the pixel memory, the fault record, the row
buffer and the tile maps (10_state.md R24, R38, R46, R49, 45_tile_filter.md R223, 60_exceptions.md R261). -/

namespace Sys2Proof.Machine

open Sys2Proof.Config

/-! ### One step and an invariant of the units -/

/-- An invariant of the units that reset establishes and every command's pseudocode keeps holds after a step that ends
outside the fault state. -/
theorem work_invariant_step {I : Work → Prop} {s t : State} (hs : s.err = false → I s.work) (hreset : I Work.reset)
    (hcmd : ∀ i s' u v, i ≠ .sreset → s'.cfg = s.cfg → I s'.work → bodyOf i s' = .ok (u, v) → I u.work)
    (h : step s = .next t) (ht : t.err = false) : I t.work := by
  obtain ⟨-, rfl⟩ | ⟨e, rest, -, h⟩ := step_next h
  · exact hs ht
  cases e with
  | writePixel | newInput | newOutput => cases h; exact hs ht
  | hardReset => cases h; exact hreset
  | command w =>
    obtain ⟨i, -, hexec⟩ | ⟨-, ⟨herr, rfl⟩ | ⟨-, rfl⟩⟩ := runWord_next h
    · obtain ⟨-, rfl⟩ | ⟨herr, -⟩ | ⟨herr, hi, ⟨u, v, hbody, rfl⟩ | ⟨c, -, rfl⟩⟩ := exec_next hexec
      · exact hreset
      · obtain ⟨rfl, -⟩ | hkeep := exec_in_fault herr hexec
        · cases hexec; exact hreset
        · unfold KeepsBlock at hkeep
          rw [hkeep] at ht
          exact absurd herr (by simpa using ht)
      · exact hcmd i (s.taken rest) u v hi rfl (hs herr) hbody
      · simp at ht
    · exact absurd herr (by simpa using ht)
    · simp at ht

/-! ### Registers, pixel memory, fault record (R24, R61, R261) -/

/-- The legal ranges of the registers `CSRW` writes, as facts. -/
theorem Cfg.legal_iff (c : Cfg) : c.legal = true ↔
    1 ≤ c.imgW.toNat ∧ 1 ≤ c.imgH.toNat ∧ (1 ≤ c.tileBits.toNat ∧ c.tileBits.toNat ≤ 8) ∧
      (1 ≤ c.lYuv.toNat ∧ c.lYuv.toNat ≤ 32) ∧ (1 ≤ c.lA.toNat ∧ c.lA.toNat ≤ 32) ∧
      (1 ≤ c.lSf.toNat ∧ c.lSf.toNat ≤ 32) ∧ (1 ≤ c.lCf.toNat ∧ c.lCf.toNat ≤ 32) ∧
      (1 ≤ c.nsf.toNat ∧ c.nsf.toNat ≤ 128) ∧ (1 ≤ c.ncf.toNat ∧ c.ncf.toNat ≤ 32) ∧
      1 ≤ c.chainLimit.toNat ∧ slotSelOk (c.slotSel.setWidth 32) = true := by
  simp only [Cfg.legal, Bool.and_eq_true, decide_eq_true_eq, and_assoc]

theorem Csr.bounds_of_legal {r : Csr} (hr : r ≠ .slotSel) {lo hi n : Nat} (hrange : r.range = some (lo, hi)) {v : Word}
    (hv : r.legal v = true) (hn : hi < 2 ^ n) : lo ≤ (v.setWidth n).toNat ∧ (v.setWidth n).toNat ≤ hi := by
  obtain ⟨hlo, hhi⟩ := (legal_iff_of_range hr hrange v).mp hv
  rw [BitVec.toNat_setWidth, Nat.mod_eq_of_lt (hhi.trans_lt hn)]
  exact ⟨hlo, hhi⟩

/-- `CSRW` of a legal value keeps every register legal (R24, R26). -/
theorem Csr.write_legal {r : Csr} {v : Word} {c : Cfg} (hv : r.legal v = true) (hc : c.legal = true) :
    (r.write v c).legal = true := by
  rw [Cfg.legal_iff] at *
  obtain ⟨hw, hh, hb, hyuv, ha, hsf, hcf, hnsf, hncf, hlim, hsel⟩ := hc
  cases r with
  | imgW => exact ⟨(bounds_of_legal (r := .imgW) (by simp) rfl hv (by decide)).1, hh, hb, hyuv, ha, hsf, hcf, hnsf, hncf, hlim, hsel⟩
  | imgH => exact ⟨hw, (bounds_of_legal (r := .imgH) (by simp) rfl hv (by decide)).1, hb, hyuv, ha, hsf, hcf, hnsf, hncf, hlim, hsel⟩
  | tileBits => exact ⟨hw, hh, bounds_of_legal (r := .tileBits) (by simp) rfl hv (by decide), hyuv, ha, hsf, hcf, hnsf, hncf, hlim, hsel⟩
  | lYuv => exact ⟨hw, hh, hb, bounds_of_legal (r := .lYuv) (by simp) rfl hv (by decide), ha, hsf, hcf, hnsf, hncf, hlim, hsel⟩
  | lA => exact ⟨hw, hh, hb, hyuv, bounds_of_legal (r := .lA) (by simp) rfl hv (by decide), hsf, hcf, hnsf, hncf, hlim, hsel⟩
  | lSf => exact ⟨hw, hh, hb, hyuv, ha, bounds_of_legal (r := .lSf) (by simp) rfl hv (by decide), hcf, hnsf, hncf, hlim, hsel⟩
  | lCf => exact ⟨hw, hh, hb, hyuv, ha, hsf, bounds_of_legal (r := .lCf) (by simp) rfl hv (by decide), hnsf, hncf, hlim, hsel⟩
  | nsf => exact ⟨hw, hh, hb, hyuv, ha, hsf, hcf, bounds_of_legal (r := .nsf) (by simp) rfl hv (by decide), hncf, hlim, hsel⟩
  | ncf => exact ⟨hw, hh, hb, hyuv, ha, hsf, hcf, hnsf, bounds_of_legal (r := .ncf) (by simp) rfl hv (by decide), hlim, hsel⟩
  | chainLimit => exact ⟨hw, hh, hb, hyuv, ha, hsf, hcf, hnsf, hncf, (bounds_of_legal (r := .chainLimit) (by simp) rfl hv (by decide)).1, hsel⟩
  | slotSel =>
    obtain ⟨cls, ctx, h1, h2, h3⟩ := (slotSelOk_iff v).mp hv
    refine ⟨hw, hh, hb, hyuv, ha, hsf, hcf, hnsf, hncf, hlim, ?_⟩
    rw [show ((Csr.slotSel.write v c).slotSel).setWidth 32 = v from
      setWidth_setWidth_of_lt (n := 11) (by omega)]
    exact hv
  | _ => exact ⟨hw, hh, hb, hyuv, ha, hsf, hcf, hnsf, hncf, hlim, hsel⟩

theorem csrwBody_ok {a16 : BitVec 16} {v w : Word} {s t : State} (h : csrwBody a16 v s = .ok (t, w)) :
    ∃ r : Csr, r.legal v = true ∧ t = { s with cfg := r.write v s.cfg } ∧ w = 0 := by
  unfold csrwBody at h
  split at h
  · simp at h
  · rename_i r _
    obtain ⟨_, -, h⟩ := bind_ok_iff.mp h
    obtain ⟨_, hlegal, h⟩ := bind_ok_iff.mp h
    rw [check_ok_iff] at hlegal
    obtain ⟨rfl, rfl⟩ := Prod.mk.inj (Except.ok.inj h)
    exact ⟨r, by simpa using hlegal, rfl, rfl⟩

theorem bodyOf_cfg_legal {i : Instr} {s u : State} {v : Word} (hi : i ≠ .sreset) (h : bodyOf i s = .ok (u, v))
    (hs : s.cfg.legal = true) : u.cfg.legal = true := by
  by_cases hc : ∃ a w, i = .csrw a w
  · obtain ⟨a, w, rfl⟩ := hc
    obtain ⟨r, hlegal, rfl, -⟩ := csrwBody_ok h
    exact Csr.write_legal hlegal hs
  · rw [((bodyOf_frame s hi).out u v h).cfg (partsOf_cfg fun a w hw => hc ⟨a, w, hw⟩)]
    exact hs

theorem Cause.code_bounds (c : Cause) : 1 ≤ c.code.toNat ∧ c.code.toNat ≤ 9 := by cases c <;> decide

/-- The pixel memory's form, legal registers and a consistent fault record (R24, R61, R261). -/
def RecordsOk (s : State) : Prop := s.pix.wf = true ∧ s.cfg.legal = true ∧ s.recordOk = true

theorem recordsOk_takeFault {s : State} (w : CmdWord) (c : Cause) (r : Reach) (h : RecordsOk s) :
    RecordsOk (takeFault w c r s) := by
  obtain ⟨hpix, hcfg, -⟩ := h
  exact ⟨wf_faultPix _ r hpix, hcfg, by simp [State.recordOk, Cause.code_bounds c]⟩

theorem recordsOk_applyReset {s : State} (h : RecordsOk s) : RecordsOk s.applyReset :=
  ⟨h.1, show Cfg.reset.legal = true by decide, rfl⟩

theorem recordsOk_exec (i : Instr) (s t : State) (hs : RecordsOk s) (h : exec i s = .next t) : RecordsOk t := by
  obtain ⟨-, rfl⟩ | ⟨-, ⟨a, -, rfl⟩ | rfl⟩ | ⟨-, hi, ⟨u, v, hbody, rfl⟩ | ⟨c, -, rfl⟩⟩ := exec_next h
  · have hreset := recordsOk_applyReset hs
    exact ⟨hreset.1, hreset.2.1, rfl⟩
  · unfold csrrInFault
    split <;> exact hs
  · exact hs
  · obtain ⟨hpix, hcfg, hrec⟩ := hs
    refine ⟨?_, show u.cfg.legal = true from bodyOf_cfg_legal hi hbody hcfg, ?_⟩
    · obtain hkept | ⟨off, p, -, hw⟩ := (bodyOf_pix s hi).out u v hbody
      · exact hkept ▸ hpix
      · exact hw ▸ Memory.wf_writePixel off p hpix
    · have hkeep := bodyOf_keeps s hi u v hbody
      unfold KeepsControl at hkeep
      rw [hkeep]
      exact hrec
  · exact recordsOk_takeFault _ _ _ hs

/-! ### The row buffer (R38) -/

/-- A row-buffer write at a column of the row keeps the border at zero and the scores bounded. -/
theorem Chaos.inv_set {c : Chaos} (h : c.inv = true) {lane : Lane} {i : Nat} (hi : 1 ≤ i ∧ i < 65536) {v : Byte}
    (hv : v.toNat ≤ 128) : Chaos.inv { c with row := Sparse.set 0 c.row (rowIndex lane i) v } = true := by
  simp only [Chaos.inv, Bool.and_eq_true] at *
  refine ⟨Sparse.wf_set _ _ h.1, Sparse.all_set h.2 ?_⟩
  have hcol : rowIndex lane i % 65536 ≠ 0 := by unfold rowIndex; omega
  simp [hcol, hv]

theorem chaosInv_setRow {s : State} (h : s.work.ch.inv = true) {lane : Lane} {i : Nat} (hi : 1 ≤ i ∧ i < 65536)
    {v : Byte} (hv : v.toNat ≤ 128) : (s.setRow lane i v).work.ch.inv = true := Chaos.inv_set h hi hv

theorem chaosInv_zeroLanes {s : State} (lanes : BitVec 4) {i : Nat} (hi : 1 ≤ i ∧ i < 65536) (ls : List Lane)
    (h : s.work.ch.inv = true) : (ls.foldl (zeroLane lanes i) s).work.ch.inv = true := by
  induction ls generalizing s with
  | nil => exact h
  | cons l ls ih =>
    refine ih ?_
    unfold zeroLane
    split
    · exact chaosInv_setRow h hi (by decide)
    · exact h

/-- Every command keeps the row buffer's invariant. -/
theorem bodyOf_chaosInv {i : Instr} {s u : State} {v : Word} (hi : i ≠ .sreset) (hs : s.work.ch.inv = true)
    (h : bodyOf i s = .ok (u, v)) : u.work.ch.inv = true := by
  by_cases hp : (partsOf i).ch = false
  · rw [((bodyOf_frame s hi).out u v h).ch hp]; exact hs
  cases i with
  | chinit => cases h; rfl
  | chput lane r x =>
    obtain ⟨_, hready, h⟩ := bind_ok_iff.mp h
    obtain ⟨-, hx⟩ := chaosReady_ok_iff.mp hready
    have hw := s.work.ch.w.isLt
    cases h
    exact chaosInv_setRow hs (by omega) (params_score_conforms.2.2.2 r)
  | chzero lanes x =>
    obtain ⟨_, hready, h⟩ := bind_ok_iff.mp h
    obtain ⟨-, hx⟩ := chaosReady_ok_iff.mp hready
    have hw := s.work.ch.w.isLt
    cases h
    exact chaosInv_zeroLanes lanes (by omega) _ hs
  | _ => exact absurd rfl hp

/-! ### The tile maps (R46, R49, R223) -/

theorem ceilShift_le (n b : Nat) : ceilShift n b ≤ n := by
  rw [ceilShift, Nat.shiftRight_eq_div_pow]
  have hpos := Nat.two_pow_pos b
  rcases Nat.eq_zero_or_pos n with rfl | hn
  · rw [Nat.div_eq_of_lt (by omega)]
  · refine Nat.lt_succ_iff.mp ((Nat.div_lt_iff_lt_mul hpos).mpr ?_)
    have hmul : n ≤ n * 2 ^ b := Nat.le_mul_of_pos_right n hpos
    rw [Nat.add_one_mul]
    omega

/-- The number of tiles across fits its register. -/
theorem toNat_ofNat_ceilShift (n : BitVec 16) (b : Nat) :
    (BitVec.ofNat 16 (ceilShift n.toNat b)).toNat = ceilShift n.toNat b := by
  rw [BitVec.toNat_ofNat, Nat.mod_eq_of_lt ((ceilShift_le n.toNat b).trans_lt n.isLt)]

theorem mapByteOk_of_lt {top : Nat} {b : Byte} (h : b.toNat < top) : mapByteOk top b = true := by
  simp [mapByteOk, h]

theorem mapByteOk_maskTile (top : Nat) : mapByteOk top maskTile = true := by simp [mapByteOk]

theorem ne_maskTile_of_lt {b : Byte} (h : b.toNat < 255) : b ≠ maskTile := by
  rintro rfl
  exact absurd h (by decide)

/-- The maps hold a pair of values a tile may have (R223). -/
def PairOk (sf cf : Byte) : Prop := mapByteOk 128 sf = true ∧ mapByteOk 32 cf = true ∧ (sf = maskTile ↔ cf = maskTile)

theorem pairOk_of_lt {sf cf : Byte} (hsf : sf.toNat < 128) (hcf : cf.toNat < 32) : PairOk sf cf :=
  ⟨mapByteOk_of_lt hsf, mapByteOk_of_lt hcf,
    iff_of_false (ne_maskTile_of_lt (by omega)) (ne_maskTile_of_lt (by omega))⟩

/-- A table of maps that hold legal pairs, with one tile given another legal pair. -/
theorem Tile.inv_of_update {t t' : Tile} (h : t.inv) (hw : t'.w = t.w) (hh : t'.h = t.h) (hb : t'.b = t.b)
    (htx : t'.tx = t.tx) (hty : t'.ty = t.ty) {i : Nat} {sf cf : Byte} (hpair : PairOk sf cf)
    (hsf : ∀ j, t'.sfAt j = if j = i then sf else t.sfAt j)
    (hcf : ∀ j, t'.cfAt j = if j = i then cf else t.cfAt j) : t'.inv := by
  obtain ⟨hx, hy, hok⟩ := h
  refine ⟨by rw [htx, hw, hb, hx], by rw [hty, hh, hb, hy], fun j => ?_⟩
  unfold tileOk
  rw [hsf, hcf]
  split
  · exact hpair
  · exact hok j

theorem Tile.inv_initialised (t : Tile) (c : Cfg) :
    (t.initialised c (ceilShift c.imgW.toNat c.tileBits.toNat) (ceilShift c.imgH.toNat c.tileBits.toNat)).inv :=
  ⟨toNat_ofNat_ceilShift .., toNat_ofNat_ceilShift .., fun _ => ⟨rfl, rfl, Iff.rfl⟩⟩

theorem symAdd_lt {r pred ns : Nat} (h : 0 < ns) : symAdd r pred ns < ns := Nat.mod_lt _ h

theorem toNat_ofNat_symAdd {r pred ns : Nat} (h : 0 < ns) (hns : ns ≤ 256) :
    (BitVec.ofNat 8 (symAdd r pred ns)).toNat = symAdd r pred ns := by
  rw [BitVec.toNat_ofNat, Nat.mod_eq_of_lt ((symAdd_lt h).trans_le hns)]

theorem Tile.sfAt_withMap_sf (t : Tile) (i j : Nat) (v : Byte) :
    (t.withMap .sf i v).sfAt j = if j = i then v else t.sfAt j := Sparse.get_set ..

theorem Tile.cfAt_withMap_cf (t : Tile) (i j : Nat) (v : Byte) :
    (t.withMap .cf i v).cfAt j = if j = i then v else t.cfAt j := Sparse.get_set ..

theorem ite_eq_same_at {α : Type} {f : Nat → α} {i j : Nat} : f j = if j = i then f i else f j := by
  split
  · subst_vars; rfl
  · rfl

theorem tileInv_tset {sf cf : Byte} {ty tx : BitVec 16} {s u : State} {v : Word} (hlegal : s.cfg.legal = true)
    (hs : s.work.tile.inv) (h : tsetBody sf cf ty tx s = .ok (u, v)) : u.work.tile.inv := by
  obtain ⟨-, -, -, -, -, -, -, ⟨-, hnsf⟩, ⟨-, hncf⟩, -⟩ := (Cfg.legal_iff _).mp hlegal
  obtain ⟨_, -, h⟩ := bind_ok_iff.mp h
  obtain ⟨_, hxor, h⟩ := bind_ok_iff.mp h
  obtain ⟨_, hrange, h⟩ := bind_ok_iff.mp h
  rw [check_ok_iff, not_not] at hxor
  rw [check_ok_iff] at hrange
  cases h
  refine Tile.inv_of_update hs rfl rfl rfl rfl rfl (sf := sf) (cf := cf) ?_ (fun _ => Sparse.get_set ..)
    (fun _ => Sparse.get_set ..)
  by_cases hm : sf = maskTile
  · have hc : cf = maskTile := hxor ▸ hm
    rw [hm, hc]
    exact ⟨mapByteOk_maskTile _, mapByteOk_maskTile _, Iff.rfl⟩
  · have hin : sf.toNat < s.cfg.nsf.toNat ∧ cf.toNat < s.cfg.ncf.toNat := by
      by_contra hout
      exact hrange ⟨hm, by omega⟩
    exact pairOk_of_lt (by omega) (by omega)

theorem tileInv_tmrec {rf : RowFilter} {plane : Plane} {r : Byte} {ty tx : BitVec 16} {s u : State} {v : Word}
    (hlegal : s.cfg.legal = true) (hs : s.work.tile.inv) (h : tmrecBody rf plane r ty tx s = .ok (u, v)) :
    u.work.tile.inv := by
  obtain ⟨-, -, -, -, -, -, -, hnsf, hncf, -⟩ := (Cfg.legal_iff _).mp hlegal
  obtain ⟨-, -, hok⟩ := id hs
  obtain ⟨_, -, h⟩ := bind_ok_iff.mp h
  obtain ⟨_, hmask, h⟩ := bind_ok_iff.mp h
  obtain ⟨_, hrange, h⟩ := bind_ok_iff.mp h
  rw [check_ok_iff] at hmask hrange
  cases h
  obtain ⟨hsf, hcf, hiff⟩ := hok (s.work.tile.index tx.toNat ty.toNat)
  cases plane with
  | sf =>
    have hv := symAdd_lt (r := r.toNat)
      (pred := tileNbr s.work.tile .sf (s.cfg.planeSyms .sf) tx.toNat ty.toNat rf)
      (ns := s.cfg.planeSyms .sf) hnsf.1
    have hto := toNat_ofNat_symAdd (r := r.toNat)
      (pred := tileNbr s.work.tile .sf (s.cfg.planeSyms .sf) tx.toNat ty.toNat rf)
      (ns := s.cfg.planeSyms .sf) hnsf.1 (hnsf.2.trans (by decide))
    have hle : s.cfg.planeSyms .sf ≤ 128 := hnsf.2
    refine Tile.inv_of_update hs rfl rfl rfl rfl rfl ⟨mapByteOk_of_lt (by omega), hcf, ?_⟩
      (fun _ => Tile.sfAt_withMap_sf ..) (fun _ => ite_eq_same_at)
    exact iff_of_false (ne_maskTile_of_lt (by omega)) fun hc => hmask (hiff.mpr hc)
  | cf =>
    have hv := symAdd_lt (r := r.toNat)
      (pred := tileNbr s.work.tile .cf (s.cfg.planeSyms .cf) tx.toNat ty.toNat rf)
      (ns := s.cfg.planeSyms .cf) hncf.1
    have hto := toNat_ofNat_symAdd (r := r.toNat)
      (pred := tileNbr s.work.tile .cf (s.cfg.planeSyms .cf) tx.toNat ty.toNat rf)
      (ns := s.cfg.planeSyms .cf) hncf.1 (hncf.2.trans (by decide))
    have hle : s.cfg.planeSyms .cf ≤ 32 := hncf.2
    refine Tile.inv_of_update hs rfl rfl rfl rfl rfl ⟨hsf, mapByteOk_of_lt (by omega), ?_⟩
      (fun _ => ite_eq_same_at) (fun _ => Tile.cfAt_withMap_cf ..)
    exact iff_of_false (fun hm => hmask (hiff.mp hm)) (ne_maskTile_of_lt (by omega))

/-- Every command keeps the tile unit's invariant, where the registers hold legal values. -/
theorem bodyOf_tileInv {i : Instr} {s u : State} {v : Word} (hi : i ≠ .sreset) (hlegal : s.cfg.legal = true)
    (hs : s.work.tile.inv) (h : bodyOf i s = .ok (u, v)) : u.work.tile.inv := by
  by_cases hp : (partsOf i).tile = false
  · rw [((bodyOf_frame s hi).out u v h).tile hp]; exact hs
  cases i with
  | tinit =>
    obtain ⟨_, -, h⟩ := bind_ok_iff.mp h
    cases h
    exact Tile.inv_initialised ..
  | tset sf cf ty tx => exact tileInv_tset hlegal hs h
  | tmrec rf plane r ty tx => exact tileInv_tmrec hlegal hs h
  | tsel msk y x =>
    obtain ⟨_, -, h⟩ := bind_ok_iff.mp h
    split at h
    · cases h; exact hs
    · obtain ⟨_, -, h⟩ := bind_ok_iff.mp h
      cases h; exact hs
  | resid expl sf cf y x =>
    obtain ⟨f, n, p, -, -, -, -, rfl⟩ := residBody_ok h
    exact hs
  | tsclr => cases h; exact hs
  | tsacc f =>
    obtain ⟨_, -, h⟩ := bind_ok_iff.mp h
    cases h; exact hs
  | _ => exact absurd rfl hp

theorem tileInv_reset : Work.reset.tile.inv := ⟨rfl, rfl, fun _ => ⟨rfl, rfl, Iff.rfl⟩⟩

end Sys2Proof.Machine
end

section
/-! PROOFS. The statements about these invariants. -/

open Sys2Proof Sys2Proof.Machine

/-- Settles O55: commands, rejections, host actions and resets keep the three, each for its own reason. -/
theorem registersAndMemoryKept : Obligations.RegistersAndMemoryKept := by
  intro s t hs h
  refine step_keeps RecordsOk recordsOk_exec ?_ (fun _ _ hs => hs) (fun _ _ hs => hs) ?_ (fun _ _ hs => hs)
    (fun _ hs => hs) (fun _ hs => recordsOk_applyReset hs) s t hs h
  · intro w s t hs h
    unfold rejectWord at h
    split at h <;> cases h
    · exact hs
    · exact recordsOk_takeFault _ _ _ hs
  · exact fun s off p ⟨hpix, hcfg, hrec⟩ => ⟨Memory.wf_writePixel _ _ hpix, hcfg, hrec⟩

/-- Settles O59: only the chaos commands write the row buffer, and only at columns past the border; only the tile
commands write the maps, and only legal pairs. -/
theorem chaosAndTileInvariantKept : Obligations.ChaosAndTileInvariantKept := by
  rintro s t ⟨hlegal, hs⟩ h ht
  refine work_invariant_step (I := fun w => w.ch.inv = true ∧ w.tile.inv) hs ⟨rfl, tileInv_reset⟩ ?_ h ht
  rintro i s' u v hi hcfg ⟨hch, htile⟩ hbody
  exact ⟨bodyOf_chaosInv hi hch hbody, bodyOf_tileInv hi (hcfg ▸ hlegal) htile hbody⟩

/-- Settles O60: every table is empty and every register has its reset value. -/
theorem invariantsHoldAtReset : Obligations.InvariantsHoldAtReset :=
  ⟨rfl, rfl, rfl, rfl, rfl, rfl, rfl, rfl, tileInv_reset⟩

end

section
/-! PROOFS. The chaos unit, the tile grid and maps, the score accumulators: what their commands answer and store. -/

namespace Sys2Proof.Machine

open Sys2Proof.Config

/-! ### Commands that replace only what stands inside the block -/

theorem answers_complete {s u : State} (v : Word) (h : u.cmdcnt = s.cmdcnt) : Answers s (u.complete v) v :=
  ⟨rfl, by rw [State.complete_cmdcnt, h]⟩

theorem keepsOutside_of_work (s : State) (w : Work) (v : Word) :
    KeepsOutside s (State.complete { s with work := w } v) := ⟨rfl, rfl, rfl, rfl, rfl, rfl, rfl, rfl, rfl, rfl⟩

/-! ### The chaos unit -/

theorem chaosReady_of_ready {s : State} {x : BitVec 16} (h : s.work.ch.rdy = true)
    (hx : x.toNat < s.work.ch.w.toNat) : chaosReady s x = .ok () := chaosReady_ok_iff.mpr ⟨h, hx⟩

theorem chaosReady_not_ready {s : State} (x : BitVec 16) (h : s.work.ch.rdy = false) :
    chaosReady s x = raise .sequence := by simp [chaosReady, h]

theorem chaosReady_column_out_of_range {s : State} {x : BitVec 16} (h : s.work.ch.rdy = true)
    (hx : s.work.ch.w.toNat ≤ x.toNat) : chaosReady s x = raise .policy := by
  simp [chaosReady, h, hx]

theorem toNat_score (r : Byte) : (params.score r).toNat = min r.toNat (256 - r.toNat) := by
  show (BitVec.ofNat 8 (min r.toNat (256 - r.toNat))).toNat = _
  rw [BitVec.toNat_ofNat, Nat.mod_eq_of_lt (by omega)]

theorem setWidth_score (r : Byte) : (params.score r).setWidth 32 = BitVec.ofNat 32 (min r.toNat (256 - r.toNat)) := by
  rw [← toNat_score]
  exact BitVec.eq_of_toNat_eq (by simp)

theorem row_zeroLane (lanes : BitVec 4) (s : State) (lane l : Lane) {i j : Nat} (hi : i < 65536) (hj : j < 65536) :
    (zeroLane lanes i s lane).row l j =
      if l = lane ∧ lanes.getLsbD lane.code.toNat = true ∧ j = i then 0 else s.row l j := by
  unfold zeroLane
  split
  next hlane => simp [row_setRow, rowIndex_inj hj hi, hlane]
  next hlane => simp [hlane]

theorem row_zeroLanes (lanes : BitVec 4) {i j : Nat} (hi : i < 65536) (hj : j < 65536) (l : Lane) (ls : List Lane)
    (s : State) : (ls.foldl (zeroLane lanes i) s).row l j =
      if l ∈ ls ∧ lanes.getLsbD l.code.toNat = true ∧ j = i then 0 else s.row l j := by
  induction ls generalizing s with
  | nil => simp
  | cons lane ls ih =>
    rw [List.foldl_cons, ih, row_zeroLane _ _ _ _ hi hj]
    by_cases hlane : l = lane
    · subst hlane
      by_cases hsel : lanes.getLsbD l.code.toNat = true ∧ j = i
      · simp [hsel]
      · simp [hsel]
    · simp [hlane]

theorem zeroLanes_eq (lanes : BitVec 4) (i : Nat) (ls : List Lane) (s : State) :
    ∃ row, ls.foldl (zeroLane lanes i) s =
      { s with work := { s.work with ch := { s.work.ch with row := row } } } := by
  induction ls generalizing s with
  | nil => exact ⟨s.work.ch.row, rfl⟩
  | cons lane ls ih =>
    obtain ⟨row, hrow⟩ := ih (zeroLane lanes i s lane)
    refine ⟨row, ?_⟩
    rw [List.foldl_cons, hrow]
    unfold zeroLane
    split <;> rfl

theorem mem_allLanes (l : Lane) : l ∈ [Lane.y, .u, .v, .a] := by cases l <;> decide

/-! ### The tile unit -/

theorem tileReady_of_ready {s : State} {tx ty : BitVec 16} (h : s.work.tile.rdy = true)
    (hx : tx.toNat < s.work.tile.tx.toNat) (hy : ty.toNat < s.work.tile.ty.toNat) : tileReady s tx ty = .ok () :=
  tileReady_ok_iff.mpr ⟨h, hx, hy⟩

theorem tileReady_not_ready {s : State} (tx ty : BitVec 16) (h : s.work.tile.rdy = false) :
    tileReady s tx ty = raise .sequence := by simp [tileReady, h]

theorem tileReady_out_of_grid {s : State} {tx ty : BitVec 16} (h : s.work.tile.rdy = true)
    (hxy : s.work.tile.tx.toNat ≤ tx.toNat ∨ s.work.tile.ty.toNat ≤ ty.toNat) :
    tileReady s tx ty = raise .policy := by simp [tileReady, h, hxy]

theorem pixelReady_of_ready {s : State} {x y : BitVec 16} (h : s.work.tile.rdy = true)
    (hx : x.toNat < s.work.tile.w.toNat) (hy : y.toNat < s.work.tile.h.toNat) : pixelReady s x y = .ok () :=
  pixelReady_ok_iff.mpr ⟨h, hx, hy⟩

theorem pixelReady_not_ready {s : State} (x y : BitVec 16) (h : s.work.tile.rdy = false) :
    pixelReady s x y = raise .sequence := by simp [pixelReady, h]

theorem pixelReady_out_of_image {s : State} {x y : BitVec 16} (h : s.work.tile.rdy = true)
    (hxy : s.work.tile.w.toNat ≤ x.toNat ∨ s.work.tile.h.toNat ≤ y.toNat) :
    pixelReady s x y = raise .policy := by simp [pixelReady, h, hxy]

theorem ceilShift_eq_div (n b : Nat) : ceilShift n b = (n + 2 ^ b - 1) / 2 ^ b := Nat.shiftRight_eq_div_pow _ _

/-- The response of `TSEL` as a number (R226). -/
theorem selWord_eq (t : Tile) (i : Nat) (first : Bool) :
    selWord t i first =
      BitVec.ofNat 32 ((t.sfAt i).toNat + 256 * (t.cfAt i).toNat + if first then 65536 else 0) := by
  apply BitVec.eq_of_toNat_eq
  unfold selWord
  have hsf := (t.sfAt i).isLt
  have hcf := (t.cfAt i).isLt
  have hlow : (t.sfAt i).toNat + 256 * (t.cfAt i).toNat < 2 ^ 16 := by omega
  rw [BitVec.toNat_append, BitVec.toNat_append, BitVec.toNat_append, BitVec.toNat_ofNat,
    ← Nat.shiftLeft_add_eq_or_of_lt hsf, ← Nat.shiftLeft_add_eq_or_of_lt (by omega)]
  cases first <;> simp [Nat.shiftLeft_eq] <;> omega

theorem tselBody_of_ready {s : State} (msk : Bool) {y x : BitVec 16} (h : s.work.tile.rdy = true)
    (hx : x.toNat < s.work.tile.w.toNat) (hy : y.toNat < s.work.tile.h.toNat) {i : Nat}
    (hi : s.work.tile.indexAt x.toNat y.toNat = i) :
    tselBody msk y x s =
      if msk then .ok (s, selWord s.work.tile i false)
      else if s.work.tile.sfAt i = maskTile then raise .sequence
      else .ok ({ s with work.tile := s.work.tile.markSeen i }, selWord s.work.tile i (!s.work.tile.seenAt i)) := by
  unfold tselBody
  rw [pixelReady_of_ready h hx hy, exec_ok_bind]
  simp only [hi, check_bind, exec_pure]

theorem tsetBody_of_ready {s : State} {sf cf : Byte} {ty tx : BitVec 16} (h : s.work.tile.rdy = true)
    (hx : tx.toNat < s.work.tile.tx.toNat) (hy : ty.toNat < s.work.tile.ty.toNat) :
    tsetBody sf cf ty tx s =
      if (sf = maskTile ↔ cf = maskTile) ∧
          (sf = maskTile ∨ sf.toNat < s.cfg.nsf.toNat ∧ cf.toNat < s.cfg.ncf.toNat) then
        .ok ({ s with work.tile :=
          s.work.tile.withPair (s.work.tile.index tx.toNat ty.toNat) sf cf }, 0)
      else raise .filterRange := by
  unfold tsetBody
  rw [tileReady_of_ready h hx hy, exec_ok_bind, check_bind]
  by_cases hxor : (sf = maskTile) = (cf = maskTile)
  · rw [if_neg (not_not.mpr hxor), check_bind]
    by_cases hm : sf = maskTile
    · simp [hm, hxor ▸ hm]
    · have hc : cf ≠ maskTile := fun hc => hm (hxor.mpr hc)
      by_cases hin : sf.toNat < s.cfg.nsf.toNat ∧ cf.toNat < s.cfg.ncf.toNat
      · rw [if_neg (by omega), if_pos ⟨iff_of_eq hxor, .inr hin⟩]; rfl
      · rw [if_pos ⟨hm, by omega⟩, if_neg fun hok => hin (hok.2.resolve_left hm)]
  · rw [if_pos hxor, if_neg fun hok => hxor (propext hok.1)]

/-! ### The best candidate (R239) -/

/-- Candidate `b` is the lowest of those below `f` with the smallest score. -/
def LowestBest (t : Tile) (f b : Nat) : Prop :=
  ∀ g, g < f → (t.accAt b).toNat ≤ (t.accAt g).toNat ∧ (g < b → (t.accAt b).toNat < (t.accAt g).toNat)

theorem bestFrom_lowest (t : Tile) (n : Nat) {f b : Nat} (hb : b < f ∨ f = 0 ∧ b = 0) (h : LowestBest t f b) :
    (bestFrom t n f b < f + n ∨ f + n = 0) ∧ LowestBest t (f + n) (bestFrom t n f b) := by
  induction n generalizing f b with
  | zero => exact ⟨by unfold bestFrom; omega, h⟩
  | succ n ih =>
    rw [bestFrom, show f + (n + 1) = f + 1 + n by omega]
    split
    next hlt =>
      refine ih (by omega) fun g hg => ?_
      obtain hg | rfl := Nat.lt_succ_iff_lt_or_eq.mp hg
      · have hle := (h g hg).1
        omega
      · omega
    next hge =>
      refine ih (by omega) fun g hg => ?_
      obtain hg | rfl := Nat.lt_succ_iff_lt_or_eq.mp hg
      · exact h g hg
      · omega

/-! ### The tile maps as text (R240 to R243) -/

theorem symSub_eq {v pred ns : Nat} (h : pred ≤ ns) : symSub v pred ns = (v + ns - pred) % ns := by
  unfold symSub
  have hcast : ((v + ns - pred : Nat) : Int) = (v : Int) - pred + ns := by omega
  rw [← Int.add_emod_right, ← hcast, ← Int.natCast_emod, Int.toNat_natCast]

theorem tileNbr_lt_or (t : Tile) (p : Plane) (ns tx ty : Nat) (rf : RowFilter) :
    tileNbr t p ns tx ty rf = 0 ∨ tileNbr t p ns tx ty rf < ns := by
  unfold tileNbr
  split
  · exact .inl rfl
  · dsimp only
    split
    · exact .inl rfl
    · exact .inr (by omega)

theorem tileNbr_eq (t : Tile) (p : Plane) (ns tx ty : Nat) (rf : RowFilter) {dx dy j : Nat}
    (hdx : dx = if rf = .left ∨ rf = .upLeft then 1 else 0) (hdy : dy = if rf = .up ∨ rf = .upLeft then 1 else 0)
    (hj : j = (ty - dy) * t.tx.toNat + (tx - dx)) :
    tileNbr t p ns tx ty rf =
      if rf = .noop ∨ tx < dx ∨ ty < dy ∨ t.seenAt j = false ∨ ns ≤ (t.mapAt p j).toNat then 0
      else (t.mapAt p j).toNat := by
  have hx : filterDx rf = dx := by rw [hdx]; cases rf <;> rfl
  have hy : filterDy rf = dy := by rw [hdy]; cases rf <;> rfl
  have hindex : t.index (tx - dx) (ty - dy) = j := hj.symm
  unfold tileNbr
  rw [hx, hy, hindex, ← ite_or]
  simp only [or_assoc]

theorem Cfg.planeSyms_eq (c : Cfg) (p : Plane) :
    c.planeSyms p = if p = .sf then c.nsf.toNat else c.ncf.toNat := by cases p <;> rfl

theorem Cfg.planeSyms_lt (c : Cfg) (p : Plane) : c.planeSyms p < 256 := by
  cases p with
  | sf => exact c.nsf.isLt
  | cf => have := c.ncf.isLt; show c.ncf.toNat < 256; omega

theorem Tile.mapAt_withMap (t : Tile) (p q : Plane) (i k : Nat) (v : Byte) :
    (t.withMap p i v).mapAt q k = if q = p ∧ k = i then v else t.mapAt q k := by
  cases p <;> cases q <;>
    simp [Tile.mapAt, Tile.withMap, Tile.sfAt, Tile.cfAt, Sparse.get_set]

theorem Tile.withMap_eq (t : Tile) (p : Plane) (i : Nat) (v : Byte) :
    t.withMap p i v = { t with sfMap := (t.withMap p i v).sfMap, cfMap := (t.withMap p i v).cfMap } := by
  cases p <;> rfl

theorem tmresBody_of_ready {s : State} (rf : RowFilter) (plane : Plane) {ty tx : BitVec 16}
    (h : s.work.tile.rdy = true) (hx : tx.toNat < s.work.tile.tx.toNat) (hy : ty.toNat < s.work.tile.ty.toNat)
    {i : Nat} (hi : s.work.tile.index tx.toNat ty.toNat = i) {v : Byte} (hv : s.work.tile.mapAt plane i = v) :
    tmresBody rf plane ty tx s =
      if v = maskTile then .ok (s, maskedWord)
      else if s.cfg.planeSyms plane ≤ v.toNat then raise .filterRange
      else .ok (s, BitVec.ofNat 32 (symSub v.toNat
        (tileNbr s.work.tile plane (s.cfg.planeSyms plane) tx.toNat ty.toNat rf) (s.cfg.planeSyms plane))) := by
  unfold tmresBody
  rw [tileReady_of_ready h hx hy, exec_ok_bind]
  simp only [hi, hv, check_bind, exec_pure]

theorem tmrecBody_of_ready {s : State} (rf : RowFilter) (plane : Plane) (r : Byte) {ty tx : BitVec 16}
    (h : s.work.tile.rdy = true) (hx : tx.toNat < s.work.tile.tx.toNat) (hy : ty.toNat < s.work.tile.ty.toNat)
    {i : Nat} (hi : s.work.tile.index tx.toNat ty.toNat = i) {v : Nat}
    (hv : symAdd r.toNat (tileNbr s.work.tile plane (s.cfg.planeSyms plane) tx.toNat ty.toNat rf)
      (s.cfg.planeSyms plane) = v) :
    tmrecBody rf plane r ty tx s =
      if s.work.tile.mapAt plane i = maskTile then raise .sequence
      else if s.cfg.planeSyms plane ≤ r.toNat then raise .filterRange
      else .ok ({ s with work.tile := s.work.tile.withMap plane i (BitVec.ofNat 8 v) }, BitVec.ofNat 32 v) := by
  unfold tmrecBody
  rw [tileReady_of_ready h hx hy, exec_ok_bind]
  simp only [hi, hv, check_bind, exec_pure]

end Sys2Proof.Machine
end

section
/-! PROOFS. The statements about the chaos unit, the tile grid and the score accumulators. -/

open Sys2Proof Sys2Proof.Machine Sys2Proof.Config

/-- Settles O32: both bodies are a single assignment; the pixel count of a 16-bit by 16-bit image fits 32 bits. -/
theorem initCommandsClear : Obligations.InitCommandsClear := by
  intro s hs
  refine ⟨⟨_, exec_of_body (i := .chinit) (by simp) hs rfl, ⟨rfl, rfl⟩, keepsOutside_of_work .., rfl, rfl, rfl, rfl,
      fun _ _ => rfl⟩,
    ⟨_, exec_of_body (i := .lzinit) (by simp) hs rfl, ⟨rfl, rfl⟩, keepsOutside_of_work .., rfl, rfl, rfl, ?_, rfl,
      fun _ => rfl, rfl, rfl, rfl, rfl, rfl, rfl, rfl, rfl, rfl, rfl, rfl⟩⟩
  show (s.cfg.imgW.setWidth 32 * s.cfg.imgH.setWidth 32).toNat = _
  have hlt : s.cfg.imgW.toNat * s.cfg.imgH.toNat < 2 ^ 16 * 2 ^ 16 :=
    Nat.mul_lt_mul'' s.cfg.imgW.isLt s.cfg.imgH.isLt
  rw [BitVec.toNat_mul, BitVec.toNat_setWidth_of_le (by decide), BitVec.toNat_setWidth_of_le (by decide),
    Nat.mod_eq_of_lt (by omega)]

/-- Settles O33: by the three outcomes of the row buffer's checks. -/
theorem chgetAnswersBin : Obligations.ChgetAnswersBin := by
  intro lane x s hs
  refine ⟨fun hrdy hx L sum hL hsum => ?_, fun hrdy => ?_, fun hrdy hx => ?_⟩
  · have hbody : bodyOf (.chget lane x) s =
        .ok (s, BitVec.ofNat 32 (min (L - 1) (if sum = 0 then 0 else Nat.log2 sum + 1))) := by
      show (chaosBin params s lane x >>= fun k => pure (s, BitVec.ofNat 32 k)) = _
      rw [chaosBin_of_ready params lane hrdy hx, hL, hsum, ← Cfg.laneLevels_eq]
      rfl
    exact exec_of_body (by simp) hs hbody
  · refine faults_of_body (by simp) hs ?_
    show (chaosBin params s lane x >>= _) = _
    rw [chaosBin_not_ready params lane x hrdy]; rfl
  · refine faults_of_body (by simp) hs ?_
    show (chaosBin params s lane x >>= _) = _
    rw [chaosBin_column_out_of_range params lane hrdy hx]; rfl

/-- Settles O34: by the three outcomes of the row buffer's checks; distinct lanes and columns have distinct entries. -/
theorem chputChzeroStore : Obligations.ChputChzeroStore := by
  intro x s hs
  refine ⟨fun hrdy hx => ⟨fun lane r => ?_, fun lanes => ?_⟩, fun lane r lanes =>
    ⟨fun hrdy => ⟨faults_of_body (by simp) hs ?_, faults_of_body (by simp) hs ?_⟩,
      fun hrdy hx => ⟨faults_of_body (by simp) hs ?_, faults_of_body (by simp) hs ?_⟩⟩⟩
  · have hbody : bodyOf (.chput lane r x) s =
        .ok (s.setRow lane (x.toNat + 1) (params.score r), BitVec.ofNat 32 (min r.toNat (256 - r.toNat))) := by
      show (chaosReady s x >>= _) = _
      rw [chaosReady_of_ready hrdy hx, exec_ok_bind, setWidth_score]; rfl
    refine ⟨_, exec_of_body (by simp) hs hbody, ⟨rfl, rfl⟩, keepsOutside_of_work .., rfl, rfl, fun l i hi => ?_⟩
    have hw := s.work.ch.w.isLt
    show ((s.setRow lane (x.toNat + 1) (params.score r)).row l i).toNat = _
    rw [row_setRow, apply_ite BitVec.toNat, toNat_score]
    exact if_congr (rowIndex_inj hi (by omega)) rfl rfl
  · have hbody : bodyOf (.chzero lanes x) s =
        .ok ([Lane.y, .u, .v, .a].foldl (zeroLane lanes (x.toNat + 1)) s, 0) := by
      show (chaosReady s x >>= _) = _
      rw [chaosReady_of_ready hrdy hx]; rfl
    have hw := s.work.ch.w.isLt
    have hrow := fun l i (hi : i < 65536) =>
      row_zeroLanes lanes (i := x.toNat + 1) (by omega) hi l [Lane.y, .u, .v, .a] s
    obtain ⟨row, heq⟩ := zeroLanes_eq lanes (x.toNat + 1) [Lane.y, .u, .v, .a] s
    rw [heq] at hbody hrow
    refine ⟨_, exec_of_body (by simp) hs hbody, ⟨rfl, rfl⟩, keepsOutside_of_work .., rfl, rfl, fun l i hi => ?_⟩
    exact (hrow l i hi).trans (if_congr (and_iff_right (mem_allLanes l)) rfl rfl)
  all_goals show (chaosReady s x >>= _) = _
  · rw [chaosReady_not_ready x hrdy]; rfl
  · rw [chaosReady_not_ready x hrdy]; rfl
  · rw [chaosReady_column_out_of_range hrdy hx]; rfl
  · rw [chaosReady_column_out_of_range hrdy hx]; rfl

/-- Settles O45: the tile counts fit their registers because they are at most the image's width and height. -/
theorem tinitLatches : Obligations.TinitLatches := by
  intro s tx ty hs htx hty
  rw [← ceilShift_eq_div] at htx hty
  have hbody : bodyOf .tinit s = if 1048576 < tx * ty then raise .resource else
      .ok ({ s with work.tile := s.work.tile.initialised s.cfg tx ty }, BitVec.ofNat 32 (tx * ty)) := by
    rw [htx, hty]
    exact check_bind ..
  refine ⟨fun hle => ?_, fun hlt => faults_of_body (by simp) hs (hbody.trans (if_pos hlt))⟩
  refine ⟨_, exec_of_body (by simp) hs (hbody.trans (if_neg (by omega))), ⟨rfl, rfl⟩, keepsOutside_of_work ..,
    rfl, rfl, rfl, rfl, rfl, rfl, ?_, ?_, rfl, rfl, fun i => ⟨rfl, rfl, rfl⟩⟩
  · rw [htx]; exact toNat_ofNat_ceilShift ..
  · rw [hty]; exact toNat_ofNat_ceilShift ..

/-- Settles O46: the two range checks together say which pairs are legal. -/
theorem tsetSetsPair : Obligations.TsetSetsPair := by
  intro sf cf ty tx s i hs hi
  refine ⟨fun hrdy => faults_of_body (by simp) hs ?_, fun hrdy hxy => faults_of_body (by simp) hs ?_,
    fun hrdy hx hy => ?_⟩
  · show (tileReady s tx ty >>= _) = _
    rw [tileReady_not_ready tx ty hrdy]; rfl
  · show (tileReady s tx ty >>= _) = _
    rw [tileReady_out_of_grid hrdy hxy]; rfl
  have hbody : bodyOf (.tset sf cf ty tx) s = _ := tsetBody_of_ready hrdy hx hy
  rw [show s.work.tile.index tx.toNat ty.toNat = i from hi.symm, show maskTile = 255 from rfl] at hbody
  refine ⟨fun hok => ?_, fun hbad => faults_of_body (by simp) hs (hbody.trans (if_neg ?_))⟩
  · rw [if_pos (by tauto)] at hbody
    exact ⟨_, exec_of_body (by simp) hs hbody, ⟨rfl, rfl⟩, keepsOutside_of_work .., rfl, rfl,
      fun j => Sparse.get_set .., fun j => Sparse.get_set ..⟩
  · rintro ⟨hiff, hin⟩
    have hout : (s.cfg.nsf.toNat ≤ sf.toNat ∨ s.cfg.ncf.toNat ≤ cf.toNat) →
        ¬(sf.toNat < s.cfg.nsf.toNat ∧ cf.toNat < s.cfg.ncf.toNat) := by omega
    tauto

/-- Settles O47: by the three outcomes of the pixel's checks, then by the mask flag and the tile's map byte. -/
theorem tselReportsFirstVisit : Obligations.TselReportsFirstVisit := by
  intro y x s i val hs hi hval
  refine ⟨fun msk hrdy => faults_of_body (by simp) hs ?_, fun msk hrdy hxy => faults_of_body (by simp) hs ?_,
    fun hrdy hx hy => ?_⟩
  · show (pixelReady s x y >>= _) = _
    rw [pixelReady_not_ready x y hrdy]; rfl
  · show (pixelReady s x y >>= _) = _
    rw [pixelReady_out_of_image hrdy hxy]; rfl
  have hindex : s.work.tile.indexAt x.toNat y.toNat = i := (Tile.indexAt_eq ..).trans hi.symm
  have hsel := fun first => hval ▸ selWord_eq s.work.tile i first
  refine ⟨exec_of_body (i := .tsel true y x) (by simp) hs ?_,
    fun hm => faults_of_body (i := .tsel false y x) (by simp) hs ?_, fun hm => ?_⟩
  · exact (tselBody_of_ready true hrdy hx hy hindex).trans (by rw [hsel]; rfl)
  · exact (tselBody_of_ready false hrdy hx hy hindex).trans (if_pos hm)
  · have hbody : bodyOf (.tsel false y x) s = .ok ({ s with work.tile := s.work.tile.markSeen i },
        BitVec.ofNat 32 (val + if s.work.tile.seenAt i then 0 else 65536)) := by
      refine (tselBody_of_ready false hrdy hx hy hindex).trans ((if_neg hm).trans ?_)
      rw [hsel]
      cases s.work.tile.seenAt i <;> rfl
    refine ⟨_, exec_of_body (by simp) hs hbody, ⟨rfl, rfl⟩, keepsOutside_of_work .., rfl, rfl, fun j => ?_⟩
    refine (Sparse.get_set false s.work.tile.seen i j true).trans ?_
    by_cases hj : j = i <;> simp [hj, Tile.seenAt]

/-- Settles O52: the sum of a counter and three scores is stored by `sat32`. -/
theorem scoresAccumulate : Obligations.ScoresAccumulate := by
  intro f s hs
  refine ⟨⟨_, exec_of_body (i := .tsclr) (by simp) hs rfl, ⟨rfl, rfl⟩, keepsOutside_of_work .., rfl, rfl,
    fun _ => rfl⟩, fun c total hf hc htotal => ?_, fun hf => faults_of_body (by simp) hs ?_⟩
  case refine_2 =>
    show (check (127 < f.toNat) .policy >>= _) = _
    rw [check_true _ hf]; rfl
  have hsum : sat32 ((s.work.tile.accAt f.toNat).toNat + residScore params s.work.tile.res) = BitVec.ofNat 32 total := by
    rw [htotal, hc, sat32, residScore, toNat_score, toNat_score, toNat_score, ← add_assoc, ← add_assoc]
    exact congrArg (BitVec.ofNat 32) (Nat.min_comm _ _)
  have hbody : bodyOf (.tsacc f) s = .ok ({ s with
      work.tile.acc := Sparse.set 0 s.work.tile.acc f.toNat (BitVec.ofNat 32 total) }, BitVec.ofNat 32 total) := by
    show (check (127 < f.toNat) .policy >>= _) = _
    rw [check_false _ (by omega), exec_ok_bind]
    simp only [hsum]
    rfl
  refine ⟨_, exec_of_body (by simp) hs hbody, ⟨rfl, rfl⟩, keepsOutside_of_work .., rfl, rfl, fun g => ?_⟩
  refine (congrArg BitVec.toNat (Sparse.get_set 0 s.work.tile.acc f.toNat g (BitVec.ofNat 32 total))).trans ?_
  rw [apply_ite BitVec.toNat, BitVec.toNat_ofNat, Nat.mod_eq_of_lt (by omega)]
  rfl

/-- Settles O53: the scan keeps the lowest best of the candidates it has passed. -/
theorem tsbestAnswersMinimum : Obligations.TsbestAnswersMinimum := by
  intro n s hs
  refine ⟨fun hlo hhi => ?_, fun hn => faults_of_body (by simp) hs ?_⟩
  case refine_2 =>
    show (check (n.toNat < 1 ∨ 128 < n.toNat) .policy >>= _) = _
    rw [check_true _ hn]; rfl
  obtain ⟨hlt, hbest⟩ := bestFrom_lowest s.work.tile n.toNat (f := 0) (b := 0) (.inr ⟨rfl, rfl⟩)
    (fun g hg => absurd hg (Nat.not_lt_zero g))
  rw [Nat.zero_add] at hlt hbest
  have hbody : bodyOf (.tsbest n) s = .ok (s, BitVec.ofNat 32 (bestFrom s.work.tile n.toNat 0 0)) := by
    show (check (n.toNat < 1 ∨ 128 < n.toNat) .policy >>= _) = _
    rw [check_false _ (by omega)]; rfl
  exact ⟨_, by omega, exec_of_body (by simp) hs hbody, hbest⟩

/-- Settles O54: by the outcomes of the tile's checks, then by the tile's map byte and the residual's range. -/
theorem tileMapResiduals : Obligations.TileMapResiduals := by
  intro rf plane r ty tx s i ns dx dy j pred hs hi hns hdx hdy hj hpred
  rw [← Cfg.planeSyms_eq] at hns
  have hindex : s.work.tile.index tx.toNat ty.toNat = i := hi.symm
  have hnbr : tileNbr s.work.tile plane ns tx.toNat ty.toNat rf = pred :=
    (tileNbr_eq _ _ _ _ _ rf hdx hdy hj).trans hpred.symm
  refine ⟨fun hrdy => ⟨faults_of_body (by simp) hs ?_, faults_of_body (by simp) hs ?_⟩,
    fun hrdy hxy => ⟨faults_of_body (by simp) hs ?_, faults_of_body (by simp) hs ?_⟩, fun hrdy hx hy => ?_⟩
  iterate 2
    · show (tileReady s tx ty >>= _) = _
      rw [tileReady_not_ready tx ty hrdy]; rfl
  iterate 2
    · show (tileReady s tx ty >>= _) = _
      rw [tileReady_out_of_grid hrdy hxy]; rfl
  have hres : bodyOf (.tmres rf plane ty tx) s = _ := tmresBody_of_ready rf plane hrdy hx hy hindex rfl
  have hrec : bodyOf (.tmrec rf plane r ty tx) s = _ := tmrecBody_of_ready rf plane r hrdy hx hy hindex rfl
  rw [← hns, hnbr, show maskTile = 255 from rfl] at hres hrec
  refine ⟨fun hm => ⟨?_, faults_of_body (by simp) hs (hrec.trans (if_pos hm))⟩, fun hm => ?_⟩
  · exact exec_of_body (by simp) hs (hres.trans (if_pos hm))
  rw [if_neg hm] at hres hrec
  have hpos := tileNbr_lt_or s.work.tile plane ns tx.toNat ty.toNat rf
  rw [hnbr] at hpos
  refine ⟨fun hout => faults_of_body (by simp) hs (hres.trans (if_pos hout)), fun hin => ?_,
    fun hout => faults_of_body (by simp) hs (hrec.trans (if_pos hout)), fun hin => ?_⟩
  · rw [if_neg (by omega), symSub_eq (by omega)] at hres
    exact exec_of_body (by simp) hs hres
  · rw [if_neg (by omega)] at hrec
    have hlt := s.cfg.planeSyms_lt plane
    refine ⟨_, exec_of_body (by simp) hs hrec, ⟨rfl, rfl⟩, keepsOutside_of_work .., rfl, ?_, fun p k => ?_⟩
    · exact congrArg (fun t => { s.work with tile := t }) (Tile.withMap_eq ..)
    · show ((s.work.tile.withMap plane i _).mapAt p k).toNat = _
      rw [Tile.mapAt_withMap, apply_ite BitVec.toNat, toNat_ofNat_symAdd (by omega) (by omega)]
      rfl

end

section
/-! PROOFS. The commands that read pixels: the neighbours of a pixel, its residual and its reconstruction, and the
stop at a pixel nothing has written (45_tile_filter.md R228, R234, R235, 20_memory.md R63). -/

namespace Sys2Proof.Machine

open Sys2Proof.Config

theorem readPix_of_none {s : State} {off : Nat} (h : s.pix.readPixel off = none) :
    s.readPix off = .error (.model (.pixelNeverWritten off)) := by
  unfold State.readPix
  rw [h]

/-! ### The neighbours of a pixel -/

/-- Where every pixel before pixel `(x, y)` has been written, its neighbours are those of the image (R228). -/
theorem neighbours_of_image {s : State} {img : Nat → Word} {x y : Nat} (hx : x < s.work.tile.w.toNat)
    (himg : ∀ q, q < y * s.work.tile.w.toNat + x → s.pix.readPixel q = some (img q)) :
    neighbours s x y = .ok (imageNeighbours img s.work.tile.w.toNat x y) := by
  have hrow : 0 < y → s.work.tile.w.toNat ≤ y * s.work.tile.w.toNat := Nat.le_mul_of_pos_left _
  have hleft := fun o => rgbAt_of_some (s := s) (p := 0 < x) (o := o) fun h =>
    himg (y * s.work.tile.w.toNat + x - 1) (by omega)
  have hup := fun o => rgbAt_of_some (s := s) (p := 0 < y) (o := o) fun h =>
    himg (y * s.work.tile.w.toNat + x - s.work.tile.w.toNat) (by have := hrow h; omega)
  have hupLeft := fun o => rgbAt_of_some (s := s) (p := 0 < x ∧ 0 < y) (o := o) fun h =>
    himg (y * s.work.tile.w.toNat + x - s.work.tile.w.toNat - 1) (by have := hrow h.2; omega)
  have hupRight := fun o => rgbAt_of_some (s := s) (p := 0 < y ∧ x + 1 < s.work.tile.w.toNat) (o := o) fun h =>
    himg (y * s.work.tile.w.toNat + x - s.work.tile.w.toNat + 1) (by have := hrow h.1; omega)
  unfold neighbours imageNeighbours Tile.offset
  simp only [hleft, hup, hupLeft, hupRight, exec_ok_bind, exec_pure]

theorem neighbours_left_unwritten {s : State} {x y p : Nat} (hx : 0 < x)
    (hp : p + 1 = y * s.work.tile.w.toNat + x) (h : s.pix.readPixel p = none) :
    neighbours s x y = .error (.model (.pixelNeverWritten p)) := by
  have hread : s.rgbAt (0 < x) (s.work.tile.offset x y - 1) ⟨0, 0, 0⟩ = .error (.model (.pixelNeverWritten p)) := by
    rw [State.rgbAt, if_pos hx, show s.work.tile.offset x y - 1 = p by unfold Tile.offset; omega, readPix_of_none h]
    rfl
  unfold neighbours
  dsimp only
  rw [hread]
  rfl

/-! ### The pixel commands -/

/-- What a pixel command does once its checks have passed is what follows the read of the neighbours. -/
theorem residBody_of_checks {P : Params} {expl : Bool} {sf cf : Byte} {y x : BitVec 16} {s : State} {f : Nat × Nat}
    (hready : pixelReady s x y = .ok ()) (hf : filters P s expl sf cf x.toNat y.toNat = .ok f) :
    residBody P expl sf cf y x s = do
      let n ← neighbours s x.toNat y.toNat
      let p ← s.readPix (s.work.tile.offset x.toNat y.toNat)
      return ({ s with work.tile.res := residWord P f.1 f.2 n p }, residWord P f.1 f.2 n p) := by
  unfold residBody
  rw [hready, exec_ok_bind, hf, exec_ok_bind]

theorem reconBody_of_checks {P : Params} {expl : Bool} {sf cf : Byte} {y x : BitVec 16} {s : State} {f : Nat × Nat}
    (hready : pixelReady s x y = .ok ()) (hf : filters P s expl sf cf x.toNat y.toNat = .ok f) :
    reconBody P expl sf cf y x s = do
      let n ← neighbours s x.toNat y.toNat
      return (s.writePix (s.work.tile.offset x.toNat y.toNat) (reconWord P f.1 f.2 n s.cfg.recIn),
        reconWord P f.1 f.2 n s.cfg.recIn) := by
  unfold reconBody
  rw [hready, exec_ok_bind, hf, exec_ok_bind]

section
variable {s : State} (expl : Bool) (sf cf : Byte) (y x : BitVec 16) (hs : s.err = false)
include hs

theorem pixelCommands_not_ready (h : s.work.tile.rdy = false) :
    Faults (.resid expl sf cf y x) s .sequence ∧ Faults (.recon expl sf cf y x) s .sequence := by
  refine ⟨faults_of_body (by simp) hs ?_, faults_of_body (by simp) hs ?_⟩
  all_goals
    show (pixelReady s x y >>= _) = _
    rw [pixelReady_not_ready x y h]; rfl

theorem pixelCommands_out_of_image (h : s.work.tile.rdy = true)
    (hxy : s.work.tile.w.toNat ≤ x.toNat ∨ s.work.tile.h.toNat ≤ y.toNat) :
    Faults (.resid expl sf cf y x) s .policy ∧ Faults (.recon expl sf cf y x) s .policy := by
  refine ⟨faults_of_body (by simp) hs ?_, faults_of_body (by simp) hs ?_⟩
  all_goals
    show (pixelReady s x y >>= _) = _
    rw [pixelReady_out_of_image h hxy]; rfl

theorem pixelCommands_filters_raise (h : pixelReady s x y = .ok ()) {c : Cause}
    (hf : filters params s expl sf cf x.toNat y.toNat = raise c) :
    Faults (.resid expl sf cf y x) s c ∧ Faults (.recon expl sf cf y x) s c := by
  refine ⟨faults_of_body (by simp) hs ?_, faults_of_body (by simp) hs ?_⟩
  all_goals
    show (pixelReady s x y >>= _) = _
    rw [h, exec_ok_bind, hf]; rfl

end

theorem eq_pixelOf {v : Word} {c : Rgb} {a : Byte} (hc : rgbOf v = c) (ha : alphaOf v = a) : v = pixelOf c a := by
  rw [← hc, ← ha, pixelOf_rgbOf]

/-! ### The hash of a pixel pair -/

theorem hashAt_unwritten {s : State} (P : Params) {off p : Nat} (h : s.pix.readPixel p = none)
    (hp : p = off ∨ p = off + 1 ∧ s.pix.readPixel off ≠ none) :
    hashAt P s off = .error (.model (.pixelNeverWritten p)) := by
  unfold hashAt
  obtain rfl | ⟨rfl, hfirst⟩ := hp
  · rw [readPix_of_none h]; rfl
  · obtain ⟨q, hq⟩ := Option.ne_none_iff_exists'.mp hfirst
    rw [readPix_of_some hq, exec_ok_bind, readPix_of_none h]; rfl

theorem lzReady_of_ready {s : State} (h : s.work.lz.rdy = true) : lzReady s = .ok () := lzReady_ok_iff.mpr h

theorem lzinsBody_of_room {s : State} (P : Params) {off : Word} (h : s.work.lz.rdy = true)
    (hoff : off.toNat + 1 < s.work.lz.n.toNat) :
    lzinsBody P off s =
      hashAt P s off.toNat >>= fun k => .ok ({ s with work.lz := s.work.lz.inserted k off }, 1) := by
  unfold lzinsBody
  rw [lzReady_of_ready h, exec_ok_bind, if_neg (by omega)]
  rfl

/-- What a find does with the best candidate of its walk. -/
def settleBest (P : Params) (s : State) : Option Cand → Exec (State × Word)
  | none => .ok (s, 0)
  | some m => settle P s.work.lz m >>= fun z => .ok ({ s with work.lz := z }, BitVec.ofNat 32 m.len)

theorem lzfindBody_of_room {s : State} (P : Params) {off : Word} (h : s.work.lz.rdy = true)
    (hoff : off.toNat + 1 < s.work.lz.n.toNat) (hpend : s.work.lz.pend = true → s.work.lz.pOff.toNat < off.toNat)
    (hcover : s.work.lz.coverEnd.toNat ≤ off.toNat) :
    lzfindBody P off s = hashAt P s off.toNat >>= fun k =>
      walk s off.toNat s.cfg.chainLimit.toNat (s.work.lz.headAt k) none >>= settleBest P s := by
  unfold lzfindBody
  rw [lzReady_of_ready h, exec_ok_bind, check_false _ (by omega), exec_ok_bind,
    check_false _ (fun hp => absurd (hpend hp.1) (by omega)), exec_ok_bind, if_neg (by omega)]
  refine bind_congr fun k => bind_congr fun best => ?_
  cases best <;> rfl

/-! ### The source of a copy step -/

theorem lzstepBody_of_run {s : State} (h : s.work.lz.rdy = true) (hleft : 0 < s.work.lz.runLeft.toNat) {src : Nat}
    (hsrc : s.work.lz.runNext.toNat = src + s.work.lz.runDist.toNat) :
    lzstepBody s.work.lz.runNext s = s.readPix src >>= fun p =>
      .ok ({ s.writePix s.work.lz.runNext.toNat p with work.lz := { s.work.lz with
        runLeft := s.work.lz.runLeft - 1, runNext := s.work.lz.runNext + 1 } }, s.work.lz.runLeft - 1) := by
  have hsub : (s.work.lz.runNext - s.work.lz.runDist).toNat = src := by bv_omega
  unfold lzstepBody
  rw [lzReady_of_ready h, exec_ok_bind, check_false _ (by omega), exec_ok_bind, check_false _ (by simp), exec_ok_bind,
    hsub]
  rfl

end Sys2Proof.Machine
end

section
/-! PROOFS. The statements about the pixel commands. -/

open Sys2Proof Sys2Proof.Machine Sys2Proof.Config

/-- Settles O8: each of these commands reads that pixel before anything else could stop it. -/
theorem unwrittenPixelStops : Obligations.UnwrittenPixelStops := by
  intro s p hs hp
  refine ⟨fun off hrdy hoff hwhich => ⟨?_, fun hpend hcover => ?_⟩, fun hrdy hleft hsrc => ?_,
    fun expl sf cf y x f hrdy hx hy hf => ⟨fun hpos hleft => ⟨?_, ?_⟩, fun hown hbefore => ?_⟩⟩
  · refine exec_of_model_fault (i := .lzins off) (by simp) hs ((lzinsBody_of_room params hrdy hoff).trans ?_)
    rw [hashAt_unwritten params hp hwhich]; rfl
  · refine exec_of_model_fault (i := .lzfind off) (by simp) hs
      ((lzfindBody_of_room params hrdy hoff hpend hcover).trans ?_)
    rw [hashAt_unwritten params hp hwhich]; rfl
  · refine exec_of_model_fault (i := .lzstep s.work.lz.runNext) (by simp) hs
      ((lzstepBody_of_run hrdy hleft hsrc).trans ?_)
    rw [readPix_of_none hp]; rfl
  · refine exec_of_model_fault (i := .resid expl sf cf y x) (by simp) hs
      ((residBody_of_checks (pixelReady_of_ready hrdy hx hy) hf).trans ?_)
    rw [neighbours_left_unwritten hpos hleft hp]; rfl
  · refine exec_of_model_fault (i := .recon expl sf cf y x) (by simp) hs
      ((reconBody_of_checks (pixelReady_of_ready hrdy hx hy) hf).trans ?_)
    rw [neighbours_left_unwritten hpos hleft hp]; rfl
  · refine exec_of_model_fault (i := .resid expl sf cf y x) (by simp) hs
      ((residBody_of_checks (pixelReady_of_ready hrdy hx hy) hf).trans ?_)
    have hwritten : ∀ q, q < y.toNat * s.work.tile.w.toNat + x.toNat →
        s.pix.readPixel q = some ((s.pix.readPixel q).getD 0) := fun q hq => by
      obtain ⟨v, hv⟩ := Option.ne_none_iff_exists'.mp (hbefore q (hown ▸ hq))
      rw [hv]; rfl
    rw [neighbours_of_image hx hwritten, exec_ok_bind,
      show s.work.tile.offset x.toNat y.toNat = p from hown.symm, readPix_of_none hp]
    rfl

/-- Settles O49: the response is the pixel with these channels and this alpha. -/
theorem residComputes : Obligations.ResidComputes := by
  refine ⟨⟨rfl, rfl, fun n p => ⟨rfl, rfl, rfl, rfl, rfl, rfl, rfl⟩⟩, fun expl sf cf y x s hs =>
    ⟨fun hrdy => (pixelCommands_not_ready expl sf cf y x hs hrdy).1,
      fun hrdy hxy => (pixelCommands_out_of_image expl sf cf y x hs hrdy hxy).1, fun hrdy hx hy => ?_⟩⟩
  have hready := pixelReady_of_ready hrdy hx hy
  refine ⟨fun hf => (pixelCommands_filters_raise expl sf cf y x hs hready hf).1,
    fun a b off img p pred v hf hoff himg hp hpred hv ha => ?_⟩
  have hword : residWord params a b (imageNeighbours img s.work.tile.w.toNat x.toNat y.toNat) (img off) = v := by
    rw [eq_pixelOf hv ha, hp, hpred]; rfl
  have hbody : bodyOf (.resid expl sf cf y x) s = .ok ({ s with work.tile.res := v }, v) := by
    refine (residBody_of_checks hready hf).trans ?_
    rw [neighbours_of_image hx fun q hq => himg q (by omega), exec_ok_bind,
      show s.work.tile.offset x.toNat y.toNat = off from hoff.symm, readPix_of_some (himg off le_rfl), exec_ok_bind]
    simp only [hword]
    rfl
  exact exec_of_body (by simp) hs hbody

/-- Settles O50: the pixel written is the pixel with these channels and this alpha. -/
theorem reconWrites : Obligations.ReconWrites := by
  refine ⟨⟨rfl, rfl, fun n p => ⟨rfl, rfl, rfl, rfl, rfl, rfl, rfl⟩⟩, fun expl sf cf y x s hs =>
    ⟨fun hrdy => (pixelCommands_not_ready expl sf cf y x hs hrdy).2,
      fun hrdy hxy => (pixelCommands_out_of_image expl sf cf y x hs hrdy hxy).2, fun hrdy hx hy => ?_⟩⟩
  have hready := pixelReady_of_ready hrdy hx hy
  refine ⟨fun hf => (pixelCommands_filters_raise expl sf cf y x hs hready hf).2,
    fun a b off img d pred v hf hoff himg hd hpred hv ha => ?_⟩
  have hword : reconWord params a b (imageNeighbours img s.work.tile.w.toNat x.toNat y.toNat) s.cfg.recIn = v := by
    rw [eq_pixelOf hv ha, hd, hpred]; rfl
  have hbody : bodyOf (.recon expl sf cf y x) s = .ok (s.writePix off v, v) := by
    refine (reconBody_of_checks hready hf).trans ?_
    rw [neighbours_of_image hx (hoff ▸ himg), exec_ok_bind,
      show s.work.tile.offset x.toNat y.toNat = off from hoff.symm, hword]
    rfl
  exact ⟨_, exec_of_body (by simp) hs hbody, Memory.readPixel_writePixel_same .., fun a ha =>
    Memory.readByte_writePixel_ne _ _ ha, rfl⟩

end

section
/-! PROOFS. The LZ unit's invariants: the match list, the pending match, the copy run (10_state.md R41 to R43,
44_lz.md R203, R206). -/

namespace Sys2Proof.Machine

open Sys2Proof.Config

/-! ### The invariants as facts -/

theorem Match.legal_iff (n : Nat) (m : Match) : m.legal n = true ↔
    1 ≤ m.dist.toNat ∧ 2 ≤ m.len.toNat ∧ m.dist.toNat ≤ m.off.toNat ∧ m.off.toNat + m.len.toNat ≤ n ∧
      m.dist.toNat ≤ 1048576 ∧ m.len.toNat ≤ 4096 := by
  simp only [Match.legal, Bool.and_eq_true, decide_eq_true_eq, and_assoc]
  rfl

/-- The copy run is within the image and within reach of its source (R43). -/
structure RunOk (z : Lz) : Prop where
  left_le : z.runLeft.toNat ≤ 4096
  one_le : 1 ≤ z.runDist.toNat
  dist_le : z.runDist.toNat ≤ 1048576
  reach : z.runDist.toNat ≤ z.runNext.toNat
  inside : z.runNext.toNat + z.runLeft.toNat ≤ z.n.toNat

/-- The pending match can be committed (R42). -/
structure PendingOk (z : Lz) : Prop where
  legal : z.pending.legal z.n.toNat = true
  after : z.coverEnd.toNat ≤ z.pOff.toNat
  saves : 0 < z.pSave.toNat

/-- `Lz.inv`, clause by clause. -/
structure LzOk (z : Lz) : Prop where
  legal : ∀ m ∈ z.mlist, m.legal z.n.toNat = true
  ordered : ordered z.mlist = true
  read : z.rdIdx.toNat ≤ z.mlist.length
  cover : z.coverEnd.toNat = coverEndOf z.mlist
  pending : z.pend = true → PendingOk z
  run : z.runLeft ≠ 0 → RunOk z

theorem pendingOk_iff (z : Lz) : PendingOk z ↔
    z.pending.legal z.n.toNat = true ∧ z.coverEnd.toNat ≤ z.pOff.toNat ∧ 0 < z.pSave.toNat :=
  ⟨fun ⟨h1, h2, h3⟩ => ⟨h1, h2, h3⟩, fun ⟨h1, h2, h3⟩ => ⟨h1, h2, h3⟩⟩

theorem runOk_iff (z : Lz) : RunOk z ↔ z.runLeft.toNat ≤ maxMatch ∧ 1 ≤ z.runDist.toNat ∧
    z.runDist.toNat ≤ winSize ∧ z.runDist.toNat ≤ z.runNext.toNat ∧
      z.runNext.toNat + z.runLeft.toNat ≤ z.n.toNat :=
  ⟨fun ⟨h1, h2, h3, h4, h5⟩ => ⟨h1, h2, h3, h4, h5⟩, fun ⟨h1, h2, h3, h4, h5⟩ => ⟨h1, h2, h3, h4, h5⟩⟩

theorem lz_inv_iff (z : Lz) : z.inv = true ↔ LzOk z := by
  have hpend : (!z.pend || (z.pending.legal z.n.toNat && decide (z.coverEnd.toNat ≤ z.pOff.toNat) &&
      decide (0 < z.pSave.toNat))) = true ↔ (z.pend = true → PendingOk z) := by
    rw [pendingOk_iff]
    cases z.pend <;> simp [and_assoc]
  have hrun : (decide (z.runLeft = 0) || (decide (z.runLeft.toNat ≤ maxMatch) && decide (1 ≤ z.runDist.toNat) &&
      decide (z.runDist.toNat ≤ winSize) && decide (z.runDist.toNat ≤ z.runNext.toNat) &&
      decide (z.runNext.toNat + z.runLeft.toNat ≤ z.n.toNat))) = true ↔ (z.runLeft ≠ 0 → RunOk z) := by
    rw [runOk_iff, Bool.or_eq_true, decide_eq_true_eq, or_iff_not_imp_left]
    simp only [Bool.and_eq_true, decide_eq_true_eq, and_assoc]
  unfold Lz.inv
  rw [Bool.and_eq_true, Bool.and_eq_true, hpend, hrun]
  simp only [Bool.and_eq_true, decide_eq_true_eq, List.all_eq_true, and_assoc]
  exact ⟨fun ⟨h1, h2, h3, h4, h5, h6⟩ => ⟨h1, h2, h3, h4, h5, h6⟩,
    fun ⟨h1, h2, h3, h4, h5, h6⟩ => ⟨h1, h2, h3, h4, h5, h6⟩⟩

/-! ### Committing a match -/

theorem ordered_append_one (ms : List Match) (m : Match) (h : ordered ms = true)
    (hm : coverEndOf ms ≤ m.off.toNat) : ordered (ms ++ [m]) = true := by
  induction ms with
  | nil => rfl
  | cons a ms ih =>
    cases ms with
    | nil =>
      have hend : a.off.toNat + a.len.toNat ≤ m.off.toNat := hm
      simp [ordered, hend]
    | cons b ms =>
      rw [ordered, Bool.and_eq_true] at h
      rw [List.cons_append, List.cons_append, ordered, Bool.and_eq_true]
      refine ⟨h.1, ih h.2 ?_⟩
      rwa [coverEndOf, List.getLast?_cons_cons] at hm

theorem coverEndOf_append_one (ms : List Match) (m : Match) :
    coverEndOf (ms ++ [m]) = m.off.toNat + m.len.toNat := by simp [coverEndOf]

theorem LzOk.committed {z : Lz} (h : LzOk z) (hp : z.pend = true) : LzOk z.committed := by
  obtain ⟨hlegal, hafter, -⟩ := h.pending hp
  obtain ⟨-, -, -, hin, -⟩ := (Match.legal_iff ..).mp hlegal
  have hcover : (z.pOff + z.pLen).toNat = z.pOff.toNat + z.pLen.toNat := by
    have hn := z.n.isLt
    have hin' : z.pOff.toNat + z.pLen.toNat ≤ z.n.toNat := hin
    rw [BitVec.toNat_add, Nat.mod_eq_of_lt (by omega)]
  refine ⟨fun m hm => ?_, ordered_append_one _ _ h.ordered (h.cover ▸ hafter), ?_, ?_, by simp [Lz.committed],
    fun hl => ?_⟩
  · obtain hm | hm := List.mem_append.mp hm
    · exact h.legal m hm
    · rw [List.mem_singleton.mp hm]; exact hlegal
  · have hlen : z.committed.mlist.length = z.mlist.length + 1 := List.length_append
    have hread : z.committed.rdIdx = z.rdIdx := rfl
    rw [hlen, hread]
    exact h.read.trans (Nat.le_succ _)
  · exact hcover.trans (coverEndOf_append_one z.mlist z.pending).symm
  · obtain ⟨h1, h2, h3, h4, h5⟩ := h.run hl
    exact ⟨h1, h2, h3, h4, h5⟩

/-! ### A find's candidates (R196 to R198) -/

/-- A candidate is a true match within the limits, with the savings of its length and distance, which are positive
(R203). -/
structure CandOk (s : State) (off : Nat) (m : Cand) : Prop where
  at_off : m.off = off
  one_le : 1 ≤ m.dist
  dist_le_off : m.dist ≤ off
  dist_le : m.dist ≤ 1048576
  two_le : 2 ≤ m.len
  len_le : m.len ≤ 4096
  inside : off + m.len ≤ s.work.lz.n.toNat
  save_eq : m.save = savings s.cfg m.len m.dist
  save_pos : 0 < m.save
  same : ∀ j, j < m.len → s.pix.readPixel (off + j) = s.pix.readPixel (off - m.dist + j)

theorem CandOk.save_le {s : State} {off : Nat} {m : Cand} (h : CandOk s off m) : m.save ≤ 1044480 := by
  have hprod : m.len * s.cfg.savedPixelBits.toNat ≤ 4096 * 255 :=
    Nat.mul_le_mul h.len_le (Nat.le_of_lt_succ s.cfg.savedPixelBits.isLt)
  rw [h.save_eq, savings]
  omega

theorem CandOk.toNat_save {s : State} {off : Nat} {m : Cand} (h : CandOk s off m) :
    ((BitVec.ofInt 32 m.save).toNat : Int) = m.save := by
  have hpos := h.save_pos
  have hle := h.save_le
  rw [BitVec.toNat_ofInt]
  omega

/-- What a find keeps after a candidate is what it kept before or that candidate, if it may be accepted. -/
theorem keepBest_cases (cfg : Cfg) (off c len : Nat) (best : Option Cand) :
    keepBest cfg off c len best = best ∨
      (2 ≤ len ∧ 0 < savings cfg len (off - c) ∧
        keepBest cfg off c len best = some ⟨off, off - c, len, savings cfg len (off - c)⟩) := by
  unfold keepBest
  dsimp only
  split
  next => exact .inl rfl
  next hok =>
    have hlen : 2 ≤ len ∧ 0 < savings cfg len (off - c) := by
      rw [show minMatch = 2 from rfl] at hok
      omega
    cases best with
    | none => exact .inr ⟨hlen.1, hlen.2, rfl⟩
    | some b =>
      dsimp only
      split
      · exact .inr ⟨hlen.1, hlen.2, rfl⟩
      · exact .inl rfl

theorem walk_zero (s : State) (off : Nat) (c : Word) (best : Option Cand) : walk s off 0 c best = .ok best := rfl

/-- One step of the walk along a chain: it ends at a candidate out of reach, else examines it. -/
theorem walk_succ (s : State) (off steps : Nat) (c : Word) (best : Option Cand) :
    walk s off (steps + 1) c best =
      if c = noneMark ∨ off ≤ c.toNat ∨ winSize < off - c.toNat then .ok best
      else matchLen s c.toNat off (min maxMatch (s.work.lz.n.toNat - off)) 0 >>= fun len =>
        if c.toNat ≤ (s.work.lz.chainAt c.toNat).toNat then .ok (keepBest s.cfg off c.toNat len best)
        else walk s off steps (s.work.lz.chainAt c.toNat) (keepBest s.cfg off c.toNat len best) := rfl

theorem walk_candOk {s : State} {off steps : Nat} {c : Word} {best r : Option Cand}
    (hbest : ∀ m, best = some m → CandOk s off m) (h : walk s off steps c best = .ok r) :
    ∀ m, r = some m → CandOk s off m := by
  induction steps generalizing c best with
  | zero =>
    obtain rfl := Except.ok.inj h
    exact hbest
  | succ steps ih =>
    rw [walk_succ] at h
    split at h
    next => obtain rfl := Except.ok.inj h; exact hbest
    next hin =>
      rw [show winSize = 1048576 from rfl] at hin
      obtain ⟨len, hlen, h⟩ := bind_ok_iff.mp h
      obtain ⟨hle, hsame⟩ := matchLen_ok hlen
      rw [show maxMatch = 4096 from rfl] at hle
      have hkept : ∀ m, keepBest s.cfg off c.toNat len best = some m → CandOk s off m := by
        intro m hm
        obtain heq | ⟨htwo, hpos, heq⟩ := keepBest_cases s.cfg off c.toNat len best
        · exact hbest m (heq ▸ hm)
        · obtain rfl := Option.some.inj (heq.symm.trans hm)
          refine ⟨rfl, ?_, ?_, ?_, htwo, ?_, ?_, rfl, hpos, fun j hj => ?_⟩
          iterate 5
            · dsimp only; omega
          · obtain ⟨p, hp, hq⟩ := hsame j hj
            show s.pix.readPixel (off + j) = s.pix.readPixel (off - (off - c.toNat) + j)
            rw [show off - (off - c.toNat) = c.toNat by omega]
            exact hq.trans hp.symm
      split at h
      · obtain rfl := Except.ok.inj h; exact hkept
      · exact ih hkept h

/-! ### What a find leaves behind (R199) -/

theorem ofNat_off {m : Cand} {off : Word} (h : m.off = off.toNat) : BitVec.ofNat 32 m.off = off := by
  rw [h, BitVec.ofNat_toNat, BitVec.setWidth_eq]

theorem LzOk.pended {z : Lz} {s : State} {off : Word} {m : Cand} (h : LzOk z) (hm : CandOk s off.toNat m)
    (hn : s.work.lz.n = z.n) (hcover : z.coverEnd.toNat ≤ off.toNat) : LzOk (z.pended m) := by
  have hsave := hm.toNat_save
  obtain ⟨hoff, h1, h2, h3, h4, h5, h6, -, h8, -⟩ := hm
  have hdist : (BitVec.ofNat 32 m.dist).toNat = m.dist := by
    rw [BitVec.toNat_ofNat, Nat.mod_eq_of_lt (by omega)]
  have hlen : (BitVec.ofNat 32 m.len).toNat = m.len := by
    rw [BitVec.toNat_ofNat, Nat.mod_eq_of_lt (by omega)]
  refine ⟨h.legal, h.ordered, h.read, h.cover, fun _ => ⟨?_, ?_, ?_⟩, fun hl => ?_⟩
  · rw [Match.legal_iff]
    show 1 ≤ (BitVec.ofNat 32 m.dist).toNat ∧ 2 ≤ (BitVec.ofNat 32 m.len).toNat ∧
      (BitVec.ofNat 32 m.dist).toNat ≤ (BitVec.ofNat 32 m.off).toNat ∧
      (BitVec.ofNat 32 m.off).toNat + (BitVec.ofNat 32 m.len).toNat ≤ z.n.toNat ∧
      (BitVec.ofNat 32 m.dist).toNat ≤ 1048576 ∧ (BitVec.ofNat 32 m.len).toNat ≤ 4096
    rw [hdist, hlen, ofNat_off hoff, ← hn]
    exact ⟨h1, h4, h2, h6, h3, h5⟩
  · show z.coverEnd.toNat ≤ (BitVec.ofNat 32 m.off).toNat
    rwa [ofNat_off hoff]
  · show 0 < (BitVec.ofInt 32 m.save).toNat
    omega
  · obtain ⟨h1, h2, h3, h4, h5⟩ := h.run hl
    exact ⟨h1, h2, h3, h4, h5⟩

theorem LzOk.settled {P : Params} {s : State} {off : Word} {m : Cand} {z : Lz} (h : LzOk s.work.lz)
    (hm : CandOk s off.toNat m) (hcover : s.work.lz.coverEnd.toNat ≤ off.toNat)
    (hz : settle P s.work.lz m = .ok z) : LzOk z := by
  obtain ⟨-, rfl⟩ | ⟨-, -, rfl⟩ | ⟨hp, hend, -, rfl⟩ := settle_ok hz
  · exact h.pended hm rfl hcover
  · split
    · exact h.pended hm rfl hcover
    · exact h
  · refine (h.committed hp).pended hm rfl ?_
    obtain ⟨hlegal, -, -⟩ := h.pending hp
    have hadd : (s.work.lz.pOff + s.work.lz.pLen).toNat ≤ s.work.lz.pOff.toNat + s.work.lz.pLen.toNat := by
      rw [BitVec.toNat_add]; exact Nat.mod_le _ _
    exact (hadd.trans hend).trans_eq hm.at_off

theorem lzfindBody_ok {P : Params} {off v : Word} {s t : State} (h : lzfindBody P off s = .ok (t, v)) :
    t = s ∨ ∃ m z, s.work.lz.coverEnd.toNat ≤ off.toNat ∧ CandOk s off.toNat m ∧ settle P s.work.lz m = .ok z ∧
      t = { s with work.lz := z } := by
  obtain ⟨_, -, h⟩ := bind_ok_iff.mp h
  obtain ⟨_, -, h⟩ := bind_ok_iff.mp h
  obtain ⟨_, -, h⟩ := bind_ok_iff.mp h
  split at h
  · exact .inl (Prod.mk.inj (Except.ok.inj h)).1.symm
  · obtain ⟨k, -, h⟩ := bind_ok_iff.mp h
    obtain ⟨best, hwalk, h⟩ := bind_ok_iff.mp h
    cases best with
    | none => exact .inl (Prod.mk.inj (Except.ok.inj h)).1.symm
    | some m =>
      obtain ⟨z, hz, h⟩ := bind_ok_iff.mp h
      exact .inr ⟨m, z, by omega, walk_candOk (by simp) hwalk m rfl, hz, (Prod.mk.inj (Except.ok.inj h)).1.symm⟩

/-! ### The commands that move the list's and the run's registers -/

theorem lzemitBody_ok {P : Params} {cnt : Bool} {ctx : Byte} {off v : Word} {s t : State}
    (h : lzemitBody P cnt ctx off s = .ok (t, v)) :
    ∃ m u, s.work.lz.mlist[s.work.lz.rdIdx.toNat]? = some m ∧ emitMatch P cnt ctx m s = .ok u ∧
      t = { u with work.lz.rdIdx := u.work.lz.rdIdx + 1 } := by
  obtain ⟨_, -, h⟩ := bind_ok_iff.mp h
  split at h
  · simp at h
  · rename_i m hm
    obtain ⟨_, -, h⟩ := bind_ok_iff.mp h
    obtain ⟨_, -, h⟩ := bind_ok_iff.mp h
    obtain ⟨u, hu, h⟩ := bind_ok_iff.mp h
    exact ⟨m, u, hm, hu, (Prod.mk.inj (Except.ok.inj h)).1.symm⟩

theorem LzOk.emitted {z : Lz} (h : LzOk z) (hr : z.rdIdx.toNat < z.mlist.length) :
    LzOk { z with rdIdx := z.rdIdx + 1 } := by
  obtain ⟨h1, h2, -, h4, h5, h6⟩ := h
  refine ⟨h1, h2, ?_, h4, fun hp => ?_, fun hl => ?_⟩
  · have hadd : (z.rdIdx + 1).toNat ≤ z.rdIdx.toNat + 1 := by
      rw [BitVec.toNat_add]; exact Nat.mod_le _ _
    exact hadd.trans hr
  · obtain ⟨p1, p2, p3⟩ := h5 hp
    exact ⟨p1, p2, p3⟩
  · obtain ⟨r1, r2, r3, r4, r5⟩ := h6 hl
    exact ⟨r1, r2, r3, r4, r5⟩

theorem LzOk.withRun {z : Lz} (h : LzOk z) (dist left next : Word)
    (hrun : left ≠ 0 → RunOk { z with runDist := dist, runLeft := left, runNext := next }) :
    LzOk { z with runDist := dist, runLeft := left, runNext := next } := by
  obtain ⟨h1, h2, h3, h4, h5, -⟩ := h
  refine ⟨h1, h2, h3, h4, fun hp => ?_, hrun⟩
  obtain ⟨p1, p2, p3⟩ := h5 hp
  exact ⟨p1, p2, p3⟩

theorem lzreadBody_ok {k : Byte} {off v : Word} {s t : State} (h : lzreadBody k off s = .ok (t, v)) :
    ∃ u u' len dist, readLen k.toNat s = .ok (len, u') ∧ readDist u' = .ok (dist, u) ∧ dist ≤ off.toNat ∧
      off.toNat + len ≤ s.work.lz.n.toNat ∧
      t = { u with work.lz := { u.work.lz with
        runDist := BitVec.ofNat 32 dist, runLeft := BitVec.ofNat 32 len, runNext := off } } := by
  obtain ⟨_, -, h⟩ := bind_ok_iff.mp h
  obtain ⟨_, -, h⟩ := bind_ok_iff.mp h
  obtain ⟨_, -, h⟩ := bind_ok_iff.mp h
  obtain ⟨_, -, h⟩ := bind_ok_iff.mp h
  obtain ⟨⟨len, u'⟩, hlen, h⟩ := bind_ok_iff.mp h
  obtain ⟨⟨dist, u⟩, hdist, h⟩ := bind_ok_iff.mp h
  obtain ⟨_, hreach, h⟩ := bind_ok_iff.mp h
  obtain ⟨_, hin, h⟩ := bind_ok_iff.mp h
  rw [check_ok_iff, not_lt] at hreach hin
  exact ⟨u, u', len, dist, hlen, hdist, hreach, hin, (Prod.mk.inj (Except.ok.inj h)).1.symm⟩

theorem LzOk.afterRead {k : Byte} {off v : Word} {s t : State} (hs : LzOk s.work.lz)
    (h : lzreadBody k off s = .ok (t, v)) : LzOk t.work.lz := by
  obtain ⟨u, u', len, dist, hlen, hdist, hreach, hin, rfl⟩ := lzreadBody_ok h
  have hz : u.work.lz = s.work.lz := ((readLen_frame hlen).trans (readDist_frame hdist)).lz rfl
  obtain ⟨x, -, hleneq, hlenle⟩ := readLen_ok hlen
  obtain ⟨d, _, y, -, -, -, hdisteq, hdistle⟩ := readDist_ok hdist
  rw [show maxMatch = 4096 from rfl] at hlenle
  rw [show winSize = 1048576 from rfl] at hdistle
  have hone : 1 ≤ dist := by have := Nat.two_pow_pos d; omega
  have hd : (BitVec.ofNat 32 dist).toNat = dist := by rw [BitVec.toNat_ofNat, Nat.mod_eq_of_lt (by omega)]
  have hl : (BitVec.ofNat 32 len).toNat = len := by rw [BitVec.toNat_ofNat, Nat.mod_eq_of_lt (by omega)]
  show LzOk { u.work.lz with runDist := BitVec.ofNat 32 dist, runLeft := BitVec.ofNat 32 len, runNext := off }
  rw [hz]
  refine hs.withRun _ _ _ fun _ => ⟨?_, ?_, ?_, ?_, ?_⟩ <;> dsimp only <;> omega

theorem lzstepBody_ok {off v : Word} {s t : State} (h : lzstepBody off s = .ok (t, v)) :
    s.work.lz.runLeft.toNat ≠ 0 ∧ t.work.lz =
      { s.work.lz with runLeft := s.work.lz.runLeft - 1, runNext := s.work.lz.runNext + 1 } := by
  obtain ⟨_, -, h⟩ := bind_ok_iff.mp h
  obtain ⟨_, hleft, h⟩ := bind_ok_iff.mp h
  obtain ⟨_, -, h⟩ := bind_ok_iff.mp h
  obtain ⟨p, -, h⟩ := bind_ok_iff.mp h
  rw [check_ok_iff] at hleft
  obtain rfl := (Prod.mk.inj (Except.ok.inj h)).1
  exact ⟨hleft, rfl⟩

theorem LzOk.afterStep {off v : Word} {s t : State} (hs : LzOk s.work.lz) (h : lzstepBody off s = .ok (t, v)) :
    LzOk t.work.lz := by
  obtain ⟨hleft, hz⟩ := lzstepBody_ok h
  obtain ⟨h1, h2, h3, h4, h5⟩ := hs.run fun h0 => hleft (by rw [h0]; rfl)
  have hn := s.work.lz.n.isLt
  have hl : (s.work.lz.runLeft - 1).toNat = s.work.lz.runLeft.toNat - 1 := by bv_omega
  have hx : (s.work.lz.runNext + 1).toNat = s.work.lz.runNext.toNat + 1 := by bv_omega
  rw [hz]
  refine hs.withRun s.work.lz.runDist _ _ fun _ => ⟨?_, ?_, ?_, ?_, ?_⟩ <;> dsimp only <;> omega

theorem lzOk_initialised (z : Lz) (n : Word) : LzOk (z.initialised n) :=
  ⟨by simp [Lz.initialised], rfl, Nat.zero_le _, rfl, by simp [Lz.initialised], by simp [Lz.initialised]⟩

/-- Every command keeps the LZ unit's invariants. -/
theorem bodyOf_lzOk {i : Instr} {s u : State} {v : Word} (hi : i ≠ .sreset) (hs : LzOk s.work.lz)
    (h : bodyOf i s = .ok (u, v)) : LzOk u.work.lz := by
  by_cases hp : (partsOf i).lz = false
  · rw [((bodyOf_frame s hi).out u v h).lz hp]; exact hs
  cases i with
  | lzinit => cases h; exact lzOk_initialised ..
  | lzins off =>
    obtain ⟨_, -, h⟩ := bind_ok_iff.mp h
    split at h
    · cases h; exact hs
    · obtain ⟨k, -, h⟩ := bind_ok_iff.mp h
      cases h
      obtain ⟨h1, h2, h3, h4, h5, h6⟩ := hs
      exact ⟨h1, h2, h3, h4, fun hp => ⟨(h5 hp).1, (h5 hp).2, (h5 hp).3⟩,
        fun hl => ⟨(h6 hl).1, (h6 hl).2, (h6 hl).3, (h6 hl).4, (h6 hl).5⟩⟩
  | lzfind off =>
    obtain rfl | ⟨m, z, hcover, hm, hz, rfl⟩ := lzfindBody_ok h
    · exact hs
    · exact hs.settled hm hcover hz
  | lzflush =>
    obtain ⟨_, -, h⟩ := bind_ok_iff.mp h
    obtain ⟨z, hz, h⟩ := bind_ok_iff.mp h
    cases h
    obtain ⟨hp, -, rfl⟩ | ⟨-, rfl⟩ := commitPending_ok hz
    · exact hs.committed hp
    · exact hs
  | lzrew =>
    obtain ⟨_, -, h⟩ := bind_ok_iff.mp h
    cases h
    obtain ⟨h1, h2, -, h4, h5, h6⟩ := hs
    exact ⟨h1, h2, Nat.zero_le _, h4, fun hp => ⟨(h5 hp).1, (h5 hp).2, (h5 hp).3⟩,
      fun hl => ⟨(h6 hl).1, (h6 hl).2, (h6 hl).3, (h6 hl).4, (h6 hl).5⟩⟩
  | lzemit cnt ctx off =>
    obtain ⟨m, t, hm, ht, rfl⟩ := lzemitBody_ok h
    have hz : t.work.lz = s.work.lz := (emitMatch_frame ht).lz rfl
    show LzOk { t.work.lz with rdIdx := t.work.lz.rdIdx + 1 }
    rw [hz]
    exact hs.emitted (List.getElem?_eq_some_iff.mp hm).1
  | lzread k off => exact hs.afterRead h
  | lzstep off => exact hs.afterStep h
  | _ => exact absurd rfl hp

end Sys2Proof.Machine
end

section
/-! PROOFS. The statement about the LZ unit's invariants. -/

open Sys2Proof Sys2Proof.Machine

/-- Settles O56: only the LZ commands touch the unit, and each keeps the invariants. -/
theorem lzInvariantKept : Obligations.LzInvariantKept := by
  intro s t hs h ht
  rw [lz_inv_iff]
  refine work_invariant_step (I := fun w => LzOk w.lz) (fun herr => (lz_inv_iff _).mp (hs herr))
    ((lz_inv_iff _).mp rfl) ?_ h ht
  intro i s' u v hi _ hok hbody
  exact bodyOf_lzOk hi hok hbody

end

section
/-! PROOFS. What the LZ commands answer and store (44_lz.md R193 to R206). -/

namespace Sys2Proof.Machine

open Sys2Proof.Config

/-! ### Inserting (R193, R194) -/

theorem toNat_append_words (p q : Word) : (p ++ q).toNat = p.toNat * 2 ^ 32 + q.toNat := by
  rw [BitVec.toNat_append, ← Nat.shiftLeft_add_eq_or_of_lt q.isLt, Nat.shiftLeft_eq]

theorem lzHash_eq (p q : Word) :
    lzHash params p q = ((p.toNat * 2 ^ 32 + q.toNat) * 0x9E3779B97F4A7C15) % 2 ^ 64 / 2 ^ 46 := by
  show (((p ++ q) * (0x9E3779B97F4A7C15 : BitVec 64)) >>> 46).toNat = _
  rw [BitVec.toNat_ushiftRight, BitVec.toNat_mul, toNat_append_words, Nat.shiftRight_eq_div_pow]
  rfl

theorem hashAt_of_some {s : State} (P : Params) {off : Nat} {p q : Word} (hp : s.pix.readPixel off = some p)
    (hq : s.pix.readPixel (off + 1) = some q) : hashAt P s off = .ok (lzHash P p q) := by
  unfold hashAt
  rw [readPix_of_some hp, exec_ok_bind, readPix_of_some hq]
  rfl

theorem Lz.headAt_inserted (z : Lz) (k k' : Nat) (off : Word) :
    (z.inserted k off).headAt k' = if k' = k then off else z.headAt k' :=
  Sparse.get_set noneMark z.head k k' off

theorem Lz.chainAt_inserted (z : Lz) (k o : Nat) (off : Word) :
    (z.inserted k off).chainAt o =
      if o % 1048576 = off.toNat % 1048576 then z.headAt k else z.chainAt o :=
  Sparse.get_set noneMark z.chain (off.toNat % winSize) (o % winSize) (z.headAt k)

theorem lzReady_not_ready {s : State} (h : s.work.lz.rdy = false) : lzReady s = raise .sequence := by
  simp [lzReady, h]

/-! ### Finding (R196 to R199) -/

theorem matchLen_total {s : State} {c off : Nat} (lim i : Nat)
    (hc : ∀ j, j < lim → (s.pix.readPixel (c + i + j)).isSome = true)
    (ho : ∀ j, j < lim → (s.pix.readPixel (off + i + j)).isSome = true) :
    ∃ n, matchLen s c off lim i = .ok n := by
  induction lim generalizing i with
  | zero => exact ⟨0, rfl⟩
  | succ lim ih =>
    obtain ⟨p, hp⟩ := Option.isSome_iff_exists.mp (hc 0 (by omega))
    obtain ⟨q, hq⟩ := Option.isSome_iff_exists.mp (ho 0 (by omega))
    have hnext : ∀ a j, a + (i + 1) + j = a + i + (j + 1) := by omega
    obtain ⟨n, hn⟩ := ih (i + 1) (fun j hj => by rw [hnext]; exact hc (j + 1) (by omega))
      (fun j hj => by rw [hnext]; exact ho (j + 1) (by omega))
    rw [Nat.add_zero] at hp hq
    unfold matchLen
    rw [readPix_of_some hp, exec_ok_bind, readPix_of_some hq, exec_ok_bind, hn]
    split
    · exact ⟨n + 1, rfl⟩
    · exact ⟨0, rfl⟩

theorem walk_total {s : State} {off : Nat} (hoff : off < s.work.lz.n.toNat)
    (hpix : ∀ p, p < s.work.lz.n.toNat → (s.pix.readPixel p).isSome = true) (steps : Nat) (c : Word)
    (best : Option Cand) : ∃ r, walk s off steps c best = .ok r := by
  induction steps generalizing c best with
  | zero => exact ⟨best, rfl⟩
  | succ steps ih =>
    rw [walk_succ]
    split
    · exact ⟨best, rfl⟩
    · obtain ⟨n, hn⟩ := matchLen_total (s := s) (c := c.toNat) (off := off)
        (min maxMatch (s.work.lz.n.toNat - off)) 0 (fun j hj => hpix _ (by omega)) (fun j hj => hpix _ (by omega))
      rw [hn, exec_ok_bind]
      split
      · exact ⟨_, rfl⟩
      · exact ih ..

/-- The kept candidate saves at least as much as one of these savings and distance, and no farther away if it saves
the same (R198). -/
def Dominates (r : Option Cand) (save : Int) (dist : Nat) : Prop :=
  ∃ m, r = some m ∧ save ≤ m.save ∧ (save = m.save → m.dist ≤ dist)

theorem Dominates.refl (m : Cand) : Dominates (some m) m.save m.dist := ⟨m, rfl, le_rfl, fun _ => le_rfl⟩

theorem Dominates.trans {r r' : Option Cand} {save : Int} {dist : Nat} (h : Dominates r save dist)
    (hr : ∀ m, r = some m → Dominates r' m.save m.dist) : Dominates r' save dist := by
  obtain ⟨m, hm, hsave, hdist⟩ := h
  obtain ⟨m', hm', hsave', hdist'⟩ := hr m hm
  refine ⟨m', hm', hsave.trans hsave', fun heq => ?_⟩
  have hmid : save = m.save := by omega
  exact (hdist' (by omega)).trans (hdist hmid)

theorem better_iff (s1 : Int) (d1 : Nat) (s2 : Int) (d2 : Nat) :
    better s1 d1 s2 d2 = true ↔ s2 < s1 ∨ s1 = s2 ∧ d1 < d2 := by
  simp only [better, Bool.or_eq_true, Bool.and_eq_true, decide_eq_true_eq]

theorem keepBest_dominates_best (cfg : Cfg) (off c len : Nat) {best : Option Cand} {b : Cand} (hb : best = some b) :
    Dominates (keepBest cfg off c len best) b.save b.dist := by
  subst hb
  unfold keepBest
  dsimp only
  split
  · exact .refl b
  · split
    next hbetter =>
      rw [better_iff] at hbetter
      exact ⟨_, rfl, by dsimp only; omega, fun _ => by dsimp only at *; omega⟩
    next => exact .refl b

theorem keepBest_dominates_new (cfg : Cfg) {off c len : Nat} (best : Option Cand) (hlen : 2 ≤ len)
    (hsave : 0 < savings cfg len (off - c)) :
    Dominates (keepBest cfg off c len best) (savings cfg len (off - c)) (off - c) := by
  unfold keepBest
  dsimp only
  rw [if_neg (by rw [show minMatch = 2 from rfl]; omega)]
  cases best with
  | none => exact .refl ⟨off, off - c, len, _⟩
  | some b =>
    dsimp only
    split
    next => exact .refl ⟨off, off - c, len, _⟩
    next hbetter =>
      rw [better_iff] at hbetter
      exact ⟨b, rfl, by omega, fun _ => by omega⟩

/-- The walk examines the candidates of `examined` and keeps the best of them and of what was kept before. -/
theorem walk_keeps_best {s : State} {off steps : Nat} {c : Word} {best r : Option Cand}
    (h : walk s off steps c best = .ok r) :
    (r = best ∨ ∃ m, r = some m ∧ off - m.dist ∈ examined s.work.lz off steps c) ∧
      (∀ b, best = some b → Dominates r b.save b.dist) ∧
      ∀ c' ∈ examined s.work.lz off steps c, ∀ len,
        matchLen s c' off (min maxMatch (s.work.lz.n.toNat - off)) 0 = .ok len → 2 ≤ len →
        0 < savings s.cfg len (off - c') → Dominates r (savings s.cfg len (off - c')) (off - c') := by
  induction steps generalizing c best with
  | zero =>
    obtain rfl := Except.ok.inj h
    exact ⟨.inl rfl, fun b hb => hb ▸ .refl b, by simp [examined]⟩
  | succ steps ih =>
    rw [walk_succ] at h
    unfold examined
    split at h
    next hout =>
      obtain rfl := Except.ok.inj h
      rw [if_pos hout]
      exact ⟨.inl rfl, fun b hb => hb ▸ .refl b, by simp⟩
    next hin =>
      rw [if_neg hin]
      obtain ⟨len, hlen, h⟩ := bind_ok_iff.mp h
      have hkept : keepBest s.cfg off c.toNat len best = best ∨
          ∃ m, keepBest s.cfg off c.toNat len best = some m ∧ off - m.dist = c.toNat := by
        obtain heq | ⟨-, -, heq⟩ := keepBest_cases s.cfg off c.toNat len best
        · exact .inl heq
        · exact .inr ⟨_, heq, by dsimp only; omega⟩
      have hnew : ∀ len', matchLen s c.toNat off (min maxMatch (s.work.lz.n.toNat - off)) 0 = .ok len' → 2 ≤ len' →
          0 < savings s.cfg len' (off - c.toNat) → Dominates (keepBest s.cfg off c.toNat len best)
            (savings s.cfg len' (off - c.toNat)) (off - c.toNat) := fun len' hlen' htwo hpos => by
        obtain rfl := Except.ok.inj (hlen.symm.trans hlen')
        exact keepBest_dominates_new s.cfg best htwo hpos
      split at h
      next hlast =>
        obtain rfl := Except.ok.inj h
        rw [if_pos hlast]
        refine ⟨hkept.imp_right fun ⟨m, hm, hmem⟩ => ⟨m, hm, by simp [hmem]⟩,
          fun b hb => keepBest_dominates_best _ _ _ _ hb, fun c' hc' => ?_⟩
        rw [List.mem_singleton.mp hc']
        exact hnew
      next hmore =>
        rw [if_neg hmore]
        obtain ⟨hwhere, hbest, hexamined⟩ := ih h
        refine ⟨?_, fun b hb => (keepBest_dominates_best _ _ _ _ hb).trans hbest, fun c' hc' len' hlen' htwo hpos => ?_⟩
        · obtain rfl | ⟨m, hm, hmem⟩ := hwhere
          · exact hkept.imp_right fun ⟨m, hm, hmem⟩ => ⟨m, hm, by simp [hmem]⟩
          · exact .inr ⟨m, hm, List.mem_cons_of_mem _ hmem⟩
        · obtain rfl | hc' := List.mem_cons.mp hc'
          · exact (hnew len' hlen' htwo hpos).trans hbest
          · exact hexamined c' hc' len' hlen' htwo hpos

/-! ### Settling a candidate (R196, R199) -/

theorem settle_no_pending (P : Params) {z : Lz} (m : Cand) (h : z.pend = false) : settle P z m = .ok (z.pended m) :=
  if_pos h

theorem settle_overlap (P : Params) {z : Lz} {m : Cand} (h : z.pend = true)
    (ho : m.off < z.pOff.toNat + z.pLen.toNat) :
    settle P z m = .ok (if better m.save m.dist z.pSave.toNat z.pDist.toNat then z.pended m else z) := by
  unfold settle
  rw [if_neg (by simp [h]), if_pos ho]

theorem lzCommit_of_room {P : Params} {z : Lz} (h : z.mlist.length < P.mListCap) : lzCommit P z = .ok z.committed := by
  unfold lzCommit
  rw [check_false _ (by omega)]
  rfl

theorem lzCommit_full {P : Params} {z : Lz} (h : P.mListCap ≤ z.mlist.length) : lzCommit P z = raise .resource := by
  unfold lzCommit
  rw [check_true _ h]
  rfl

theorem settle_beyond (P : Params) {z : Lz} {m : Cand} (h : z.pend = true)
    (ho : z.pOff.toNat + z.pLen.toNat ≤ m.off) :
    settle P z m = lzCommit P z >>= fun z' => .ok (z'.pended m) := by
  unfold settle
  rw [if_neg (by simp [h]), if_neg (by omega)]
  rfl

theorem Lz.pended_of_pend {z : Lz} {m : Cand} {off : Word} (h : z.pend = true) (hoff : m.off = off.toNat) :
    z.pended m = { z with
      pOff := off, pDist := BitVec.ofNat 32 m.dist, pLen := BitVec.ofNat 32 m.len
      pSave := BitVec.ofInt 32 m.save } := by
  unfold Lz.pended
  rw [ofNat_off hoff, ← h]

/-! ### Flushing (R200) -/

theorem lzflushBody_of_ready {s : State} (P : Params) (h : s.work.lz.rdy = true) :
    lzflushBody P s = commitPending P s.work.lz >>= fun z =>
      .ok ({ s with work.lz := z }, BitVec.ofNat 32 z.mlist.length) := by
  unfold lzflushBody
  rw [lzReady_of_ready h]
  rfl

theorem commitPending_of_pend {P : Params} {z : Lz} (h : z.pend = true) : commitPending P z = lzCommit P z := by
  unfold commitPending
  rw [h]
  rfl

theorem commitPending_no_pend (P : Params) {z : Lz} (h : z.pend = false) : commitPending P z = .ok z := by
  unfold commitPending
  rw [h]
  rfl

/-! ### Reading a sequence (R204) -/

theorem State.consumed_consumed (s : State) (m n : Nat) (r r' : List Bool) :
    (s.consumed m r).consumed n r' = s.consumed (m + n) r' := by
  simp [State.consumed, BitVec.ofNat_add, BitVec.add_assoc]

theorem readBits_of_msbBits {s : State} {n v : Nat} {rest : List Bool} (hv : v < 2 ^ n)
    (h : s.br = msbBits n v ++ rest) : s.readBits n = .ok (v, s.consumed n rest) := by
  rw [readBits_msbBits s n v rest h, Nat.mod_eq_of_lt hv]

theorem readLen_of_bits {s : State} {k a : Nat} {tail : List Bool} (ha : a < 2 ^ (k + 1))
    (h : s.br = msbBits (k + 1) a ++ tail) :
    readLen k s = if 4096 < 2 ^ (k + 1) + a then raise .badLz
      else .ok (2 ^ (k + 1) + a, s.consumed (k + 1) tail) := by
  unfold readLen
  rw [readBits_of_msbBits ha h, exec_ok_bind]
  exact check_bind ..

theorem readLen_truncated {s : State} {k : Nat} (h : s.br.length < k + 1) : readLen k s = raise .truncated := by
  unfold readLen
  rw [readBits_of_lt h]
  rfl

/-- What follows a distance class that has been read. -/
def readDistTail (d : Nat) (s : State) : Exec (Nat × State) :=
  s.readBits d >>= fun r => check (winSize < 2 ^ d + r.1) .badLz >>= fun _ => .ok (2 ^ d + r.1, r.2)

theorem readDist_of_class {s : State} {d : Nat} {tail : List Bool} (hd : d < 32) (h : s.br = msbBits 5 d ++ tail) :
    readDist s = if 20 < d then raise .badLz else readDistTail d (s.consumed 5 tail) := by
  unfold readDist
  rw [readBits_of_msbBits (n := 5) hd h, exec_ok_bind]
  exact check_bind ..

theorem readDist_truncated {s : State} (h : s.br.length < 5) : readDist s = raise .truncated := by
  unfold readDist
  rw [readBits_of_lt h]
  rfl

theorem readDistTail_of_bits {s : State} {d b : Nat} {rest : List Bool} (hb : b < 2 ^ d)
    (h : s.br = msbBits d b ++ rest) :
    readDistTail d s = if 1048576 < 2 ^ d + b then raise .badLz else .ok (2 ^ d + b, s.consumed d rest) := by
  unfold readDistTail
  rw [readBits_of_msbBits hb h, exec_ok_bind]
  exact check_bind ..

theorem readDistTail_truncated {s : State} {d : Nat} (h : s.br.length < d) : readDistTail d s = raise .truncated := by
  unfold readDistTail
  rw [readBits_of_lt h]
  rfl

/-- What `LZREAD` does with the length and the distance it has read. -/
def startRun (off : Word) (n len dist : Nat) (u : State) : Exec (State × Word) := do
  check (off.toNat < dist) .badLz
  check (n < off.toNat + len) .badLz
  return ({ u with work.lz := { u.work.lz with
      runDist := BitVec.ofNat 32 dist, runLeft := BitVec.ofNat 32 len, runNext := off } }, BitVec.ofNat 32 len)

theorem lzreadBody_of_start {s : State} {k : Byte} {off : Word} (h : s.work.lz.rdy = true)
    (hleft : s.work.lz.runLeft = 0) (hk : k.toNat < 12) (hoff : off.toNat < s.work.lz.n.toNat) :
    lzreadBody k off s = readLen k.toNat s >>= fun r => readDist r.2 >>= fun q =>
      startRun off s.work.lz.n.toNat r.1 q.1 q.2 := by
  unfold lzreadBody
  rw [lzReady_of_ready h, exec_ok_bind, check_false _ (by simp [hleft]), exec_ok_bind, check_false _ (by omega),
    exec_ok_bind, check_false _ (by omega), exec_ok_bind]
  rfl

theorem startRun_eq (off : Word) (n len dist : Nat) (u : State) :
    startRun off n len dist u = if off.toNat < dist ∨ n < off.toNat + len then raise .badLz
      else .ok ({ u with work.lz := { u.work.lz with
        runDist := BitVec.ofNat 32 dist, runLeft := BitVec.ofNat 32 len, runNext := off } }, BitVec.ofNat 32 len) := by
  unfold startRun
  rw [check_bind, check_bind, ite_or]
  rfl

/-! ### A copy run (R205, R206) -/

/-- The unit is in a copy run of `len` pixels from `start` on, `PIX` holds the image below `start`, and the image
repeats itself at the run's distance. -/
structure RunHolds (img : Nat → Word) (s : State) (len start : Nat) : Prop where
  no_fault : s.err = false
  ready : s.work.lz.rdy = true
  left : s.work.lz.runLeft.toNat = len
  next : s.work.lz.runNext.toNat = start
  one_le : 1 ≤ s.work.lz.runDist.toNat
  reach : s.work.lz.runDist.toNat ≤ start
  inside : start + len < 2 ^ 32
  image : ∀ p, p < start → s.pix.readPixel p = some (img p)
  repeats : ∀ j, j < len → img (start + j) = img (start + j - s.work.lz.runDist.toNat)

/-- One `LZSTEP` of a run copies the image's next pixel, whose source is below the run's next offset. -/
theorem RunHolds.step {img : Nat → Word} {s : State} {len start : Nat} (h : RunHolds img s (len + 1) start) :
    ∃ t, exec (.lzstep (BitVec.ofNat 32 start)) s = .next t ∧ RunHolds img t len (start + 1) := by
  obtain ⟨herr, hrdy, hleft, hnext, hone, hreach, hin, himg, hrep⟩ := h
  have hoff : BitVec.ofNat 32 start = s.work.lz.runNext := by
    rw [← hnext, BitVec.ofNat_toNat, BitVec.setWidth_eq]
  have hsrc : s.pix.readPixel (start - s.work.lz.runDist.toNat) = some (img start) := by
    rw [himg _ (by omega), show img start = img (start - s.work.lz.runDist.toNat) from hrep 0 (by omega)]
  have hbody := (lzstepBody_of_run hrdy (by omega) (src := start - s.work.lz.runDist.toNat) (by omega)).trans
    (by rw [readPix_of_some hsrc, exec_ok_bind])
  rw [hoff]
  refine ⟨_, exec_of_body (i := .lzstep s.work.lz.runNext) (by simp) herr hbody, herr, hrdy, ?_, ?_, hone,
    by show s.work.lz.runDist.toNat ≤ start + 1; omega, by omega, fun p hp => ?_, fun j hj => ?_⟩
  · show (s.work.lz.runLeft - 1).toNat = len
    bv_omega
  · show (s.work.lz.runNext + 1).toNat = start + 1
    bv_omega
  · show (s.pix.writePixel s.work.lz.runNext.toNat (img start)).readPixel p = some (img p)
    rw [hnext]
    obtain hp | rfl := Nat.lt_succ_iff_lt_or_eq.mp hp
    · rw [Memory.readPixel_writePixel_ne _ _ (by omega), himg p hp]
    · exact Memory.readPixel_writePixel_same ..
  · have := hrep (j + 1) (by omega)
    rwa [show start + 1 + j = start + (j + 1) by omega]

theorem execAll_cons_next {i : Instr} {is : List Instr} {s t : State} (h : exec i s = .next t) :
    execAll (i :: is) s = (execAll is t).map (fun r => (r.1, t.rsp.getD 0 :: r.2)) := by
  simp only [execAll, h]

theorem RunHolds.all_steps {img : Nat → Word} (len : Nat) {s : State} {start : Nat} (h : RunHolds img s len start) :
    ∃ t r, execAll ((List.range len).map (fun j => .lzstep (BitVec.ofNat 32 (start + j)))) s = some (t, r) ∧
      RunHolds img t 0 (start + len) := by
  induction len generalizing s start with
  | zero => exact ⟨s, [], rfl, h⟩
  | succ len ih =>
    obtain ⟨t, hexec, ht⟩ := h.step
    obtain ⟨u, r, hall, hu⟩ := ih ht
    refine ⟨u, t.rsp.getD 0 :: r, ?_, by rwa [show start + (len + 1) = start + 1 + len by omega]⟩
    rw [List.range_succ_eq_map, List.map_cons, List.map_map, Nat.add_zero, execAll_cons_next hexec,
      show ((fun j => Instr.lzstep (BitVec.ofNat 32 (start + j))) ∘ Nat.succ) =
        fun j => .lzstep (BitVec.ofNat 32 (start + 1 + j)) from
        funext fun j => by rw [Function.comp, Nat.succ_eq_add_one, show start + (j + 1) = start + 1 + j by omega],
      hall]
    rfl

end Sys2Proof.Machine
end

section
/-! PROOFS. The statements about the LZ commands. -/

open Sys2Proof Sys2Proof.Machine Sys2Proof.Config

/-- Settles O44: each step's source lies below the run's next offset, where `PIX` already holds the image, whether or
not a step of this same run wrote it. -/
theorem lzRunRestoresImage : Obligations.LzRunRestoresImage := by
  intro img s len start dist herr hrdy hinv hleft hpos hnext hdist himg hrep
  obtain ⟨-, hone, -, hreach, hin⟩ := ((lz_inv_iff _).mp hinv).run fun h0 => by
    rw [h0] at hleft
    exact absurd hleft (by simp; omega)
  have hn := s.work.lz.n.isLt
  obtain ⟨t, r, hall, ht⟩ := RunHolds.all_steps (img := img) len (s := s) (start := start)
    ⟨herr, hrdy, hleft, hnext, hone, by omega, by omega, himg, fun j hj => by rw [hdist]; exact hrep j hj⟩
  exact ⟨t, r, hall, ht.no_fault, BitVec.eq_of_toNat_eq ht.left, ht.image⟩

/-- Settles O36: the hash as a number, and one table write for the bucket and one for the chain. -/
theorem lzinsInserts : Obligations.LzinsInserts := by
  intro off s hs
  refine ⟨fun hrdy hlast => ?_, fun p q k hrdy hroom hp hq hk => ?_, fun hrdy => ?_⟩
  · refine exec_of_body (i := .lzins off) (by simp) hs ?_
    show (lzReady s >>= _) = _
    rw [lzReady_of_ready hrdy, exec_ok_bind, if_pos hlast]; rfl
  · have hbody : bodyOf (.lzins off) s = .ok ({ s with work.lz := s.work.lz.inserted k off }, 1) := by
      refine (lzinsBody_of_room params hrdy hroom).trans ?_
      rw [hashAt_of_some params hp hq, lzHash_eq, ← hk]; rfl
    exact ⟨_, exec_of_body (by simp) hs hbody, ⟨rfl, rfl⟩, keepsOutside_of_work .., rfl, rfl,
      fun k' => Lz.headAt_inserted .., fun o => Lz.chainAt_inserted ..⟩
  · refine faults_of_body (by simp) hs ?_
    show (lzReady s >>= _) = _
    rw [lzReady_not_ready hrdy]; rfl

/-- Settles O37: the walk over a loaded image completes with a candidate that may be accepted or with none, and
settling it has the three outcomes of R196. -/
theorem lzfindFindsTrueMatch : Obligations.LzfindFindsTrueMatch := by
  intro off s hs hrdy hoff hcover hpend hroom hpix
  obtain ⟨p, hp⟩ := Option.isSome_iff_exists.mp (hpix off.toNat (by omega))
  obtain ⟨q, hq⟩ := Option.isSome_iff_exists.mp (hpix (off.toNat + 1) hoff)
  obtain ⟨best, hwalk⟩ := walk_total (s := s) (off := off.toNat) (by omega) hpix s.cfg.chainLimit.toNat
    (s.work.lz.headAt (lzHash params p q)) none
  have hbody : bodyOf (.lzfind off) s = settleBest params s best := by
    refine (lzfindBody_of_room params hrdy hoff hpend hcover).trans ?_
    rw [hashAt_of_some params hp hq, exec_ok_bind, hwalk]; rfl
  cases best with
  | none =>
    exact ⟨_, none, _, hashAt_of_some params hp hq, hwalk, exec_of_body (by simp) hs hbody,
      keepsOutside_of_work .., rfl, rfl, fun _ => ⟨⟨rfl, rfl⟩, rfl⟩, fun m hm => by simp at hm⟩
  | some m =>
    have hm := walk_candOk (by simp) hwalk m rfl
    obtain ⟨z, hz⟩ : ∃ z, settle params s.work.lz m = .ok z := by
      cases hp : s.work.lz.pend with
      | false => exact ⟨_, settle_no_pending params m hp⟩
      | true =>
        by_cases ho : m.off < s.work.lz.pOff.toNat + s.work.lz.pLen.toNat
        · exact ⟨_, settle_overlap params hp ho⟩
        · have hend : s.work.lz.pOff.toNat + s.work.lz.pLen.toNat ≤ off.toNat := by
            have := hm.at_off
            omega
          rw [settle_beyond params hp (by omega), lzCommit_of_room (hroom hp hend)]
          exact ⟨_, rfl⟩
    have hset : settleBest params s (some m) = .ok ({ s with work.lz := z }, BitVec.ofNat 32 m.len) := by
      show (settle params s.work.lz m >>= _) = _
      rw [hz]; rfl
    refine ⟨_, some m, _, hashAt_of_some params hp hq, hwalk, exec_of_body (by simp) hs (hbody.trans hset),
      keepsOutside_of_work .., rfl, rfl, by simp, fun m' hm' => ?_⟩
    obtain rfl := Option.some.inj hm'
    refine ⟨⟨rfl, rfl⟩, hm.at_off, hm.one_le, hm.dist_le_off, hm.dist_le, hm.two_le, hm.len_le, hm.inside, hm.save_eq,
      hm.save_pos, hm.same, BitVec.ofInt 32 m.save, hm.toNat_save, fun hp => ?_, fun hp ho => ?_, fun hp ho => ?_⟩
    · obtain rfl := Except.ok.inj ((settle_no_pending params m hp).symm.trans hz)
      show s.work.lz.pended m = _
      rw [Lz.pended, ofNat_off hm.at_off]
    · obtain rfl := Except.ok.inj ((settle_overlap params hp (hm.at_off ▸ ho)).symm.trans hz)
      show (if better m.save m.dist s.work.lz.pSave.toNat s.work.lz.pDist.toNat then s.work.lz.pended m
        else s.work.lz) = _
      rw [Lz.pended_of_pend hp hm.at_off]
      exact if_congr (better_iff ..) rfl rfl
    · have hsettle := settle_beyond params hp (m := m) (hm.at_off.symm ▸ ho)
      rw [lzCommit_of_room (hroom hp ho), exec_ok_bind] at hsettle
      obtain rfl := Except.ok.inj (hsettle.symm.trans hz)
      show s.work.lz.committed.pended m = _
      rw [Lz.pended, ofNat_off hm.at_off, ← hp]
      rfl

/-- Settles O38: by induction along the chain, with any candidate kept from before. -/
theorem lzfindKeepsBest : Obligations.LzfindKeepsBest := by
  intro s off steps c0 best h
  obtain ⟨hwhere, -, hbest⟩ := walk_keeps_best h
  refine ⟨fun m hm => ?_, hbest⟩
  obtain hnone | ⟨m', hm', hmem⟩ := hwhere
  · exact absurd (hm.symm.trans hnone) (by simp)
  · obtain rfl := Option.some.inj (hm.symm.trans hm')
    exact hmem

/-- Settles O39: by whether a match is pending and whether the list has room. -/
theorem lzflushLzrew : Obligations.LzflushLzrew := by
  intro s hs
  refine ⟨fun hrdy hp => ?_, fun hrdy hp hroom => ?_, fun hrdy hp hfull => ?_, fun hrdy => ?_, fun hrdy => ⟨?_, ?_⟩⟩
  · refine exec_of_body (i := .lzflush) (by simp) hs ((lzflushBody_of_ready params hrdy).trans ?_)
    rw [commitPending_no_pend params hp]; rfl
  · have hbody : bodyOf .lzflush s = .ok ({ s with work.lz := s.work.lz.committed },
        BitVec.ofNat 32 (s.work.lz.mlist.length + 1)) := by
      refine (lzflushBody_of_ready params hrdy).trans ?_
      rw [commitPending_of_pend hp, lzCommit_of_room hroom, exec_ok_bind,
        show s.work.lz.committed.mlist.length = s.work.lz.mlist.length + 1 from List.length_append]
    exact exec_of_body (by simp) hs hbody
  · refine faults_of_body (by simp) hs ((lzflushBody_of_ready params hrdy).trans ?_)
    rw [commitPending_of_pend hp, lzCommit_full hfull]; rfl
  · have hbody : bodyOf .lzrew s = .ok ({ s with work.lz := { s.work.lz with rdIdx := 0 } }, 0) := by
      show (lzReady s >>= _) = _
      rw [lzReady_of_ready hrdy]; rfl
    exact exec_of_body (by simp) hs hbody
  · refine faults_of_body (by simp) hs ?_
    show (lzReady s >>= _) = _
    rw [lzReady_not_ready hrdy]; rfl
  · refine faults_of_body (by simp) hs ?_
    show (lzReady s >>= _) = _
    rw [lzReady_not_ready hrdy]; rfl

/-- Settles O41: the bits are read back as the numbers they were written from; each broken limit is one check. -/
theorem lzreadStartsRun : Obligations.LzreadStartsRun := by
  intro k off s a d b rest len dist hs hrdy hleft hk hoff ha hd hb hbr hlen hdist
  rw [List.append_assoc, List.append_assoc] at hbr
  have hbody : bodyOf (.lzread k off) s = _ := lzreadBody_of_start hrdy hleft hk hoff
  rw [readLen_of_bits ha hbr, ← hlen] at hbody
  have hclass := readDist_of_class (s := s.consumed (k.toNat + 1) (msbBits 5 d ++ (msbBits d b ++ rest))) hd rfl
  rw [State.consumed_consumed] at hclass
  have htail := readDistTail_of_bits (s := s.consumed (k.toNat + 1 + 5) (msbBits d b ++ rest)) hb rfl
  rw [State.consumed_consumed, ← hdist] at htail
  refine ⟨fun h1 h2 h3 h4 h5 => ?_, fun hbad => faults_of_body (by simp) hs (hbody.trans ?_)⟩
  · rw [if_neg (by omega), exec_ok_bind, hclass, if_neg (by omega), htail, if_neg (by omega), exec_ok_bind,
      startRun_eq, if_neg (by omega)] at hbody
    exact exec_of_body (by simp) hs hbody
  · by_cases h1 : 4096 < len
    · rw [if_pos h1]; rfl
    · rw [if_neg h1, exec_ok_bind, hclass]
      by_cases h2 : 20 < d
      · rw [if_pos h2]; rfl
      · rw [if_neg h2, htail]
        by_cases h3 : 1048576 < dist
        · rw [if_pos h3]; rfl
        · rw [if_neg h3, exec_ok_bind, startRun_eq, if_pos (by omega)]

/-- Settles O43: the source of the run's next pixel does not wrap, and the write is that pixel's four bytes. -/
theorem lzstepCopies : Obligations.LzstepCopies := by
  intro off s hs
  refine ⟨fun p hrdy hleft hoff hreach hp => ?_, fun hrdy => faults_of_body (by simp) hs ?_,
    fun hrdy hleft => faults_of_body (by simp) hs ?_, fun hrdy hleft hoff => faults_of_body (by simp) hs ?_⟩
  · subst hoff
    have hbody : bodyOf (.lzstep s.work.lz.runNext) s = _ := lzstepBody_of_run hrdy hleft
      (src := s.work.lz.runNext.toNat - s.work.lz.runDist.toNat) (by omega)
    rw [readPix_of_some hp, exec_ok_bind] at hbody
    exact ⟨_, exec_of_body (by simp) hs hbody, ⟨rfl, rfl⟩, Memory.readPixel_writePixel_same ..,
      fun a ha => Memory.readByte_writePixel_ne _ _ ha, rfl⟩
  all_goals show (lzReady s >>= _) = _
  · rw [lzReady_not_ready hrdy]; rfl
  · rw [lzReady_of_ready hrdy, exec_ok_bind, check_true _ (by rw [hleft]; rfl)]; rfl
  · rw [lzReady_of_ready hrdy, exec_ok_bind, check_false _ (by omega), exec_ok_bind, check_true _ hoff]; rfl

end

section
/-! PROOFS. The entropy encoder's commands, case by case: clearing, counting, building the code, writing the table and
the symbols (41_entropy_encoder.md R132 to R146). -/

namespace Sys2Proof.Machine

open Sys2Proof.Config

/-! ### The slot a command names (R30, R131) -/

theorem nctx_le_of_legal {c : Cfg} (h : c.legal = true) (cls : Nat) : c.nctx cls ≤ 32 := by
  obtain ⟨-, -, -, ⟨-, hyuv⟩, ⟨-, ha⟩, ⟨-, hsf⟩, ⟨-, hcf⟩, -⟩ := (Cfg.legal_iff c).mp h
  exact nctx_le hyuv ha hsf hcf cls

theorem ctx_lt_of_slotSel {P : Params} {s : State} {auto : Bool} {cls ctx : Byte} {x : BitVec 16} {c k : Nat}
    (hlegal : s.cfg.legal = true) (h : slotSel P s auto cls ctx x = .ok (c, k)) : k < 32 := by
  obtain ⟨-, -, hk, -⟩ := slotSel_ok h
  exact hk.trans_le (nctx_le_of_legal hlegal c)

theorem slotSel_explicit (P : Params) {s : State} {cls ctx : Byte} (x : BitVec 16) (hc : cls.toNat ≤ 5)
    (hk : ctx.toNat < s.cfg.nctx cls.toNat) : slotSel P s false cls ctx x = .ok (cls.toNat, ctx.toNat) :=
  (slotSel_of_slotCtx hc rfl).trans (if_neg (by omega))

theorem slotSel_explicit_policy (P : Params) {s : State} {cls ctx : Byte} (x : BitVec 16)
    (h : 5 < cls.toNat ∨ s.cfg.nctx cls.toNat ≤ ctx.toNat) : slotSel P s false cls ctx x = raise .policy := by
  by_cases hc : 5 < cls.toNat
  · exact slotSel_class_out_of_range P s false ctx x hc
  · exact (slotSel_of_slotCtx (by omega) rfl).trans (if_pos (h.resolve_left hc))

section
variable {s : State} {c k : Nat}

theorem otherSlotsKept_setSlot (hk : k < 32) (v : Slot) : OtherSlotsKept s (s.setSlot c k v) c k :=
  fun _ _ hk' hne => slot_setSlot_ne s v hk hk' hne

theorem otherSlotsKept_putCounted (hk : k < 32) (r : Slot × Bool) : OtherSlotsKept s (s.putCounted c k r) c k :=
  otherSlotsKept_setSlot hk r.1

@[simp] theorem slot_putCounted_same (r : Slot × Bool) : (s.putCounted c k r).slot c k = r.1 :=
  slot_setSlot_same s c k r.1

end

/-! ### Clearing (R132) -/

theorem mem_allSlots {c k : Nat} (hc : c ≤ 5) (hk : k ≤ 31) : (c, k) ∈ allSlots := by
  unfold allSlots
  rw [List.mem_flatMap]
  exact ⟨c, by simp; omega, by simp; omega⟩

theorem ctx_lt_of_mem_allSlots : ∀ e ∈ allSlots, e.2 < 32 := by
  unfold allSlots
  intro e he
  obtain ⟨_, -, he⟩ := List.mem_flatMap.mp he
  obtain ⟨k, hk, rfl⟩ := List.mem_map.mp he
  exact List.mem_range.mp hk

theorem clearSlots_eq (l : List (Nat × Nat)) (s : State) :
    ∃ slots, l.foldl (fun t e => clearSlot t e.1 e.2) s = { s with work := { s.work with slots := slots } } := by
  induction l generalizing s with
  | nil => exact ⟨s.work.slots, rfl⟩
  | cons e l ih =>
    obtain ⟨slots, hslots⟩ := ih (clearSlot s e.1 e.2)
    exact ⟨slots, hslots.trans rfl⟩

theorem slot_clearSlots {l : List (Nat × Nat)} (hl : ∀ e ∈ l, e.2 < 32) (s : State) {c k : Nat} (hk : k < 32) :
    (l.foldl (fun t e => clearSlot t e.1 e.2) s).slot c k =
      if (c, k) ∈ l then Slot.cleared (s.cfg.literals c) else s.slot c k := by
  induction l generalizing s with
  | nil => simp
  | cons e l ih =>
    have hcleared : (clearSlot s e.1 e.2).slot c k =
        if (c, k) = e then Slot.cleared (s.cfg.literals c) else s.slot c k := by
      unfold clearSlot
      rw [slot_setSlot, if_congr (slotIndex_inj hk (hl e List.mem_cons_self)) rfl rfl]
      by_cases he : (c, k) = e
      · subst he; simp
      · rw [if_neg he, if_neg fun h => he (Prod.ext h.1 h.2)]
    rw [List.foldl_cons, ih (fun e' he' => hl e' (List.mem_cons_of_mem _ he')) (clearSlot s e.1 e.2), hcleared]
    have hcfg : (clearSlot s e.1 e.2).cfg = s.cfg := rfl
    rw [hcfg]
    by_cases hmem : (c, k) ∈ l
    · simp [hmem]
    · simp [hmem]

/-! ### Ending the run being counted (R134) -/

/-- `FlushRun` without its capacity check: the slot, and whether the run symbol's counter was at its maximum. -/
def Slot.flushed (v : Slot) : Slot × Bool :=
  ({ (histInc { v with runList := v.runList ++ [v.zrun] } (v.ns.toNat + zsym v.zrun.toNat)).1 with zrun := 0 },
    (histInc { v with runList := v.runList ++ [v.zrun] } (v.ns.toNat + zsym v.zrun.toNat)).2)

theorem flushRun_of_room {P : Params} {v : Slot} (h : v.runList.length < P.runListCap) :
    flushRun P v = .ok v.flushed := by
  unfold flushRun
  rw [check_false _ (by omega)]
  rfl

theorem flushRun_full {P : Params} {v : Slot} (h : P.runListCap ≤ v.runList.length) :
    flushRun P v = raise .resource := by
  unfold flushRun
  rw [check_true _ h]
  rfl

theorem Slot.flushed_fields (v : Slot) :
    v.flushed.1 = { v with hist := v.flushed.1.hist, runList := v.runList ++ [v.zrun], zrun := 0 } :=
  congrArg (fun u : Slot => { u with zrun := 0 }) (histInc_fields ..)

theorem Slot.flushed_histAt (v : Slot) (i : Nat) :
    v.flushed.1.histAt i =
      if i = v.ns.toNat + zsym v.zrun.toNat then sat32 ((v.histAt i).toNat + 1) else v.histAt i := by
  refine (histInc_histAt { v with runList := v.runList ++ [v.zrun] } (v.ns.toNat + zsym v.zrun.toNat) i).trans ?_
  split
  next h => rw [h]; rfl
  next => rfl

theorem Slot.flushed_sat (v : Slot) :
    v.flushed.2 = decide ((v.histAt (v.ns.toNat + zsym v.zrun.toNat)).toNat = maxWord) := histInc_sat ..

/-- The slot with the run being counted ended, if there is one. -/
def Slot.runEnded (v : Slot) : Slot × Bool := if 0 < v.zrun.toNat then v.flushed else (v, false)

theorem flushIf_of_room {P : Params} {v : Slot} (h : 0 < v.zrun.toNat → v.runList.length < P.runListCap) :
    flushIf P (0 < v.zrun.toNat) v = .ok v.runEnded := by
  unfold flushIf Slot.runEnded
  split
  next hz => exact flushRun_of_room (h hz)
  next => rfl

theorem flushIf_full {P : Params} {p : Prop} [Decidable p] {v : Slot} (hp : p) (h : P.runListCap ≤ v.runList.length) :
    flushIf P p v = raise .resource := (if_pos hp).trans (flushRun_full h)

theorem eq_zero_of_not_pos {v : Word} (h : ¬0 < v.toNat) : v = 0 := BitVec.eq_of_toNat_eq (by simp; omega)

theorem Slot.runEnded_fields (v : Slot) :
    v.runEnded.1 = { v with
      hist := v.runEnded.1.hist, zrun := 0
      runList := if 0 < v.zrun.toNat then v.runList ++ [v.zrun] else v.runList } := by
  unfold Slot.runEnded
  by_cases hz : 0 < v.zrun.toNat
  · rw [if_pos hz, if_pos hz]; exact v.flushed_fields
  · rw [if_neg hz, if_neg hz, ← eq_zero_of_not_pos hz]

@[simp] theorem Slot.runEnded_ns (v : Slot) : v.runEnded.1.ns = v.ns := by rw [v.runEnded_fields]

@[simp] theorem Slot.runEnded_phase (v : Slot) : v.runEnded.1.phase = v.phase := by rw [v.runEnded_fields]

theorem toNat_le_maxWord (v : Word) : v.toNat ≤ maxWord := Nat.le_of_lt_succ v.isLt

theorem Slot.runEnded_histAt (v : Slot) (i : Nat) :
    (v.runEnded.1.histAt i).toNat = min maxWord ((v.histAt i).toNat +
      (if 0 < v.zrun.toNat ∧ i = v.ns.toNat + zsym v.zrun.toNat then 1 else 0)) := by
  have hle := toNat_le_maxWord (v.histAt i)
  unfold Slot.runEnded
  by_cases hz : 0 < v.zrun.toNat
  · rw [if_pos hz, Slot.flushed_histAt]
    by_cases hi : i = v.ns.toNat + zsym v.zrun.toNat
    · rw [if_pos hi, if_pos ⟨hz, hi⟩, toNat_sat32, Nat.min_comm]
    · rw [if_neg hi, if_neg fun h => hi h.2, Nat.add_zero, Nat.min_eq_right hle]
  · rw [if_neg hz, if_neg fun h => hz h.1, Nat.add_zero, Nat.min_eq_right hle]

theorem Slot.runEnded_sat (v : Slot) : v.runEnded.2 = true ↔
    0 < v.zrun.toNat ∧ (v.histAt (v.ns.toNat + zsym v.zrun.toNat)).toNat = maxWord := by
  unfold Slot.runEnded
  by_cases hz : 0 < v.zrun.toNat
  · rw [if_pos hz, Slot.flushed_sat, decide_eq_true_eq, and_iff_right hz]
  · rw [if_neg hz]; simp [hz]

/-! ### Counting a symbol (R134) -/

/-- The slot with a literal counted that is not zero. -/
def Slot.literalAdded (v : Slot) (sym : Nat) : Slot × Bool :=
  ({ (histInc v.runEnded.1 sym).1 with nadd := sat32 (v.nadd.toNat + 1) },
    v.runEnded.2 || (histInc v.runEnded.1 sym).2)

/-- The slot with a zero counted. -/
def Slot.zeroAdded (v : Slot) : Slot × Bool :=
  if v.zrun.toNat = maxWord then
    ({ v.flushed.1 with zrun := v.flushed.1.zrun + 1, nadd := sat32 (v.nadd.toNat + 1) }, v.flushed.2)
  else ({ v with zrun := v.zrun + 1, nadd := sat32 (v.nadd.toNat + 1) }, false)

section
variable {P : Params} {v : Slot} {sym : Nat}

theorem slotAdd_wrong_phase (sym : Nat) (h : v.phase ≠ .count) : slotAdd P v sym = raise .sequence := by
  unfold slotAdd
  rw [check_true _ h]
  rfl

theorem slotAdd_not_literal (h : v.phase = .count) (hs : v.ns.toNat ≤ sym) : slotAdd P v sym = raise .policy := by
  unfold slotAdd
  rw [check_false _ (by simp [h]), exec_ok_bind, check_true _ hs]
  rfl

theorem slotAdd_of_count (h : v.phase = .count) (hs : sym < v.ns.toNat) :
    slotAdd P v sym = if sym = 0 then
        flushIf P (v.zrun.toNat = maxWord) v >>= fun f =>
          .ok ({ f.1 with zrun := f.1.zrun + 1, nadd := sat32 (v.nadd.toNat + 1) }, f.2)
      else flushIf P (0 < v.zrun.toNat) v >>= fun f =>
        .ok ({ (histInc f.1 sym).1 with nadd := sat32 (v.nadd.toNat + 1) }, f.2 || (histInc f.1 sym).2) := by
  unfold slotAdd
  rw [check_false _ (by simp [h]), exec_ok_bind, check_false _ (by omega), exec_ok_bind]
  rfl

theorem slotAdd_literal (h : v.phase = .count) (hs : sym < v.ns.toNat) (h0 : sym ≠ 0)
    (hroom : 0 < v.zrun.toNat → v.runList.length < P.runListCap) :
    slotAdd P v sym = .ok (v.literalAdded sym) := by
  rw [slotAdd_of_count h hs, if_neg h0, flushIf_of_room hroom]
  rfl

theorem slotAdd_zero (h : v.phase = .count) (hs : 0 < v.ns.toNat)
    (hroom : v.zrun.toNat = maxWord → v.runList.length < P.runListCap) : slotAdd P v 0 = .ok v.zeroAdded := by
  rw [slotAdd_of_count h hs, if_pos rfl]
  unfold flushIf Slot.zeroAdded
  split
  next hz => rw [flushRun_of_room (hroom hz)]; rfl
  next => rfl

theorem slotAdd_full (h : v.phase = .count) (hs : sym < v.ns.toNat) (hfull : P.runListCap ≤ v.runList.length)
    (hz : sym ≠ 0 ∧ 0 < v.zrun.toNat ∨ sym = 0 ∧ v.zrun.toNat = maxWord) :
    slotAdd P v sym = raise .resource := by
  rw [slotAdd_of_count h hs]
  obtain ⟨h0, hz⟩ | ⟨h0, hz⟩ := hz
  · rw [if_neg h0, flushIf_full hz hfull]; rfl
  · rw [if_pos h0, flushIf_full hz hfull]; rfl

end

theorem Slot.literalAdded_fields (v : Slot) (sym : Nat) :
    (v.literalAdded sym).1 = { v with
      hist := (v.literalAdded sym).1.hist, nadd := sat32 (v.nadd.toNat + 1), zrun := 0
      runList := if 0 < v.zrun.toNat then v.runList ++ [v.zrun] else v.runList } := by
  have hinc := congrArg (fun u : Slot => { u with nadd := sat32 (v.nadd.toNat + 1) }) (histInc_fields v.runEnded.1 sym)
  have hended := congrArg (fun u : Slot =>
    { u with hist := (histInc v.runEnded.1 sym).1.hist, nadd := sat32 (v.nadd.toNat + 1) }) v.runEnded_fields
  exact hinc.trans hended

theorem Slot.literalAdded_histAt (v : Slot) {sym : Nat} (hs : sym < v.ns.toNat) (i : Nat) :
    ((v.literalAdded sym).1.histAt i).toNat = min maxWord ((v.histAt i).toNat + (if i = sym then 1 else 0) +
      (if 0 < v.zrun.toNat ∧ i = v.ns.toNat + zsym v.zrun.toNat then 1 else 0)) := by
  have hended := v.runEnded_histAt i
  refine (congrArg BitVec.toNat (histInc_histAt v.runEnded.1 sym i)).trans ?_
  by_cases hi : i = sym
  · have hrun : ¬(0 < v.zrun.toNat ∧ i = v.ns.toNat + zsym v.zrun.toNat) := by omega
    rw [if_neg hrun] at hended
    rw [if_pos hi, if_pos hi, if_neg hrun, ← hi, toNat_sat32, hended]
    omega
  · rw [if_neg hi, if_neg hi, hended, Nat.add_zero]

theorem Slot.literalAdded_sat (v : Slot) {sym : Nat} (hs : sym < v.ns.toNat) : (v.literalAdded sym).2 = true ↔
    (v.histAt sym).toNat = maxWord ∨
      (0 < v.zrun.toNat ∧ (v.histAt (v.ns.toNat + zsym v.zrun.toNat)).toNat = maxWord) := by
  have hended := v.runEnded_histAt sym
  have hrun : ¬(0 < v.zrun.toNat ∧ sym = v.ns.toNat + zsym v.zrun.toNat) := by omega
  rw [if_neg hrun, Nat.add_zero, Nat.min_eq_right (toNat_le_maxWord _)] at hended
  show (v.runEnded.2 || (histInc v.runEnded.1 sym).2) = true ↔ _
  rw [Bool.or_eq_true, v.runEnded_sat, histInc_sat, hended, decide_eq_true_eq, or_comm]

theorem Slot.zeroAdded_of_lt {v : Slot} (h : v.zrun.toNat < maxWord) :
    v.zeroAdded = ({ v with zrun := v.zrun + 1, nadd := sat32 (v.nadd.toNat + 1) }, false) :=
  if_neg (by omega)

theorem Slot.zeroAdded_of_max {v : Slot} (h : v.zrun.toNat = maxWord) :
    v.zeroAdded = ({ v.flushed.1 with zrun := 1, nadd := sat32 (v.nadd.toNat + 1) }, v.flushed.2) := by
  unfold Slot.zeroAdded
  rw [if_pos h, v.flushed_fields]
  rfl

/-! ### The commands of the encoder, once their slot is known -/

section
variable {P : Params} {s : State} {auto : Bool} {cls ctx : Byte} {x sym : BitVec 16} {c k : Nat}

theorem addBody_of_slotSel (h : slotSel P s auto cls ctx x = .ok (c, k)) :
    addBody P auto cls ctx x sym s = slotAdd P (s.slot c k) sym.toNat >>= fun r =>
      .ok (s.putCounted c k r, BitVec.ofNat 32 k) := by
  unfold addBody coderAdd
  rw [h, exec_ok_bind]
  exact bind_assoc ..

theorem finalBody_of_slotSel (h : slotSel P s false cls ctx 0 = .ok (c, k)) :
    finalBody P cls ctx s = slotFinal P (s.slot c k) >>= fun r =>
      .ok (s.putCounted c k r, BitVec.ofNat 32 (maxLength r.1.len)) := by
  unfold finalBody
  rw [h]
  rfl

theorem wrtblBody_of_slotSel (h : slotSel P s false cls ctx 0 = .ok (c, k)) :
    wrtblBody P cls ctx s = if (s.slot c k).phase ≠ .ready then raise .sequence
      else .ok (s.appendBits (P.tblEnc (s.slot c k).lengths),
        BitVec.ofNat 32 (P.tblEnc (s.slot c k).lengths).length) := by
  unfold wrtblBody
  rw [h, exec_ok_bind]
  exact check_bind ..

theorem writeBody_of_slotSel (h : slotSel P s auto cls ctx x = .ok (c, k)) :
    writeBody P auto cls ctx x sym s = slotWrite (s.slot c k) sym.toNat >>= fun r =>
      .ok ((s.setSlot c k r.1).appendBits r.2, BitVec.ofNat 32 r.2.length) := by
  unfold writeBody coderWrite
  rw [h, exec_ok_bind]
  exact bind_assoc ..

end

/-! ### Building the code (R136) -/

/-- The slot with its code built. -/
def Slot.finished (v : Slot) : Slot :=
  { v.runEnded.1 with
    len := buildLengths v.runEnded.1.hist v.runEnded.1.alpha
    code := canonical (buildLengths v.runEnded.1.hist v.runEnded.1.alpha)
    rlRd := 0, zrun := 0, nwr := 0, phase := .ready }

theorem slotFinal_of_room {P : Params} {v : Slot} (h : v.phase = .count)
    (hroom : 0 < v.zrun.toNat → v.runList.length < P.runListCap) :
    slotFinal P v = .ok (v.finished, v.runEnded.2) := by
  unfold slotFinal
  rw [check_false _ (by simp [h]), exec_ok_bind, flushIf_of_room hroom]
  rfl

theorem slotFinal_wrong_phase {P : Params} {v : Slot} (h : v.phase ≠ .count) :
    slotFinal P v = raise .sequence := by
  unfold slotFinal
  rw [check_true _ h]
  rfl

theorem slotFinal_full {P : Params} {v : Slot} (h : v.phase = .count) (hz : 0 < v.zrun.toNat)
    (hfull : P.runListCap ≤ v.runList.length) : slotFinal P v = raise .resource := by
  unfold slotFinal
  rw [check_false _ (by simp [h]), exec_ok_bind, flushIf_full hz hfull]
  rfl

theorem Slot.finished_fields (v : Slot) :
    v.finished = { v with
      hist := v.finished.hist, phase := .ready, zrun := 0, rlRd := 0, nwr := 0
      runList := if 0 < v.zrun.toNat then v.runList ++ [v.zrun] else v.runList
      len := buildLengths v.finished.hist (v.ns.toNat + 128)
      code := canonical (buildLengths v.finished.hist (v.ns.toNat + 128)) } := by
  have hns : v.runEnded.1.alpha = v.ns.toNat + 128 := by rw [Slot.alpha, v.runEnded_ns]; rfl
  have hhist : v.finished.hist = v.runEnded.1.hist := rfl
  unfold Slot.finished at *
  rw [hns]
  conv_lhs => rw [v.runEnded_fields]

theorem le_maxLength {len : Sparse (BitVec 5)} {e : Nat × BitVec 5} (h : e ∈ len) :
    e.2.toNat ≤ maxLength len := by
  induction len with
  | nil => simp at h
  | cons a len ih =>
    rw [maxLength, List.foldr_cons]
    obtain rfl | h := List.mem_cons.mp h
    · exact Nat.le_max_left ..
    · exact (ih h).trans (Nat.le_max_right ..)

theorem maxLength_eq_zero_or_mem (len : Sparse (BitVec 5)) :
    maxLength len = 0 ∨ ∃ e ∈ len, e.2.toNat = maxLength len := by
  induction len with
  | nil => exact .inl rfl
  | cons a len ih =>
    have hcons : maxLength (a :: len) = max a.2.toNat (maxLength len) := rfl
    by_cases hle : maxLength len ≤ a.2.toNat
    · exact .inr ⟨a, List.mem_cons_self, by omega⟩
    · obtain h0 | ⟨e, he, heq⟩ := ih
      · omega
      · exact .inr ⟨e, List.mem_cons_of_mem _ he, by omega⟩

theorem wf_buildLengths (hist : Sparse Word) (alpha : Nat) : Sparse.wf 0 (buildLengths hist alpha) = true := by
  unfold buildLengths
  split
  · rfl
  · exact Sparse.wf_foldr_set ..
  · exact Sparse.wf_foldr_set ..

theorem get_le_maxLength (len : Sparse (BitVec 5)) (i : Nat) : (Sparse.get 0 len i).toNat ≤ maxLength len := by
  obtain h | h := Sparse.get_eq_or_mem 0 len i
  · rw [h]; exact Nat.zero_le _
  · exact le_maxLength h

theorem maxLength_attained {len : Sparse (BitVec 5)} (h : Sparse.wf 0 len = true) :
    maxLength len = 0 ∨ ∃ i, (Sparse.get 0 len i).toNat = maxLength len := by
  refine (maxLength_eq_zero_or_mem len).imp_right fun ⟨e, he, heq⟩ => ⟨e.1, ?_⟩
  rw [(Sparse.get_of_mem h he).1, heq]

/-! ### Writing the table (R143) -/

theorem length_raw5Enc (lens : List (BitVec 5)) : (raw5Enc lens).length = 5 * lens.length := by
  induction lens with
  | nil => rfl
  | cons l lens ih =>
    rw [raw5Enc, List.flatMap_cons, List.length_append, length_msbBits, List.length_cons]
    have : (lens.flatMap fun l => msbBits 5 l.toNat).length = 5 * lens.length := ih
    omega

theorem raw5Enc_lengths (v : Slot) :
    raw5Enc v.lengths = (List.range (v.ns.toNat + 128)).flatMap (fun i =>
      (List.range 5).map (fun j => (v.lenAt i).getLsbD (4 - j))) := by
  rw [raw5Enc, Slot.lengths, Sparse.toList, List.flatMap_map]
  refine List.flatMap_congr fun i _ => ?_
  rw [msbBits_eq_map]
  rfl

/-! ### Writing a symbol (R146) -/

section
variable {v : Slot} {sym : Nat}

theorem slotWrite_wrong_phase (sym : Nat) (h : v.phase ≠ .ready) : slotWrite v sym = raise .sequence := by
  unfold slotWrite
  rw [check_true _ h]
  rfl

theorem slotWrite_not_literal (h : v.phase = .ready) (hs : v.ns.toNat ≤ sym) : slotWrite v sym = raise .policy := by
  unfold slotWrite
  rw [check_false _ (by simp [h]), exec_ok_bind, check_true _ hs]
  rfl

theorem slotWrite_of_ready (h : v.phase = .ready) (hs : sym < v.ns.toNat) :
    slotWrite v sym = slotWriteSym v sym >>= fun r =>
      .ok ({ r.1 with nwr := sat32 (v.nwr.toNat + 1) }, r.2) := by
  unfold slotWrite
  rw [check_false _ (by simp [h]), exec_ok_bind, check_false _ (by omega)]
  rfl

theorem slotWriteSym_literal (h0 : sym ≠ 0) (hz : v.zrun.toNat = 0) (hl : v.lenAt sym ≠ 0) :
    slotWriteSym v sym = .ok (v, v.codeBits sym) := by
  unfold slotWriteSym slotWriteLiteral
  rw [if_neg h0, check_false _ (by omega), exec_ok_bind, check_false _ hl]
  rfl

theorem slotWriteSym_covered (hz : 0 < v.zrun.toNat) :
    slotWriteSym v 0 = .ok ({ v with zrun := v.zrun - 1 }, []) := by
  unfold slotWriteSym slotWriteZero
  rw [if_pos rfl, if_pos hz]

theorem slotWriteSym_run (hz : v.zrun.toNat = 0) {r : Word} (hr : v.runList[v.rlRd.toNat]? = some r)
    (hl : v.lenAt (v.ns.toNat + zsym r.toNat) ≠ 0) :
    slotWriteSym v 0 = .ok ({ v with rlRd := v.rlRd + 1, zrun := r - 1 },
      v.codeBits (v.ns.toNat + zsym r.toNat) ++ msbBits (zextraLen (zsym r.toNat)) (zextraVal r.toNat)) := by
  unfold slotWriteSym slotWriteZero slotWriteRun
  rw [if_pos rfl, if_neg (by omega), hr]
  dsimp only
  rw [check_false _ hl]
  rfl

/-- The write pass differs from the count pass. -/
theorem slotWriteSym_differs (h : (sym = 0 ∧ v.zrun.toNat = 0 ∧ v.runList.length ≤ v.rlRd.toNat) ∨
    (sym ≠ 0 ∧ 0 < v.zrun.toNat) ∨ (sym ≠ 0 ∧ v.zrun.toNat = 0 ∧ v.lenAt sym = 0)) :
    slotWriteSym v sym = raise .sequence := by
  unfold slotWriteSym
  obtain ⟨h0, hz, hend⟩ | ⟨h0, hz⟩ | ⟨h0, hz, hl⟩ := h
  · unfold slotWriteZero slotWriteRun
    rw [if_pos h0, if_neg (by omega), List.getElem?_eq_none hend]
  · unfold slotWriteLiteral
    rw [if_neg h0, check_true _ hz]; rfl
  · unfold slotWriteLiteral
    rw [if_neg h0, check_false _ (by omega), exec_ok_bind, check_true _ hl]; rfl

end

/-- A `WRITE` whose slot's part is known appends its bits and replaces the slot. -/
theorem write_of_slotWriteSym {s : State} {auto : Bool} {cls ctx : Byte} {x sym : BitVec 16} {c k : Nat} {v w : Slot}
    {bits : List Bool} (hs : s.err = false) (hsel : slotSel params s auto cls ctx x = .ok (c, k))
    (hv : s.slot c k = v) (hphase : v.phase = .ready) (hsym : sym.toNat < v.ns.toNat)
    (h : slotWriteSym v sym.toNat = .ok (w, bits)) :
    exec (.write auto cls ctx x sym) s =
      .next (((s.setSlot c k { w with nwr := sat32 (v.nwr.toNat + 1) }).appendBits bits).complete
        (BitVec.ofNat 32 bits.length)) := by
  refine exec_of_body (i := .write auto cls ctx x sym) (by simp) hs ((writeBody_of_slotSel hsel).trans ?_)
  rw [hv, slotWrite_of_ready hphase hsym, h]
  rfl

end Sys2Proof.Machine
end

section
/-! PROOFS. The statements about the encoder's commands. -/

open Sys2Proof Sys2Proof.Machine Sys2Proof.Config

/-- Settles O18: every slot index is visited once by `ALL`, and distinct slots stand apart. -/
theorem eclrClears : Obligations.EclrClears := by
  intro cls ctx s hs
  refine ⟨?_, fun hc hk => ?_, fun hbad => faults_of_body (by simp) hs ?_, rfl, rfl, rfl, rfl, ?_, ?_⟩
  · have hslot := fun c k (hk : k ≤ 31) => slot_clearSlots ctx_lt_of_mem_allSlots s (c := c) (k := k) (by omega)
    have hbody : bodyOf (.eclr true cls ctx) s = .ok (allSlots.foldl (fun t e => clearSlot t e.1 e.2) s, 0) := rfl
    obtain ⟨slots, heq⟩ := clearSlots_eq allSlots s
    rw [heq] at hbody hslot
    refine ⟨_, exec_of_body (by simp) hs hbody, ⟨rfl, rfl⟩, keepsOutside_of_work .., rfl, rfl, fun c k hc hk => ?_⟩
    exact (hslot c k hk).trans (if_pos (mem_allSlots hc hk))
  · have hbody : bodyOf (.eclr false cls ctx) s = .ok (clearSlot s cls.toNat ctx.toNat, 0) := by
      show (check (5 < cls.toNat ∨ 31 < ctx.toNat) .policy >>= _) = _
      rw [check_false _ (by omega)]; rfl
    exact ⟨_, exec_of_body (by simp) hs hbody, ⟨rfl, rfl⟩, keepsOutside_of_work .., rfl, rfl,
      otherSlotsKept_setSlot (by omega) _, slot_setSlot_same ..⟩
  · show (check (5 < cls.toNat ∨ 31 < ctx.toNat) .policy >>= _) = _
    rw [check_true _ hbad]; rfl
  · exact BitVec.toNat_setWidth_of_le (by decide)
  · exact BitVec.toNat_setWidth_of_le (by decide)

/-- Settles O20: the literal and the run symbol are different counters. -/
theorem addCountsLiteral : Obligations.AddCountsLiteral := by
  intro auto cls ctx x sym s c k v hs hlegal hsel hv hphase h0 hsym hroom
  have hbody : bodyOf (.add auto cls ctx x sym) s =
      .ok (s.putCounted c k (v.literalAdded sym.toNat), BitVec.ofNat 32 k) := by
    refine (addBody_of_slotSel hsel).trans ?_
    rw [hv, slotAdd_literal hphase hsym (fun h => h0 (BitVec.eq_of_toNat_eq h)) hroom]; rfl
  refine ⟨_, (v.literalAdded sym.toNat).1, exec_of_body (by simp) hs hbody, slot_putCounted_same _, ⟨rfl, rfl⟩,
    keepsOutside_of_work .., rfl, otherSlotsKept_putCounted (ctx_lt_of_slotSel hlegal hsel) _, rfl,
    v.literalAdded_fields _, v.literalAdded_histAt hsym, ?_⟩
  exact (Bool.or_eq_true ..).to_iff.trans (or_congr Iff.rfl (v.literalAdded_sat hsym))

/-- Settles O21: by whether the run stands at the counter's maximum. -/
theorem addCountsZero : Obligations.AddCountsZero := by
  intro auto cls ctx x s c k v hs hlegal hsel hv hphase hns hroom
  have hbody : bodyOf (.add auto cls ctx x 0) s = .ok (s.putCounted c k v.zeroAdded, BitVec.ofNat 32 k) := by
    refine (addBody_of_slotSel hsel).trans ?_
    rw [hv, show (0 : BitVec 16).toNat = 0 from rfl, slotAdd_zero (P := params) hphase hns hroom]; rfl
  refine ⟨_, v.zeroAdded.1, exec_of_body (by simp) hs hbody, slot_putCounted_same _, ⟨rfl, rfl⟩,
    keepsOutside_of_work .., rfl, otherSlotsKept_putCounted (ctx_lt_of_slotSel hlegal hsel) _, rfl,
    fun hz => ?_, fun hz => ?_⟩
  · have hadded := Slot.zeroAdded_of_lt hz
    refine ⟨congrArg Prod.fst hadded, ?_⟩
    show (s.work.hsat || v.zeroAdded.2) = s.work.hsat
    rw [hadded, Bool.or_false]
  · have hadded := Slot.zeroAdded_of_max hz
    have hsym : zsym v.zrun.toNat = 127 := by rw [hz]; exact runSymbols.1
    have hle := fun i => toNat_le_maxWord (v.histAt i)
    refine ⟨?_, fun i => ?_, ?_⟩
    · rw [hadded, v.flushed_fields]
    · rw [hadded]
      refine (congrArg BitVec.toNat (v.flushed_histAt i)).trans ?_
      rw [hsym]
      by_cases hi : i = v.ns.toNat + 127
      · rw [if_pos hi, if_pos hi, toNat_sat32, Nat.min_comm]; rfl
      · rw [if_neg hi, if_neg hi]
        exact (Nat.min_eq_right (hle i)).symm
    · show (s.work.hsat || v.zeroAdded.2) = true ↔ _
      rw [hadded, Bool.or_eq_true, v.flushed_sat, hsym, decide_eq_true_eq]
      rfl

/-- Settles O22: the slot is the count slot with its last run ended; the response is the longest length listed. -/
theorem finalBuilds : Obligations.FinalBuilds := by
  refine ⟨fun cls ctx s hs hbad => faults_of_body (by simp) hs ?_, fun cls ctx s c k v hs hlegal hsel hv =>
    ⟨fun hphase hroom => ?_, fun hphase => faults_of_body (by simp) hs ?_,
      fun hphase hz hfull => faults_of_body (by simp) hs ?_⟩⟩
  · show (slotSel params s false cls ctx 0 >>= _) = _
    rw [slotSel_explicit_policy params 0 hbad]; rfl
  · have hbody : bodyOf (.final cls ctx) s =
        .ok (s.putCounted c k (v.finished, v.runEnded.2), BitVec.ofNat 32 (maxLength v.finished.len)) := by
      refine (finalBody_of_slotSel hsel).trans ?_
      rw [hv, slotFinal_of_room hphase hroom]; rfl
    exact ⟨_, v.finished, maxLength v.finished.len, exec_of_body (by simp) hs hbody, slot_putCounted_same _,
      ⟨rfl, rfl⟩, keepsOutside_of_work .., rfl, otherSlotsKept_putCounted (ctx_lt_of_slotSel hlegal hsel) _, rfl,
      v.finished_fields, v.runEnded_histAt, get_le_maxLength _, maxLength_attained (wf_buildLengths ..)⟩
  · refine (finalBody_of_slotSel hsel).trans ?_
    rw [hv, slotFinal_wrong_phase hphase]; rfl
  · refine (finalBody_of_slotSel hsel).trans ?_
    rw [hv, slotFinal_full hphase hz hfull]; rfl

/-- Settles O24: the default table codec is five bits a length. -/
theorem wrtblWrites : Obligations.WrtblWrites := by
  refine ⟨fun cls ctx s hs hbad => faults_of_body (by simp) hs ?_, fun cls ctx s c k v hs hsel hv =>
    ⟨fun hphase => ?_, fun hphase => faults_of_body (by simp) hs ?_⟩⟩
  · show (slotSel params s false cls ctx 0 >>= _) = _
    rw [slotSel_explicit_policy params 0 hbad]; rfl
  · have hlen : (raw5Enc v.lengths).length = 5 * (v.ns.toNat + 128) := by
      rw [length_raw5Enc, Slot.lengths, Sparse.length_toList]; rfl
    have hbody : bodyOf (.wrtbl cls ctx) s =
        .ok (s.appendBits (raw5Enc v.lengths), BitVec.ofNat 32 (raw5Enc v.lengths).length) := by
      refine (wrtblBody_of_slotSel hsel).trans ?_
      rw [hv, if_neg (by simp [hphase])]; rfl
    have hexec := exec_of_body (by simp) hs hbody
    rw [State.appendBits, hlen, raw5Enc_lengths] at hexec
    exact hexec
  · refine (wrtblBody_of_slotSel hsel).trans ?_
    rw [hv, if_pos hphase]

/-- Settles O25: the three cases are the three ways a symbol is written. -/
theorem writeEmits : Obligations.WriteEmits := by
  intro auto cls ctx x sym s c k v hs hlegal hsel hv hphase hsym bits w hcases
  have hwrite : slotWriteSym v sym.toNat = .ok (w, bits) := by
    obtain ⟨h0, hz, hl, rfl, rfl⟩ | ⟨rfl, hz, rfl, rfl⟩ | ⟨rfl, hz, r, z, e, hr, rfl, rfl, hl, rfl, rfl⟩ := hcases
    · exact slotWriteSym_literal (fun h => h0 (BitVec.eq_of_toNat_eq h)) hz hl
    · exact slotWriteSym_covered hz
    · exact slotWriteSym_run hz hr hl
  exact ⟨_, write_of_slotWriteSym hs hsel hv hphase hsym hwrite, ⟨rfl, rfl⟩,
    otherSlotsKept_setSlot (ctx_lt_of_slotSel hlegal hsel) _, slot_setSlot_same .., rfl, rfl⟩

end

section
/-! PROOFS. The entropy decoder: code words, tables and symbols read back (42_entropy_decoder.md R160 to R166). -/

namespace Sys2Proof.Machine

open Sys2Proof.Config

/-! ### Numbers and their bits -/

theorem bitsValue_append_one (bs : List Bool) (b : Bool) : bitsValue (bs ++ [b]) = 2 * bitsValue bs + b.toNat := by
  simp [bitsValue]

theorem msbBits_bitsValue (bs : List Bool) : msbBits bs.length (bitsValue bs) = bs := by
  have htake := takeBits_eq bs.length 0 bs
  rw [if_pos le_rfl, List.take_length, List.drop_length] at htake
  exact ((eq_of_takeBits htake).1.trans (List.append_nil _)).symm

theorem bitsValue_msbBits {n v : Nat} (h : v < 2 ^ n) : bitsValue (msbBits n v) = v := by
  have htake := takeBits_msbBits n 0 v []
  rw [takeBits_eq, if_pos (by simp), List.append_nil, List.take_of_length_le (by simp)] at htake
  have hval := congrArg Prod.fst (Option.some.inj htake)
  rw [Nat.mod_eq_of_lt h, Nat.zero_mul, Nat.zero_add] at hval
  exact hval

theorem bitsValue_lt (bs : List Bool) : bitsValue bs < 2 ^ bs.length := by
  have htake := takeBits_eq bs.length 0 bs
  rw [if_pos le_rfl, List.take_length] at htake
  have hlt := takeBits_lt htake
  rwa [Nat.zero_add, Nat.one_mul] at hlt

theorem ofNat_eq_of_toNat {v : Word} {n : Nat} (h : v.toNat = n) : BitVec.ofNat 32 n = v := by
  rw [← h, BitVec.ofNat_toNat, BitVec.setWidth_eq]

theorem takeBits_five_of_le {bs : List Bool} (h : 5 ≤ bs.length) :
    takeBits 5 0 bs = some (bitsValue (bs.take 5), bs.drop 5) := (takeBits_eq 5 0 bs).trans (if_pos h)

/-! ### A slot with a canonical code (R36) -/

/-- `Slot.codeInv`, clause by clause. -/
structure CodeOk (v : Slot) : Prop where
  wf : Sparse.wf 0 v.len = true
  below : ∀ e ∈ v.len, e.1 < v.alpha
  valid : validLengths v.lengths = true
  code : v.code = canonical v.len

theorem codeInv_iff (v : Slot) : v.codeInv = true ↔ CodeOk v := by
  simp only [Slot.codeInv, Bool.and_eq_true, decide_eq_true_eq, List.all_eq_true, and_assoc]
  exact ⟨fun ⟨h1, h2, h3, h4⟩ => ⟨h1, h2, h3, h4⟩, fun ⟨h1, h2, h3, h4⟩ => ⟨h1, h2, h3, h4⟩⟩

theorem mem_of_lenAt {v : Slot} {i : Nat} (hi : v.lenAt i ≠ 0) : (i, v.lenAt i) ∈ v.len :=
  (Sparse.get_eq_or_mem 0 v.len i).resolve_left hi

/-- Whether an entry of `LEN` has these bits as its code word. -/
def hasCode (v : Slot) (bits : List Bool) (e : Nat × BitVec 5) : Bool :=
  decide (e.2.toNat = bits.length) && decide ((v.codeAt e.1).toNat = bitsValue bits)

theorem findCode_eq (v : Slot) (bits : List Bool) :
    v.findCode bits.length (bitsValue bits) = (v.len.find? (hasCode v bits)).map Prod.fst := rfl

section
variable {v : Slot} (h : CodeOk v)
include h

theorem CodeOk.fit : LengthsFit v.len := LengthsFit.of_validLengths h.wf h.below h.valid

theorem CodeOk.toNat_codeAt {i : Nat} (hi : v.lenAt i ≠ 0) : (v.codeAt i).toNat = codeOf v.len i (v.lenAt i) := by
  rw [Slot.codeAt, h.code, toNat_get_canonical h.fit]
  exact if_neg hi

theorem CodeOk.codeBits_eq {i : Nat} (hi : v.lenAt i ≠ 0) :
    v.codeBits i = msbBits (v.lenAt i).toNat (codeOf v.len i (v.lenAt i)) := by
  rw [Slot.codeBits, h.toNat_codeAt hi]

theorem CodeOk.codeAt_lt {i : Nat} (hi : v.lenAt i ≠ 0) : (v.codeAt i).toNat < 2 ^ (v.lenAt i).toNat := by
  rw [h.toNat_codeAt hi]
  exact codeOf_lt_two_pow h.fit (mem_of_lenAt hi)

theorem CodeOk.len_le {i : Nat} (hi : v.lenAt i ≠ 0) : (v.lenAt i).toNat ≤ 16 := h.fit.le _ (mem_of_lenAt hi)

/-- No code word begins another symbol's. -/
theorem CodeOk.eq_of_isPrefix {i j : Nat} (hi : v.lenAt i ≠ 0) (hj : v.lenAt j ≠ 0)
    (hp : v.codeBits i <+: v.codeBits j) : i = j := by
  by_contra hne
  rw [h.codeBits_eq hi, h.codeBits_eq hj] at hp
  exact codeOf_not_isPrefix h.fit (mem_of_lenAt hi) (mem_of_lenAt hj) hne hp

/-- An entry has these bits as its code word exactly when its length and code are theirs. -/
theorem CodeOk.codeBits_eq_iff {i : Nat} (hi : v.lenAt i ≠ 0) (bits : List Bool) :
    v.codeBits i = bits ↔ (v.lenAt i).toNat = bits.length ∧ (v.codeAt i).toNat = bitsValue bits := by
  constructor
  · rintro rfl
    exact ⟨(length_msbBits _ _).symm, (bitsValue_msbBits (h.codeAt_lt hi)).symm⟩
  · rintro ⟨hlen, hval⟩
    rw [Slot.codeBits, hlen, hval, msbBits_bitsValue]

theorem CodeOk.findCode_iff (bits : List Bool) (i : Nat) :
    v.findCode bits.length (bitsValue bits) = some i ↔ v.lenAt i ≠ 0 ∧ v.codeBits i = bits := by
  have hentry : ∀ e ∈ v.len, v.lenAt e.1 = e.2 ∧ v.lenAt e.1 ≠ 0 := fun e he => by
    obtain ⟨hget, hne⟩ := Sparse.get_of_mem h.wf he
    exact ⟨hget, fun h0 => hne (hget.symm.trans h0)⟩
  have hhit : ∀ e ∈ v.len, hasCode v bits e = true ↔ v.codeBits e.1 = bits := fun e he => by
    obtain ⟨hget, hne⟩ := hentry e he
    rw [hasCode, Bool.and_eq_true, decide_eq_true_eq, decide_eq_true_eq, ← hget]
    exact (h.codeBits_eq_iff hne bits).symm
  have hfind : ∀ e, v.len.find? (hasCode v bits) = some e → v.lenAt e.1 ≠ 0 ∧ v.codeBits e.1 = bits :=
    fun e he => ⟨(hentry e (List.mem_of_find?_eq_some he)).2,
      (hhit e (List.mem_of_find?_eq_some he)).mp (List.find?_some he)⟩
  rw [findCode_eq, Option.map_eq_some_iff]
  constructor
  · rintro ⟨e, he, rfl⟩
    exact hfind e he
  · rintro ⟨hi, hbits⟩
    cases hres : v.len.find? (hasCode v bits) with
    | none => exact absurd ((hhit _ (mem_of_lenAt hi)).mpr hbits) (List.find?_eq_none.mp hres _ (mem_of_lenAt hi))
    | some e =>
      obtain ⟨hne, heq⟩ := hfind e hres
      exact ⟨e, rfl, h.eq_of_isPrefix hne hi (by rw [heq, hbits])⟩

end

/-! ### Decoding a code word (R166) -/

/-- One round of `DecodeSym`, with the bits read so far as a list. -/
theorem decodeLoop_cons (v : Slot) (fuel : Nat) (pre : List Bool) (b : Bool) (bs : List Bool) :
    decodeLoop v (fuel + 1) pre.length (bitsValue pre) (b :: bs) =
      match v.findCode (pre ++ [b]).length (bitsValue (pre ++ [b])) with
      | some i => .ok (i, (pre ++ [b]).length, bs)
      | none => decodeLoop v fuel (pre ++ [b]).length (bitsValue (pre ++ [b])) bs := by
  rw [bitsValue_append_one, List.length_append, List.length_singleton]
  rfl

/-- With a code word begun but not complete, the rest of it leads to its symbol. -/
theorem CodeOk.decodeLoop_of_code {v : Slot} (h : CodeOk v) {i : Nat} (hi : v.lenAt i ≠ 0) (rest : List Bool)
    (suf : List Bool) {pre : List Bool} {fuel : Nat} (hbits : v.codeBits i = pre ++ suf) (hsuf : suf ≠ [])
    (hfuel : suf.length ≤ fuel) :
    decodeLoop v fuel pre.length (bitsValue pre) (suf ++ rest) = .ok (i, (v.lenAt i).toNat, rest) := by
  induction suf generalizing pre fuel with
  | nil => exact absurd rfl hsuf
  | cons b suf ih =>
    obtain ⟨fuel, rfl⟩ : ∃ n, fuel = n + 1 := ⟨fuel - 1, by rw [List.length_cons] at hfuel; omega⟩
    have hsplit : v.codeBits i = pre ++ [b] ++ suf := by rw [hbits, List.append_assoc]; rfl
    rw [List.cons_append, decodeLoop_cons]
    cases suf with
    | nil =>
      rw [List.append_nil] at hsplit
      rw [(h.findCode_iff (pre ++ [b]) i).mpr ⟨hi, hsplit⟩, ← hsplit, Slot.codeBits, length_msbBits]
      rfl
    | cons b' suf =>
      have hnone : v.findCode (pre ++ [b]).length (bitsValue (pre ++ [b])) = none := by
        refine Option.eq_none_iff_forall_ne_some.mpr fun j hj => ?_
        obtain ⟨hj, heq⟩ := (h.findCode_iff _ j).mp hj
        obtain rfl := h.eq_of_isPrefix hj hi (by rw [heq, hsplit]; exact List.prefix_append ..)
        rw [hsplit] at heq
        exact absurd (congrArg List.length heq) (by simp)
      rw [hnone]
      exact ih hsplit (by simp) (Nat.le_of_succ_le_succ hfuel)

theorem CodeOk.decodes {v : Slot} (h : CodeOk v) {i : Nat} (hi : v.lenAt i ≠ 0) (rest : List Bool) :
    decodeLoop v 16 0 0 (v.codeBits i ++ rest) = .ok (i, (v.lenAt i).toNat, rest) := by
  have hlen : (v.codeBits i).length = (v.lenAt i).toNat := length_msbBits _ _
  refine h.decodeLoop_of_code hi rest (v.codeBits i) (pre := []) rfl ?_ (hlen ▸ h.len_le hi)
  rw [ne_eq, ← List.length_eq_zero_iff, hlen]
  exact fun h0 => hi (BitVec.eq_of_toNat_eq h0)

/-- Bits with no code word in front of them end in a fault: all lengths tried, or the stream ended. -/
theorem CodeOk.decodeLoop_of_no_code {v : Slot} (h : CodeOk v) (fuel : Nat) {pre bs : List Bool}
    (hno : ∀ i, v.lenAt i ≠ 0 → ¬(v.codeBits i <+: pre ++ bs)) :
    decodeLoop v fuel pre.length (bitsValue pre) bs =
      if fuel ≤ bs.length then raise .badSymbol else raise .truncated := by
  induction fuel generalizing pre bs with
  | zero => rfl
  | succ fuel ih =>
    cases bs with
    | nil => rfl
    | cons b bs =>
      have hstream : pre ++ b :: bs = pre ++ [b] ++ bs := by rw [List.append_assoc]; rfl
      have hnone : v.findCode (pre ++ [b]).length (bitsValue (pre ++ [b])) = none := by
        refine Option.eq_none_iff_forall_ne_some.mpr fun j hj => ?_
        obtain ⟨hj, heq⟩ := (h.findCode_iff _ j).mp hj
        exact hno j hj (by rw [heq, hstream]; exact List.prefix_append ..)
      rw [decodeLoop_cons, hnone]
      rw [hstream] at hno
      exact (ih hno).trans (if_congr (by rw [List.length_cons]; omega) rfl rfl)

/-! ### Reading a symbol (R164) -/

theorem State.consumed_zero (s : State) : s.consumed 0 s.br = s := by
  simp [State.consumed]

theorem decodeSym_of_code {s : State} {v : Slot} (h : CodeOk v) {i : Nat} (hi : v.lenAt i ≠ 0) {rest : List Bool}
    (hbr : s.br = v.codeBits i ++ rest) : decodeSym s v = .ok (i, s.consumed (v.codeBits i).length rest) := by
  unfold decodeSym
  rw [hbr, show maxCodeLen = 16 from rfl, h.decodes hi, Slot.codeBits, length_msbBits]
  rfl

theorem decodeSym_of_no_code {s : State} {v : Slot} (h : CodeOk v)
    (hno : ∀ i, v.lenAt i ≠ 0 → ¬(v.codeBits i <+: s.br)) :
    decodeSym s v = if 16 ≤ s.br.length then raise .badSymbol else raise .truncated := by
  unfold decodeSym
  rw [show maxCodeLen = 16 from rfl]
  have hloop := h.decodeLoop_of_no_code 16 (pre := []) (bs := s.br) hno
  rw [show decodeLoop v 16 0 0 s.br = _ from hloop]
  split <;> rfl

theorem readRun_of_bits {s : State} {z e : Nat} {rest : List Bool} (he : e < 2 ^ (z - 96))
    (hbr : s.br = msbBits (z - 96) e ++ rest) :
    readRun s z = if 4294967295 < zrunOf z e then raise .badSymbol
      else .ok (zrunOf z e, s.consumed (z - 96) rest) := by
  unfold readRun
  rw [show zextraLen z = z - 96 from rfl, readBits_of_msbBits he hbr, exec_ok_bind]
  exact check_bind ..

theorem readRun_truncated {s : State} {z : Nat} (h : s.br.length < z - 96) : readRun s z = raise .truncated := by
  unfold readRun
  rw [show zextraLen z = z - 96 from rfl, readBits_of_lt h]
  rfl

theorem zrunOf_direct {z : Nat} (v : Nat) (h : z < 96) : zrunOf z v = z + 1 := if_pos h

theorem zrunOf_indirect {z : Nat} (v : Nat) (h : 96 ≤ z) : zrunOf z v = 96 + 2 ^ (z - 96) + v :=
  if_neg (Nat.not_lt.mpr h)

theorem readSym_owed {s : State} {v : Slot} (h : 0 < v.zrun.toNat) : readSym s v = .ok (0, v.zrun - 1, s) := if_pos h

theorem readSym_of_code {s : State} {v : Slot} (h : CodeOk v) (hz : v.zrun.toNat = 0) {i : Nat} (hi : v.lenAt i ≠ 0)
    {rest : List Bool} (hbr : s.br = v.codeBits i ++ rest) :
    readSym s v = if i < v.ns.toNat then .ok (i, v.zrun, s.consumed (v.codeBits i).length rest)
      else readRun (s.consumed (v.codeBits i).length rest) (i - v.ns.toNat) >>= fun r =>
        .ok (0, BitVec.ofNat 32 (r.1 - 1), r.2) := by
  unfold readSym readFresh
  rw [if_neg (by omega), decodeSym_of_code h hi hbr]
  rfl

theorem readSym_of_no_code {s : State} {v : Slot} (h : CodeOk v) (hz : v.zrun.toNat = 0)
    (hno : ∀ i, v.lenAt i ≠ 0 → ¬(v.codeBits i <+: s.br)) :
    readSym s v = if 16 ≤ s.br.length then raise .badSymbol else raise .truncated := by
  unfold readSym readFresh
  rw [if_neg (by omega), decodeSym_of_no_code h hno]
  split <;> rfl

/-- What stands in front of the stream for one `READ`: the value it delivers, the zeros then owed, and the bits it
takes (R164). -/
inductive Delivery (v : Slot) : Nat → Word → List Bool → Prop
  | owed (h : 0 < v.zrun.toNat) : Delivery v 0 (v.zrun - 1) []
  | literal {x : Nat} (h : v.zrun.toNat = 0) (hx : x < v.ns.toNat) (hl : v.lenAt x ≠ 0) :
      Delivery v x 0 (v.codeBits x)
  | run {z e : Nat} (h : v.zrun.toNat = 0) (hl : v.lenAt (v.ns.toNat + z) ≠ 0) (he : e < 2 ^ (z - 96))
      (hr : zrunOf z e ≤ 4294967295) :
      Delivery v 0 (BitVec.ofNat 32 (zrunOf z e - 1)) (v.codeBits (v.ns.toNat + z) ++ msbBits (z - 96) e)

theorem Delivery.readSym {v : Slot} {val : Nat} {owed : Word} {bits : List Bool} (hd : Delivery v val owed bits)
    (h : CodeOk v) {s : State} {rest : List Bool} (hbr : s.br = bits ++ rest) :
    Machine.readSym s v = .ok (val, owed, s.consumed bits.length rest) := by
  cases hd with
  | owed hz =>
    rw [readSym_owed hz, show rest = s.br from hbr.symm, List.length_nil, State.consumed_zero]
  | literal hz hx hl =>
    rw [readSym_of_code h hz hl hbr, if_pos hx, show v.zrun = 0 from BitVec.eq_of_toNat_eq hz]
  | @run z e hz hl he hr =>
    rw [List.append_assoc] at hbr
    rw [readSym_of_code h hz hl hbr, if_neg (by omega), Nat.add_sub_cancel_left,
      readRun_of_bits he (rest := rest) rfl, if_neg (by omega), exec_ok_bind, State.consumed_consumed,
      List.length_append, length_msbBits]

/-! ### The commands of the decoder, once their slot is known -/

section
variable {P : Params} {s : State} {auto : Bool} {cls ctx : Byte} {x : BitVec 16} {c k : Nat}

theorem rdtblBody_of_slotSel (h : slotSel P s false cls ctx 0 = .ok (c, k)) :
    rdtblBody P cls ctx s = readTable P s ((s.cfg.literals c).toNat + zrleSyms) >>= fun r =>
      if validLengths r.1 = false then raise .badCodelen
      else .ok (r.2.setSlot c k ((s.slot c k).decoder (s.cfg.literals c) (Sparse.ofList 0 0 r.1)),
        BitVec.ofNat 32 (usedLengths r.1).length) := by
  unfold rdtblBody
  rw [h, exec_ok_bind]
  exact bind_congr fun r => check_bind ..

theorem readBody_of_slotSel (h : slotSel P s auto cls ctx x = .ok (c, k)) :
    readBody P auto cls ctx x s = if (s.slot c k).phase ≠ .decode then raise .sequence
      else readSym s (s.slot c k) >>= fun r =>
        .ok (r.2.2.setSlot c k { s.slot c k with zrun := r.2.1, nwr := sat32 ((s.slot c k).nwr.toNat + 1) },
          BitVec.ofNat 32 r.1) := by
  unfold readBody
  rw [h, exec_ok_bind]
  exact check_bind ..

end

/-- A `READ` takes what stands in front of the stream and replaces the slot. -/
theorem read_of_delivery {s : State} {auto : Bool} {cls ctx : Byte} {x : BitVec 16} {c k : Nat} {v : Slot} {val : Nat}
    {owed : Word} {bits rest : List Bool} (hs : s.err = false) (hsel : slotSel params s auto cls ctx x = .ok (c, k))
    (hv : s.slot c k = v) (hphase : v.phase = .decode) (hcode : CodeOk v) (hd : Delivery v val owed bits)
    (hbr : s.br = bits ++ rest) :
    exec (.read auto cls ctx x) s =
      .next (((s.consumed bits.length rest).setSlot c k
        { v with zrun := owed, nwr := sat32 (v.nwr.toNat + 1) }).complete (BitVec.ofNat 32 val)) := by
  refine exec_of_body (i := .read auto cls ctx x) (by simp) hs ((readBody_of_slotSel hsel).trans ?_)
  rw [hv, if_neg (by simp [hphase]), hd.readSym hcode hbr]
  rfl

theorem read_of_readSym_raise {s : State} {auto : Bool} {cls ctx : Byte} {x : BitVec 16} {c k : Nat} {v : Slot}
    {e : Cause} (hs : s.err = false) (hsel : slotSel params s auto cls ctx x = .ok (c, k)) (hv : s.slot c k = v)
    (hphase : v.phase = .decode) (h : readSym s v = raise e) : Faults (.read auto cls ctx x) s e := by
  refine faults_of_body (by simp) hs ((readBody_of_slotSel hsel).trans ?_)
  rw [hv, if_neg (by simp [hphase]), h]
  rfl

/-! ### Reading a table (R160 to R163) -/

/-- A failure after legal fields is the failure of the table. -/
theorem raw5Dec_append_error {lens : List (BitVec 5)} (hl : ∀ l ∈ lens, l.toNat ≤ 16) {n : Nat} {rest : List Bool}
    {e : TblError} (h : raw5Dec n rest = .error e) : raw5Dec (lens.length + n) (raw5Enc lens ++ rest) = .error e := by
  induction lens with
  | nil => rw [List.length_nil, Nat.zero_add]; exact h
  | cons l lens ih =>
    have htake : takeBits 5 0 (raw5Enc (l :: lens) ++ rest) = some (l.toNat, raw5Enc lens ++ rest) := by
      rw [raw5Enc, List.flatMap_cons, List.append_assoc, takeBits_msbBits, Nat.mod_eq_of_lt l.isLt, Nat.zero_mul,
        Nat.zero_add]
      rfl
    have hlegal : ¬maxCodeLen < l.toNat := Nat.not_lt.mpr (hl l List.mem_cons_self)
    rw [List.length_cons, Nat.add_right_comm, raw5Dec, htake]
    dsimp only
    rw [if_neg hlegal, ih fun l' hl' => hl l' (List.mem_cons_of_mem _ hl')]

theorem raw5Dec_short (n : Nat) {bs : List Bool} (h : bs.length < 5) : raw5Dec (n + 1) bs = .error .truncated := by
  obtain ⟨-, heq⟩ | ⟨_, _, -, hlen, -⟩ := raw5Dec_succ n bs
  · exact heq
  · omega

theorem raw5Dec_bad_field (n : Nat) {bs : List Bool} (h : 5 ≤ bs.length) (hbad : 16 < bitsValue (bs.take 5)) :
    raw5Dec (n + 1) bs = .error .badCodelen := by
  rw [raw5Dec, takeBits_five_of_le h]
  dsimp only
  rw [if_pos (show maxCodeLen < _ from hbad)]

theorem readTable_of_ok {s : State} {n : Nat} {lens : List (BitVec 5)} {rest : List Bool}
    (h : raw5Dec n s.br = .ok (lens, rest)) :
    readTable params s n = .ok (lens, s.consumed (s.br.length - rest.length) rest) := by
  unfold readTable
  rw [show params.tblDec n s.br = _ from h]

theorem readTable_of_error {s : State} {n : Nat} {e : TblError} (h : raw5Dec n s.br = .error e) :
    readTable params s n = raise (tblCause e) := by
  unfold readTable
  rw [show params.tblDec n s.br = _ from h]

theorem readTable_of_table {s : State} {lens : List (BitVec 5)} {rest : List Bool}
    (hl : ∀ l ∈ lens, l.toNat ≤ maxCodeLen) (hbr : s.br = raw5Enc lens ++ rest) :
    readTable params s lens.length = .ok (lens, s.consumed (5 * lens.length) rest) := by
  have hdec : raw5Dec lens.length s.br = .ok (lens, rest) := by rw [hbr, raw5Dec_raw5Enc lens rest hl]
  rw [readTable_of_ok hdec, hbr, List.length_append, Nat.add_sub_cancel, length_raw5Enc]

theorem length_usedLengths (lens : List (BitVec 5)) :
    (usedLengths lens).length = lens.countP (fun l => l != 0) := by
  rw [usedLengths, List.length_map, List.countP_eq_length_filter]

/-- `RDTBL` of a table that is a code makes a decoder with that code. -/
theorem rdtbl_of_table {s : State} {cls ctx : Byte} {c k : Nat} {lens : List (BitVec 5)} {rest : List Bool}
    (hs : s.err = false) (hsel : slotSel params s false cls ctx 0 = .ok (c, k))
    (hlen : lens.length = (s.cfg.literals c).toNat + 128) (hvalid : validLengths lens = true)
    (hbr : s.br = raw5Enc lens ++ rest) :
    exec (.rdtbl cls ctx) s = .next (((s.consumed (5 * lens.length) rest).setSlot c k
      ((s.slot c k).decoder (s.cfg.literals c) (Sparse.ofList 0 0 lens))).complete
        (BitVec.ofNat 32 (lens.countP (fun l => l != 0)))) := by
  refine exec_of_body (i := .rdtbl cls ctx) (by simp) hs ((rdtblBody_of_slotSel hsel).trans ?_)
  rw [show (s.cfg.literals c).toNat + zrleSyms = lens.length from hlen.symm,
    readTable_of_table ((validLengths_iff lens).mp hvalid).1 hbr, exec_ok_bind, if_neg (by simp [hvalid]),
    length_usedLengths]

end Sys2Proof.Machine
end

section
/-! PROOFS. The statements about the decoder, and the faults of the coder's symbol commands. -/

open Sys2Proof Sys2Proof.Machine Sys2Proof.Config

/-- Settles O27: bit by bit, no shorter part is a code word, and the whole is this symbol's alone. -/
theorem codeWordDecodes : Obligations.CodeWordDecodes := fun v _ rest hv hi => ((codeInv_iff v).mp hv).decodes hi rest

/-- Settles O26: the fields are read one by one, and the first that is missing or no length decides. -/
theorem rdtblReads : Obligations.RdtblReads := by
  refine ⟨fun cls ctx s hs hbad => faults_of_body (by simp) hs ?_,
    fun cls ctx s c k v lens rest hs hlegal hsel hv hl hbr => ⟨fun hlen hvalid => ?_, fun hlen hvalid => ?_,
      fun hlen hrest => ?_, fun hlen hrest hbad => ?_⟩⟩
  · show (slotSel params s false cls ctx 0 >>= _) = _
    rw [slotSel_explicit_policy params 0 hbad]; rfl
  · subst hv
    exact ⟨_, _, rdtbl_of_table hs hsel hlen hvalid hbr, slot_setSlot_same .., rfl, ⟨rfl, rfl⟩,
      otherSlotsKept_setSlot (ctx_lt_of_slotSel hlegal hsel) _, rfl, rfl, Sparse.wf_ofList 0 lens,
      fun i => (congrArg (Sparse.get 0 _) (Nat.zero_add i).symm).trans (Sparse.get_ofList 0 0 lens i)⟩
  · refine faults_of_body (by simp) hs ((rdtblBody_of_slotSel hsel).trans ?_)
    rw [show (s.cfg.literals c).toNat + zrleSyms = lens.length from hlen.symm, readTable_of_table hl hbr,
      exec_ok_bind, if_pos hvalid]
  all_goals
    obtain ⟨n, hn⟩ : ∃ n, (s.cfg.literals c).toNat + zrleSyms = lens.length + (n + 1) :=
      ⟨(s.cfg.literals c).toNat + 128 - lens.length - 1, by rw [show zrleSyms = 128 from rfl]; omega⟩
    refine faults_of_body (by simp) hs ((rdtblBody_of_slotSel hsel).trans ?_)
    rw [hn]
  · have herr := raw5Dec_append_error hl (raw5Dec_short n hrest)
    rw [readTable_of_error (hbr ▸ herr)]; rfl
  · have herr := raw5Dec_append_error hl (raw5Dec_bad_field n hrest hbad)
    rw [readTable_of_error (hbr ▸ herr)]; rfl

/-- Settles O28: each case is one of the three deliveries. -/
theorem readDelivers : Obligations.ReadDelivers := by
  intro auto cls ctx x s c k v hs hlegal hsel hv hphase hcode val owed bits rest hbr hcases
  have hdelivery : Delivery v val owed bits := by
    obtain ⟨hz, rfl, rfl, rfl⟩ | ⟨hz, hx, hl, rfl, rfl⟩ | ⟨hz, rfl, z, e, hl, ⟨hlt, rfl, howed⟩ | ⟨hge, he, hr, rfl, howed⟩⟩ :=
      hcases
    · exact .owed hz
    · exact .literal hz hx hl
    · have hrun := Delivery.run (v := v) (z := z) (e := 0) hz hl (Nat.two_pow_pos _)
        (by rw [zrunOf_direct 0 hlt]; omega)
      have howed' : BitVec.ofNat 32 (zrunOf z 0 - 1) = owed := by
        rw [zrunOf_direct 0 hlt, Nat.add_sub_cancel, ofNat_eq_of_toNat howed]
      rw [howed', show z - 96 = 0 by omega, msbBits, List.append_nil] at hrun
      exact hrun
    · have hrun := Delivery.run hz hl he (by rw [zrunOf_indirect e hge]; exact hr)
      rw [zrunOf_indirect e hge, ofNat_eq_of_toNat howed] at hrun
      exact hrun
  exact ⟨_, read_of_delivery hs hsel hv hphase ((codeInv_iff v).mp hcode) hdelivery hbr, rfl, ⟨rfl, rfl⟩,
    otherSlotsKept_setSlot (ctx_lt_of_slotSel hlegal hsel) _, slot_setSlot_same .., rfl⟩

/-- Settles O29: by the order of the checks in `CoderAdd`, `CoderWrite` and `READ`. -/
theorem coderCommandFaults : Obligations.CoderCommandFaults := by
  intro auto cls ctx x sym s hs
  refine ⟨fun e he => ⟨faults_of_body (by simp) hs ?_, faults_of_body (by simp) hs ?_,
    faults_of_body (by simp) hs ?_⟩, fun c k v hsel hv => ?_⟩
  iterate 3
    · show (slotSel params s auto cls ctx x >>= _) = _
      rw [he]; rfl
  have hadd : ∀ e, slotAdd params v sym.toNat = raise e → Faults (.add auto cls ctx x sym) s e := fun e he =>
    faults_of_body (by simp) hs ((addBody_of_slotSel hsel).trans (by rw [hv, he]; rfl))
  have hwrite : ∀ e, slotWrite v sym.toNat = raise e → Faults (.write auto cls ctx x sym) s e := fun e he =>
    faults_of_body (by simp) hs ((writeBody_of_slotSel hsel).trans (by rw [hv, he]; rfl))
  have hzero : sym = 0 ↔ sym.toNat = 0 := ⟨fun h => by rw [h]; rfl, fun h => BitVec.eq_of_toNat_eq h⟩
  refine ⟨fun hphase => hadd _ (slotAdd_wrong_phase _ hphase), fun hphase => hwrite _ (slotWrite_wrong_phase _ hphase),
    fun hphase => faults_of_body (by simp) hs ((readBody_of_slotSel hsel).trans (by rw [hv, if_pos hphase])),
    fun hphase hsym => hadd _ (slotAdd_not_literal hphase hsym),
    fun hphase hsym => hwrite _ (slotWrite_not_literal hphase hsym), fun hphase hsym hfull hz => ?_,
    fun hphase hsym hdiffers => ?_, fun hphase hcode hz => ⟨fun hno => ?_, fun z rest hge hl hbr => ?_⟩⟩
  · rw [ne_eq, hzero] at hz
    exact hadd _ (slotAdd_full (P := params) hphase hsym hfull hz)
  · rw [ne_eq, hzero] at hdiffers
    exact hwrite _ (by rw [slotWrite_of_ready hphase hsym, slotWriteSym_differs hdiffers]; rfl)
  · have hread := readSym_of_no_code ((codeInv_iff v).mp hcode) hz hno
    exact ⟨fun hlong => read_of_readSym_raise hs hsel hv hphase (hread.trans (if_pos hlong)),
      fun hshort => read_of_readSym_raise hs hsel hv hphase (hread.trans (if_neg (by omega)))⟩
  · have hread := readSym_of_code ((codeInv_iff v).mp hcode) hz hl hbr
    rw [if_neg (by omega), Nat.add_sub_cancel_left] at hread
    refine ⟨fun hshort => read_of_readSym_raise hs hsel hv hphase (hread.trans ?_),
      fun hlong hlarge => read_of_readSym_raise hs hsel hv hphase (hread.trans ?_)⟩
    · rw [readRun_truncated hshort]; rfl
    · have hbits : rest = msbBits (z - 96) (bitsValue (rest.take (z - 96))) ++ rest.drop (z - 96) := by
        conv_lhs => rw [← List.take_append_drop (z - 96) rest, ← msbBits_bitsValue (rest.take (z - 96)),
          List.length_take_of_le hlong]
      have hlt : bitsValue (rest.take (z - 96)) < 2 ^ (z - 96) := by
        have hlt := bitsValue_lt (rest.take (z - 96))
        rwa [List.length_take_of_le hlong] at hlt
      rw [readRun_of_bits hlt hbits, zrunOf_indirect _ hge, if_pos hlarge]; rfl

end

section
/-! PROOFS. `LZEMIT`, and where the LZ commands skip or fault (44_lz.md R196, R199, R202, R204). -/

namespace Sys2Proof.Machine

open Sys2Proof.Config

/-! ### Emitting (R202) -/

theorem escapeSym_eq {n e : Nat} (hlo : 2 ^ e ≤ n) (hhi : n < 2 ^ (e + 1)) : escapeSym n = 256 + (e - 1) := by
  have hpos := Nat.two_pow_pos e
  rw [escapeSym, floorLog2, (Nat.log2_eq_iff (by omega)).mpr ⟨hlo, hhi⟩]

theorem tailBits_eq {len dist e d : Nat} (hlo : 2 ^ e ≤ len) (hhi : len < 2 ^ (e + 1)) (dlo : 2 ^ d ≤ dist)
    (dhi : dist < 2 ^ (d + 1)) :
    tailBits len dist = msbBits e (len - 2 ^ e) ++ msbBits 5 d ++ msbBits d (dist - 2 ^ d) := by
  have hpos := Nat.two_pow_pos e
  have dpos := Nat.two_pow_pos d
  rw [tailBits, floorLog2, floorLog2, (Nat.log2_eq_iff (by omega)).mpr ⟨hlo, hhi⟩,
    (Nat.log2_eq_iff (by omega)).mpr ⟨dlo, dhi⟩]

section
variable {P : Params} {s : State} {ctx : Byte} {off : Word} {m : Match}

theorem lzemitBody_no_match (cnt : Bool) (ctx : Byte) (off : Word) (h : s.work.lz.rdy = true)
    (hm : s.work.lz.mlist.length ≤ s.work.lz.rdIdx.toNat) : lzemitBody P cnt ctx off s = raise .sequence := by
  unfold lzemitBody
  rw [lzReady_of_ready h, exec_ok_bind, show s.nextMatch = none from List.getElem?_eq_none hm]

/-- `LZEMIT` with a next match checks its offset and the context, then does the coder's work. -/
theorem lzemitBody_of_match (cnt : Bool) (h : s.work.lz.rdy = true)
    (hm : s.work.lz.mlist[s.work.lz.rdIdx.toNat]? = some m) :
    lzemitBody P cnt ctx off s = if m.off ≠ off then raise .sequence
      else if s.cfg.lYuv.toNat ≤ ctx.toNat then raise .policy
      else emitMatch P cnt ctx m s >>= fun t =>
        .ok ({ t with work.lz.rdIdx := t.work.lz.rdIdx + 1 }, m.len) := by
  unfold lzemitBody
  rw [lzReady_of_ready h, exec_ok_bind, show s.nextMatch = some m from hm]
  dsimp only
  rw [check_bind, check_bind]
  rfl

theorem emitMatch_count {sym : Nat} (hsym : escapeSym m.len.toNat = sym) :
    emitMatch P true ctx m s = slotAdd P (s.slot 0 ctx.toNat) sym >>= fun r =>
      .ok (s.putCounted 0 ctx.toNat r) := by rw [← hsym]; rfl

theorem emitMatch_write {sym : Nat} (hsym : escapeSym m.len.toNat = sym) :
    emitMatch P false ctx m s = slotWrite (s.slot 0 ctx.toNat) sym >>= fun r =>
      .ok ((s.setSlot 0 ctx.toNat r.1).appendBits (r.2 ++ tailBits m.len.toNat m.dist.toNat)) := by
  rw [← hsym]
  show (coderWrite s 0 ctx.toNat (escapeSym m.len.toNat) >>= fun r =>
    .ok (r.1.appendBits (tailBits m.len.toNat m.dist.toNat))) = _
  unfold coderWrite
  rw [bind_assoc]
  exact bind_congr fun r => congrArg Except.ok (appendBits_append ..)

end

/-- A fault of the coder's part is the fault of `LZEMIT`. -/
theorem lzemit_of_emitMatch_raise {s : State} {cnt : Bool} {ctx : Byte} {off : Word} {m : Match} {c : Cause}
    (hs : s.err = false) (h : s.work.lz.rdy = true) (hm : s.work.lz.mlist[s.work.lz.rdIdx.toNat]? = some m)
    (hoff : m.off = off) (hctx : ctx.toNat < s.cfg.lYuv.toNat) (he : emitMatch params cnt ctx m s = raise c) :
    Faults (.lzemit cnt ctx off) s c := by
  refine faults_of_body (by simp) hs ((lzemitBody_of_match cnt h hm).trans ?_)
  rw [if_neg (not_not.mpr hoff), if_neg (by omega), he]
  rfl

theorem lzemit_of_emitMatch {s t : State} {cnt : Bool} {ctx : Byte} {off : Word} {m : Match}
    (hs : s.err = false) (h : s.work.lz.rdy = true) (hm : s.work.lz.mlist[s.work.lz.rdIdx.toNat]? = some m)
    (hoff : m.off = off) (hctx : ctx.toNat < s.cfg.lYuv.toNat) (he : emitMatch params cnt ctx m s = .ok t) :
    exec (.lzemit cnt ctx off) s =
      .next (State.complete { t with work.lz.rdIdx := t.work.lz.rdIdx + 1 } m.len) := by
  refine exec_of_body (by simp) hs ((lzemitBody_of_match cnt h hm).trans ?_)
  rw [if_neg (not_not.mpr hoff), if_neg (by omega), he]
  rfl

/-! ### Finding and reading: what comes before the work (R196, R204) -/

theorem lzfindBody_beyond_image {s : State} (P : Params) {off : Word} (h : s.work.lz.rdy = true)
    (hoff : s.work.lz.n.toNat ≤ off.toNat) : lzfindBody P off s = raise .policy := by
  unfold lzfindBody
  rw [lzReady_of_ready h, exec_ok_bind, check_true _ hoff]
  rfl

theorem lzfindBody_before_pending {s : State} (P : Params) {off : Word} (h : s.work.lz.rdy = true)
    (hoff : off.toNat < s.work.lz.n.toNat) (hp : s.work.lz.pend = true) (hle : off.toNat ≤ s.work.lz.pOff.toNat) :
    lzfindBody P off s = raise .sequence := by
  unfold lzfindBody
  rw [lzReady_of_ready h, exec_ok_bind, check_false _ (by omega), exec_ok_bind, check_true _ ⟨hp, hle⟩]
  rfl

theorem lzfindBody_skip {s : State} (P : Params) {off : Word} (h : s.work.lz.rdy = true)
    (hoff : off.toNat < s.work.lz.n.toNat) (hpend : s.work.lz.pend = true → s.work.lz.pOff.toNat < off.toNat)
    (hskip : off.toNat < s.work.lz.coverEnd.toNat ∨ s.work.lz.n.toNat ≤ off.toNat + 1) :
    lzfindBody P off s = .ok (s, 0) := by
  unfold lzfindBody
  rw [lzReady_of_ready h, exec_ok_bind, check_false _ (by omega), exec_ok_bind,
    check_false _ (fun hp => absurd (hpend hp.1) (by omega)), exec_ok_bind, if_pos hskip]
  rfl

theorem lzreadBody_in_run {s : State} (k : Byte) (off : Word) (h : s.work.lz.rdy = true)
    (hleft : 0 < s.work.lz.runLeft.toNat) : lzreadBody k off s = raise .sequence := by
  unfold lzreadBody
  rw [lzReady_of_ready h, exec_ok_bind, check_true _ hleft]
  rfl

theorem lzreadBody_bad_escape {s : State} {k : Byte} (off : Word) (h : s.work.lz.rdy = true)
    (hleft : s.work.lz.runLeft = 0) (hk : 12 ≤ k.toNat) : lzreadBody k off s = raise .policy := by
  unfold lzreadBody
  rw [lzReady_of_ready h, exec_ok_bind, check_false _ (by simp [hleft]), exec_ok_bind, check_true _ hk]
  rfl

theorem lzreadBody_beyond_image {s : State} {k : Byte} {off : Word} (h : s.work.lz.rdy = true)
    (hleft : s.work.lz.runLeft = 0) (hk : k.toNat < 12) (hoff : s.work.lz.n.toNat ≤ off.toNat) :
    lzreadBody k off s = raise .policy := by
  unfold lzreadBody
  rw [lzReady_of_ready h, exec_ok_bind, check_false _ (by simp [hleft]), exec_ok_bind, check_false _ (by omega),
    exec_ok_bind, check_true _ hoff]
  rfl

/-- The faults of the coder's part of `LZEMIT`, in both modes. -/
theorem lzemit_coder_faults {s : State} {ctx : Byte} {off : Word} {m : Match} {v : Slot} {e : Nat} (hs : s.err = false)
    (hrdy : s.work.lz.rdy = true) (hm : s.work.lz.mlist[s.work.lz.rdIdx.toNat]? = some m) (hoff : m.off = off)
    (hctx : ctx.toNat < s.cfg.lYuv.toNat) (hv : s.slot 0 ctx.toNat = v) (hlo : 2 ^ e ≤ m.len.toNat)
    (hhi : m.len.toNat < 2 ^ (e + 1)) {sym : Nat} (hsym : sym = 256 + (e - 1)) :
    (v.phase ≠ .count → Faults (.lzemit true ctx off) s .sequence) ∧
      (v.phase = .count → v.ns.toNat ≤ sym → Faults (.lzemit true ctx off) s .policy) ∧
      (v.phase = .count → sym < v.ns.toNat → 0 < v.zrun.toNat → 1048576 ≤ v.runList.length →
        Faults (.lzemit true ctx off) s .resource) ∧
      (v.phase ≠ .ready → Faults (.lzemit false ctx off) s .sequence) ∧
      (v.phase = .ready → v.ns.toNat ≤ sym → Faults (.lzemit false ctx off) s .policy) ∧
      (v.phase = .ready → sym < v.ns.toNat → 0 < v.zrun.toNat ∨ v.lenAt sym = 0 →
        Faults (.lzemit false ctx off) s .sequence) := by
  have hescape : escapeSym m.len.toNat = sym := (escapeSym_eq hlo hhi).trans hsym.symm
  have hcount : ∀ c, slotAdd params v sym = raise c → Faults (.lzemit true ctx off) s c := fun c hc =>
    lzemit_of_emitMatch_raise hs hrdy hm hoff hctx (by rw [emitMatch_count hescape, hv, hc]; rfl)
  have hwrite : ∀ c, slotWrite v sym = raise c → Faults (.lzemit false ctx off) s c := fun c hc =>
    lzemit_of_emitMatch_raise hs hrdy hm hoff hctx (by rw [emitMatch_write hescape, hv, hc]; rfl)
  refine ⟨fun hp => hcount _ (slotAdd_wrong_phase _ hp), fun hp hns => hcount _ (slotAdd_not_literal hp hns),
    fun hp hns hz hfull => hcount _ (slotAdd_full (P := params) hp hns hfull (.inl ⟨by omega, hz⟩)),
    fun hp => hwrite _ (slotWrite_wrong_phase _ hp), fun hp hns => hwrite _ (slotWrite_not_literal hp hns),
    fun hp hns hbad => hwrite _ ?_⟩
  have hdiffers : slotWriteSym v sym = raise .sequence := by
    by_cases hz : 0 < v.zrun.toNat
    · exact slotWriteSym_differs (.inr (.inl ⟨by omega, hz⟩))
    · exact slotWriteSym_differs (.inr (.inr ⟨by omega, by omega, hbad.resolve_left hz⟩))
  rw [slotWrite_of_ready hp hns, hdiffers]
  rfl

/-- The faults of `LZREAD` within its reading of the stream. -/
theorem lzread_stream_faults {s : State} {k : Byte} {off : Word} (hs : s.err = false) (hrdy : s.work.lz.rdy = true)
    (hleft : s.work.lz.runLeft = 0) (hk : k.toNat < 12) (hoff : off.toNat < s.work.lz.n.toNat) :
    (s.br.length < k.toNat + 1 → Faults (.lzread k off) s .truncated) ∧
      ∀ (a : Nat) (tail : List Bool), a < 2 ^ (k.toNat + 1) → s.br = msbBits (k.toNat + 1) a ++ tail →
        (4096 < 2 ^ (k.toNat + 1) + a → Faults (.lzread k off) s .badLz) ∧
        (2 ^ (k.toNat + 1) + a ≤ 4096 →
          (tail.length < 5 → Faults (.lzread k off) s .truncated) ∧
          ∀ (d : Nat) (rest : List Bool), d < 32 → tail = msbBits 5 d ++ rest →
            (20 < d → Faults (.lzread k off) s .badLz) ∧
            (d ≤ 20 → rest.length < d → Faults (.lzread k off) s .truncated)) := by
  have hbody : bodyOf (.lzread k off) s = _ := lzreadBody_of_start hrdy hleft hk hoff
  refine ⟨fun hshort => faults_of_body (by simp) hs (hbody.trans ?_), fun a tail ha hbr => ?_⟩
  · rw [readLen_truncated hshort]; rfl
  rw [readLen_of_bits ha hbr] at hbody
  refine ⟨fun hlong => faults_of_body (by simp) hs (hbody.trans ?_), fun hlen => ?_⟩
  · rw [if_pos hlong]; rfl
  rw [if_neg (by omega), exec_ok_bind] at hbody
  refine ⟨fun hshort => faults_of_body (by simp) hs (hbody.trans ?_), fun d rest hd htail => ?_⟩
  · rw [readDist_truncated hshort]; rfl
  rw [readDist_of_class (s := s.consumed (k.toNat + 1) tail) hd htail] at hbody
  refine ⟨fun hclass => faults_of_body (by simp) hs (hbody.trans ?_),
    fun hclass hshort => faults_of_body (by simp) hs (hbody.trans ?_)⟩
  · rw [if_pos hclass]; rfl
  · rw [if_neg (by omega), readDistTail_truncated hshort]; rfl

end Sys2Proof.Machine
end

section
/-! PROOFS. The statements about `LZEMIT` and about the skips and faults of the LZ commands. -/

open Sys2Proof Sys2Proof.Machine Sys2Proof.Config

/-- Settles O40: the escape symbol is the symbol `ADD` is given; in write mode the tails follow its code word. -/
theorem lzemitEmits : Obligations.LzemitEmits := by
  intro ctx off s m v e d hs hlegal hrdy hm hoff hctx hv hlo hhi dlo dhi hsym
  have hescape := escapeSym_eq hlo hhi
  have hctx32 : ctx.toNat < 32 := hctx.trans_le (nctx_le_of_legal hlegal 0)
  refine ⟨fun hphase hroom => ?_, fun hphase hz hl bits hbits => ?_⟩
  · have hadded : slotAdd params v (256 + (e - 1)) = .ok (v.literalAdded (256 + (e - 1))) :=
      slotAdd_literal hphase hsym (by omega) hroom
    have hns := v.ns.isLt
    have hbody : bodyOf (.add false 0 ctx 0 (BitVec.ofNat 16 (256 + (e - 1)))) s =
        .ok (s.putCounted 0 ctx.toNat (v.literalAdded (256 + (e - 1))), BitVec.ofNat 32 ctx.toNat) := by
      refine (addBody_of_slotSel (slotSel_explicit params (cls := 0) 0 (by simp) hctx)).trans ?_
      rw [show (0 : Byte).toNat = 0 from rfl, hv, BitVec.toNat_ofNat, Nat.mod_eq_of_lt (by omega), hadded]
      rfl
    have hemit : emitMatch params true ctx m s = .ok (s.putCounted 0 ctx.toNat (v.literalAdded (256 + (e - 1)))) := by
      rw [emitMatch_count hescape, hv, hadded]; rfl
    exact ⟨_, exec_of_body (by simp) hs hbody, hs, lzemit_of_emitMatch hs hrdy hm hoff hctx hemit⟩
  · have hemit : emitMatch params false ctx m s =
        .ok ((s.setSlot 0 ctx.toNat { v with nwr := sat32 (v.nwr.toNat + 1) }).appendBits bits) := by
      rw [emitMatch_write hescape, hv, slotWrite_of_ready hphase hsym,
        slotWriteSym_literal (by omega) hz hl, exec_ok_bind, exec_ok_bind, tailBits_eq hlo hhi dlo dhi, hbits,
        List.append_assoc, List.append_assoc, List.append_assoc]
    exact ⟨_, lzemit_of_emitMatch hs hrdy hm hoff hctx hemit, ⟨rfl, rfl⟩, rfl, otherSlotsKept_setSlot hctx32 _,
      slot_setSlot_same .., rfl⟩

/-- Settles O42: clause by clause, in the order of the checks. -/
theorem lzSkipsAndFaults : Obligations.LzSkipsAndFaults := by
  intro off s hs
  refine ⟨fun hrdy => ⟨faults_of_body (by simp) hs ?_, fun cnt ctx => faults_of_body (by simp) hs ?_,
    fun k => faults_of_body (by simp) hs ?_⟩, fun hrdy => ⟨fun hoff => ?_, fun hoff hp hle => ?_,
      fun hoff hpend hskip => ?_, fun h best hoff hcover hpend hhash hwalk => ⟨fun hnone => ?_, fun hbest hp hend hfull => ?_⟩,
      fun cnt ctx hm => ?_, fun cnt ctx m hm => ⟨fun hoff => ?_, fun hoff hctx => ?_⟩,
      fun ctx m v e sym hm hoff hctx hv hlo hhi hsym => lzemit_coder_faults hs hrdy hm hoff hctx hv hlo hhi hsym,
      fun k hleft => ?_, fun k hleft => ⟨fun hk => ?_, fun hk hoff => ?_,
        fun hk hoff => lzread_stream_faults hs hrdy hleft hk hoff⟩⟩⟩
  iterate 3
    · show (lzReady s >>= _) = _
      rw [lzReady_not_ready hrdy]; rfl
  · exact faults_of_body (i := .lzfind off) (by simp) hs (lzfindBody_beyond_image params hrdy hoff)
  · exact faults_of_body (i := .lzfind off) (by simp) hs (lzfindBody_before_pending params hrdy hoff hp hle)
  · exact exec_of_body (i := .lzfind off) (by simp) hs (lzfindBody_skip params hrdy hoff hpend hskip)
  · refine exec_of_body (i := .lzfind off) (by simp) hs ((lzfindBody_of_room params hrdy hoff hpend hcover).trans ?_)
    rw [hhash, exec_ok_bind, hwalk, hnone]; rfl
  · obtain ⟨m, rfl⟩ := Option.ne_none_iff_exists'.mp hbest
    have hm := walk_candOk (by simp) hwalk m rfl
    refine faults_of_body (i := .lzfind off) (by simp) hs
      ((lzfindBody_of_room params hrdy hoff hpend hcover).trans ?_)
    rw [hhash, exec_ok_bind, hwalk]
    show (settle params s.work.lz m >>= _) = _
    rw [settle_beyond params hp (hm.at_off.symm ▸ hend), lzCommit_full hfull]; rfl
  · exact faults_of_body (by simp) hs (lzemitBody_no_match cnt ctx off hrdy hm)
  · exact faults_of_body (by simp) hs ((lzemitBody_of_match cnt hrdy hm).trans (if_pos hoff))
  · exact faults_of_body (by simp) hs
      ((lzemitBody_of_match cnt hrdy hm).trans ((if_neg (not_not.mpr hoff)).trans (if_pos hctx)))
  · exact faults_of_body (i := .lzread k off) (by simp) hs (lzreadBody_in_run k off hrdy hleft)
  · exact faults_of_body (i := .lzread k off) (by simp) hs (lzreadBody_bad_escape off hrdy hleft hk)
  · exact faults_of_body (i := .lzread k off) (by simp) hs (lzreadBody_beyond_image hrdy hleft hk hoff)

end

section
/-! PROOFS. The invariants of the coder's slots: the count invariant of a slot being counted and the code invariant of a
slot with a code (10_state.md R36). -/

namespace Sys2Proof.Machine

open Sys2Proof.Config

/-! ### An invariant of every slot -/

/-- Every slot has a property that may depend on whether a counter has saturated. -/
def SlotsHave (Q : Bool → Slot → Prop) (w : Work) : Prop := ∀ e ∈ w.slots, Q w.hsat e.2

/-- What the coder's operations do to one slot keeps the property. -/
structure KeptByCoder (Q : Bool → Slot → Prop) : Prop where
  mono : ∀ {b : Bool} {v : Slot} (b' : Bool), Q b v → Q (b || b') v
  idle : ∀ b, Q b Slot.idle
  cleared : ∀ b ns, Q b (Slot.cleared ns)
  add : ∀ {b : Bool} {v : Slot} {sym : Nat} {r : Slot × Bool}, Q b v → slotAdd params v sym = .ok r → Q (b || r.2) r.1
  final : ∀ {b : Bool} {v : Slot} {r : Slot × Bool}, Q b v → slotFinal params v = .ok r → Q (b || r.2) r.1
  write : ∀ {b : Bool} {v : Slot} {sym : Nat} {r : Slot × List Bool}, Q b v → slotWrite v sym = .ok r → Q b r.1
  read : ∀ {b : Bool} {v : Slot} (owed nwr : Word), Q b v → v.phase = .decode → Q b { v with zrun := owed, nwr := nwr }
  table : ∀ (b : Bool) (v : Slot) (ns : BitVec 9) (lens : List (BitVec 5)), lens.length = ns.toNat + 128 →
    validLengths lens = true → Q b (v.decoder ns (Sparse.ofList 0 0 lens))

section
variable {Q : Bool → Slot → Prop} (hQ : KeptByCoder Q) {s t u : State} {c k : Nat}
include hQ

theorem KeptByCoder.slot (h : SlotsHave Q s.work) (c k : Nat) : Q s.work.hsat (s.slot c k) := by
  obtain heq | hmem := Sparse.get_eq_or_mem Slot.idle s.work.slots (slotIndex c k)
  · rw [State.slot, heq]; exact hQ.idle _
  · exact h _ hmem

omit hQ in
theorem SlotsHave.setSlot (h : SlotsHave Q s.work) {v : Slot} (hv : Q s.work.hsat v) :
    SlotsHave Q (s.setSlot c k v).work := by
  intro e he
  obtain ⟨-, rfl⟩ | ⟨he, -⟩ := Sparse.mem_set.mp he
  · exact hv
  · exact h e he

theorem KeptByCoder.putCounted (h : SlotsHave Q s.work) {r : Slot × Bool} (hr : Q (s.work.hsat || r.2) r.1) :
    SlotsHave Q (s.putCounted c k r).work := by
  intro e he
  obtain ⟨-, rfl⟩ | ⟨he, -⟩ := Sparse.mem_set.mp he
  · exact hr
  · exact hQ.mono r.2 (h e he)

omit hQ in
theorem SlotsHave.of_coder_eq (h : SlotsHave Q s.work)
    (heq : t.work.slots = s.work.slots ∧ t.work.hsat = s.work.hsat) : SlotsHave Q t.work := by
  unfold SlotsHave
  rw [heq.1, heq.2]
  exact h

theorem KeptByCoder.clearSlots (l : List (Nat × Nat)) (h : SlotsHave Q s.work) :
    SlotsHave Q (l.foldl (fun t e => clearSlot t e.1 e.2) s).work := by
  induction l generalizing s with
  | nil => exact h
  | cons e l ih => exact ih (h.setSlot (hQ.cleared _ _))

theorem KeptByCoder.coderAdd {sym : Nat} (h : SlotsHave Q s.work) (hadd : coderAdd params s c k sym = .ok t) :
    SlotsHave Q t.work := by
  obtain ⟨r, hr, rfl⟩ := coderAdd_ok hadd
  exact hQ.putCounted h (hQ.add (hQ.slot h c k) hr)

theorem KeptByCoder.coderWrite {sym n : Nat} (h : SlotsHave Q s.work) (hwrite : coderWrite s c k sym = .ok (t, n)) :
    SlotsHave Q t.work := by
  obtain ⟨r, hr, rfl, -⟩ := coderWrite_ok hwrite
  exact h.setSlot (hQ.write (hQ.slot h c k) hr)

/-- Every command keeps the property of every slot. -/
theorem KeptByCoder.bodyOf {i : Instr} {v : Word} (hi : i ≠ .sreset) (h : SlotsHave Q s.work)
    (hbody : bodyOf i s = .ok (u, v)) : SlotsHave Q u.work := by
  by_cases hp : (partsOf i).coder = false
  · exact h.of_coder_eq (((bodyOf_frame s hi).out u v hbody).coder hp)
  cases i with
  | eclr all cls ctx =>
    cases all with
    | true =>
      obtain ⟨hu, -⟩ := Prod.mk.inj (Except.ok.inj hbody)
      rw [← hu]
      exact hQ.clearSlots allSlots h
    | false =>
      obtain ⟨_, -, hbody⟩ := bind_ok_iff.mp hbody
      cases hbody
      exact h.setSlot (hQ.cleared _ _)
  | add auto cls ctx x sym =>
    obtain ⟨⟨c, k⟩, -, hbody⟩ := bind_ok_iff.mp hbody
    obtain ⟨t, ht, hbody⟩ := bind_ok_iff.mp hbody
    cases hbody
    exact hQ.coderAdd h ht
  | final cls ctx =>
    obtain ⟨⟨c, k⟩, -, hbody⟩ := bind_ok_iff.mp hbody
    obtain ⟨r, hr, hbody⟩ := bind_ok_iff.mp hbody
    cases hbody
    exact hQ.putCounted h (hQ.final (hQ.slot h c k) hr)
  | write auto cls ctx x sym =>
    obtain ⟨⟨c, k⟩, -, hbody⟩ := bind_ok_iff.mp hbody
    obtain ⟨⟨t, n⟩, ht, hbody⟩ := bind_ok_iff.mp hbody
    cases hbody
    exact hQ.coderWrite h ht
  | rdtbl cls ctx =>
    obtain ⟨⟨c, k⟩, -, hbody⟩ := bind_ok_iff.mp hbody
    obtain ⟨⟨lens, t⟩, ht, hbody⟩ := bind_ok_iff.mp hbody
    obtain ⟨_, hvalid, hbody⟩ := bind_ok_iff.mp hbody
    rw [check_ok_iff, Bool.not_eq_false] at hvalid
    cases hbody
    obtain ⟨rest, hdec, -⟩ := readTable_ok ht
    obtain ⟨hlen, -⟩ := params_codec_conforms.lengths _ _ _ _ hdec
    exact (h.of_coder_eq ((readTable_frame ht).coder rfl)).setSlot (hQ.table _ _ _ lens hlen hvalid)
  | read auto cls ctx x =>
    obtain ⟨⟨c, k⟩, -, hbody⟩ := bind_ok_iff.mp hbody
    obtain ⟨_, hphase, hbody⟩ := bind_ok_iff.mp hbody
    obtain ⟨⟨sym, owed, t⟩, ht, hbody⟩ := bind_ok_iff.mp hbody
    rw [check_ok_iff, not_not] at hphase
    cases hbody
    have heq := (readSym_frame ht).coder rfl
    refine (h.of_coder_eq heq).setSlot ?_
    rw [heq.2]
    exact hQ.read _ _ (hQ.slot h c k) hphase
  | lzemit cnt ctx off =>
    obtain ⟨m, t, -, ht, rfl⟩ := lzemitBody_ok hbody
    obtain ⟨-, hadd⟩ | ⟨-, w, n, hwrite, rfl⟩ := emitMatch_ok ht
    · exact fun e he => hQ.coderAdd h hadd e he
    · exact fun e he => hQ.coderWrite h hwrite e he
  | _ => exact absurd rfl hp

/-- Outside the fault state every step keeps the property of every slot. -/
theorem KeptByCoder.step (hs : s.err = false → SlotsHave Q s.work) (h : Machine.step s = .next t)
    (ht : t.err = false) : SlotsHave Q t.work :=
  work_invariant_step hs (fun _ he => absurd he List.not_mem_nil)
    (fun _ _ _ _ hi _ hslots hbody => hQ.bodyOf hi hslots hbody) h ht

end

/-! ### What the encoder's operations leave behind -/

theorem flushIf_pos_ok {P : Params} {v : Slot} {r : Slot × Bool} (h : flushIf P (0 < v.zrun.toNat) v = .ok r) :
    r = v.runEnded := by
  unfold Slot.runEnded
  obtain ⟨hz, hflush⟩ | ⟨hz, rfl⟩ := flushIf_ok h
  · rw [if_pos hz]; exact (flushRun_ok hflush).2
  · rw [if_neg hz]

theorem slotAdd_cases {P : Params} {v : Slot} {sym : Nat} {r : Slot × Bool} (h : slotAdd P v sym = .ok r) :
    v.phase = .count ∧ sym < v.ns.toNat ∧ ((sym = 0 ∧ r = v.zeroAdded) ∨ (sym ≠ 0 ∧ r = v.literalAdded sym)) := by
  obtain ⟨hphase, hsym, ⟨h0, f, hf, rfl⟩ | ⟨h0, f, hf, rfl⟩⟩ := slotAdd_ok h
  · refine ⟨hphase, hsym, .inl ⟨h0, ?_⟩⟩
    unfold Slot.zeroAdded
    obtain ⟨hz, hflush⟩ | ⟨hz, rfl⟩ := flushIf_ok hf
    · rw [if_pos hz, (flushRun_ok hflush).2]; rfl
    · rw [if_neg hz]
  · rw [flushIf_pos_ok hf]
    exact ⟨hphase, hsym, .inr ⟨h0, rfl⟩⟩

theorem slotAdd_phase {P : Params} {v : Slot} {sym : Nat} {r : Slot × Bool} (h : slotAdd P v sym = .ok r) :
    r.1.phase = .count := by
  obtain ⟨hphase, -, ⟨-, rfl⟩ | ⟨-, rfl⟩⟩ := slotAdd_cases h
  · unfold Slot.zeroAdded
    split
    · rw [v.flushed_fields]; exact hphase
    · exact hphase
  · rw [v.literalAdded_fields]; exact hphase

theorem slotFinal_cases {P : Params} {v : Slot} {r : Slot × Bool} (h : slotFinal P v = .ok r) :
    v.phase = .count ∧ r = (v.finished, v.runEnded.2) := by
  obtain ⟨hphase, f, hf, rfl⟩ := slotFinal_ok h
  rw [flushIf_pos_ok hf]
  exact ⟨hphase, rfl⟩

/-! ### The counters of a slot being counted -/

/-- The counters are a canonical table and stand within the alphabet. -/
structure HistOk (v : Slot) : Prop where
  wf : Sparse.wf 0 v.hist = true
  below : ∀ e ∈ v.hist, e.1 < v.alpha

/-- `Slot.shapeInv`, clause by clause. -/
structure ShapeOk (v : Slot) : Prop where
  hist : HistOk v
  zero : v.histAt 0 = 0
  runs : ∀ r ∈ v.runList, 1 ≤ r.toNat

theorem shapeInv_iff (v : Slot) : v.shapeInv = true ↔ ShapeOk v := by
  simp only [Slot.shapeInv, Bool.and_eq_true, decide_eq_true_eq, List.all_eq_true, and_assoc]
  exact ⟨fun ⟨h1, h2, h3, h4⟩ => ⟨⟨h1, h3⟩, h2, h4⟩, fun ⟨⟨h1, h3⟩, h2, h4⟩ => ⟨h1, h2, h3, h4⟩⟩

theorem HistOk.histInc {v : Slot} (h : HistOk v) {i : Nat} (hi : i < v.alpha) : HistOk (histInc v i).1 := by
  unfold Machine.histInc
  split
  · exact h
  · refine ⟨Sparse.wf_set _ _ h.wf, fun e he => ?_⟩
    obtain ⟨-, rfl⟩ | ⟨he, -⟩ := Sparse.mem_set.mp he
    · exact hi
    · exact h.below e he

theorem runSym_lt_alpha (v : Slot) : v.ns.toNat + zsym v.zrun.toNat < v.alpha := by
  have hz := zsym_le (toNat_le_maxWord v.zrun)
  show _ < v.ns.toNat + 128
  omega

theorem HistOk.flushed {v : Slot} (h : HistOk v) : HistOk v.flushed.1 := by
  obtain ⟨hwf, hbelow⟩ := HistOk.histInc (v := { v with runList := v.runList ++ [v.zrun] })
    ⟨h.wf, h.below⟩ (runSym_lt_alpha v)
  exact ⟨hwf, hbelow⟩

theorem HistOk.runEnded {v : Slot} (h : HistOk v) : HistOk v.runEnded.1 := by
  unfold Slot.runEnded
  split
  · exact h.flushed
  · exact h

theorem histAt_histInc_ne {v : Slot} {i j : Nat} (h : j ≠ i) : (histInc v i).1.histAt j = v.histAt j := by
  rw [histInc_histAt, if_neg h]

theorem histInc_runList (v : Slot) (i : Nat) : (histInc v i).1.runList = v.runList := by rw [histInc_fields]

/-- Ending a run that is not empty, in a slot with a literal. -/
theorem ShapeOk.flushed {v : Slot} (h : ShapeOk v) (hns : 0 < v.ns.toNat) (hz : 0 < v.zrun.toNat) :
    ShapeOk v.flushed.1 := by
  refine ⟨h.hist.flushed, ?_, fun r hr => ?_⟩
  · rw [v.flushed_histAt, if_neg (by omega)]
    exact h.zero
  · rw [v.flushed_fields] at hr
    obtain hr | hr := List.mem_append.mp hr
    · exact h.runs r hr
    · rw [List.mem_singleton.mp hr]
      exact hz

theorem ShapeOk.runEnded {v : Slot} (h : ShapeOk v) (hns : 0 < v.ns.toNat) : ShapeOk v.runEnded.1 := by
  unfold Slot.runEnded
  split
  next hz => exact h.flushed hns hz
  next => exact h

theorem ShapeOk.literalAdded {v : Slot} (h : ShapeOk v) {sym : Nat} (h0 : sym ≠ 0) (hsym : sym < v.ns.toNat) :
    ShapeOk (v.literalAdded sym).1 := by
  have hended := h.runEnded (by omega)
  have hlt : sym < v.runEnded.1.alpha := by
    rw [Slot.alpha, v.runEnded_ns]
    omega
  obtain ⟨hwf, hbelow⟩ := hended.hist.histInc hlt
  refine ⟨⟨hwf, hbelow⟩, (histAt_histInc_ne (Ne.symm h0)).trans hended.zero, fun r hr => hended.runs r ?_⟩
  rwa [← histInc_runList v.runEnded.1 sym]

theorem ShapeOk.zeroAdded {v : Slot} (h : ShapeOk v) (hns : 0 < v.ns.toNat) : ShapeOk v.zeroAdded.1 := by
  unfold Slot.zeroAdded
  split
  next hz =>
    obtain ⟨⟨hwf, hbelow⟩, hzero, hruns⟩ := h.flushed hns (by rw [hz]; decide)
    exact ⟨⟨hwf, hbelow⟩, hzero, hruns⟩
  next => exact ⟨⟨h.hist.wf, h.hist.below⟩, h.zero, h.runs⟩

theorem ShapeOk.slotAdd {P : Params} {v : Slot} {sym : Nat} {r : Slot × Bool} (h : ShapeOk v)
    (hadd : slotAdd P v sym = .ok r) : ShapeOk r.1 := by
  obtain ⟨-, hsym, ⟨-, rfl⟩ | ⟨h0, rfl⟩⟩ := slotAdd_cases hadd
  · exact h.zeroAdded (by omega)
  · exact h.literalAdded h0 hsym

theorem shapeOk_cleared (ns : BitVec 9) : ShapeOk (Slot.cleared ns) :=
  ⟨⟨rfl, fun _ he => absurd he List.not_mem_nil⟩, rfl, fun _ hr => absurd hr List.not_mem_nil⟩

/-! ### Sums over a sparse table -/

/-- A sum over the entries of a table, taken apart at one index. -/
theorem Sparse.sum_map_erase {α : Type} [DecidableEq α] {d : α} (f : Nat × α → Nat) (a : Nat) (hd : f (a, d) = 0)
    {m : Sparse α} {lo : Nat} (hm : Sparse.wfFrom d lo m = true) :
    (m.map f).sum = f (a, Sparse.get d m a) + ((Sparse.erase m a).map f).sum := by
  induction m generalizing lo with
  | nil => simp [hd]
  | cons e m ih =>
    simp only [Sparse.wfFrom, Bool.and_eq_true, decide_eq_true_eq] at hm
    obtain ⟨-, hm⟩ := hm
    have hih := ih hm
    rw [Sparse.get_cons, Sparse.erase_cons]
    by_cases he : e.1 = a
    · rw [if_pos he, if_pos he, List.map_cons, List.sum_cons, hih, Sparse.get_below hm (by omega), hd, Nat.zero_add,
        ← he]
    · rw [if_neg he, if_neg he, List.map_cons, List.sum_cons, List.map_cons, List.sum_cons, hih]
      omega

theorem Sparse.sum_map_set {α : Type} [DecidableEq α] {d : α} (f : Nat × α → Nat) (a : Nat) (hd : f (a, d) = 0)
    (m : Sparse α) (v : α) :
    ((Sparse.set d m a v).map f).sum = f (a, v) + ((Sparse.erase m a).map f).sum := by
  unfold Sparse.set
  split
  next hv => rw [hv, hd, Nat.zero_add]
  next => rw [((Sparse.perm_insert (Sparse.erase m a) a v).map f).sum_eq, List.map_cons, List.sum_cons]

/-- Counting one more of a symbol raises the sum of the counters of its range by one. -/
theorem histSum_histInc {v : Slot} (h : HistOk v) {i : Nat} (hsat : (histInc v i).2 = false) (lo hi : Nat) :
    (histInc v i).1.histSum lo hi = v.histSum lo hi + if lo ≤ i ∧ i < hi then 1 else 0 := by
  rw [histInc_sat, decide_eq_false_iff_not] at hsat
  have hinc : (histInc v i).1.hist = Sparse.set 0 v.hist i (v.histAt i + 1) := by
    unfold Machine.histInc
    rw [if_neg hsat]
  have hplus : (v.histAt i + 1).toNat = (v.histAt i).toNat + 1 := by
    have hle := toNat_le_maxWord (v.histAt i)
    rw [show maxWord = 4294967295 from rfl] at hsat hle
    bv_omega
  have hzero : (if lo ≤ i ∧ i < hi then (0 : Word).toNat else 0) = 0 := by split <;> rfl
  have hold := Sparse.sum_map_erase (fun e : Nat × Word => if lo ≤ e.1 ∧ e.1 < hi then e.2.toNat else 0) i hzero h.wf
  have hnew := Sparse.sum_map_set (fun e : Nat × Word => if lo ≤ e.1 ∧ e.1 < hi then e.2.toNat else 0) i hzero v.hist
    (v.histAt i + 1)
  unfold Slot.histSum
  rw [hinc, hnew, hold, hplus]
  dsimp only [Slot.histAt]
  split <;> omega

/-! ### The count invariant (R36) -/

/-- `Slot.sumInv`, clause by clause. -/
structure SumOk (v : Slot) : Prop where
  presented : v.nadd = sat32 (v.histSum 1 v.ns.toNat + v.runSum + v.zrun.toNat)
  recorded : v.histSum v.ns.toNat v.alpha = v.runList.length

theorem sumInv_iff (v : Slot) : v.sumInv = true ↔ SumOk v := by
  simp only [Slot.sumInv, Bool.and_eq_true, decide_eq_true_eq]
  exact ⟨fun ⟨h1, h2⟩ => ⟨h1, h2⟩, fun ⟨h1, h2⟩ => ⟨h1, h2⟩⟩

/-- Ending a run moves its zeros from the run being counted to the runs recorded, and counts one run symbol. -/
theorem SumOk.flushed {v : Slot} (h : SumOk v) (hhist : HistOk v) (hsat : v.flushed.2 = false) : SumOk v.flushed.1 := by
  have hrun := runSym_lt_alpha v
  have hsum := fun lo hi => histSum_histInc (v := { v with runList := v.runList ++ [v.zrun] })
    ⟨hhist.wf, hhist.below⟩ hsat lo hi
  have hfields := v.flushed_fields
  have hlits : v.flushed.1.histSum 1 v.ns.toNat = v.histSum 1 v.ns.toNat :=
    (hsum 1 v.ns.toNat).trans (by rw [if_neg (by omega)]; rfl)
  have hsyms : v.flushed.1.histSum v.ns.toNat v.alpha = v.histSum v.ns.toNat v.alpha + 1 :=
    (hsum v.ns.toNat v.alpha).trans (by rw [if_pos ⟨by omega, hrun⟩]; rfl)
  have hns : v.flushed.1.ns = v.ns := by rw [hfields]
  have hruns : v.flushed.1.runSum = v.runSum + v.zrun.toNat := by rw [hfields]; simp [Slot.runSum]
  have hz : v.flushed.1.zrun.toNat = 0 := rfl
  have hnadd : v.flushed.1.nadd = v.nadd := by rw [hfields]
  have hlen : v.flushed.1.runList.length = v.runList.length + 1 := by rw [hfields]; exact List.length_append
  constructor
  · rw [hns, hlits, hruns, hz, hnadd, h.presented, Nat.add_zero, Nat.add_assoc]
  · rw [Slot.alpha, hns, hlen, ← h.recorded]
    exact hsyms

theorem SumOk.runEnded {v : Slot} (h : SumOk v) (hhist : HistOk v) (hsat : v.runEnded.2 = false) :
    SumOk v.runEnded.1 := by
  unfold Slot.runEnded at *
  split
  next hz => rw [if_pos hz] at hsat; exact h.flushed hhist hsat
  next => exact h

theorem sat32_succ_of_eq {v : Word} {n : Nat} (h : v = sat32 n) : sat32 (v.toNat + 1) = sat32 (n + 1) := by
  rw [h, sat32_add_one]

/-- Presenting one more zero to a slot whose run is below the counter's maximum. -/
theorem SumOk.lengthened {v : Slot} (h : SumOk v) (hz : v.zrun.toNat < maxWord) :
    SumOk { v with zrun := v.zrun + 1, nadd := sat32 (v.nadd.toNat + 1) } := by
  have hplus : (v.zrun + 1).toNat = v.zrun.toNat + 1 := by
    rw [show maxWord = 4294967295 from rfl] at hz
    bv_omega
  refine ⟨?_, h.recorded⟩
  show sat32 (v.nadd.toNat + 1) = sat32 (v.histSum 1 v.ns.toNat + v.runSum + (v.zrun + 1).toNat)
  rw [hplus, sat32_succ_of_eq h.presented]
  rfl

/-- Presenting one more literal to a slot that is not counting a run. -/
theorem SumOk.counted {v : Slot} (h : SumOk v) (hhist : HistOk v) {sym : Nat} (h0 : sym ≠ 0)
    (hsym : sym < v.ns.toNat) (hsat : (histInc v sym).2 = false) :
    SumOk { (histInc v sym).1 with nadd := sat32 (v.nadd.toNat + 1) } := by
  have hfields := histInc_fields v sym
  have hlits : (histInc v sym).1.histSum 1 v.ns.toNat = v.histSum 1 v.ns.toNat + 1 :=
    (histSum_histInc hhist hsat 1 v.ns.toNat).trans (by rw [if_pos ⟨by omega, hsym⟩])
  have hsyms : (histInc v sym).1.histSum v.ns.toNat v.alpha = v.histSum v.ns.toNat v.alpha :=
    (histSum_histInc hhist hsat v.ns.toNat v.alpha).trans (by rw [if_neg (by omega), Nat.add_zero])
  have hns : (histInc v sym).1.ns = v.ns := by rw [hfields]
  have hruns : (histInc v sym).1.runSum = v.runSum := by rw [hfields]; rfl
  have hz : (histInc v sym).1.zrun = v.zrun := by rw [hfields]
  constructor
  · show sat32 (v.nadd.toNat + 1) = sat32 ((histInc v sym).1.histSum 1 (histInc v sym).1.ns.toNat +
      (histInc v sym).1.runSum + (histInc v sym).1.zrun.toNat)
    rw [hns, hlits, hruns, hz, sat32_succ_of_eq h.presented]
    exact congrArg sat32 (by omega)
  · show (histInc v sym).1.histSum (histInc v sym).1.ns.toNat ((histInc v sym).1.ns.toNat + zrleSyms) =
      (histInc v sym).1.runList.length
    rw [hns, histInc_runList, ← h.recorded]
    exact hsyms

theorem SumOk.slotAdd {P : Params} {v : Slot} {sym : Nat} {r : Slot × Bool} (h : SumOk v) (hhist : HistOk v)
    (hadd : slotAdd P v sym = .ok r) (hsat : r.2 = false) : SumOk r.1 := by
  obtain ⟨-, hsym, ⟨-, rfl⟩ | ⟨h0, rfl⟩⟩ := slotAdd_cases hadd
  · by_cases hz : v.zrun.toNat = maxWord
    · unfold Slot.zeroAdded at *
      rw [if_pos hz] at *
      have hflushed := h.flushed hhist hsat
      have hlong := hflushed.lengthened (show (0 : Word).toNat < maxWord by decide)
      rw [show v.flushed.1.nadd = v.nadd by rw [v.flushed_fields]] at hlong
      exact hlong
    · have hle := toNat_le_maxWord v.zrun
      rw [Slot.zeroAdded_of_lt (by omega)]
      exact h.lengthened (by omega)
  · obtain ⟨hended, hinc⟩ := Bool.or_eq_false_iff.mp hsat
    have hcounted := (h.runEnded hhist hended).counted hhist.runEnded h0 (by rw [v.runEnded_ns]; exact hsym) hinc
    rw [show v.runEnded.1.nadd = v.nadd by rw [v.runEnded_fields]] at hcounted
    exact hcounted

/-- The part of R36 about a slot in COUNT. -/
def CountOk (b : Bool) (v : Slot) : Prop := v.phase = .count → ShapeOk v ∧ (b = true ∨ SumOk v)

theorem countOk_of_phase {b : Bool} {v : Slot} (h : v.phase ≠ .count) : CountOk b v := fun hc => absurd hc h

theorem countInv_iff (s : State) : s.countInv = true ↔ SlotsHave CountOk s.work := by
  simp only [State.countInv, List.all_eq_true, Bool.or_eq_true, Bool.and_eq_true, decide_eq_true_eq, shapeInv_iff,
    sumInv_iff]
  exact forall₂_congr fun e _ => by rw [CountOk, ne_eq, imp_iff_not_or]

theorem slotWrite_phase {v : Slot} {sym : Nat} {r : Slot × List Bool} (h : slotWrite v sym = .ok r) :
    v.phase = .ready ∧ r.1.phase = .ready ∧ r.1.ns = v.ns ∧ r.1.len = v.len ∧ r.1.code = v.code := by
  obtain ⟨hphase, -, u, bits, rfl, hu⟩ := slotWrite_ok h
  obtain ⟨-, -, rfl, -⟩ | ⟨-, -, hrun⟩ | ⟨-, -, -, rfl, -⟩ := hu
  · exact ⟨hphase, hphase, rfl, rfl, rfl⟩
  · obtain ⟨n, -, -, heq⟩ := slotWriteRun_ok hrun
    obtain ⟨rfl, -⟩ := Prod.mk.inj heq
    exact ⟨hphase, hphase, rfl, rfl, rfl⟩
  · exact ⟨hphase, hphase, rfl, rfl, rfl⟩

theorem countOk_kept : KeptByCoder CountOk where
  mono b' h hc := (h hc).imp_right fun hsum => hsum.imp_left fun hb => by rw [hb, Bool.true_or]
  idle _ := countOk_of_phase (by simp [Slot.idle])
  cleared _ ns _ := ⟨shapeOk_cleared ns, .inr ⟨rfl, rfl⟩⟩
  add {b v sym r} h hadd _ := by
    obtain ⟨hshape, hsum⟩ := h (slotAdd_cases hadd).1
    refine ⟨hshape.slotAdd hadd, ?_⟩
    by_cases hsat : (b || r.2) = true
    · exact .inl hsat
    · rw [Bool.not_eq_true, Bool.or_eq_false_iff] at hsat
      exact .inr ((hsum.resolve_left (by simp [hsat.1])).slotAdd hshape.hist hadd hsat.2)
  final {b v r} _ hfinal := by
    obtain ⟨-, rfl⟩ := slotFinal_cases hfinal
    exact countOk_of_phase (by simp [Slot.finished])
  write _ hwrite := countOk_of_phase (by simp [(slotWrite_phase hwrite).2.1])
  read _ _ _ hphase := countOk_of_phase (by simp [hphase])
  table _ _ _ _ _ _ := countOk_of_phase (by simp [Slot.decoder])

/-! ### The code that `FINAL` builds, for every alphabet a slot can have (R137 to R142)

`NS` is a 9-bit register, so an alphabet has at most 639 symbols; the bound of 16 on the lengths holds for up to 985
symbols of weight 1. -/

theorem le_sixteen_of_three_pow_le {d W : Nat} (h : 3 ^ d ≤ 2 ^ d * W) (hW : W ≤ 985) : d ≤ 16 := by
  by_contra hd
  obtain ⟨k, rfl⟩ := Nat.exists_eq_add_of_le (Nat.lt_of_not_le hd)
  have hsplit : 3 ^ 17 * 3 ^ k ≤ 2 ^ 17 * 2 ^ k * W := by rwa [← Nat.pow_add, ← Nat.pow_add]
  have hpow : 2 ^ k ≤ 3 ^ k := Nat.pow_le_pow_left (by decide) k
  have hpos := Nat.two_pow_pos k
  have hprod : 2 ^ k * W ≤ 3 ^ k * 985 := Nat.mul_le_mul hpow hW
  have hassoc : 2 ^ 17 * 2 ^ k * W = 2 ^ 17 * (2 ^ k * W) := Nat.mul_assoc ..
  omega

theorem treeLengths_le_sixteen_of_ones (alpha : Nat) {ws : List (Nat × Nat)} (hne : ws ≠ []) (hlen : ws.length ≤ 985)
    (h : ∀ e ∈ ws, e.2 = 1) : ∀ e ∈ treeLengths alpha ws, e.2 ≤ 16 := by
  obtain ⟨n, hn, htree⟩ := treeLengths_induction (Q := Balanced ws.length) alpha hne
    (fun ident _ _ _ hb => hb.merge ident) (balanced_leafPool h)
  have htotal : n.weight = ws.length := (Nat.add_zero _).symm.trans hn.total
  intro e he
  rw [htree] at he
  exact le_sixteen_of_three_pow_le (htotal ▸ hn.shallow n List.mem_cons_self e he) hlen

/-- The limited construction is the construction over some weights of the same symbols, with no length above 16. -/
theorem exists_weights_of_limitLengths (alpha fuel : Nat) {ws : List (Nat × Nat)} (hne : ws ≠ [])
    (hlen : ws.length ≤ 985) (h : ∀ e ∈ ws, 1 ≤ e.2 ∧ e.2 ≤ 2 ^ fuel) :
    ∃ ws', ws'.map Prod.fst = ws.map Prod.fst ∧ limitLengths alpha fuel ws = treeLengths alpha ws' ∧
      ∀ e ∈ treeLengths alpha ws', e.2 ≤ 16 := by
  induction fuel generalizing ws with
  | zero =>
    exact ⟨ws, rfl, rfl, treeLengths_le_sixteen_of_ones alpha hne hlen fun e he => Nat.le_antisymm (h e he).2 (h e he).1⟩
  | succ fuel ih =>
    rw [limitLengths]
    split
    next hall => exact ⟨ws, rfl, rfl, fun e he => of_decide_eq_true (List.all_eq_true.mp hall e he)⟩
    next =>
      obtain ⟨ws', hfst, hrest⟩ := ih (ws := ws.map fun e => (e.1, halveWeight e.2)) (mt List.map_eq_nil_iff.mp hne)
        (by rwa [List.length_map]) (List.forall_mem_map.mpr fun e he => halveWeight_bounds (h e he))
      exact ⟨ws', by rw [hfst, List.map_map]; rfl, hrest⟩

theorem completeLengths_of_weights (alpha : Nat) {ws : List (Nat × Nat)} (htwo : 2 ≤ ws.length)
    (hlen : ws.length ≤ 985) (h : ∀ e ∈ ws, 1 ≤ e.2 ∧ e.2 ≤ 2 ^ 32) :
    CompleteLengths (ws.map Prod.fst) (limitLengths alpha 32 ws) := by
  obtain ⟨ws', hfst, hlim, hle⟩ :=
    exists_weights_of_limitLengths alpha 32 (List.ne_nil_of_length_pos (by omega)) hlen h
  have hlen' : ws'.length = ws.length := by rw [← List.length_map (f := Prod.fst), hfst, List.length_map]
  obtain ⟨t, htree, hperm⟩ := treeLengths_eq_depths alpha (ws := ws') (List.ne_nil_of_length_pos (by omega))
  have hsyms : t.syms.length = ws.length := by rw [hperm.length_eq, List.length_map, hlen']
  rw [hlim]
  rw [htree] at hle ⊢
  have hdepths : (t.depths 0).length = ws.length := by rw [← hsyms, Tree.syms, List.length_map]
  exact ⟨hfst ▸ hperm, Tree.one_le_depth (by omega), hle, fun hone => by omega,
    fun _ => (t.sum_two_pow_depths hle).2⟩

/-- The lengths `FINAL` builds for a slot are a table of exactly the counted symbols. -/
theorem HistOk.builtTable {v : Slot} (h : HistOk v) : BuiltTable (v.hist.map Prod.fst) (buildLengths v.hist v.alpha) := by
  have halpha : v.alpha ≤ 985 := by
    have hns := v.ns.isLt
    show v.ns.toNat + 128 ≤ 985
    omega
  have hlen := (Sparse.length_le_of_lt h.wf h.below).trans halpha
  have hpos : ∀ e ∈ v.hist, 1 ≤ e.2.toNat ∧ e.2.toNat ≤ 2 ^ 32 := fun e he =>
    ⟨Nat.pos_of_ne_zero fun h0 => (Sparse.get_of_mem h.wf he).2 (BitVec.eq_of_toNat_eq h0), e.2.isLt.le⟩
  have hused := usedWeights_eq_map h.wf h.below
  have htable : ∀ ls, buildLengths v.hist v.alpha = lengthsTable ls → CompleteLengths (v.hist.map Prod.fst) ls →
      BuiltTable (v.hist.map Prod.fst) (buildLengths v.hist v.alpha) := fun ls hls hcomplete =>
    hls ▸ builtTable_lengthsTable (Sparse.nodup_keys h.wf) hcomplete
  unfold buildLengths at htable ⊢
  rw [hused] at htable ⊢
  match hhist : v.hist with
  | [] => exact ⟨rfl, by simp, by simp, by simp, by simp⟩
  | [e] =>
    rw [hhist] at htable
    exact htable [(e.1, 1)] rfl (by constructor <;> simp)
  | e :: f :: hist =>
    rw [hhist] at htable hlen hpos
    refine htable _ rfl ?_
    have hcomplete := completeLengths_of_weights v.alpha (ws := (e :: f :: hist).map fun e => (e.1, e.2.toNat))
      (by simp) (by rwa [List.length_map]) (List.forall_mem_map.mpr hpos)
    rw [List.map_map] at hcomplete
    exact hcomplete

/-- The slot `FINAL` leaves has a code that passes the check of a received table. -/
theorem codeOk_finished {v : Slot} (h : HistOk v) : CodeOk v.finished := by
  have hbuilt := h.runEnded.builtTable
  have hkeys : ∀ i ∈ v.runEnded.1.hist.map Prod.fst, i < v.runEnded.1.alpha :=
    List.forall_mem_map.mpr h.runEnded.below
  exact ⟨hbuilt.wf, hbuilt.lt_alpha hkeys, hbuilt.validLengths hkeys, rfl⟩

/-! ### The code invariant (R36) -/

theorem codeOk_decoder (v : Slot) {ns : BitVec 9} {lens : List (BitVec 5)} (hlen : lens.length = ns.toNat + 128)
    (hvalid : validLengths lens = true) : CodeOk (v.decoder ns (Sparse.ofList 0 0 lens)) := by
  refine ⟨Sparse.wf_ofList 0 lens, fun e he => ?_, ?_, rfl⟩
  · obtain ⟨hget, hne⟩ := Sparse.get_of_mem (Sparse.wf_ofList 0 lens) he
    have hgetD := Sparse.get_ofList 0 0 lens e.1
    rw [Nat.zero_add, hget] at hgetD
    by_contra hout
    rw [List.getD_eq_default _ _ (hlen.trans_le (Nat.not_lt.mp hout))] at hgetD
    exact hne hgetD
  · show validLengths (Sparse.toList 0 (Sparse.ofList 0 0 lens) (ns.toNat + 128)) = true
    rwa [← hlen, Sparse.toList_ofList]

theorem CodeOk.of_eq {v w : Slot} (h : CodeOk v) (hns : w.ns = v.ns) (hlen : w.len = v.len) (hcode : w.code = v.code) :
    CodeOk w := by
  refine ⟨hlen ▸ h.wf, ?_, ?_, by rw [hcode, h.code, hlen]⟩
  · rw [hlen, Slot.alpha, hns]; exact h.below
  · rw [Slot.lengths, Slot.alpha, hlen, hns]; exact h.valid

/-- The part of R36 about a slot in READY or DECODE, with what it needs of a slot in COUNT. -/
structure SlotOk (v : Slot) : Prop where
  counting : v.phase = .count → ShapeOk v
  coded : v.phase = .ready ∨ v.phase = .decode → CodeOk v

theorem slotOk_iff (v : Slot) : SlotOk v ↔
    (match v.phase with
    | .idle => true
    | .count => v.shapeInv
    | .ready => v.codeInv
    | .decode => v.codeInv) = true := by
  cases hp : v.phase with
  | idle => exact ⟨fun _ => rfl, fun _ => ⟨by simp [hp], by simp [hp]⟩⟩
  | count => exact ⟨fun h => (shapeInv_iff v).mpr (h.1 hp), fun h => ⟨fun _ => (shapeInv_iff v).mp h, by simp [hp]⟩⟩
  | ready => exact ⟨fun h => (codeInv_iff v).mpr (h.2 (.inl hp)), fun h => ⟨by simp [hp], fun _ => (codeInv_iff v).mp h⟩⟩
  | decode => exact ⟨fun h => (codeInv_iff v).mpr (h.2 (.inr hp)), fun h => ⟨by simp [hp], fun _ => (codeInv_iff v).mp h⟩⟩

theorem codeInvState_iff (s : State) : s.codeInv = true ↔ SlotsHave (fun _ => SlotOk) s.work :=
  List.all_eq_true.trans (forall₂_congr fun e _ => (slotOk_iff e.2).symm)

theorem slotOk_kept : KeptByCoder (fun _ => SlotOk) where
  mono _ h := h
  idle _ := ⟨by simp [Slot.idle], by simp [Slot.idle]⟩
  cleared _ ns := ⟨fun _ => shapeOk_cleared ns, by simp [Slot.cleared]⟩
  add h hadd := by
    obtain ⟨hphase, -, hr⟩ := slotAdd_cases hadd
    have hshape := (h.counting hphase).slotAdd hadd
    refine ⟨fun _ => hshape, fun hcoded => ?_⟩
    have hcount : _ = Phase.count := slotAdd_phase hadd
    simp [hcount] at hcoded
  final h hfinal := by
    obtain ⟨hphase, rfl⟩ := slotFinal_cases hfinal
    exact ⟨by simp [Slot.finished], fun _ => codeOk_finished (h.counting hphase).hist⟩
  write h hwrite := by
    obtain ⟨hphase, hphase', hns, hlen, hcode⟩ := slotWrite_phase hwrite
    exact ⟨by simp [hphase'], fun _ => (h.coded (.inl hphase)).of_eq hns hlen hcode⟩
  read _ _ h hphase := ⟨by simp [hphase], fun _ => (h.coded (.inr hphase)).of_eq rfl rfl rfl⟩
  table _ v _ _ hlen hvalid := ⟨by simp [Slot.decoder], fun _ => codeOk_decoder v hlen hvalid⟩

end Sys2Proof.Machine
end

section
/-! PROOFS. The statements about the invariants of the coder's slots. -/

open Sys2Proof Sys2Proof.Machine

/-- Settles O57: the property of one slot is kept by each operation of the coder, and no other command touches a
slot. -/
theorem countInvariantKept : Obligations.CountInvariantKept := by
  intro s t hs h ht
  rw [countInv_iff]
  exact countOk_kept.step (fun herr => (countInv_iff s).mp (hs herr)) h ht

/-- Settles O58: `FINAL` builds a code that passes the check, `RDTBL` has checked its own, and the others leave it. -/
theorem codeInvariantKept : Obligations.CodeInvariantKept := by
  intro s t hs h ht
  rw [codeInvState_iff]
  exact slotOk_kept.step (fun herr => (codeInvState_iff s).mp (hs herr)) h ht

end

section
/-! PROOFS. The coder's round trip (42_entropy_decoder.md R167): the count pass leaves runs and code words that spell the
sequence; the write pass writes the bits so spelled, and the decoder reads them back. -/

namespace Sys2Proof.Machine

open Sys2Proof.Config

/-! ### Sequences of commands on one slot -/

theorem execAll_append {is js : List Instr} {s t u : State} {r r' : List CmdWord} (h : execAll is s = some (t, r))
    (h' : execAll js t = some (u, r')) : execAll (is ++ js) s = some (u, r ++ r') := by
  induction is generalizing s r with
  | nil =>
    obtain ⟨rfl, rfl⟩ := Prod.mk.inj (Option.some.inj h)
    exact h'
  | cons i is ih =>
    rw [execAll] at h
    split at h
    next t' hexec =>
      obtain ⟨⟨t'', r''⟩, hrest, heq⟩ := Option.map_eq_some_iff.mp h
      obtain ⟨rfl, rfl⟩ := Prod.mk.inj heq
      rw [List.cons_append, execAll_cons_next hexec, ih hrest]
      rfl
    next => cases h

/-- Outside the fault state the commands may name the slot, and it is `v`. -/
structure HasSlot (cls ctx : Byte) (s : State) (v : Slot) : Prop where
  err : s.err = false
  class_le : cls.toNat ≤ 5
  ctx_lt : ctx.toNat < s.cfg.nctx cls.toNat
  slot : s.slot cls.toNat ctx.toNat = v

theorem HasSlot.slotSel {cls ctx : Byte} {s : State} {v : Slot} (h : HasSlot cls ctx s v) (x : BitVec 16) :
    slotSel params s false cls ctx x = .ok (cls.toNat, ctx.toNat) :=
  slotSel_explicit params x h.class_le h.ctx_lt

/-- The commands turn a slot `v` into `w`, fault nowhere, and append these bits. -/
def Turns (cls ctx : Byte) (is : List Instr) (v w : Slot) (bits : List Bool) : Prop :=
  ∀ s, HasSlot cls ctx s v →
    ∃ t r, execAll is s = some (t, r) ∧ HasSlot cls ctx t w ∧ t.bw = s.bw ++ bits

section
variable {cls ctx : Byte}

theorem Turns.nil (v : Slot) : Turns cls ctx [] v v [] := fun s h => ⟨s, [], rfl, h, (List.append_nil _).symm⟩

theorem Turns.append {is js : List Instr} {u v w : Slot} {bits bits' : List Bool} (h : Turns cls ctx is u v bits)
    (h' : Turns cls ctx js v w bits') : Turns cls ctx (is ++ js) u w (bits ++ bits') := by
  intro s hs
  obtain ⟨t, r, hexec, ht, hbw⟩ := h s hs
  obtain ⟨t', r', hexec', ht', hbw'⟩ := h' t ht
  exact ⟨t', r ++ r', execAll_append hexec hexec', ht', by rw [hbw', hbw, List.append_assoc]⟩

theorem Turns.of_exec {i : Instr} {v w : Slot} {bits : List Bool}
    (h : ∀ s, HasSlot cls ctx s v → ∃ t, exec i s = .next t ∧ HasSlot cls ctx t w ∧ t.bw = s.bw ++ bits) :
    Turns cls ctx [i] v w bits := by
  intro s hs
  obtain ⟨t, hexec, ht, hbw⟩ := h s hs
  exact ⟨t, _, execAll_cons_next hexec, ht, hbw⟩

theorem turns_add {v : Slot} {x : BitVec 16} {r : Slot × Bool} (h : slotAdd params v x.toNat = .ok r) :
    Turns cls ctx [.add false cls ctx 0 x] v r.1 [] := by
  refine Turns.of_exec fun s hs => ?_
  have hbody : bodyOf (.add false cls ctx 0 x) s =
      .ok (s.putCounted cls.toNat ctx.toNat r, BitVec.ofNat 32 ctx.toNat) := by
    refine (addBody_of_slotSel (hs.slotSel 0)).trans ?_
    rw [hs.slot, h]; rfl
  exact ⟨_, exec_of_body (by simp) hs.err hbody, ⟨hs.err, hs.class_le, hs.ctx_lt, slot_putCounted_same r⟩,
    (List.append_nil _).symm⟩

theorem turns_final {v : Slot} {r : Slot × Bool} (h : slotFinal params v = .ok r) :
    Turns cls ctx [.final cls ctx] v r.1 [] := by
  refine Turns.of_exec fun s hs => ?_
  have hbody : bodyOf (.final cls ctx) s =
      .ok (s.putCounted cls.toNat ctx.toNat r, BitVec.ofNat 32 (maxLength r.1.len)) := by
    refine (finalBody_of_slotSel (hs.slotSel 0)).trans ?_
    rw [hs.slot, h]; rfl
  exact ⟨_, exec_of_body (by simp) hs.err hbody, ⟨hs.err, hs.class_le, hs.ctx_lt, slot_putCounted_same r⟩,
    (List.append_nil _).symm⟩

theorem turns_wrtbl {v : Slot} (h : v.phase = .ready) :
    Turns cls ctx [.wrtbl cls ctx] v v (raw5Enc v.lengths) := by
  refine Turns.of_exec fun s hs => ?_
  have hbody : bodyOf (.wrtbl cls ctx) s =
      .ok (s.appendBits (raw5Enc v.lengths), BitVec.ofNat 32 (raw5Enc v.lengths).length) := by
    refine (wrtblBody_of_slotSel (hs.slotSel 0)).trans ?_
    rw [hs.slot, if_neg (by simp [h])]; rfl
  exact ⟨_, exec_of_body (by simp) hs.err hbody, ⟨hs.err, hs.class_le, hs.ctx_lt, hs.slot⟩, rfl⟩

theorem turns_write {v w : Slot} {x : BitVec 16} {bits : List Bool} (hphase : v.phase = .ready)
    (hx : x.toNat < v.ns.toNat) (h : slotWriteSym v x.toNat = .ok (w, bits)) :
    Turns cls ctx [.write false cls ctx 0 x] v { w with nwr := sat32 (v.nwr.toNat + 1) } bits :=
  Turns.of_exec fun _ hs => ⟨_, write_of_slotWriteSym hs.err (hs.slotSel 0) hs.slot hphase hx h,
    ⟨hs.err, hs.class_le, hs.ctx_lt, slot_setSlot_same ..⟩, rfl⟩

end

/-! ### What runs and code words spell -/

/-- One symbol `x` of the sequence, with `m` zeros still covered and the runs `rs` to come: the bits it is written as,
and the zeros covered and the runs to come after it. -/
inductive Piece (v : Slot) : Word → List Word → BitVec 16 → List Bool → Word → List Word → Prop
  | covered {m : Word} {rs : List Word} (hm : 0 < m.toNat) : Piece v m rs 0 [] (m - 1) rs
  | literal {x : BitVec 16} {rs : List Word} (h0 : x ≠ 0) (hl : v.lenAt x.toNat ≠ 0) :
      Piece v 0 rs x (v.codeBits x.toNat) 0 rs
  | run {r : Word} {rs : List Word} (hr : 1 ≤ r.toNat) (hl : v.lenAt (v.ns.toNat + zsym r.toNat) ≠ 0) :
      Piece v 0 (r :: rs) 0 (v.codeBits (v.ns.toNat + zsym r.toNat) ++
        msbBits (zextraLen (zsym r.toNat)) (zextraVal r.toNat)) (r - 1) rs

/-- With `m` zeros still covered and the runs `rs` to come, the symbols `q` are written as these bits. -/
inductive Spelled (v : Slot) : Word → List Word → List (BitVec 16) → List Bool → Prop
  | nil : Spelled v 0 [] [] []
  | cons {m m' : Word} {rs rs' : List Word} {x : BitVec 16} {q : List (BitVec 16)} {pre bits : List Bool}
      (hx : Piece v m rs x pre m' rs') (h : Spelled v m' rs' q bits) : Spelled v m rs (x :: q) (pre ++ bits)

section
variable {v : Slot} {m : Word} {rs : List Word} {q : List (BitVec 16)} {bits : List Bool}

theorem Piece.of_code_eq {w : Slot} {x : BitVec 16} {m' : Word} {rs' : List Word} (h : Piece v m rs x bits m' rs')
    (hns : w.ns = v.ns) (hlen : w.len = v.len) (hcode : w.code = v.code) : Piece w m rs x bits m' rs' := by
  have hlenAt : ∀ i, v.lenAt i = w.lenAt i := fun i => congrArg (Sparse.get 0 · i) hlen.symm
  have hbits : ∀ i, v.codeBits i = w.codeBits i := fun i => by
    rw [Slot.codeBits, hlenAt, Slot.codeAt, ← hcode]; rfl
  cases h with
  | covered hm => exact .covered hm
  | literal h0 hl =>
    rw [hbits]
    exact .literal h0 (hlenAt _ ▸ hl)
  | run hr hl =>
    rw [hbits, ← hns]
    exact .run hr (by rwa [← hlenAt, hns])

/-- Only the code matters. -/
theorem Spelled.of_code_eq {w : Slot} (h : Spelled v m rs q bits) (hns : w.ns = v.ns) (hlen : w.len = v.len)
    (hcode : w.code = v.code) : Spelled w m rs q bits := by
  induction h with
  | nil => exact .nil
  | cons hx _ ih => exact .cons (hx.of_code_eq hns hlen hcode) ih

theorem toNat_sub_one {m : Word} {n : Nat} (h : m.toNat = n + 1) : (m - 1).toNat = n := by bv_omega

/-- Zeros in front that are all covered. -/
theorem Spelled.zeros (h : Spelled v 0 rs q bits) {n : Nat} (hm : m.toNat = n) :
    Spelled v m rs (List.replicate n 0 ++ q) bits := by
  induction n generalizing m with
  | zero =>
    obtain rfl : m = 0 := BitVec.eq_of_toNat_eq hm
    exact h
  | succ n ih => exact .cons (.covered (by omega)) (ih (toNat_sub_one hm))

/-- Zeros in front that are one recorded run, if there are any. -/
theorem Spelled.after_run (h : Spelled v 0 rs q bits) (z : Word)
    (hl : 0 < z.toNat → v.lenAt (v.ns.toNat + zsym z.toNat) ≠ 0) :
    ∃ bits', Spelled v 0 (if 0 < z.toNat then z :: rs else rs) (List.replicate z.toNat 0 ++ q) bits' := by
  by_cases hz : 0 < z.toNat
  · obtain ⟨n, hn⟩ : ∃ n, z.toNat = n + 1 := ⟨z.toNat - 1, by omega⟩
    rw [if_pos hz, hn]
    exact ⟨_, .cons (.run hz (hl hz)) (h.zeros (toNat_sub_one hn))⟩
  · rw [if_neg hz, show z.toNat = 0 by omega]
    exact ⟨bits, h⟩

end

/-! ### The count pass -/

/-- The slot with a symbol counted. -/
def Slot.added (v : Slot) (x : Nat) : Slot × Bool := if x = 0 then v.zeroAdded else v.literalAdded x

/-- The slot with the symbols counted. -/
def Slot.counted : Slot → List (BitVec 16) → Slot
  | v, [] => v
  | v, x :: q => (v.added x.toNat).1.counted q

/-- A slot in COUNT with room for the literals to come: every run not yet recorded has a symbol of its own. -/
structure Counting (v : Slot) (q : List (BitVec 16)) : Prop where
  phase : v.phase = .count
  shape : ShapeOk v
  literals : ∀ x ∈ q, x.toNat < v.ns.toNat
  room : v.runList.length + v.zrun.toNat + q.length ≤ 1048576

theorem toNat_add_one {z : Word} (h : z.toNat < maxWord) : (z + 1).toNat = z.toNat + 1 := by
  rw [show maxWord = 4294967295 from rfl] at h
  bv_omega

section
variable {v : Slot} {x : BitVec 16} {q : List (BitVec 16)}

theorem Counting.zrun_lt (h : Counting v q) : v.zrun.toNat < maxWord := by
  have hroom := h.room
  show _ < 4294967295
  omega

theorem Counting.has_room (h : Counting v q) : 0 < v.zrun.toNat → v.runList.length < params.runListCap := by
  have hroom := h.room
  show _ → _ < 1048576
  omega

theorem Counting.slotAdd (h : Counting v (x :: q)) : slotAdd params v x.toNat = .ok (v.added x.toNat) := by
  have hx := h.literals x List.mem_cons_self
  unfold Slot.added
  split
  next h0 =>
    rw [h0] at hx ⊢
    exact slotAdd_zero h.phase hx fun hmax => absurd h.zrun_lt (by omega)
  next h0 => exact slotAdd_literal h.phase hx h0 h.has_room

theorem Counting.added_zero (h : Counting v q) :
    v.added 0 = ({ v with zrun := v.zrun + 1, nadd := sat32 (v.nadd.toNat + 1) }, false) :=
  (if_pos rfl).trans (Slot.zeroAdded_of_lt h.zrun_lt)

theorem Slot.added_literal (v : Slot) {x : Nat} (h0 : x ≠ 0) : v.added x = v.literalAdded x := if_neg h0

theorem Slot.finished_ns (v : Slot) : v.finished.ns = v.ns := by rw [v.finished_fields]

theorem Slot.literalAdded_ns (v : Slot) (x : Nat) : (v.literalAdded x).1.ns = v.ns := by rw [v.literalAdded_fields]

theorem Slot.literalAdded_runList (v : Slot) (x : Nat) :
    (v.literalAdded x).1.runList = if 0 < v.zrun.toNat then v.runList ++ [v.zrun] else v.runList := by
  rw [v.literalAdded_fields]

theorem Slot.literalAdded_zrun (v : Slot) (x : Nat) : (v.literalAdded x).1.zrun = 0 := by rw [v.literalAdded_fields]

theorem Counting.added_ns (h : Counting v (x :: q)) : (v.added x.toNat).1.ns = v.ns := by
  by_cases h0 : x.toNat = 0
  · rw [h0, h.added_zero]
  · rw [v.added_literal h0, v.literalAdded_ns]

theorem Counting.tail (h : Counting v (x :: q)) : Counting (v.added x.toNat).1 q := by
  have hroom := h.room
  rw [List.length_cons] at hroom
  refine ⟨slotAdd_phase h.slotAdd, h.shape.slotAdd h.slotAdd, fun y hy => ?_, ?_⟩
  · rw [h.added_ns]
    exact h.literals y (List.mem_cons_of_mem _ hy)
  · by_cases h0 : x.toNat = 0
    · rw [h0, h.added_zero]
      have hplus := toNat_add_one h.zrun_lt
      show v.runList.length + (v.zrun + 1).toNat + q.length ≤ _
      omega
    · rw [v.added_literal h0, v.literalAdded_zrun, v.literalAdded_runList]
      show _ + 0 + _ ≤ _
      split
      · rw [List.length_append, List.length_singleton]; omega
      · omega

theorem Counting.turns {cls ctx : Byte} (h : Counting v q) :
    Turns cls ctx (q.map fun x => .add false cls ctx 0 x) v (v.counted q) [] := by
  induction q generalizing v with
  | nil => exact Turns.nil v
  | cons x q ih => exact (turns_add h.slotAdd).append (ih h.tail)

theorem Counting.counted (h : Counting v q) : Counting (v.counted q) [] := by
  induction q generalizing v with
  | nil => exact h
  | cons x q ih => exact ih h.tail

theorem Counting.counted_ns (h : Counting v q) : (v.counted q).ns = v.ns := by
  induction q generalizing v with
  | nil => rfl
  | cons x q ih => exact (ih h.tail).trans h.added_ns

theorem toNat_pos_iff {w : Word} : w ≠ 0 ↔ 0 < w.toNat :=
  ⟨fun h => Nat.pos_of_ne_zero fun h0 => h (BitVec.eq_of_toNat_eq h0), fun h h0 => by rw [h0] at h; simp at h⟩

/-- Every counted symbol has a code word, and so has the run that `FINAL` ends. -/
theorem HistOk.lenAt_finished (h : HistOk v) (i : Nat) : v.finished.lenAt i ≠ 0 ↔
    v.histAt i ≠ 0 ∨ (0 < v.zrun.toNat ∧ i = v.ns.toNat + zsym v.zrun.toNat) := by
  have hended := v.runEnded_histAt i
  have hmem : v.finished.lenAt i ≠ 0 ↔ v.runEnded.1.histAt i ≠ 0 :=
    (h.runEnded.builtTable.mem_iff i).trans (Sparse.get_ne_iff_mem h.runEnded.wf i).symm
  rw [hmem, toNat_pos_iff, toNat_pos_iff, hended, show maxWord = 4294967295 from rfl]
  split <;> omega

theorem Counting.histAt_added (h : Counting v (x :: q)) {i : Nat} (hi : v.histAt i ≠ 0 ∨
    (x.toNat ≠ 0 ∧ (i = x.toNat ∨ (0 < v.zrun.toNat ∧ i = v.ns.toNat + zsym v.zrun.toNat)))) :
    (v.added x.toNat).1.histAt i ≠ 0 := by
  by_cases h0 : x.toNat = 0
  · rw [h0, h.added_zero]
    exact hi.resolve_right fun hi => hi.1 h0
  · have hadded := v.literalAdded_histAt (h.literals x List.mem_cons_self) i
    rw [v.added_literal h0, toNat_pos_iff, hadded, show maxWord = 4294967295 from rfl]
    rw [toNat_pos_iff] at hi
    split <;> split <;> omega

/-- The slot `FINAL` leaves spells the run being counted and the symbols counted after it. -/
theorem Counting.spelled {f : Slot} (h : Counting v q) (hf : (v.counted q).finished = f) :
    ∃ rs bits, f.runList = v.runList ++ rs ∧ Spelled f 0 rs (List.replicate v.zrun.toNat 0 ++ q) bits ∧
      ∀ i, v.histAt i ≠ 0 → f.lenAt i ≠ 0 := by
  have hns : f.ns = v.ns := hf ▸ (v.counted q).finished_ns.trans h.counted_ns
  have hruns : ∀ rs : List Word, (if 0 < v.zrun.toNat then v.runList ++ [v.zrun] else v.runList) ++ rs =
      v.runList ++ if 0 < v.zrun.toNat then v.zrun :: rs else rs := fun rs => by split <;> simp
  induction q generalizing v with
  | nil =>
    have hlen := h.shape.hist.lenAt_finished
    rw [show v.finished = f from hf] at hlen
    obtain ⟨bits, hspelled⟩ := Spelled.nil.after_run (v := f) v.zrun fun hz =>
      (hlen _).mpr (.inr ⟨hz, by rw [hns]⟩)
    refine ⟨_, bits, ?_, hspelled, fun i hi => (hlen i).mpr (.inl hi)⟩
    rw [← hruns, List.append_nil, ← hf]
    exact congrArg Slot.runList v.finished_fields
  | cons x q ih =>
    obtain ⟨rs, bits, hlist, hspelled, hlen⟩ := ih h.tail hf (by rw [hns, h.added_ns]) fun rs => by split <;> simp
    have hcode := fun i hi => hlen i (h.histAt_added (i := i) hi)
    by_cases h0 : x.toNat = 0
    · rw [h0, h.added_zero] at hlist hspelled
      refine ⟨rs, bits, hlist, ?_, fun i hi => hcode i (.inl hi)⟩
      rw [show (v.zrun + 1).toNat = _ from toNat_add_one h.zrun_lt, List.replicate_succ', List.append_assoc] at hspelled
      rw [show x = 0 from BitVec.eq_of_toNat_eq h0]
      exact hspelled
    · rw [v.added_literal h0, v.literalAdded_runList, hruns] at hlist
      rw [v.added_literal h0, v.literalAdded_zrun] at hspelled
      have hliteral := Spelled.cons
        (.literal (fun heq => h0 (by rw [heq]; rfl)) (hcode _ (.inr ⟨h0, .inl rfl⟩))) hspelled
      obtain ⟨bits', hspelled'⟩ := hliteral.after_run v.zrun fun hz => by
        rw [hns]
        exact hcode _ (.inr ⟨h0, .inr ⟨hz, rfl⟩⟩)
      exact ⟨_, bits', hlist, hspelled', fun i hi => hcode i (.inl hi)⟩

end

theorem counting_cleared {ns : BitVec 9} {q : List (BitVec 16)} (hq : ∀ x ∈ q, x.toNat < ns.toNat)
    (hlen : q.length ≤ 1048576) : Counting (Slot.cleared ns) q :=
  ⟨rfl, shapeOk_cleared ns, hq, by show 0 + 0 + q.length ≤ _; omega⟩

/-! ### The write pass and the decoder -/

/-- The slot within its write pass: the next run, the zeros still covered, the symbols written. -/
def Slot.writing (v : Slot) (rd m n : Word) : Slot := { v with rlRd := rd, zrun := m, nwr := n }

/-- The slot of a decoder: the zeros owed, the symbols read. -/
def Slot.owing (v : Slot) (m n : Word) : Slot := { v with zrun := m, nwr := n }

section
variable {v : Slot} {m : Word} {rs : List Word} {q : List (BitVec 16)} {bits : List Bool} {cls ctx : Byte}

/-- The write pass writes a symbol as its piece. -/
theorem Piece.write {x : BitVec 16} {m' rd : Word} {rs' : List Word} (h : Piece v m rs x bits m' rs')
    (hcap : v.runList.length ≤ maxWord) (hrs : v.runList.drop rd.toNat = rs) (n : Word) :
    ∃ rd' : Word, slotWriteSym (v.writing rd m n) x.toNat = .ok (v.writing rd' m' n, bits) ∧
      v.runList.drop rd'.toNat = rs' := by
  cases h with
  | covered hm => exact ⟨rd, slotWriteSym_covered (v := v.writing rd m n) hm, hrs⟩
  | literal h0 hl =>
    exact ⟨rd, slotWriteSym_literal (v := v.writing rd 0 n) (fun heq => h0 (BitVec.eq_of_toNat_eq heq)) rfl hl, hrs⟩
  | @run r rs hr hl =>
    have hget : v.runList[rd.toNat]? = some r := by rw [← List.head?_drop, hrs]; rfl
    have hlt := (List.getElem?_eq_some_iff.mp hget).1
    refine ⟨rd + 1, slotWriteSym_run (v := v.writing rd 0 n) rfl hget hl, ?_⟩
    rw [toNat_add_one (hlt.trans_le hcap), ← List.tail_drop, hrs]
    rfl

/-- The write pass writes what the slot spells. -/
theorem Spelled.write (h : Spelled v m rs q bits) (hphase : v.phase = .ready) (hq : ∀ x ∈ q, x.toNat < v.ns.toNat)
    (hcap : v.runList.length ≤ maxWord) (n rd : Word) (hrs : v.runList.drop rd.toNat = rs) :
    ∃ w, Turns cls ctx (q.map fun x => .write false cls ctx 0 x) (v.writing rd m n) w bits := by
  induction h generalizing n rd with
  | nil => exact ⟨_, Turns.nil _⟩
  | cons hpiece _ ih =>
    obtain ⟨hx, hq⟩ := List.forall_mem_cons.mp hq
    obtain ⟨rd', hwrite, hrs'⟩ := hpiece.write hcap hrs n
    obtain ⟨w, hw⟩ := ih hq (sat32 (n.toNat + 1)) rd' hrs'
    exact ⟨w, (turns_write (v := v.writing rd _ n) hphase hx hwrite).append hw⟩

/-- A run's extra bits hold its remainder. -/
theorem zextraVal_lt (n : Nat) : zextraVal n < 2 ^ zextraLen (zsym n) := by
  obtain hd | hi := Nat.lt_or_ge n 97
  · have hpos := Nat.two_pow_pos (zextraLen (zsym n))
    show n - 96 - _ < _
    omega
  · obtain ⟨hlo, hhi⟩ := log2_run_bounds hi
    rw [Nat.pow_succ] at hhi
    rw [zextraVal_indirect hi, zextraLen_zsym_indirect hi]
    omega

/-- The bits of a piece deliver its symbol. -/
theorem Piece.delivery {x : BitVec 16} {m' : Word} {rs' : List Word} (h : Piece v m rs x bits m' rs')
    (hx : x.toNat < v.ns.toNat) (n : Word) : Delivery (v.owing m n) x.toNat m' bits := by
  cases h with
  | covered hm => exact .owed (v := v.owing m n) hm
  | literal h0 hl => exact .literal (v := v.owing 0 n) rfl hx hl
  | @run r rs hr hl =>
    have hrun := zrunOf_zsym hr
    have hdelivery := Delivery.run (v := v.owing 0 n) rfl hl (zextraVal_lt r.toNat)
      (by rw [hrun]; exact toNat_le_maxWord r)
    rw [hrun, ofNat_eq_of_toNat (toNat_sub_one (by omega : r.toNat = (r.toNat - 1) + 1))] at hdelivery
    exact hdelivery

/-- One `READ` of a decoder. -/
theorem HasSlot.read {d : State} {n owed : Word} {val : Nat} {rest : List Bool} (h : HasSlot cls ctx d (v.owing m n))
    (hphase : v.phase = .decode) (hcode : CodeOk v) (hd : Delivery (v.owing m n) val owed bits)
    (hbr : d.br = bits ++ rest) :
    ∃ t, exec (.read false cls ctx 0) d = .next t ∧ t.rsp = some (respOk (BitVec.ofNat 32 val)) ∧ t.br = rest ∧
      HasSlot cls ctx t (v.owing owed (sat32 (n.toNat + 1))) :=
  ⟨_, read_of_delivery h.err (h.slotSel 0) h.slot hphase (hcode.of_eq rfl rfl rfl) hd hbr, rfl, rfl,
    ⟨h.err, h.class_le, h.ctx_lt, slot_setSlot_same ..⟩⟩

/-- `READ`s get back the symbols that the bits in front of the stream spell. -/
theorem Spelled.read (h : Spelled v m rs q bits) (hphase : v.phase = .decode) (hcode : CodeOk v)
    (hq : ∀ x ∈ q, x.toNat < v.ns.toNat) {d : State} {n : Word} {rest : List Bool}
    (hd : HasSlot cls ctx d (v.owing m n)) (hcount : n.toNat + q.length ≤ maxWord) (hbr : d.br = bits ++ rest) :
    ∃ t n', execAll (q.map fun _ => .read false cls ctx 0) d = some (t, q.map fun x => respOk (x.setWidth 32)) ∧
      HasSlot cls ctx t (v.owing 0 n') ∧ n'.toNat = n.toNat + q.length ∧ t.br = rest := by
  induction h generalizing d n with
  | nil => exact ⟨d, n, rfl, hd, rfl, hbr⟩
  | @cons m m' rs rs' x q pre bits hpiece _ ih =>
    obtain ⟨hx, hq⟩ := List.forall_mem_cons.mp hq
    rw [List.length_cons] at hcount
    rw [List.append_assoc] at hbr
    obtain ⟨u, hexec, hrsp, hbr', hu⟩ := hd.read hphase hcode (hpiece.delivery hx n) hbr
    have hnwr : (sat32 (n.toNat + 1)).toNat = n.toNat + 1 := by
      rw [toNat_sat32]
      omega
    obtain ⟨t, n', hrest, ht, hn, hbr''⟩ := ih hq hu (by omega) hbr'
    refine ⟨t, n', ?_, ht, by rw [hn, hnwr, List.length_cons]; omega, hbr''⟩
    rw [List.map_cons, execAll_cons_next hexec, hrest, hrsp, BitVec.ofNat_toNat]
    rfl

end

/-! ### The two passes and the table -/

/-- A slot in COUNT fed the symbols, finalised, its table and the symbols written. -/
theorem Counting.turns_all {cls ctx : Byte} {v : Slot} {q : List (BitVec 16)} (h : Counting v q)
    (hz : v.zrun = 0) (hr : v.runList = []) :
    ∃ w bits rs, Spelled (v.counted q).finished 0 rs q bits ∧
      Turns cls ctx (q.map (fun x => .add false cls ctx 0 x) ++ ([.final cls ctx, .wrtbl cls ctx] ++
        q.map (fun x => .write false cls ctx 0 x))) v w (raw5Enc (v.counted q).finished.lengths ++ bits) := by
  obtain ⟨rs, bits, hlist, hspelled, -⟩ := h.spelled rfl
  rw [hz] at hspelled
  rw [hr, List.nil_append] at hlist
  have hcounted := h.counted
  have hns := (v.counted q).finished_ns.trans h.counted_ns
  have hfinal := turns_final (cls := cls) (ctx := ctx) (slotFinal_of_room (P := params) hcounted.phase hcounted.has_room)
  have hcap : (v.counted q).finished.runList.length ≤ maxWord := by
    have hroom := hcounted.room
    rw [Slot.finished_fields]
    show _ ≤ 4294967295
    dsimp only
    split
    · rw [List.length_append, List.length_singleton]; omega
    · omega
  obtain ⟨w, hwrite⟩ := hspelled.write (cls := cls) (ctx := ctx) rfl (fun x hx => by rw [hns]; exact h.literals x hx)
    hcap 0 0 hlist
  exact ⟨w, bits, rs, hspelled, h.turns.append ((hfinal.append (turns_wrtbl rfl)).append hwrite)⟩

/-- The table of a slot's lengths holds every length. -/
theorem CodeOk.ofList_lengths {v : Slot} (h : CodeOk v) : Sparse.ofList 0 0 v.lengths = v.len := by
  refine Sparse.ext_of_wf (Sparse.wf_ofList 0 _) h.wf fun i => ?_
  have hget := Sparse.get_ofList 0 0 v.lengths i
  rw [Nat.zero_add] at hget
  rw [hget]
  obtain hlt | hge := Nat.lt_or_ge i v.alpha
  · rw [List.getD_eq_getElem _ _ (by rwa [Slot.lengths, Sparse.length_toList])]
    simp [Slot.lengths, Sparse.toList]
  · rw [List.getD_eq_default _ _ (by rwa [Slot.lengths, Sparse.length_toList])]
    exact (by_contra fun hne => Nat.not_lt.mpr hge (h.below _ (mem_of_lenAt (Ne.symm hne))))

/-- `ECLR` of a slot the commands may name. -/
theorem execAll_eclr {s : State} {cls ctx : Byte} (hs : s.err = false) (hc : cls.toNat ≤ 5)
    (hk : ctx.toNat < s.cfg.nctx cls.toNat) (hk32 : ctx.toNat < 32) :
    ∃ t r, execAll [.eclr false cls ctx] s = some (t, r) ∧
      HasSlot cls ctx t (Slot.cleared (s.cfg.literals cls.toNat)) ∧ t.bw = s.bw := by
  have hbody : bodyOf (.eclr false cls ctx) s = .ok (clearSlot s cls.toNat ctx.toNat, 0) := by
    show (check (5 < cls.toNat ∨ 31 < ctx.toNat) .policy >>= _) = _
    rw [check_false _ (by omega)]
    rfl
  exact ⟨_, _, execAll_cons_next (exec_of_body (by simp) hs hbody), ⟨hs, hc, hk, slot_setSlot_same ..⟩, rfl⟩

/-- The table of a slot with a canonical code makes a decoder with that code. -/
theorem CodeOk.rdtbl {f : Slot} (h : CodeOk f) {cls ctx : Byte} {d : State} {rest : List Bool} (hd : d.err = false)
    (hc : cls.toNat ≤ 5) (hk : ctx.toNat < d.cfg.nctx cls.toNat) (hns : f.ns = d.cfg.literals cls.toNat)
    (hbr : d.br = raw5Enc f.lengths ++ rest) :
    ∃ t, exec (.rdtbl cls ctx) d = .next t ∧
      HasSlot cls ctx t ((d.slot cls.toNat ctx.toNat).decoder (d.cfg.literals cls.toNat) f.len) ∧ t.br = rest := by
  have htable : f.lengths.length = (d.cfg.literals cls.toNat).toNat + 128 := by
    rw [Slot.lengths, Sparse.length_toList, ← hns]; rfl
  have hexec := rdtbl_of_table hd (slotSel_explicit params 0 hc hk) htable h.valid hbr
  rw [h.ofList_lengths] at hexec
  exact ⟨_, hexec, ⟨hd, hc, hk, slot_setSlot_same ..⟩, rfl⟩

/-- A decoder of the same class reads the table and the symbols back. -/
theorem CodeOk.decodes_all {f : Slot} (h : CodeOk f) {cls ctx : Byte} {d : State} {q : List (BitVec 16)}
    {rs : List Word} {bits rest : List Bool} (hd : d.err = false) (hc : cls.toNat ≤ 5)
    (hk : ctx.toNat < d.cfg.nctx cls.toNat) (hns : f.ns = d.cfg.literals cls.toNat)
    (hq : ∀ x ∈ q, x.toNat < f.ns.toNat) (hlen : q.length ≤ maxWord) (hspelled : Spelled f 0 rs q bits)
    (hbr : d.br = raw5Enc f.lengths ++ (bits ++ rest)) :
    ∃ t r0, execAll (.rdtbl cls ctx :: q.map (fun _ => .read false cls ctx 0)) d =
        some (t, r0 :: q.map (fun x => respOk (x.setWidth 32))) ∧
      t.err = false ∧ t.br = rest ∧ (t.slot cls.toNat ctx.toNat).zrun = 0 ∧
      (t.slot cls.toNat ctx.toNat).nwr.toNat = q.length := by
  obtain ⟨v, hv⟩ : ∃ v, v = (d.slot cls.toNat ctx.toNat).decoder (d.cfg.literals cls.toNat) f.len := ⟨_, rfl⟩
  have hvns : v.ns = f.ns := by rw [hv, hns]; rfl
  have hvlen : v.len = f.len := by rw [hv]; rfl
  have hvcode : v.code = f.code := by rw [hv, h.code]; rfl
  obtain ⟨u, hexec, hu, hubr⟩ := h.rdtbl hd hc hk hns hbr
  have hslot : HasSlot cls ctx u (v.owing 0 0) := by rw [hv]; exact hu
  obtain ⟨t, n, hread, ht, hn, hrest⟩ := (hspelled.of_code_eq hvns hvlen hvcode).read (by rw [hv]; rfl)
    (h.of_eq hvns hvlen hvcode) (by rwa [hvns]) hslot (by simpa using hlen) hubr
  refine ⟨t, _, by rw [execAll_cons_next hexec, hread]; rfl, ht.err, hrest, ?_, ?_⟩
  · rw [ht.slot]; rfl
  · rw [ht.slot]; exact hn.trans (Nat.zero_add _)

end Sys2Proof.Machine
end

section
/-! PROOFS. The statement about the coder's round trip. -/

open Sys2Proof Sys2Proof.Machine Sys2Proof.Config

/-- Settles O31: what the count pass leaves spells the sequence, and so is what is written and read back. -/
theorem coderRoundTrip : Obligations.CoderRoundTrip := by
  intro cls ctx q s d rest hs hlegal hcls hctx hq hlen hd hdctx hns
  have hcounting := counting_cleared hq hlen
  have hctx32 := hctx.trans_le (nctx_le_of_legal hlegal cls.toNat)
  obtain ⟨w, bits, rs, hspelled, hturns⟩ := hcounting.turns_all (cls := cls) (ctx := ctx) rfl rfl
  have hcode := codeOk_finished hcounting.counted.shape.hist
  have hfns := (Slot.finished_ns _).trans hcounting.counted_ns
  obtain ⟨s', r', hexec', hs', hbw'⟩ := execAll_eclr hs hcls hctx hctx32
  obtain ⟨e, r, hexec, he, hbw⟩ := hturns s' hs'
  refine ⟨e, r' ++ r, _, ?_, he.err, hbw.trans (by rw [hbw']), fun hbr => ?_⟩
  · rw [List.append_assoc, List.append_assoc]
    exact execAll_append hexec' hexec
  · rw [List.append_assoc] at hbr
    exact hcode.decodes_all hd hcls hdctx (hfns.trans hns.symm) (by rwa [hfns]) (hlen.trans (by decide)) hspelled hbr

end
